-- ==== Sys2Proof/Word.lean ====
section
/-! DEFINITION. The word types of the DN-256: scalar registers and memory atomics are 64 bits, instruction words 32 bits (R6). -/

namespace Sys2Proof

/-- A scalar register's contents, or the word of a memory atomic (R6, R162). -/
abbrev Word := BitVec 64

/-- An instruction word, or a 32-bit register (R6, R134). -/
abbrev Half := BitVec 32

/-- One byte of memory. -/
abbrev Byte := BitVec 8

/-- The number of a scalar register a0 to a31 (R138). -/
abbrev Reg := BitVec 5

/-- The number of a predicate p0 to p7 (R138). -/
abbrev Pred := BitVec 3

/-- The number of a vector register v0 to v63 (R145). -/
abbrev VNum := BitVec 6

/-- The number of a mask k0 to k7 (R145). -/
abbrev KNum := BitVec 3

/-- An ordering class (R118). -/
abbrev OClass := BitVec 4

end Sys2Proof
end

