-- ==== Sys2Proof/Syntax.lean ====
section
/-! DEFINITION. The instructions, engine words and events of the DN-256: one constructor of Instr per row of spec/opcode_table.json.
A row with an encoding carries the operand fields of its word (R137, R145, R148); a row without one is an event of the device
(spec/95_what_each_step_holds.md) and carries what the event names. -/

namespace Sys2Proof

/-- The three engines that run queue entries, with the codes of R138: VE 0, ME 1, TU 2. -/
inductive Eng where
  | ve | me | tu
  deriving DecidableEq, Repr

/-- The four engines of a core (R18); the code of R455 is VE 0, ME 1, TU 2, SQ 3. -/
inductive Unit4 where
  | ve | me | tu | sq
  deriving DecidableEq, Repr

/-- Rounding modes, codes 0 to 4 (R83). -/
inductive RMode where
  | rne | rtz | rdn | rup | sr
  deriving DecidableEq, Repr

/-- Format tags, codes 0x0 to 0xF in this order (R74). -/
inductive Fmt where
  | empty | fp32 | bf16 | fp16 | e4m3 | e5m2 | e3m2 | e2m3 | e2m1 | i8 | i4 | i16 | i32 | n8 | n16 | n32
  deriving DecidableEq, Repr

/-- Scopes, codes 0 to 3 (R116, R139). -/
inductive Scope where
  | core | die | device | system
  deriving DecidableEq, Repr

/-- Access widths of LDA and STL, codes 0 to 3 (R141). -/
inductive Width where
  | b8 | b16 | b32 | b64
  deriving DecidableEq, Repr

/-- SAT and the rounding code of a VE word (R146). -/
structure Rnd where
  sat : Bool
  rm : RMode
  deriving DecidableEq, Repr

/-- The condition of VCMP, codes 0 to 7 (R214). -/
inductive VCond where
  | eq | ne | lt | le | gt | ge | un | ord
  deriving DecidableEq, Repr

/-- The operation of VMSK, codes 0 to 6 (R216). -/
inductive MskOp where
  | and | or | xor | andn | not | first | len
  deriving DecidableEq, Repr

/-- The operation of VRED, codes 0 to 3 (R222). -/
inductive RedOp where
  | sum | min | max | amax
  deriving DecidableEq, Repr

/-- The operations a chain word may name (R234). -/
inductive ChainOp where
  | vadd | vsub | vmul | vfma | vfms | vnfma | vmin | vmax | vabs | vneg
  | vand | vor | vxor | vnot | vshl | vshr | vsra
  | vsel | vcls | vcvt | vmov
  | vexp2 | vlog2 | vrcp | vrsq | vsqrt | vdiv | vtanh | vsig | vscl | vqnt | verrf
  deriving DecidableEq, Repr

/-- A VR word inside a chain; its mod is zero, and the header gives rounding and SAT (R147). -/
structure ChainWord where
  op : ChainOp
  vd : VNum
  va : VNum
  vb : VNum
  k : KNum
  deriving DecidableEq, Repr

/-- The control registers of R165. -/
inductive CReg where
  | cyc | ctxid | prio | sst | tvec | epc | trapc | trapv | tscr | ocls
  | vshp | vwb | rstrm | accpart | mscnt | mvar | tags | osc | detm | phase | slfw
  deriving DecidableEq, Repr

/-- The mode of the matrix array, codes 0 to 2 (R239). -/
inductive MMode where
  | full | half | quarter
  deriving DecidableEq, Repr

/-- The operations of the window ports: the atomics of R299 and R302, by their code in R142, and the word waits and locks. -/
inductive AOp where
  | add | addf | xchg | cas | max | min | maxf | clrmax | incb | incw | decz | addl | xadd
  deriving DecidableEq, Repr

/-- The four conditions of WAITW (R303). -/
inductive WCond where
  | eq | ne | ge | lt
  deriving DecidableEq, Repr

/-- A request that reaches a window port from another core, die or device (R286, R487). -/
structure PortReq where
  /-- The byte of the core's accumulator SRAM that the request names. -/
  off : Nat
  /-- The operation; none is a plain 8-byte overwrite. -/
  op : Option AOp
  x : Word
  cmp : Word
  /-- Region and phase of an atomic that comes from a deterministic region (R68). -/
  det : Option (Nat × Half)
  returning : Bool
  deriving DecidableEq, Repr

/-- Where an ECC error lies (R282, R291, R309). -/
inductive EccSite where
  | scratch (core slot unit : Nat)
  | accum (core unit : Nat)
  | vreg (core reg : Nat)
  | imem (core part handle : Nat)
  | device (unit : Nat)
  deriving DecidableEq, Repr

/-- One direction's receiving side of a UCIe module: the die, its peer and the module (R446). -/
structure UcieSide where
  die : Nat
  peer : Nat
  mod : Nat
  deriving DecidableEq, Repr

/-- A member of a task: its task ID and its role (R44, R46). -/
structure Member where
  tid : Word
  role : Nat
  deriving DecidableEq, Repr

/-- A packet: its 16-byte header and its data (R486). -/
structure Packet where
  hdr : BitVec 128
  data : List Byte
  deriving DecidableEq, Repr

/-- The request that a tier failure ends (R316). -/
inductive TierReq where
  | command (core cmd : Nat)
  | stream (part : Nat) (tid : Word) (role ring : Nat)
  | move (part page : Nat)
  deriving DecidableEq, Repr

/-- What an outstanding operation of a context is counted as (R430). -/
inductive OscKind where
  | load | store | tile
  deriving DecidableEq, Repr

/-- What the host link carries (R475). -/
inductive HostLink where
  | none | pcie | cxl
  deriving DecidableEq, Repr

/-- A resource that trains on its own (R493). -/
inductive Resource where
  | ucie (side : UcieSide)
  | hbm (stack : Nat)
  | tunar (port : Nat)
  deriving DecidableEq, Repr

/-- A register that a master or a host function writes, with no row of its own in the opcode table (R3, R370, R478, R490, R492). -/
inductive RegAddr where
  /-- A register of the management space, by its byte offset (R492). -/
  | mgmt (off : Nat)
  /-- A register of the boot mailbox of a core, by its byte offset, through the function of a partition (R370, R476). -/
  | mailbox (part core off : Nat)
  /-- HWBASE (0) and HWSIZE (1) of a partition's function (R478). -/
  | hostWindow (part which : Nat)
  /-- A word of a function's MSI-X table (R476). -/
  | msix (pf off : Nat)
  deriving DecidableEq, Repr

/-- One constructor per row of spec/opcode_table.json, in the table's order. -/
inductive Instr where
  -- major 0x01 (R176 to R178)
  | add (d a b : Reg) (g : Pred)
  | sub (d a b : Reg) (g : Pred)
  | mul (d a b : Reg) (g : Pred)
  | mulh (d a b : Reg) (g : Pred)
  | mulhn (d a b : Reg) (g : Pred)
  | div (d a b : Reg) (g : Pred)
  | divn (d a b : Reg) (g : Pred)
  | rem (d a b : Reg) (g : Pred)
  | remn (d a b : Reg) (g : Pred)
  | and (d a b : Reg) (g : Pred)
  | or (d a b : Reg) (g : Pred)
  | xor (d a b : Reg) (g : Pred)
  | shl (d a b : Reg) (g : Pred)
  | shr (d a b : Reg) (g : Pred)
  | sra (d a b : Reg) (g : Pred)
  | clz (d a : Reg) (g : Pred)
  | ctz (d a : Reg) (g : Pred)
  | popc (d a : Reg) (g : Pred)
  | min (d a b : Reg) (g : Pred)
  | max (d a b : Reg) (g : Pred)
  | minn (d a b : Reg) (g : Pred)
  | maxn (d a b : Reg) (g : Pred)
  | sext8 (d a : Reg) (g : Pred)
  | sext16 (d a : Reg) (g : Pred)
  | sext32 (d a : Reg) (g : Pred)
  | zext8 (d a : Reg) (g : Pred)
  | zext16 (d a : Reg) (g : Pred)
  | zext32 (d a : Reg) (g : Pred)
  | lea (d a b : Reg) (sh : BitVec 3) (g : Pred)
  | sel (d : Reg) (p : Pred) (a b : Reg) (g : Pred)
  -- majors 0x02, 0x03 (R181, R182)
  | cmpeq (pd : Pred) (a b : Reg) (g : Pred)
  | cmpne (pd : Pred) (a b : Reg) (g : Pred)
  | cmplt (pd : Pred) (a b : Reg) (g : Pred)
  | cmple (pd : Pred) (a b : Reg) (g : Pred)
  | cmpltn (pd : Pred) (a b : Reg) (g : Pred)
  | cmplen (pd : Pred) (a b : Reg) (g : Pred)
  | pand (pd pa pb : Pred) (g : Pred)
  | por (pd pa pb : Pred) (g : Pred)
  | pxor (pd pa pb : Pred) (g : Pred)
  | pnot (pd pa : Pred) (g : Pred)
  -- immediates (R178 to R181)
  | addi (d a : Reg) (imm : BitVec 13) (g : Pred)
  | andi (d a : Reg) (imm : BitVec 13) (g : Pred)
  | ori (d a : Reg) (imm : BitVec 13) (g : Pred)
  | xori (d a : Reg) (imm : BitVec 13) (g : Pred)
  | shli (d a : Reg) (n : BitVec 6) (g : Pred)
  | shri (d a : Reg) (n : BitVec 6) (g : Pred)
  | srai (d a : Reg) (n : BitVec 6) (g : Pred)
  | cmpeqi (pd : Pred) (a : Reg) (imm : BitVec 13) (g : Pred)
  | cmplti (pd : Pred) (a : Reg) (imm : BitVec 13) (g : Pred)
  | loop (d : Reg) (imm : BitVec 13) (g : Pred)
  | movi (d : Reg) (imm : BitVec 18) (g : Pred)
  | sethi (d : Reg) (imm : BitVec 18) (g : Pred)
  -- control transfer and registers (R183 to R190)
  | br (p : Pred) (neg : Bool) (off : BitVec 22)
  | call (p : Pred) (neg : Bool) (off : BitVec 22)
  | jmp (a : Reg) (g : Pred)
  | ret (g : Pred)
  | fence (mask : BitVec 16) (scope : Scope) (g : Pred)
  | rdc (d : Reg) (c : CReg) (g : Pred)
  | wrc (c : CReg) (a : Reg) (g : Pred)
  -- scalar loads and stores (R292, R293)
  | ldI8 (d a : Reg) (oc : OClass) (off : BitVec 9) (g : Pred)
  | ldN8 (d a : Reg) (oc : OClass) (off : BitVec 9) (g : Pred)
  | ldI16 (d a : Reg) (oc : OClass) (off : BitVec 9) (g : Pred)
  | ldN16 (d a : Reg) (oc : OClass) (off : BitVec 9) (g : Pred)
  | ldI32 (d a : Reg) (oc : OClass) (off : BitVec 9) (g : Pred)
  | ldN32 (d a : Reg) (oc : OClass) (off : BitVec 9) (g : Pred)
  | ld64 (d a : Reg) (oc : OClass) (off : BitVec 9) (g : Pred)
  | st8 (d a : Reg) (oc : OClass) (off : BitVec 9) (g : Pred)
  | st16 (d a : Reg) (oc : OClass) (off : BitVec 9) (g : Pred)
  | st32 (d a : Reg) (oc : OClass) (off : BitVec 9) (g : Pred)
  | st64 (d a : Reg) (oc : OClass) (off : BitVec 9) (g : Pred)
  | lda (d a : Reg) (oc : OClass) (scope : Scope) (w : Width) (g : Pred)
  | stl (d a : Reg) (oc : OClass) (scope : Scope) (w : Width) (g : Pred)
  -- atomics (R298 to R302)
  | aadd (d a b : Reg) (oc : OClass) (g : Pred)
  | aaddf (d a b : Reg) (oc : OClass) (g : Pred)
  | axchg (d a b : Reg) (oc : OClass) (g : Pred)
  | acas (d a b : Reg) (oc : OClass) (g : Pred)
  | amax (d a b : Reg) (oc : OClass) (g : Pred)
  | amin (d a b : Reg) (oc : OClass) (g : Pred)
  | amaxf (d a b : Reg) (oc : OClass) (g : Pred)
  | aclrmax (d a : Reg) (oc : OClass) (g : Pred)
  | aincb (d a b : Reg) (oc : OClass) (g : Pred)
  | aincw (d a b : Reg) (oc : OClass) (g : Pred)
  | adecz (d a : Reg) (oc : OClass) (g : Pred)
  | aaddl (d a b : Reg) (oc : OClass) (g : Pred)
  | axrd (d a : Reg) (oc : OClass) (g : Pred)
  | aaddN (a b : Reg) (oc : OClass) (g : Pred)
  | aaddfN (a b : Reg) (oc : OClass) (g : Pred)
  | axchgN (a b : Reg) (oc : OClass) (g : Pred)
  | acasN (d a b : Reg) (oc : OClass) (g : Pred)
  | amaxN (a b : Reg) (oc : OClass) (g : Pred)
  | aminN (a b : Reg) (oc : OClass) (g : Pred)
  | amaxfN (a b : Reg) (oc : OClass) (g : Pred)
  | aclrmaxN (a : Reg) (oc : OClass) (g : Pred)
  | aincbN (a b : Reg) (oc : OClass) (g : Pred)
  | aincwN (a b : Reg) (oc : OClass) (g : Pred)
  | adeczN (a : Reg) (oc : OClass) (g : Pred)
  | aaddlN (a b : Reg) (oc : OClass) (g : Pred)
  | axadd (a b : Reg) (oc : OClass) (g : Pred)
  -- word waits and locks (R303, R305)
  | waitwEq (d a b : Reg) (oc : OClass) (g : Pred)
  | waitwNe (d a b : Reg) (oc : OClass) (g : Pred)
  | waitwGe (d a b : Reg) (oc : OClass) (g : Pred)
  | waitwLt (d a b : Reg) (oc : OClass) (g : Pred)
  | alock (a : Reg) (oc : OClass) (g : Pred)
  | aunlk (a : Reg) (oc : OClass) (g : Pred)
  -- entries and the matrix engine's registers (R348, R249, R250, R437)
  | enq (e : Eng) (a b : Reg) (g : Pred)
  | enqw (e : Eng) (a b : Reg) (g : Pred)
  | mcw (n : BitVec 11) (a : Reg) (g : Pred)
  | mcrd (a : Reg) (n : BitVec 11) (g : Pred)
  | rdseq (a : Reg) (e : Eng) (g : Pred)
  -- tasks (R362 to R369)
  | spawn (d a b : Reg) (g : Pred)
  | popt (d : Reg) (g : Pred)
  | join (a : Reg) (g : Pred)
  | qput (d a : Reg) (g : Pred)
  | qget (d a b : Reg) (g : Pred)
  | rclm (d a : Reg) (g : Pred)
  | evreg (d a b : Reg) (g : Pred)
  -- rings (R356 to R359)
  | rpush (d a : Reg) (r : BitVec 3) (g : Pred)
  | rpop (d a : Reg) (r : BitVec 3) (g : Pred)
  | wfill (d a : Reg) (r : BitVec 3) (g : Pred)
  | wfree (d a : Reg) (r : BitVec 3) (g : Pred)
  | subscr (d a : Reg) (r : BitVec 3) (g : Pred)
  -- naming tables (R376 to R402)
  | otw (d a b : Reg) (g : Pred)
  | gbind (d a b : Reg) (g : Pred)
  | ptinv (a b : Reg) (g : Pred)
  | rlaunchStart (d a b : Reg) (g : Pred)
  | rlaunchUpdate (d a b : Reg) (g : Pred)
  | rlaunchStop (d a b : Reg) (g : Pred)
  | routw (d a b : Reg) (g : Pred)
  -- lineage (R421 to R427)
  | publ (d a b : Reg) (g : Pred)
  | tvq (d a b : Reg) (g : Pred)
  | retain (d a b : Reg) (g : Pred)
  | repl (d a b : Reg) (g : Pred)
  | rcvrVer (d a b : Reg) (g : Pred)
  | rcvrHand (d b : Reg) (g : Pred)
  | trimSync (d a b : Reg) (g : Pred)
  | trimForce (d a b : Reg) (g : Pred)
  -- counters (R432, R435, R449, R450)
  | twaitAny (d a : Reg) (g : Pred)
  | twaitAll (d a : Reg) (g : Pred)
  | tffr (d a : Reg) (g : Pred)
  | tclr (d a : Reg) (g : Pred)
  | cntrd (d a : Reg) (g : Pred)
  | cntset (d a b : Reg) (g : Pred)
  | waitc (tl : BitVec 5) (ld st cp : BitVec 6) (g : Pred)
  -- context images (R467 to R471)
  | ctxs (d a b : Reg) (g : Pred)
  | ctxr (d a : Reg) (g : Pred)
  | poisq (d a : Reg) (g : Pred)
  -- system (R191 to R197, R448)
  | nop (g : Pred)
  | halt (g : Pred)
  | yield (g : Pred)
  | bkpt (code : BitVec 13) (g : Pred)
  | trap (n : BitVec 13) (g : Pred)
  | eret (g : Pred)
  | phase (g : Pred)
  -- the prefix of an engine word (R150): three tokens of engine and sequence number, none for an empty slot
  | dep (t0 t1 t2 : Option (Eng × BitVec 8))
  -- VE words (R211 to R235, R295, R297)
  | vadd (m : Rnd) (vd va vb : VNum) (k : KNum)
  | vsub (m : Rnd) (vd va vb : VNum) (k : KNum)
  | vmul (m : Rnd) (vd va vb : VNum) (k : KNum)
  | vfma (m : Rnd) (vd va vb : VNum) (k : KNum)
  | vfms (m : Rnd) (vd va vb : VNum) (k : KNum)
  | vnfma (m : Rnd) (vd va vb : VNum) (k : KNum)
  | vmin (m : Rnd) (vd va vb : VNum) (k : KNum)
  | vmax (m : Rnd) (vd va vb : VNum) (k : KNum)
  | vabs (m : Rnd) (vd va : VNum) (k : KNum)
  | vneg (m : Rnd) (vd va : VNum) (k : KNum)
  | vand (vd va vb : VNum) (k : KNum)
  | vor (vd va vb : VNum) (k : KNum)
  | vxor (vd va vb : VNum) (k : KNum)
  | vnot (vd va : VNum) (k : KNum)
  | vshl (vd va vb : VNum) (k : KNum)
  | vshr (vd va vb : VNum) (k : KNum)
  | vsra (vd va vb : VNum) (k : KNum)
  | vshlImm (vd va : VNum) (n : BitVec 9)
  | vshrImm (vd va : VNum) (n : BitVec 9)
  | vsraImm (vd va : VNum) (n : BitVec 9)
  | vcmp (c : VCond) (kd : KNum) (va vb : VNum) (k : KNum)
  | vsel (vd va vb : VNum) (k : KNum)
  | vmsk (op : MskOp) (kd ka kb : KNum)
  | vcls (kd : KNum) (va : VNum) (set : BitVec 6) (k : KNum)
  | viota (vd : VNum) (f : Fmt) (k : KNum)
  | vcvt (m : Rnd) (vd va : VNum) (f : Fmt) (k : KNum)
  | vcvtw (m : Rnd) (vd va : VNum) (f : Fmt) (k : KNum)
  | vcvtn (m : Rnd) (vd va : VNum) (f : Fmt) (k : KNum)
  | vpack (m : Rnd) (vd va : VNum) (w : BitVec 3)
  | vunpk (m : Rnd) (vd va : VNum) (w : BitVec 3)
  | vred (m : Rnd) (op : RedOp) (vd va : VNum) (k : KNum)
  | vamax (m : Rnd) (vd va vb : VNum) (k : KNum)
  | vdot (m : Rnd) (vd va vb : VNum) (k : KNum)
  | vsplat (vd va : VNum) (i : BitVec 9)
  | vsplatImm (vd : VNum) (v : BitVec 9)
  | vsplatReg (vd : VNum) (a : Reg)
  | vmov (vd va : VNum) (k : KNum)
  | vperm (vd va vb : VNum) (k : KNum)
  | vslide (vd va : VNum) (sh : BitVec 9)
  | vslideRot (vd va : VNum) (sh : BitVec 9)
  | vexp2 (m : Rnd) (vd va : VNum) (k : KNum)
  | vlog2 (m : Rnd) (vd va : VNum) (k : KNum)
  | vrcp (m : Rnd) (vd va : VNum) (k : KNum)
  | vrsq (m : Rnd) (vd va : VNum) (k : KNum)
  | vsqrt (m : Rnd) (vd va : VNum) (k : KNum)
  | vdiv (m : Rnd) (vd va vb : VNum) (k : KNum)
  | vtanh (m : Rnd) (vd va : VNum) (k : KNum)
  | vsig (m : Rnd) (vd va : VNum) (k : KNum)
  | vscl (m : Rnd) (vd va vb : VNum) (k : KNum)
  | vqnt (m : Rnd) (vd va vb : VNum) (k : KNum)
  | verrf (m : Rnd) (vd va vb : VNum) (k : KNum)
  | vshp (a : Reg)
  | vtag (vd va : VNum) (f : Fmt)
  | vld (vd : VNum) (a : Reg) (off : BitVec 10) (oc : OClass)
  | vst (vd : VNum) (a : Reg) (off : BitVec 10) (oc : OClass)
  | vldx (vd vi : VNum) (a : Reg) (k : KNum) (oc : OClass)
  | vstx (vd vi : VNum) (a : Reg) (k : KNum) (oc : OClass)
  /-- A chain: its rounding, its object operand and its 1 to 8 words; none stands for a word that is not chain-eligible (R147). -/
  | vchain (m : Rnd) (obj : BitVec 16) (ws : List (Option ChainWord))
  -- ME words (R253 to R274)
  | mldw (sub : BitVec 2) (tag : Fmt) (a : Reg)
  | mldwt (sub : BitVec 2) (tag : Fmt) (a : Reg)
  | mgo (t : BitVec 4) (sub : BitVec 2)
  | mgob (t : BitVec 4) (sub : BitVec 2)
  | mgath (a b : Reg) (size : BitVec 2) (nm1 : BitVec 8)
  | msp (n : BitVec 4)
  | msamp (a b e0 e1 : Reg)
  | msgo (t : BitVec 4)
  | mnorm (side : Bool) (tag : Fmt) (a b : Reg)
  | malias (a b e0 : Reg)
  | mdrain (t : BitVec 4) (a b : Reg) (sn sat : Bool) (tag : Fmt)
  | mdraina (t : BitVec 4) (a b e0 : Reg) (clamp : Bool) (oc : OClass)
  | mdrainx (t : BitVec 4) (a b : Reg) (oc : OClass)
  | mrda (t : BitVec 4) (a b : Reg)
  | mzero (t : BitVec 4) (i32 : Bool)
  | mvar (a : Reg)
  | mstat (a : Reg)
  | mmode (m : MMode)
  -- TU words (R327 to R342)
  | cpy (tag : BitVec 6) (a b c : Reg) (tv : Bool) (oc : OClass)
  | cpys (tag : BitVec 6) (a b c e0 e1 e2 : Reg) (oc : OClass)
  | cpyd (tag : BitVec 6) (a b c e0 e1 : Reg) (oc : OClass)
  | cpyt (tag : BitVec 6) (a b c e0 e1 : Reg) (es : BitVec 2) (oc : OClass)
  | cpyp (tag : BitVec 6) (a b c e0 e1 e2 : Reg) (q : BitVec 15) (es : BitVec 2) (oc : OClass)
  | cpyh (tag : BitVec 6) (a b c : Reg) (ord : Bool) (oc : OClass)
  | chld (tag : BitVec 6) (a b c : Reg) (nm1 k : BitVec 3) (dl : BitVec 11) (oc : OClass)
  | pfch (tag : BitVec 6) (a b c : Reg) (oc : OClass)
  | pfchMap (tag : BitVec 6) (a b c : Reg) (oc : OClass)
  | evct (tag : BitVec 6) (a c : Reg) (oc : OClass)
  | evctUnmap (tag : BitVec 6) (a : Reg) (oc : OClass)
  | ctrb (tag : BitVec 6) (a b c : Reg) (oc : OClass)
  | ctrbXa (tag : BitVec 6) (a b c : Reg) (oc : OClass)
  | rdyw (tag : BitVec 6) (a c : Reg) (oc : OClass)
  -- events: the scheduler and the life of a task
  | dieQueuePop (core : Nat)
  | taskDispatch (core : Nat)
  | gangStart (part : Nat) (tid : Word)
  | overlayLoadComplete (core slot : Nat)
  | taskCommit (core slot : Nat)
  | taskAbort (core slot : Nat)
  | dmuRelease (part : Nat) (nv : Word)
  | replicationComplete (part : Nat) (nv : Word)
  | recoveryWalk (part : Nat) (nv : Word)
  | versionRestoreComplete (part : Nat) (nv : Word)
  | remoteReply (core slot : Nat) (value : Word) (refused : Bool)
  | stageBalancer (die : Nat)
  | agingTick (part : Nat) (tid : Word)
  | preemption (core : Nat)
  | shadowStoreDrain (core : Nat)
  | contextRestore (core : Nat)
  | phaseBegin (part region : Nat)
  | bootGo (part core : Nat)
  -- events: memories
  | scratchpadRegionFill (core slot line : Nat)
  | windowPortRequest (core : Nat) (r : PortReq)
  | movedReply (core slot : Nat)
  | windowPageMigration (part page toCore toSlice toQtr : Nat)
  | pageMove (part page toPhys : Nat) (lat : BitVec 3)
  | bounceSlotMove (die idx : Nat)
  | pagerResolve (call : Nat) (ok : Bool)
  | slateRefresh (die : Nat)
  | tierError (r : TierReq)
  -- events: transfers and streams
  | tuAccept (core : Nat)
  | tuCommandFinish (core cmd : Nat)
  | copyDeadline (core cmd : Nat)
  | chainStep (core cmd : Nat)
  | chainReply (core cmd : Nat)
  | streamInTile (part : Nat) (member : Member) (ring : Nat)
  | streamOutTile (part : Nat) (member : Member) (ring : Nat)
  -- events: engines
  | engineEntryStart (core : Nat) (e : Eng)
  | engineWordComplete (core : Nat) (e : Eng)
  | veRemoteResume (core : Nat) (data : List Byte)
  | meStepComplete (core job : Nat)
  | msgoBatchEnd (core : Nat)
  | engineErrorReport (core : Nat) (e : Eng)
  | engineFault (core : Nat) (e : Unit4)
  | eccCorrectable (w : EccSite)
  | eccUncorrectable (w : EccSite)
  -- events: resets and losses
  | powerOnReset
  | coreReset (core : Nat)
  | dieLoss (die : Nat)
  | handoverTimeout (core slot : Nat)
  | peerLoss (part dev : Nat)
  | heartbeatSend (die : Nat)
  -- events: links
  | ucieFlitReceive (side : UcieSide) (seq : BitVec 8) (crcOk : Bool) (p : Option Packet)
  | ucieRetrainComplete (side : UcieSide)
  | ucieFlitAck (side : UcieSide) (seq : BitVec 8)
  | tunarFlitReceive (port : Nat) (flit : BitVec 512)
  | tunarReplayRequest (port : Nat) (seq : BitVec 8)
  | tunarResetNotice (port : Nat)
  | tunarCreditReturn (port cls vc n : Nat)
  | tunarPortDown (port : Nat)
  | packetForward (p : Packet)
  | remoteRequest (p : Packet)
  -- events: monitors and power
  | monitorSample (die : Nat) (values : List Half)
  | powerLimitWindow (meanWatts : Nat)
  | moduleOvertemp
  -- events: the host port
  | linkTraining (l : HostLink)
  | hostLinkLoss
  | hostFunctionReset (pf : Nat)
  | hostCxlMemAccess (addr : Nat) (data : Option (List Byte))
  -- events: management
  | mownRead (master : Nat)
  | htgtWrite (master : Nat) (v : BitVec 4)
  | mclmClaim (master : Nat)
  | mclmRelease (master : Nat)
  | mclmAccept (master : Nat)
  | pctlCreate (master part : Nat)
  | pctlDestroy (master part : Nat)
  | pctlReset (master part : Nat)
  | pctlQuiesce (master part : Nat)
  | pctlOperationEnd (part : Nat)
  | svnrRaise (master : Nat)
  | fuseRaiseComplete
  | hdmEnable (master j : Nat) (w0 : Word)
  | hdmDisable (master j : Nat)
  | hdmSlicesEmptied (j : Nat)
  | nvmeSlotEnable (master j : Nat) (w : Word)
  | nvmeSlotDisable (master j : Nat)
  | nvmeCompletion (req : Nat) (ok : Bool)
  | nvmeTimeout (req : Nat)
  | bootRomStart (image : List Byte)
  | resourceTraining (r : Resource) (ok : Bool)
  | identityChallenge (challenge : Word)
  | registerWrite (master : Nat) (r : RegAddr) (v : Word)
  | accessCompletion (core slot : Nat) (k : OscKind) (id : Nat)
  | managementInterfaceReset
  | nvmeInitialisationEnd (j : Nat) (ok : Bool)
  | controllerFatalStatus (j : Nat)
  deriving DecidableEq, Repr

/-- The events among the rows of Instr, with the same arguments: what a turn of the device names and what waits to arrive. A type of its
own, because code that builds a value of Instr with so many constructors cannot be compiled. -/
inductive Event where
  -- events: the scheduler and the life of a task
  | dieQueuePop (core : Nat)
  | taskDispatch (core : Nat)
  | gangStart (part : Nat) (tid : Word)
  | overlayLoadComplete (core slot : Nat)
  | taskCommit (core slot : Nat)
  | taskAbort (core slot : Nat)
  | dmuRelease (part : Nat) (nv : Word)
  | replicationComplete (part : Nat) (nv : Word)
  | recoveryWalk (part : Nat) (nv : Word)
  | versionRestoreComplete (part : Nat) (nv : Word)
  | remoteReply (core slot : Nat) (value : Word) (refused : Bool)
  | stageBalancer (die : Nat)
  | agingTick (part : Nat) (tid : Word)
  | preemption (core : Nat)
  | shadowStoreDrain (core : Nat)
  | contextRestore (core : Nat)
  | phaseBegin (part region : Nat)
  | bootGo (part core : Nat)
  -- events: memories
  | scratchpadRegionFill (core slot line : Nat)
  | windowPortRequest (core : Nat) (r : PortReq)
  | movedReply (core slot : Nat)
  | windowPageMigration (part page toCore toSlice toQtr : Nat)
  | pageMove (part page toPhys : Nat) (lat : BitVec 3)
  | bounceSlotMove (die idx : Nat)
  | pagerResolve (call : Nat) (ok : Bool)
  | slateRefresh (die : Nat)
  | tierError (r : TierReq)
  -- events: transfers and streams
  | tuAccept (core : Nat)
  | tuCommandFinish (core cmd : Nat)
  | copyDeadline (core cmd : Nat)
  | chainStep (core cmd : Nat)
  | chainReply (core cmd : Nat)
  | streamInTile (part : Nat) (member : Member) (ring : Nat)
  | streamOutTile (part : Nat) (member : Member) (ring : Nat)
  -- events: engines
  | engineEntryStart (core : Nat) (e : Eng)
  | engineWordComplete (core : Nat) (e : Eng)
  | veRemoteResume (core : Nat) (data : List Byte)
  | meStepComplete (core job : Nat)
  | msgoBatchEnd (core : Nat)
  | engineErrorReport (core : Nat) (e : Eng)
  | engineFault (core : Nat) (e : Unit4)
  | eccCorrectable (w : EccSite)
  | eccUncorrectable (w : EccSite)
  -- events: resets and losses
  | powerOnReset
  | coreReset (core : Nat)
  | dieLoss (die : Nat)
  | handoverTimeout (core slot : Nat)
  | peerLoss (part dev : Nat)
  | heartbeatSend (die : Nat)
  -- events: links
  | ucieFlitReceive (side : UcieSide) (seq : BitVec 8) (crcOk : Bool) (p : Option Packet)
  | ucieRetrainComplete (side : UcieSide)
  | ucieFlitAck (side : UcieSide) (seq : BitVec 8)
  | tunarFlitReceive (port : Nat) (flit : BitVec 512)
  | tunarReplayRequest (port : Nat) (seq : BitVec 8)
  | tunarResetNotice (port : Nat)
  | tunarCreditReturn (port cls vc n : Nat)
  | tunarPortDown (port : Nat)
  | packetForward (p : Packet)
  | remoteRequest (p : Packet)
  -- events: monitors and power
  | monitorSample (die : Nat) (values : List Half)
  | powerLimitWindow (meanWatts : Nat)
  | moduleOvertemp
  -- events: the host port
  | linkTraining (l : HostLink)
  | hostLinkLoss
  | hostFunctionReset (pf : Nat)
  | hostCxlMemAccess (addr : Nat) (data : Option (List Byte))
  -- events: management
  | mownRead (master : Nat)
  | htgtWrite (master : Nat) (v : BitVec 4)
  | mclmClaim (master : Nat)
  | mclmRelease (master : Nat)
  | mclmAccept (master : Nat)
  | pctlCreate (master part : Nat)
  | pctlDestroy (master part : Nat)
  | pctlReset (master part : Nat)
  | pctlQuiesce (master part : Nat)
  | pctlOperationEnd (part : Nat)
  | svnrRaise (master : Nat)
  | fuseRaiseComplete
  | hdmEnable (master j : Nat) (w0 : Word)
  | hdmDisable (master j : Nat)
  | hdmSlicesEmptied (j : Nat)
  | nvmeSlotEnable (master j : Nat) (w : Word)
  | nvmeSlotDisable (master j : Nat)
  | nvmeCompletion (req : Nat) (ok : Bool)
  | nvmeTimeout (req : Nat)
  | bootRomStart (image : List Byte)
  | resourceTraining (r : Resource) (ok : Bool)
  | identityChallenge (challenge : Word)
  | registerWrite (master : Nat) (r : RegAddr) (v : Word)
  | accessCompletion (core slot : Nat) (k : OscKind) (id : Nat)
  | managementInterfaceReset
  | nvmeInitialisationEnd (j : Nat) (ok : Bool)
  | controllerFatalStatus (j : Nat)
  deriving DecidableEq, Repr

end Sys2Proof
end

