-- ==== Sys2Proof/WellFormed.lean ====
section
/-! DEFINITION. Which instructions have an encoding that the spec accepts (R154, R155), and which events name things that the device has. -/

namespace Sys2Proof

/-- A vector register that may begin a group: a multiple of 4 (R210). -/
def isGroupReg (v : VNum) : Bool := v.extractLsb' 0 2 == 0#2

/-- The integer formats that VIOTA may write (R218). -/
def isIotaFmt : Fmt → Bool
  | .i8 | .i16 | .i32 | .n8 | .n16 | .n32 => true
  | _ => false

/-- The fields of a chain word that its operation leaves unused are zero (R147, R217, R219, R231). -/
def ChainWord.wf (c : ChainWord) : Bool :=
  match c.op with
  | .vabs | .vneg | .vnot | .vmov | .vexp2 | .vlog2 | .vrcp | .vrsq | .vsqrt | .vtanh | .vsig => c.vb == 0#6
  | .vcls => c.vd.extractLsb' 3 3 == 0#3
  | .vcvt => c.vb.extractLsb' 4 2 == 0#2 && c.vb != 0#6
  | .verrf => c.vd.extractLsb' 0 1 == 0#1
  | _ => true

/-- The mask operands that an operation leaves unused are zero (R155, R216). -/
def MskOp.wf (op : MskOp) (ka kb : KNum) : Bool := match op with
  | .not | .first => kb == 0#3
  | .len => ka == 0#3 && kb == 0#3
  | _ => true

def isCore (c : Nat) : Bool := c < 256
def isSlot (k : Nat) : Bool := k < 16
def isDie (d : Nat) : Bool := d < 4
def isPart (p : Nat) : Bool := p < 8
def isPort (p : Nat) : Bool := p < 32
def isMaster (m : Nat) : Bool := 1 ≤ m && m ≤ 3
def UcieSide.wf (u : UcieSide) : Bool := isDie u.die && isDie u.peer && u.die != u.peer && u.mod < 4

/-- The instruction has an encoding that no check of R154 or R155 refuses; an event names cores, slots and so on in range. -/
def Instr.wf : Instr → Bool
  | .loop d _ _ => d != 0#5
  | .viota _ f _ => isIotaFmt f
  | .vmsk op _ ka kb => MskOp.wf op ka kb
  | .vcvt _ _ _ f _ => f != .empty
  | .vcvtw _ vd _ _ _ => isGroupReg vd
  | .vcvtn _ _ va _ _ => isGroupReg va
  | .vpack _ vd va w | .vunpk _ vd va w => isGroupReg vd && isGroupReg va && (w == 2#3 || w == 4#3)
  | .verrf _ vd _ _ _ => vd.extractLsb' 0 1 == 0#1
  | .vchain _ _ ws => 1 ≤ ws.length && ws.length ≤ 8 && ws.all fun | some c => c.wf | none => false
  | .mgath _ _ size _ => size != 3#2
  | .msp n => n == 0 || n == 2 || n == 4 || n == 6 || n == 8 || n == 12
  | .dieQueuePop c | .taskDispatch c | .preemption c | .shadowStoreDrain c | .contextRestore c | .tuAccept c
  | .msgoBatchEnd c | .coreReset c => isCore c
  | .overlayLoadComplete c k | .taskCommit c k | .taskAbort c k | .movedReply c k | .handoverTimeout c k => isCore c && isSlot k
  | .remoteReply c k _ _ => isCore c && isSlot k
  | .accessCompletion c k _ _ => isCore c && isSlot k
  | .streamInTile p _ r | .streamOutTile p _ r => isPart p && r < 8
  | .scratchpadRegionFill c k l => isCore c && isSlot k && l < 4096
  | .gangStart p _ | .dmuRelease p _ | .replicationComplete p _ | .recoveryWalk p _ | .versionRestoreComplete p _
  | .agingTick p _ | .pctlOperationEnd p => isPart p
  | .phaseBegin p r => isPart p && r < 4096
  | .bootGo p c => isPart p && isCore c
  | .stageBalancer d | .slateRefresh d | .bounceSlotMove d _ | .dieLoss d | .heartbeatSend d | .monitorSample d _ => isDie d
  | .windowPortRequest c _ => isCore c
  | .windowPageMigration p _ c sl q => isPart p && isCore c && sl < 16 && q < 4
  | .pageMove p _ _ _ => isPart p
  | .tuCommandFinish c _ | .copyDeadline c _ | .chainStep c _ | .chainReply c _ | .meStepComplete c _ => isCore c
  | .engineEntryStart c _ | .engineWordComplete c _ | .engineErrorReport c _ => isCore c
  | .engineFault c _ => isCore c
  | .veRemoteResume c _ => isCore c
  | .peerLoss p d => isPart p && d < 4096
  | .ucieFlitReceive u _ _ _ | .ucieRetrainComplete u | .ucieFlitAck u _ => u.wf
  | .tunarFlitReceive p _ | .tunarReplayRequest p _ | .tunarResetNotice p | .tunarPortDown p => isPort p
  | .tunarCreditReturn p c v n => isPort p && c < 2 && v < 5 && n < 32
  | .hostFunctionReset f => f < 9
  | .mownRead m | .htgtWrite m _ | .mclmClaim m | .mclmRelease m | .mclmAccept m | .svnrRaise m => isMaster m
  | .pctlCreate m p | .pctlDestroy m p | .pctlReset m p | .pctlQuiesce m p => isMaster m && isPart p
  | .hdmEnable m j _ | .nvmeSlotEnable m j _ => isMaster m && j < 8
  | .hdmDisable m j | .nvmeSlotDisable m j => isMaster m && j < 8
  | .hdmSlicesEmptied j | .nvmeInitialisationEnd j _ | .controllerFatalStatus j => j < 8
  | _ => true

/-- Rows of the opcode table that share the word of another row and differ from it by a register's value only (R396, R426, R427). -/
def Instr.wordRow : Instr → Instr
  | .rlaunchUpdate d a b g => .rlaunchStart d a b g
  | .rlaunchStop d a b g => .rlaunchStart d a b g
  | .rcvrHand d b g => .rcvrVer d 0 b g
  | .trimForce d a b g => .trimSync d a b g
  | i => i

/-- Rows of the opcode table that are events of the device and have no word. -/
def Instr.isEvent : Instr → Bool
  | .dieQueuePop .. | .taskDispatch .. | .gangStart .. | .overlayLoadComplete .. | .taskCommit .. | .taskAbort .. | .dmuRelease ..
  | .replicationComplete .. | .recoveryWalk .. | .versionRestoreComplete .. | .remoteReply .. | .stageBalancer .. | .agingTick ..
  | .preemption .. | .shadowStoreDrain .. | .contextRestore .. | .phaseBegin .. | .bootGo .. | .scratchpadRegionFill ..
  | .windowPortRequest .. | .movedReply .. | .windowPageMigration .. | .pageMove .. | .bounceSlotMove .. | .pagerResolve ..
  | .slateRefresh .. | .tierError .. | .tuAccept .. | .tuCommandFinish .. | .copyDeadline .. | .chainStep .. | .chainReply ..
  | .streamInTile .. | .streamOutTile .. | .engineEntryStart .. | .engineWordComplete .. | .veRemoteResume .. | .meStepComplete ..
  | .msgoBatchEnd .. | .engineErrorReport .. | .engineFault .. | .eccCorrectable .. | .eccUncorrectable .. | .powerOnReset ..
  | .coreReset .. | .dieLoss .. | .handoverTimeout .. | .peerLoss .. | .heartbeatSend .. | .ucieFlitReceive ..
  | .ucieRetrainComplete .. | .ucieFlitAck .. | .tunarFlitReceive .. | .tunarReplayRequest .. | .tunarResetNotice ..
  | .tunarCreditReturn .. | .tunarPortDown .. | .packetForward .. | .remoteRequest .. | .monitorSample .. | .powerLimitWindow ..
  | .moduleOvertemp .. | .linkTraining .. | .hostLinkLoss .. | .hostFunctionReset .. | .hostCxlMemAccess .. | .mownRead ..
  | .htgtWrite .. | .mclmClaim .. | .mclmRelease .. | .mclmAccept .. | .pctlCreate .. | .pctlDestroy .. | .pctlReset ..
  | .pctlQuiesce .. | .pctlOperationEnd .. | .svnrRaise .. | .fuseRaiseComplete .. | .hdmEnable .. | .hdmDisable ..
  | .hdmSlicesEmptied .. | .nvmeSlotEnable .. | .nvmeSlotDisable .. | .nvmeCompletion .. | .nvmeTimeout .. | .bootRomStart ..
  | .resourceTraining .. | .identityChallenge .. | .registerWrite .. | .accessCompletion .. | .managementInterfaceReset ..
  | .nvmeInitialisationEnd .. | .controllerFatalStatus .. => true
  | _ => false

end Sys2Proof
end

