-- ==== Sys2Proof/Decode.lean ====
section
/-! DEFINITION. Decoding and encoding of the words of the four code sections (R137 to R155), written from the tables of
spec/05_encoding.md, R216, R225, R253 and R327. Decoding is total: what is not an instruction is refused. -/

namespace Sys2Proof

/-- Bits [lo + n - 1 : lo] of an instruction word. -/
abbrev Half.f (w : Half) (lo n : Nat) : BitVec n := w.extractLsb' lo n

/-! ## Codes of the small enumerations -/

def Eng.code : Eng → BitVec 2
  | .ve => 0 | .me => 1 | .tu => 2

def engOf (c : BitVec 2) : Option Eng :=
  if c = 0 then some .ve else if c = 1 then some .me else if c = 2 then some .tu else none

def RMode.code : RMode → BitVec 3
  | .rne => 0 | .rtz => 1 | .rdn => 2 | .rup => 3 | .sr => 4

/-- Codes 5 to 7 are reserved (R83). -/
def rmodeOf (c : BitVec 3) : Option RMode :=
  if c = 0 then some .rne else if c = 1 then some .rtz else if c = 2 then some .rdn
  else if c = 3 then some .rup else if c = 4 then some .sr else none

def Fmt.code : Fmt → BitVec 4
  | .empty => 0 | .fp32 => 1 | .bf16 => 2 | .fp16 => 3 | .e4m3 => 4 | .e5m2 => 5 | .e3m2 => 6 | .e2m3 => 7
  | .e2m1 => 8 | .i8 => 9 | .i4 => 10 | .i16 => 11 | .i32 => 12 | .n8 => 13 | .n16 => 14 | .n32 => 15

def fmtOf (c : BitVec 4) : Fmt :=
  if c = 0 then .empty else if c = 1 then .fp32 else if c = 2 then .bf16 else if c = 3 then .fp16
  else if c = 4 then .e4m3 else if c = 5 then .e5m2 else if c = 6 then .e3m2 else if c = 7 then .e2m3
  else if c = 8 then .e2m1 else if c = 9 then .i8 else if c = 10 then .i4 else if c = 11 then .i16
  else if c = 12 then .i32 else if c = 13 then .n8 else if c = 14 then .n16 else .n32

def Scope.code : Scope → BitVec 2
  | .core => 0 | .die => 1 | .device => 2 | .system => 3

def scopeOf (c : BitVec 2) : Scope :=
  if c = 0 then .core else if c = 1 then .die else if c = 2 then .device else .system

def Width.code : Width → BitVec 2
  | .b8 => 0 | .b16 => 1 | .b32 => 2 | .b64 => 3

def widthOf (c : BitVec 2) : Width :=
  if c = 0 then .b8 else if c = 1 then .b16 else if c = 2 then .b32 else .b64

def VCond.code : VCond → BitVec 4
  | .eq => 0 | .ne => 1 | .lt => 2 | .le => 3 | .gt => 4 | .ge => 5 | .un => 6 | .ord => 7

def vcondOf (c : BitVec 4) : Option VCond :=
  if c = 0 then some .eq else if c = 1 then some .ne else if c = 2 then some .lt else if c = 3 then some .le
  else if c = 4 then some .gt else if c = 5 then some .ge else if c = 6 then some .un else if c = 7 then some .ord else none

def MskOp.code : MskOp → BitVec 4
  | .and => 0 | .or => 1 | .xor => 2 | .andn => 3 | .not => 4 | .first => 5 | .len => 6

def RedOp.code : RedOp → BitVec 2
  | .sum => 0 | .min => 1 | .max => 2 | .amax => 3

def redOpOf (c : BitVec 2) : RedOp :=
  if c = 0 then .sum else if c = 1 then .min else if c = 2 then .max else .amax

def MMode.code : MMode → BitVec 2
  | .full => 0 | .half => 1 | .quarter => 2

def mmodeOf (c : BitVec 2) : Option MMode :=
  if c = 0 then some .full else if c = 1 then some .half else if c = 2 then some .quarter else none

/-- The numbers of R165. -/
def CReg.num : CReg → BitVec 13
  | .cyc => 0x000 | .ctxid => 0x001 | .prio => 0x002 | .sst => 0x003 | .tvec => 0x004 | .epc => 0x005 | .trapc => 0x006
  | .trapv => 0x007 | .tscr => 0x008 | .ocls => 0x009 | .vshp => 0x010 | .vwb => 0x011 | .rstrm => 0x012 | .accpart => 0x018
  | .mscnt => 0x019 | .mvar => 0x01A | .tags => 0x020 | .osc => 0x021 | .detm => 0x022 | .phase => 0x023 | .slfw => 0x028

/-- Every other number raises ILLOP (R154, R165). -/
def cregOf (n : BitVec 13) : Option CReg :=
  [CReg.cyc, .ctxid, .prio, .sst, .tvec, .epc, .trapc, .trapv, .tscr, .ocls, .vshp, .vwb, .rstrm, .accpart, .mscnt, .mvar,
   .tags, .osc, .detm, .phase, .slfw].find? fun c => c.num == n

/-- The mod field of a word marked R in R152: SAT above the rounding code (R146). -/
def Rnd.code (m : Rnd) : BitVec 4 := BitVec.ofBool m.sat ++ m.rm.code

def rndOf (c : BitVec 4) : Option Rnd :=
  (rmodeOf (c.extractLsb' 0 3)).map fun r => ⟨c.getLsbD 3, r⟩

/-! ## Formats (R137, R145, R148): the fields of a word, from high to low -/

def packSA (op : BitVec 6) (d a b : BitVec 5) (fn : BitVec 8) (g : BitVec 3) : Half := op ++ d ++ a ++ b ++ fn ++ g
def packSI (op : BitVec 6) (d a : BitVec 5) (imm : BitVec 13) (g : BitVec 3) : Half := op ++ d ++ a ++ imm ++ g
def packSL (op : BitVec 6) (d : BitVec 5) (imm : BitVec 18) (g : BitVec 3) : Half := op ++ d ++ imm ++ g
def packSB (op : BitVec 6) (p : BitVec 3) (s : BitVec 1) (off : BitVec 22) : Half := op ++ p ++ s ++ off
def packSM (op : BitVec 6) (d a : BitVec 5) (oc : BitVec 4) (off : BitVec 9) (g : BitVec 3) : Half := op ++ d ++ a ++ oc ++ off ++ g
def packSE (op : BitVec 6) (e : BitVec 2) (a b : BitVec 5) (fn : BitVec 11) (g : BitVec 3) : Half := op ++ e ++ a ++ b ++ fn ++ g
def packSX (fn : BitVec 10) (imm : BitVec 13) (g : BitVec 3) : Half := 0x3F#6 ++ fn ++ imm ++ g
def packVR (op : BitVec 7) (vd va vb : BitVec 6) (k : BitVec 3) (mod : BitVec 4) : Half := op ++ vd ++ va ++ vb ++ k ++ mod
def packVI (op : BitVec 7) (vd va : BitVec 6) (imm : BitVec 9) (mod : BitVec 4) : Half := op ++ vd ++ va ++ imm ++ mod
def packVM (op : BitVec 7) (vd : BitVec 6) (a : BitVec 5) (off : BitVec 10) (oc : BitVec 4) : Half := op ++ vd ++ a ++ off ++ oc
def packVC (n : BitVec 3) (obj : BitVec 16) (fl : BitVec 6) : Half := 0x5C#7 ++ n ++ obj ++ fl
def packME (x : BitVec 1) (op : BitVec 5) (t : BitVec 4) (a b : BitVec 5) (f : BitVec 12) : Half := x ++ op ++ t ++ a ++ b ++ f
def packTU (x : BitVec 1) (op : BitVec 5) (tag : BitVec 6) (a b c : BitVec 5) (f : BitVec 5) : Half := x ++ op ++ tag ++ a ++ b ++ c ++ f
def packExt (e0 e1 e2 : BitVec 5) (f : BitVec 17) : Half := e0 ++ e1 ++ e2 ++ f
def packDep (t0 t1 t2 : BitVec 10) : Half := 3#2 ++ t0 ++ t1 ++ t2

/-- A predicate in a register field: bits [4:3] are must-be-zero (R138). -/
def predField (p : Pred) : BitVec 5 := 0#2 ++ p

/-! ## SQ words (R139 to R144, R154) -/

/-- Major 0x01 (R140). -/
def decodeInteger (d a b : Reg) (fn : BitVec 8) (g : Pred) : Option Instr :=
  match fn.toNat with
  | 0x00 => some (.add d a b g)
  | 0x01 => some (.sub d a b g)
  | 0x02 => some (.mul d a b g)
  | 0x03 => some (.mulh d a b g)
  | 0x04 => some (.mulhn d a b g)
  | 0x05 => some (.div d a b g)
  | 0x06 => some (.divn d a b g)
  | 0x07 => some (.rem d a b g)
  | 0x08 => some (.remn d a b g)
  | 0x10 => some (.and d a b g)
  | 0x11 => some (.or d a b g)
  | 0x12 => some (.xor d a b g)
  | 0x18 => some (.shl d a b g)
  | 0x19 => some (.shr d a b g)
  | 0x1A => some (.sra d a b g)
  | 0x20 => if b = 0 then some (.clz d a g) else none
  | 0x21 => if b = 0 then some (.ctz d a g) else none
  | 0x22 => if b = 0 then some (.popc d a g) else none
  | 0x28 => some (.min d a b g)
  | 0x29 => some (.max d a b g)
  | 0x2A => some (.minn d a b g)
  | 0x2B => some (.maxn d a b g)
  | 0x30 => if b = 0 then some (.sext8 d a g) else none
  | 0x31 => if b = 0 then some (.sext16 d a g) else none
  | 0x32 => if b = 0 then some (.sext32 d a g) else none
  | 0x34 => if b = 0 then some (.zext8 d a g) else none
  | 0x35 => if b = 0 then some (.zext16 d a g) else none
  | 0x36 => if b = 0 then some (.zext32 d a g) else none
  | _ =>
    if fn.extractLsb' 3 5 = 7 then some (.lea d a b (fn.extractLsb' 0 3) g)
    else if fn.extractLsb' 3 5 = 31 then some (.sel d (fn.extractLsb' 0 3) a b g)
    else none

/-- Major 0x02 (R140, R181). -/
def decodeCompare (d a b : Reg) (fn : BitVec 8) (g : Pred) : Option Instr :=
  if d.extractLsb' 3 2 ≠ 0 then none
  else
    let p := d.extractLsb' 0 3
    match fn.toNat with
    | 0 => some (.cmpeq p a b g)
    | 1 => some (.cmpne p a b g)
    | 2 => some (.cmplt p a b g)
    | 3 => some (.cmple p a b g)
    | 4 => some (.cmpltn p a b g)
    | 5 => some (.cmplen p a b g)
    | _ => none

/-- Major 0x03 (R140, R182). -/
def decodePredicate (d a b : Reg) (fn : BitVec 8) (g : Pred) : Option Instr :=
  if d.extractLsb' 3 2 ≠ 0 ∨ a.extractLsb' 3 2 ≠ 0 ∨ b.extractLsb' 3 2 ≠ 0 then none
  else
    let pd := d.extractLsb' 0 3
    let pa := a.extractLsb' 0 3
    let pb := b.extractLsb' 0 3
    match fn.toNat with
    | 0 => some (.pand pd pa pb g)
    | 1 => some (.por pd pa pb g)
    | 2 => some (.pxor pd pa pb g)
    | 3 => if b = 0 then some (.pnot pd pa g) else none
    | _ => none

/-- Major 0x26 (R142). -/
def decodeAtomic (d a b : Reg) (oc : OClass) (code : BitVec 4) (g : Pred) : Option Instr :=
  match code.toNat with
  | 0 => some (.aadd d a b oc g)
  | 1 => some (.aaddf d a b oc g)
  | 2 => some (.axchg d a b oc g)
  | 3 => some (.acas d a b oc g)
  | 4 => some (.amax d a b oc g)
  | 5 => some (.amin d a b oc g)
  | 6 => some (.amaxf d a b oc g)
  | 7 => if b = 0 then some (.aclrmax d a oc g) else none
  | 8 => some (.aincb d a b oc g)
  | 9 => some (.aincw d a b oc g)
  | 10 => if b = 0 then some (.adecz d a oc g) else none
  | 11 => some (.aaddl d a b oc g)
  | 12 => if b = 0 then some (.axrd d a oc g) else none
  | _ => none

/-- Major 0x27 (R142). -/
def decodeAtomicN (d a b : Reg) (oc : OClass) (code : BitVec 4) (g : Pred) : Option Instr :=
  if code = 3 then some (.acasN d a b oc g)
  else if d ≠ 0 then none
  else match code.toNat with
  | 0 => some (.aaddN a b oc g)
  | 1 => some (.aaddfN a b oc g)
  | 2 => some (.axchgN a b oc g)
  | 4 => some (.amaxN a b oc g)
  | 5 => some (.aminN a b oc g)
  | 6 => some (.amaxfN a b oc g)
  | 7 => if b = 0 then some (.aclrmaxN a oc g) else none
  | 8 => some (.aincbN a b oc g)
  | 9 => some (.aincwN a b oc g)
  | 10 => if b = 0 then some (.adeczN a oc g) else none
  | 11 => some (.aaddlN a b oc g)
  | 12 => some (.axadd a b oc g)
  | _ => none

/-- Major 0x28 (R142). -/
def decodeWait (d a b : Reg) (oc : OClass) (code : BitVec 4) (g : Pred) : Option Instr :=
  match code.toNat with
  | 0 => some (.waitwEq d a b oc g)
  | 1 => some (.waitwNe d a b oc g)
  | 2 => some (.waitwGe d a b oc g)
  | 3 => some (.waitwLt d a b oc g)
  | 4 => if d = 0 ∧ b = 0 then some (.alock a oc g) else none
  | 5 => if d = 0 ∧ b = 0 then some (.aunlk a oc g) else none
  | _ => none

/-- Majors 0x2E to 0x32 and 0x34 (R143, R356, R362, R376, R421, R435, R449, R450, R467); fields an instruction leaves unused are zero.
RLAUNCH, RCVR and TRIM choose their operation by a register's value: the decoder gives the table's first row of each. -/
def decodeGroup (op : Nat) (d a b : Reg) (fn : BitVec 8) (g : Pred) : Option Instr :=
  match op, fn.toNat with
  | 0x2E, 0 => some (.spawn d a b g)
  | 0x2E, 1 => if a = 0 ∧ b = 0 then some (.popt d g) else none
  | 0x2E, 2 => if d = 0 ∧ b = 0 then some (.join a g) else none
  | 0x2E, 3 => if b = 0 then some (.qput d a g) else none
  | 0x2E, 4 => some (.qget d a b g)
  | 0x2E, 5 => if b = 0 then some (.rclm d a g) else none
  | 0x2E, 8 => some (.evreg d a b g)
  | 0x2F, 0 => if b.extractLsb' 3 2 = 0 then some (.rpush d a (b.extractLsb' 0 3) g) else none
  | 0x2F, 1 => if b.extractLsb' 3 2 = 0 then some (.rpop d a (b.extractLsb' 0 3) g) else none
  | 0x2F, 2 => if b.extractLsb' 3 2 = 0 then some (.wfill d a (b.extractLsb' 0 3) g) else none
  | 0x2F, 3 => if b.extractLsb' 3 2 = 0 then some (.wfree d a (b.extractLsb' 0 3) g) else none
  | 0x2F, 4 => if b.extractLsb' 3 2 = 0 then some (.subscr d a (b.extractLsb' 0 3) g) else none
  | 0x30, 0 => some (.otw d a b g)
  | 0x30, 1 => some (.gbind d a b g)
  | 0x30, 2 => if d = 0 then some (.ptinv a b g) else none
  | 0x30, 3 => some (.rlaunchStart d a b g)
  | 0x30, 4 => some (.routw d a b g)
  | 0x31, 0 => some (.publ d a b g)
  | 0x31, 1 => some (.tvq d a b g)
  | 0x31, 2 => some (.retain d a b g)
  | 0x31, 3 => some (.repl d a b g)
  | 0x31, 4 => some (.rcvrVer d a b g)
  | 0x31, 5 => some (.trimSync d a b g)
  | 0x32, 0 => if b = 0 then some (.twaitAny d a g) else none
  | 0x32, 1 => if b = 0 then some (.twaitAll d a g) else none
  | 0x32, 2 => if b = 0 then some (.tffr d a g) else none
  | 0x32, 3 => if b = 0 then some (.tclr d a g) else none
  | 0x32, 4 => if b = 0 then some (.cntrd d a g) else none
  | 0x32, 5 => some (.cntset d a b g)
  | 0x34, 0 => some (.ctxs d a b g)
  | 0x34, 1 => if b = 0 then some (.ctxr d a g) else none
  | 0x34, 2 => if b = 0 then some (.poisq d a g) else none
  | _, _ => none

/-- Major 0x3F (R144). -/
def decodeSystem (fn : BitVec 10) (imm : BitVec 13) (g : Pred) : Option Instr :=
  match fn.toNat with
  | 3 => some (.bkpt imm g)
  | 4 => some (.trap imm g)
  | 0 => if imm = 0 then some (.nop g) else none
  | 1 => if imm = 0 then some (.halt g) else none
  | 2 => if imm = 0 then some (.yield g) else none
  | 5 => if imm = 0 then some (.eret g) else none
  | 6 => if imm = 0 then some (.phase g) else none
  | _ => none

/-- The immediate forms of majors 0x04 to 0x0D (R139). -/
def decodeImmediate (op : Nat) (d a : Reg) (imm : BitVec 13) (g : Pred) : Option Instr :=
  let n := imm.extractLsb' 0 6
  let nOk := imm.extractLsb' 6 7 = 0
  let pOk := d.extractLsb' 3 2 = 0
  let p := d.extractLsb' 0 3
  match op with
  | 0x04 => some (.addi d a imm g)
  | 0x05 => some (.andi d a imm g)
  | 0x06 => some (.ori d a imm g)
  | 0x07 => some (.xori d a imm g)
  | 0x08 => if nOk then some (.shli d a n g) else none
  | 0x09 => if nOk then some (.shri d a n g) else none
  | 0x0A => if nOk then some (.srai d a n g) else none
  | 0x0B => if pOk then some (.cmpeqi p a imm g) else none
  | 0x0C => if pOk then some (.cmplti p a imm g) else none
  | 0x0D => if a = 0 ∧ d ≠ 0 then some (.loop d imm g) else none
  | 0x15 => if a = 0 then (cregOf imm).map fun c => .rdc d c g else none
  | 0x16 => if d = 0 then (cregOf imm).map fun c => .wrc c a g else none
  | _ => none

/-- Scalar loads and stores, majors 0x18 to 0x1E and 0x20 to 0x23 (R292). -/
def decodeMemory (op : Nat) (d a : Reg) (oc : OClass) (off : BitVec 9) (g : Pred) : Option Instr :=
  match op with
  | 0x18 => some (.ldI8 d a oc off g)
  | 0x19 => some (.ldN8 d a oc off g)
  | 0x1A => some (.ldI16 d a oc off g)
  | 0x1B => some (.ldN16 d a oc off g)
  | 0x1C => some (.ldI32 d a oc off g)
  | 0x1D => some (.ldN32 d a oc off g)
  | 0x1E => some (.ld64 d a oc off g)
  | 0x20 => some (.st8 d a oc off g)
  | 0x21 => some (.st16 d a oc off g)
  | 0x22 => some (.st32 d a oc off g)
  | 0x23 => some (.st64 d a oc off g)
  | _ => none

/-- Majors 0x29 to 0x2D (R139). -/
def decodeEngineIssue (op : Nat) (e : BitVec 2) (a b : Reg) (fn : BitVec 11) (g : Pred) : Option Instr :=
  match op with
  | 0x29 => if fn = 0 then (engOf e).map fun x => .enq x a b g else none
  | 0x2A => if fn = 0 then (engOf e).map fun x => .enqw x a b g else none
  | 0x2B => if e = 1 ∧ b = 0 then some (.mcw fn a g) else none
  | 0x2C => if e = 1 ∧ b = 0 then some (.mcrd a fn g) else none
  | 0x2D => if b = 0 ∧ fn = 0 then (engOf e).map fun x => .rdseq a x g else none
  | _ => none

/-- An SQ word; none where R154 refuses it. -/
def decodeSq (w : Half) : Option Instr :=
  let op := (w.f 26 6).toNat
  let d := w.f 21 5
  let a := w.f 16 5
  let b := w.f 11 5
  let fn := w.f 3 8
  let g := w.f 0 3
  let imm13 := w.f 3 13
  let imm18 := w.f 3 18
  match op with
  | 0x01 => decodeInteger d a b fn g
  | 0x02 => decodeCompare d a b fn g
  | 0x03 => decodePredicate d a b fn g
  | 0x04 | 0x05 | 0x06 | 0x07 | 0x08 | 0x09 | 0x0A | 0x0B | 0x0C | 0x0D | 0x15 | 0x16 => decodeImmediate op d a imm13 g
  | 0x0E => some (.movi d imm18 g)
  | 0x0F => some (.sethi d imm18 g)
  | 0x10 => some (.br (w.f 23 3) (w.getLsbD 22) (w.f 0 22))
  | 0x11 => some (.call (w.f 23 3) (w.getLsbD 22) (w.f 0 22))
  | 0x12 => if d = 0 ∧ b = 0 ∧ fn = 0 then some (.jmp a g) else none
  | 0x13 => if d = 0 ∧ a = 0 ∧ b = 0 ∧ fn = 0 then some (.ret g) else none
  | 0x14 => if d = 0 then some (.fence (w.f 5 16) (scopeOf (w.f 3 2)) g) else none
  | 0x18 | 0x19 | 0x1A | 0x1B | 0x1C | 0x1D | 0x1E | 0x20 | 0x21 | 0x22 | 0x23 => decodeMemory op d a (w.f 12 4) (w.f 3 9) g
  | 0x24 => if b = 0 then some (.lda d a (w.f 7 4) (scopeOf (w.f 5 2)) (widthOf (w.f 3 2)) g) else none
  | 0x25 => if b = 0 then some (.stl d a (w.f 7 4) (scopeOf (w.f 5 2)) (widthOf (w.f 3 2)) g) else none
  | 0x26 => decodeAtomic d a b (w.f 7 4) (w.f 3 4) g
  | 0x27 => decodeAtomicN d a b (w.f 7 4) (w.f 3 4) g
  | 0x28 => decodeWait d a b (w.f 7 4) (w.f 3 4) g
  | 0x29 | 0x2A | 0x2B | 0x2C | 0x2D => decodeEngineIssue op (w.f 24 2) (w.f 19 5) (w.f 14 5) (w.f 3 11) g
  | 0x2E | 0x2F | 0x30 | 0x31 | 0x32 | 0x34 => decodeGroup op d a b fn g
  | 0x33 => some (.waitc d (w.f 15 6) (w.f 9 6) (w.f 3 6) g)
  | 0x3F => decodeSystem (w.f 16 10) imm13 g
  | _ => none

/-! ## Engine words (R145 to R155) -/

/-- What an engine decodes from the words of its block that begin at one word: an instruction and how many words it takes, or the
offset of the word that R155 reports as illegal, counted from the first. -/
inductive Decoded where
  | ok (i : Instr) (len : Nat)
  | bad (at_ : Nat)
  deriving DecidableEq, Repr

def Decoded.ofOption (len : Nat) : Option Instr → Decoded
  | some i => .ok i len
  | none => .bad 0

/-- One slot of a DEP: engine 3 marks an empty slot, whose seq is zero (R150, R155). -/
def depSlot (t : BitVec 10) : Option (Option (Eng × BitVec 8)) :=
  match engOf (t.extractLsb' 8 2) with
  | some e => some (some (e, t.extractLsb' 0 8))
  | none => if t.extractLsb' 0 8 = 0 then some none else none

/-- A word whose bits [31:30] are 0b11 is a DEP (R150). -/
def isDep (w : Half) : Bool := w.f 30 2 == 3#2

/-- A DEP is refused as its block's last word and before another DEP (R150). -/
def decodeDep (w : Half) (rest : List Half) : Decoded :=
  match rest with
  | [] => .bad 0
  | r :: _ =>
    if isDep r then .bad 0
    else match depSlot (w.f 20 10), depSlot (w.f 10 10), depSlot (w.f 0 10) with
      | some t0, some t1, some t2 => .ok (.dep t0 t1 t2) 1
      | _, _, _ => .bad 0

/-- The op7 of each chain-eligible operation (R152, R234). -/
def ChainOp.code : ChainOp → BitVec 7
  | .vadd => 0x01 | .vsub => 0x02 | .vmul => 0x03 | .vfma => 0x04 | .vfms => 0x05 | .vnfma => 0x06 | .vmin => 0x07 | .vmax => 0x08
  | .vabs => 0x09 | .vneg => 0x0A | .vand => 0x10 | .vor => 0x11 | .vxor => 0x12 | .vnot => 0x13 | .vshl => 0x14 | .vshr => 0x15
  | .vsra => 0x16 | .vsel => 0x21 | .vcls => 0x23 | .vcvt => 0x28 | .vmov => 0x39 | .vexp2 => 0x40 | .vlog2 => 0x41 | .vrcp => 0x42
  | .vrsq => 0x43 | .vsqrt => 0x44 | .vdiv => 0x45 | .vtanh => 0x46 | .vsig => 0x47 | .vscl => 0x48 | .vqnt => 0x49 | .verrf => 0x4A

def chainOps : List ChainOp :=
  [.vadd, .vsub, .vmul, .vfma, .vfms, .vnfma, .vmin, .vmax, .vabs, .vneg, .vand, .vor, .vxor, .vnot, .vshl, .vshr, .vsra,
   .vsel, .vcls, .vcvt, .vmov, .vexp2, .vlog2, .vrcp, .vrsq, .vsqrt, .vdiv, .vtanh, .vsig, .vscl, .vqnt, .verrf]

/-- A chain word: eligible, its mod zero and its unused fields zero (R147, R155). -/
def decodeChainWord (w : Half) : Option ChainWord :=
  match chainOps.find? fun o => o.code == w.f 25 7 with
  | none => none
  | some o =>
    let c : ChainWord := ⟨o, w.f 19 6, w.f 13 6, w.f 7 6, w.f 4 3⟩
    if w.f 0 4 = 0 ∧ c.wf then some c else none

/-- The words of R211 and R228 to R231: a rounding code and up to two sources. -/
def decodeVeRounded (op : Nat) (m : Rnd) (vd va vb : VNum) (k : KNum) : Option Instr :=
  match op with
  | 0x01 => some (.vadd m vd va vb k)
  | 0x02 => some (.vsub m vd va vb k)
  | 0x03 => some (.vmul m vd va vb k)
  | 0x04 => some (.vfma m vd va vb k)
  | 0x05 => some (.vfms m vd va vb k)
  | 0x06 => some (.vnfma m vd va vb k)
  | 0x07 => some (.vmin m vd va vb k)
  | 0x08 => some (.vmax m vd va vb k)
  | 0x09 => if vb = 0 then some (.vabs m vd va k) else none
  | 0x0A => if vb = 0 then some (.vneg m vd va k) else none
  | 0x28 => if vb.extractLsb' 4 2 = 0 ∧ vb ≠ 0 then some (.vcvt m vd va (fmtOf (vb.extractLsb' 0 4)) k) else none
  | 0x29 => if vb.extractLsb' 4 2 = 0 ∧ isGroupReg vd then some (.vcvtw m vd va (fmtOf (vb.extractLsb' 0 4)) k) else none
  | 0x2A => if vb.extractLsb' 4 2 = 0 ∧ isGroupReg va then some (.vcvtn m vd va (fmtOf (vb.extractLsb' 0 4)) k) else none
  | 0x2B =>
    let w := vb.extractLsb' 0 3
    if vb.extractLsb' 3 3 = 0 ∧ (w = 2 ∨ w = 4) ∧ k = 0 ∧ isGroupReg vd ∧ isGroupReg va then some (.vpack m vd va w) else none
  | 0x2C =>
    let w := vb.extractLsb' 0 3
    if vb.extractLsb' 3 3 = 0 ∧ (w = 2 ∨ w = 4) ∧ k = 0 ∧ isGroupReg vd ∧ isGroupReg va then some (.vunpk m vd va w) else none
  | 0x30 => if vb.extractLsb' 2 4 = 0 then some (.vred m (redOpOf (vb.extractLsb' 0 2)) vd va k) else none
  | 0x31 => some (.vamax m vd va vb k)
  | 0x32 => some (.vdot m vd va vb k)
  | 0x40 => if vb = 0 then some (.vexp2 m vd va k) else none
  | 0x41 => if vb = 0 then some (.vlog2 m vd va k) else none
  | 0x42 => if vb = 0 then some (.vrcp m vd va k) else none
  | 0x43 => if vb = 0 then some (.vrsq m vd va k) else none
  | 0x44 => if vb = 0 then some (.vsqrt m vd va k) else none
  | 0x45 => some (.vdiv m vd va vb k)
  | 0x46 => if vb = 0 then some (.vtanh m vd va k) else none
  | 0x47 => if vb = 0 then some (.vsig m vd va k) else none
  | 0x48 => some (.vscl m vd va vb k)
  | 0x49 => some (.vqnt m vd va vb k)
  | 0x4A => if vd.extractLsb' 0 1 = 0 then some (.verrf m vd va vb k) else none
  | _ => none

/-- The VE words whose mod has a meaning of their own (R213 to R218, R225 to R227, R232, R233, R295, R297). -/
def decodeVeOwn (op : Nat) (w : Half) : Option Instr :=
  let vd := w.f 19 6
  let va := w.f 13 6
  let vb := w.f 7 6
  let k := w.f 4 3
  let mod := w.f 0 4
  let imm := w.f 4 9
  match op with
  | 0x10 => if mod = 0 then some (.vand vd va vb k) else none
  | 0x11 => if mod = 0 then some (.vor vd va vb k) else none
  | 0x12 => if mod = 0 then some (.vxor vd va vb k) else none
  | 0x13 => if mod = 0 ∧ vb = 0 then some (.vnot vd va k) else none
  | 0x14 => if mod = 0 then some (.vshl vd va vb k) else none
  | 0x15 => if mod = 0 then some (.vshr vd va vb k) else none
  | 0x16 => if mod = 0 then some (.vsra vd va vb k) else none
  | 0x17 => if mod = 0 then some (.vshlImm vd va imm) else none
  | 0x18 => if mod = 0 then some (.vshrImm vd va imm) else none
  | 0x19 => if mod = 0 then some (.vsraImm vd va imm) else none
  | 0x20 => if vd.extractLsb' 3 3 = 0 then (vcondOf mod).map fun c => .vcmp c (vd.extractLsb' 0 3) va vb k else none
  | 0x21 => if mod = 0 then some (.vsel vd va vb k) else none
  | 0x22 =>
    let kd := vd.extractLsb' 0 3
    let ka := va.extractLsb' 0 3
    let kb := vb.extractLsb' 0 3
    if vd.extractLsb' 3 3 ≠ 0 ∨ va.extractLsb' 3 3 ≠ 0 ∨ vb.extractLsb' 3 3 ≠ 0 ∨ k ≠ 0 then none
    else match mod.toNat with
      | 0 => some (.vmsk .and kd ka kb)
      | 1 => some (.vmsk .or kd ka kb)
      | 2 => some (.vmsk .xor kd ka kb)
      | 3 => some (.vmsk .andn kd ka kb)
      | 4 => if kb = 0 then some (.vmsk .not kd ka 0) else none
      | 5 => if kb = 0 then some (.vmsk .first kd ka 0) else none
      | 6 => if ka = 0 ∧ kb = 0 then some (.vmsk .len kd 0 0) else none
      | _ => none
  | 0x23 => if mod = 0 ∧ vd.extractLsb' 3 3 = 0 then some (.vcls (vd.extractLsb' 0 3) va vb k) else none
  | 0x24 =>
    let f := fmtOf (vb.extractLsb' 0 4)
    if vb.extractLsb' 4 2 = 0 ∧ va = 0 ∧ mod = 0 ∧ isIotaFmt f then some (.viota vd f k) else none
  | 0x38 =>
    match mod.toNat with
    | 0 => some (.vsplat vd va imm)
    | 1 => if va = 0 then some (.vsplatImm vd imm) else none
    | 2 => if va.extractLsb' 5 1 = 0 ∧ imm = 0 then some (.vsplatReg vd (va.extractLsb' 0 5)) else none
    | _ => none
  | 0x39 => if mod = 0 ∧ vb = 0 then some (.vmov vd va k) else none
  | 0x3A => if mod = 0 then some (.vperm vd va vb k) else none
  | 0x3B =>
    match mod.toNat with
    | 0 => some (.vslide vd va imm)
    | 1 => some (.vslideRot vd va imm)
    | _ => none
  | 0x50 =>
    if va.extractLsb' 5 1 = 0 ∧ vd = 0 ∧ vb = 0 ∧ k = 0 ∧ mod = 0 then some (.vshp (va.extractLsb' 0 5)) else none
  | 0x51 =>
    if vb.extractLsb' 4 2 = 0 ∧ k = 0 ∧ mod = 0 then some (.vtag vd va (fmtOf (vb.extractLsb' 0 4))) else none
  | 0x58 => some (.vld vd (w.f 14 5) (w.f 4 10) mod)
  | 0x59 => some (.vst vd (w.f 14 5) (w.f 4 10) mod)
  | 0x5A => if vb.extractLsb' 5 1 = 0 then some (.vldx vd va (vb.extractLsb' 0 5) k mod) else none
  | 0x5B => if vb.extractLsb' 5 1 = 0 then some (.vstx vd va (vb.extractLsb' 0 5) k mod) else none
  | _ => none

/-- A chain header with its words (R147, R155): a header whose words leave the block is illegal at its own offset. -/
def decodeChain (w : Half) (rest : List Half) : Decoded :=
  let n := (w.f 22 3).toNat + 1
  match rmodeOf (w.f 2 3) with
  | none => .bad 0
  | some rm =>
    if w.f 0 2 ≠ 0 ∨ rest.length < n then .bad 0
    else .ok (.vchain ⟨w.getLsbD 5, rm⟩ (w.f 6 16) ((rest.take n).map decodeChainWord)) (n + 1)

/-- The op7 values marked R in R152. -/
def isVeRounded (op : Nat) : Bool :=
  (0x01 ≤ op && op ≤ 0x0A) || (0x28 ≤ op && op ≤ 0x2C) || (0x30 ≤ op && op ≤ 0x32) || (0x40 ≤ op && op ≤ 0x4A)

/-- A VE word (R152). -/
def decodeVe (w : Half) (rest : List Half) : Decoded :=
  let op := (w.f 25 7).toNat
  if isDep w then decodeDep w rest
  else if op = 0x5C then decodeChain w rest
  else if isVeRounded op then
    Decoded.ofOption 1 ((rndOf (w.f 0 4)).bind fun m => decodeVeRounded op m (w.f 19 6) (w.f 13 6) (w.f 7 6) (w.f 4 3))
  else Decoded.ofOption 1 (decodeVeOwn op w)

/-- The fields of an extension word (R148). -/
structure Ext where
  e0 : Reg
  e1 : Reg
  e2 : Reg
  f : BitVec 17
  deriving DecidableEq, Repr

def extOf (w : Half) : Ext := ⟨w.f 27 5, w.f 22 5, w.f 17 5, w.f 0 17⟩

/-- A word that takes an extension word: outside the block it is illegal at its own offset, and a bad extension at its own (R155). -/
def withExt (rest : List Half) (first : Bool) (k : Ext → Option Instr) : Decoded :=
  match rest with
  | [] => .bad 0
  | r :: _ =>
    if !first then .bad 0
    else match k (extOf r) with
      | some i => .ok i 2
      | none => .bad 1

/-- The ME words of R253. -/
def decodeMe (w : Half) (rest : List Half) : Decoded :=
  if isDep w then decodeDep w rest
  else
    let op := (w.f 26 5).toNat
    let x := w.getLsbD 31
    let t := w.f 22 4
    let a := w.f 17 5
    let b := w.f 12 5
    let f := w.f 0 12
    let sub := f.extractLsb' 10 2
    let ftag := fmtOf (f.extractLsb' 6 4)
    match x, op with
    | false, 0x01 => .ofOption 1 (if t = 0 ∧ b = 0 ∧ f.extractLsb' 0 6 = 0 then some (.mldw sub ftag a) else none)
    | false, 0x02 => .ofOption 1 (if t = 0 ∧ b = 0 ∧ f.extractLsb' 0 6 = 0 then some (.mldwt sub ftag a) else none)
    | false, 0x03 => .ofOption 1 (if a = 0 ∧ b = 0 ∧ f.extractLsb' 0 10 = 0 then some (.mgo t sub) else none)
    | false, 0x04 => .ofOption 1 (if a = 0 ∧ b = 0 ∧ f.extractLsb' 0 10 = 0 then some (.mgob t sub) else none)
    | false, 0x05 =>
      .ofOption 1 (if t = 0 ∧ f.extractLsb' 10 2 = 0 ∧ f.extractLsb' 8 2 ≠ 3
        then some (.mgath a b (f.extractLsb' 8 2) (f.extractLsb' 0 8)) else none)
    | false, 0x06 =>
      let n := f.extractLsb' 0 4
      .ofOption 1 (if t = 0 ∧ a = 0 ∧ b = 0 ∧ f.extractLsb' 4 8 = 0 ∧ (n = 0 ∨ n = 2 ∨ n = 4 ∨ n = 6 ∨ n = 8 ∨ n = 12)
        then some (.msp n) else none)
    | true, 0x07 =>
      withExt rest (t = 0 ∧ f = 0) fun e => if e.e2 = 0 ∧ e.f = 0 then some (.msamp a b e.e0 e.e1) else none
    | false, 0x08 => .ofOption 1 (if a = 0 ∧ b = 0 ∧ f = 0 then some (.msgo t) else none)
    | false, 0x09 =>
      .ofOption 1 (if t = 0 ∧ f.extractLsb' 0 7 = 0 then some (.mnorm (f.getLsbD 11) (fmtOf (f.extractLsb' 7 4)) a b) else none)
    | true, 0x0A =>
      withExt rest (t = 0 ∧ f = 0) fun e => if e.e1 = 0 ∧ e.e2 = 0 ∧ e.f = 0 then some (.malias a b e.e0) else none
    | false, 0x0B =>
      .ofOption 1 (if f.extractLsb' 0 6 = 0 then some (.mdrain t a b (f.getLsbD 11) (f.getLsbD 10) ftag) else none)
    | true, 0x0C =>
      withExt rest (f.extractLsb' 4 7 = 0) fun e =>
        if e.e1 = 0 ∧ e.e2 = 0 ∧ e.f = 0 then some (.mdraina t a b e.e0 (f.getLsbD 11) (f.extractLsb' 0 4)) else none
    | false, 0x0D => .ofOption 1 (if f.extractLsb' 4 8 = 0 then some (.mdrainx t a b (f.extractLsb' 0 4)) else none)
    | false, 0x0E => .ofOption 1 (if f = 0 then some (.mrda t a b) else none)
    | false, 0x0F => .ofOption 1 (if a = 0 ∧ b = 0 ∧ f.extractLsb' 1 11 = 0 then some (.mzero t (f.getLsbD 0)) else none)
    | false, 0x10 => .ofOption 1 (if t = 0 ∧ b = 0 ∧ f = 0 then some (.mvar a) else none)
    | false, 0x11 => .ofOption 1 (if t = 0 ∧ b = 0 ∧ f = 0 then some (.mstat a) else none)
    | false, 0x12 =>
      .ofOption 1 (if t = 0 ∧ a = 0 ∧ b = 0 ∧ f.extractLsb' 2 10 = 0 then (mmodeOf (f.extractLsb' 0 2)).map .mmode else none)
    | _, _ => .bad 0

/-- The TU words of R327. -/
def decodeTu (w : Half) (rest : List Half) : Decoded :=
  if isDep w then decodeDep w rest
  else
    let op := (w.f 26 5).toNat
    let x := w.getLsbD 31
    let tag := w.f 20 6
    let a := w.f 15 5
    let b := w.f 10 5
    let c := w.f 5 5
    let f4 := w.getLsbD 4
    let oc := w.f 0 4
    match x, op with
    | false, 0x01 => .ok (.cpy tag a b c f4 oc) 1
    | true, 0x02 => withExt rest (!f4) fun e => if e.f = 0 then some (.cpys tag a b c e.e0 e.e1 e.e2 oc) else none
    | true, 0x03 => withExt rest (!f4) fun e => if e.e2 = 0 ∧ e.f = 0 then some (.cpyd tag a b c e.e0 e.e1 oc) else none
    | true, 0x04 =>
      withExt rest (!f4) fun e =>
        if e.e2 = 0 ∧ e.f.extractLsb' 2 15 = 0 then some (.cpyt tag a b c e.e0 e.e1 (e.f.extractLsb' 0 2) oc) else none
    | true, 0x05 =>
      withExt rest (!f4) fun e => some (.cpyp tag a b c e.e0 e.e1 e.e2 (e.f.extractLsb' 2 15) (e.f.extractLsb' 0 2) oc)
    | false, 0x06 => .ok (.cpyh tag a b c f4 oc) 1
    | true, 0x07 =>
      withExt rest (!f4) fun e =>
        if e.e0 = 0 ∧ e.e1 = 0 ∧ e.e2 = 0
        then some (.chld tag a b c (e.f.extractLsb' 0 3) (e.f.extractLsb' 3 3) (e.f.extractLsb' 6 11) oc) else none
    | false, 0x08 => .ok (if f4 then .pfchMap tag a b c oc else .pfch tag a b c oc) 1
    | false, 0x09 =>
      .ofOption 1 (if b ≠ 0 then none
        else if f4 then (if c = 0 then some (.evctUnmap tag a oc) else none) else some (.evct tag a c oc))
    | false, 0x0A => .ok (if f4 then .ctrbXa tag a b c oc else .ctrb tag a b c oc) 1
    | false, 0x0B => .ofOption 1 (if b = 0 ∧ !f4 then some (.rdyw tag a c oc) else none)
    | _, _ => .bad 0

/-- The words of an engine's section decode by that engine's map (R150 to R153). -/
def decodeEngine (e : Eng) (w : Half) (rest : List Half) : Decoded :=
  match e with
  | .ve => decodeVe w rest
  | .me => decodeMe w rest
  | .tu => decodeTu w rest

/-! ## Encoding, from the same tables -/

def depBits : Option (Eng × BitVec 8) → BitVec 10
  | some (e, s) => e.code ++ s
  | none => 3#2 ++ 0#8

def ChainWord.encode (c : ChainWord) : Half := packVR c.op.code c.vd c.va c.vb c.k 0

def encSA (op : BitVec 6) (fn : BitVec 8) (d a b : Reg) (g : Pred) : List Half := [packSA op d a b fn g]
def encSM (op : BitVec 6) (d a : Reg) (oc : OClass) (off : BitVec 9) (g : Pred) : List Half := [packSM op d a oc off g]
def encAt (op : BitVec 6) (code : BitVec 4) (d a b : Reg) (oc : OClass) (g : Pred) : List Half := [packSA op d a b (0#0 ++ oc ++ code) g]
def encVR (op : BitVec 7) (m : Rnd) (vd va vb : VNum) (k : KNum) : List Half := [packVR op vd va vb k m.code]
def encVO (op : BitVec 7) (mod : BitVec 4) (vd va vb : VNum) (k : KNum) : List Half := [packVR op vd va vb k mod]
def fmtField (f : Fmt) : BitVec 6 := 0#2 ++ f.code

/-- The words of a well-formed instruction; an event has none. -/
def encode : Instr → List Half
  | .add d a b g => encSA 0x01 0x00 d a b g
  | .sub d a b g => encSA 0x01 0x01 d a b g
  | .mul d a b g => encSA 0x01 0x02 d a b g
  | .mulh d a b g => encSA 0x01 0x03 d a b g
  | .mulhn d a b g => encSA 0x01 0x04 d a b g
  | .div d a b g => encSA 0x01 0x05 d a b g
  | .divn d a b g => encSA 0x01 0x06 d a b g
  | .rem d a b g => encSA 0x01 0x07 d a b g
  | .remn d a b g => encSA 0x01 0x08 d a b g
  | .and d a b g => encSA 0x01 0x10 d a b g
  | .or d a b g => encSA 0x01 0x11 d a b g
  | .xor d a b g => encSA 0x01 0x12 d a b g
  | .shl d a b g => encSA 0x01 0x18 d a b g
  | .shr d a b g => encSA 0x01 0x19 d a b g
  | .sra d a b g => encSA 0x01 0x1A d a b g
  | .clz d a g => encSA 0x01 0x20 d a 0 g
  | .ctz d a g => encSA 0x01 0x21 d a 0 g
  | .popc d a g => encSA 0x01 0x22 d a 0 g
  | .min d a b g => encSA 0x01 0x28 d a b g
  | .max d a b g => encSA 0x01 0x29 d a b g
  | .minn d a b g => encSA 0x01 0x2A d a b g
  | .maxn d a b g => encSA 0x01 0x2B d a b g
  | .sext8 d a g => encSA 0x01 0x30 d a 0 g
  | .sext16 d a g => encSA 0x01 0x31 d a 0 g
  | .sext32 d a g => encSA 0x01 0x32 d a 0 g
  | .zext8 d a g => encSA 0x01 0x34 d a 0 g
  | .zext16 d a g => encSA 0x01 0x35 d a 0 g
  | .zext32 d a g => encSA 0x01 0x36 d a 0 g
  | .lea d a b sh g => encSA 0x01 (7#5 ++ sh) d a b g
  | .sel d p a b g => encSA 0x01 (31#5 ++ p) d a b g
  | .cmpeq p a b g => encSA 0x02 0x00 (predField p) a b g
  | .cmpne p a b g => encSA 0x02 0x01 (predField p) a b g
  | .cmplt p a b g => encSA 0x02 0x02 (predField p) a b g
  | .cmple p a b g => encSA 0x02 0x03 (predField p) a b g
  | .cmpltn p a b g => encSA 0x02 0x04 (predField p) a b g
  | .cmplen p a b g => encSA 0x02 0x05 (predField p) a b g
  | .pand pd pa pb g => encSA 0x03 0x00 (predField pd) (predField pa) (predField pb) g
  | .por pd pa pb g => encSA 0x03 0x01 (predField pd) (predField pa) (predField pb) g
  | .pxor pd pa pb g => encSA 0x03 0x02 (predField pd) (predField pa) (predField pb) g
  | .pnot pd pa g => encSA 0x03 0x03 (predField pd) (predField pa) 0 g
  | .addi d a imm g => [packSI 0x04 d a imm g]
  | .andi d a imm g => [packSI 0x05 d a imm g]
  | .ori d a imm g => [packSI 0x06 d a imm g]
  | .xori d a imm g => [packSI 0x07 d a imm g]
  | .shli d a n g => [packSI 0x08 d a (0#7 ++ n) g]
  | .shri d a n g => [packSI 0x09 d a (0#7 ++ n) g]
  | .srai d a n g => [packSI 0x0A d a (0#7 ++ n) g]
  | .cmpeqi p a imm g => [packSI 0x0B (predField p) a imm g]
  | .cmplti p a imm g => [packSI 0x0C (predField p) a imm g]
  | .loop d imm g => [packSI 0x0D d 0 imm g]
  | .movi d imm g => [packSL 0x0E d imm g]
  | .sethi d imm g => [packSL 0x0F d imm g]
  | .br p neg off => [packSB 0x10 p (BitVec.ofBool neg) off]
  | .call p neg off => [packSB 0x11 p (BitVec.ofBool neg) off]
  | .jmp a g => encSA 0x12 0 0 a 0 g
  | .ret g => encSA 0x13 0 0 0 0 g
  | .fence mask sc g => [packSL 0x14 0 (mask ++ sc.code) g]
  | .rdc d c g => [packSI 0x15 d 0 c.num g]
  | .wrc c a g => [packSI 0x16 0 a c.num g]
  | .ldI8 d a oc off g => encSM 0x18 d a oc off g
  | .ldN8 d a oc off g => encSM 0x19 d a oc off g
  | .ldI16 d a oc off g => encSM 0x1A d a oc off g
  | .ldN16 d a oc off g => encSM 0x1B d a oc off g
  | .ldI32 d a oc off g => encSM 0x1C d a oc off g
  | .ldN32 d a oc off g => encSM 0x1D d a oc off g
  | .ld64 d a oc off g => encSM 0x1E d a oc off g
  | .st8 d a oc off g => encSM 0x20 d a oc off g
  | .st16 d a oc off g => encSM 0x21 d a oc off g
  | .st32 d a oc off g => encSM 0x22 d a oc off g
  | .st64 d a oc off g => encSM 0x23 d a oc off g
  | .lda d a oc sc w g => [packSA 0x24 d a 0 (oc ++ sc.code ++ w.code) g]
  | .stl d a oc sc w g => [packSA 0x25 d a 0 (oc ++ sc.code ++ w.code) g]
  | .aadd d a b oc g => encAt 0x26 0 d a b oc g
  | .aaddf d a b oc g => encAt 0x26 1 d a b oc g
  | .axchg d a b oc g => encAt 0x26 2 d a b oc g
  | .acas d a b oc g => encAt 0x26 3 d a b oc g
  | .amax d a b oc g => encAt 0x26 4 d a b oc g
  | .amin d a b oc g => encAt 0x26 5 d a b oc g
  | .amaxf d a b oc g => encAt 0x26 6 d a b oc g
  | .aclrmax d a oc g => encAt 0x26 7 d a 0 oc g
  | .aincb d a b oc g => encAt 0x26 8 d a b oc g
  | .aincw d a b oc g => encAt 0x26 9 d a b oc g
  | .adecz d a oc g => encAt 0x26 10 d a 0 oc g
  | .aaddl d a b oc g => encAt 0x26 11 d a b oc g
  | .axrd d a oc g => encAt 0x26 12 d a 0 oc g
  | .aaddN a b oc g => encAt 0x27 0 0 a b oc g
  | .aaddfN a b oc g => encAt 0x27 1 0 a b oc g
  | .axchgN a b oc g => encAt 0x27 2 0 a b oc g
  | .acasN d a b oc g => encAt 0x27 3 d a b oc g
  | .amaxN a b oc g => encAt 0x27 4 0 a b oc g
  | .aminN a b oc g => encAt 0x27 5 0 a b oc g
  | .amaxfN a b oc g => encAt 0x27 6 0 a b oc g
  | .aclrmaxN a oc g => encAt 0x27 7 0 a 0 oc g
  | .aincbN a b oc g => encAt 0x27 8 0 a b oc g
  | .aincwN a b oc g => encAt 0x27 9 0 a b oc g
  | .adeczN a oc g => encAt 0x27 10 0 a 0 oc g
  | .aaddlN a b oc g => encAt 0x27 11 0 a b oc g
  | .axadd a b oc g => encAt 0x27 12 0 a b oc g
  | .waitwEq d a b oc g => encAt 0x28 0 d a b oc g
  | .waitwNe d a b oc g => encAt 0x28 1 d a b oc g
  | .waitwGe d a b oc g => encAt 0x28 2 d a b oc g
  | .waitwLt d a b oc g => encAt 0x28 3 d a b oc g
  | .alock a oc g => encAt 0x28 4 0 a 0 oc g
  | .aunlk a oc g => encAt 0x28 5 0 a 0 oc g
  | .enq e a b g => [packSE 0x29 e.code a b 0 g]
  | .enqw e a b g => [packSE 0x2A e.code a b 0 g]
  | .mcw n a g => [packSE 0x2B 1 a 0 n g]
  | .mcrd a n g => [packSE 0x2C 1 a 0 n g]
  | .rdseq a e g => [packSE 0x2D e.code a 0 0 g]
  | .spawn d a b g => encSA 0x2E 0 d a b g
  | .popt d g => encSA 0x2E 1 d 0 0 g
  | .join a g => encSA 0x2E 2 0 a 0 g
  | .qput d a g => encSA 0x2E 3 d a 0 g
  | .qget d a b g => encSA 0x2E 4 d a b g
  | .rclm d a g => encSA 0x2E 5 d a 0 g
  | .evreg d a b g => encSA 0x2E 8 d a b g
  | .rpush d a r g => encSA 0x2F 0 d a (0#2 ++ r) g
  | .rpop d a r g => encSA 0x2F 1 d a (0#2 ++ r) g
  | .wfill d a r g => encSA 0x2F 2 d a (0#2 ++ r) g
  | .wfree d a r g => encSA 0x2F 3 d a (0#2 ++ r) g
  | .subscr d a r g => encSA 0x2F 4 d a (0#2 ++ r) g
  | .otw d a b g => encSA 0x30 0 d a b g
  | .gbind d a b g => encSA 0x30 1 d a b g
  | .ptinv a b g => encSA 0x30 2 0 a b g
  | .rlaunchStart d a b g => encSA 0x30 3 d a b g
  | .rlaunchUpdate d a b g => encSA 0x30 3 d a b g
  | .rlaunchStop d a b g => encSA 0x30 3 d a b g
  | .routw d a b g => encSA 0x30 4 d a b g
  | .publ d a b g => encSA 0x31 0 d a b g
  | .tvq d a b g => encSA 0x31 1 d a b g
  | .retain d a b g => encSA 0x31 2 d a b g
  | .repl d a b g => encSA 0x31 3 d a b g
  | .rcvrVer d a b g => encSA 0x31 4 d a b g
  | .rcvrHand d b g => encSA 0x31 4 d 0 b g
  | .trimSync d a b g => encSA 0x31 5 d a b g
  | .trimForce d a b g => encSA 0x31 5 d a b g
  | .twaitAny d a g => encSA 0x32 0 d a 0 g
  | .twaitAll d a g => encSA 0x32 1 d a 0 g
  | .tffr d a g => encSA 0x32 2 d a 0 g
  | .tclr d a g => encSA 0x32 3 d a 0 g
  | .cntrd d a g => encSA 0x32 4 d a 0 g
  | .cntset d a b g => encSA 0x32 5 d a b g
  | .waitc tl ld st cp g => [packSL 0x33 tl (ld ++ st ++ cp) g]
  | .ctxs d a b g => encSA 0x34 0 d a b g
  | .ctxr d a g => encSA 0x34 1 d a 0 g
  | .poisq d a g => encSA 0x34 2 d a 0 g
  | .nop g => [packSX 0 0 g]
  | .halt g => [packSX 1 0 g]
  | .yield g => [packSX 2 0 g]
  | .bkpt c g => [packSX 3 c g]
  | .trap n g => [packSX 4 n g]
  | .eret g => [packSX 5 0 g]
  | .phase g => [packSX 6 0 g]
  | .dep t0 t1 t2 => [packDep (depBits t0) (depBits t1) (depBits t2)]
  | .vadd m vd va vb k => encVR 0x01 m vd va vb k
  | .vsub m vd va vb k => encVR 0x02 m vd va vb k
  | .vmul m vd va vb k => encVR 0x03 m vd va vb k
  | .vfma m vd va vb k => encVR 0x04 m vd va vb k
  | .vfms m vd va vb k => encVR 0x05 m vd va vb k
  | .vnfma m vd va vb k => encVR 0x06 m vd va vb k
  | .vmin m vd va vb k => encVR 0x07 m vd va vb k
  | .vmax m vd va vb k => encVR 0x08 m vd va vb k
  | .vabs m vd va k => encVR 0x09 m vd va 0 k
  | .vneg m vd va k => encVR 0x0A m vd va 0 k
  | .vand vd va vb k => encVO 0x10 0 vd va vb k
  | .vor vd va vb k => encVO 0x11 0 vd va vb k
  | .vxor vd va vb k => encVO 0x12 0 vd va vb k
  | .vnot vd va k => encVO 0x13 0 vd va 0 k
  | .vshl vd va vb k => encVO 0x14 0 vd va vb k
  | .vshr vd va vb k => encVO 0x15 0 vd va vb k
  | .vsra vd va vb k => encVO 0x16 0 vd va vb k
  | .vshlImm vd va n => [packVI 0x17 vd va n 0]
  | .vshrImm vd va n => [packVI 0x18 vd va n 0]
  | .vsraImm vd va n => [packVI 0x19 vd va n 0]
  | .vcmp c kd va vb k => encVO 0x20 c.code (0#3 ++ kd) va vb k
  | .vsel vd va vb k => encVO 0x21 0 vd va vb k
  | .vmsk op kd ka kb => encVO 0x22 op.code (0#3 ++ kd) (0#3 ++ ka) (0#3 ++ kb) 0
  | .vcls kd va set k => encVO 0x23 0 (0#3 ++ kd) va set k
  | .viota vd f k => encVO 0x24 0 vd 0 (fmtField f) k
  | .vcvt m vd va f k => encVR 0x28 m vd va (fmtField f) k
  | .vcvtw m vd va f k => encVR 0x29 m vd va (fmtField f) k
  | .vcvtn m vd va f k => encVR 0x2A m vd va (fmtField f) k
  | .vpack m vd va w => encVR 0x2B m vd va (0#3 ++ w) 0
  | .vunpk m vd va w => encVR 0x2C m vd va (0#3 ++ w) 0
  | .vred m op vd va k => encVR 0x30 m vd va (0#4 ++ op.code) k
  | .vamax m vd va vb k => encVR 0x31 m vd va vb k
  | .vdot m vd va vb k => encVR 0x32 m vd va vb k
  | .vsplat vd va i => [packVI 0x38 vd va i 0]
  | .vsplatImm vd v => [packVI 0x38 vd 0 v 1]
  | .vsplatReg vd a => [packVI 0x38 vd (0#1 ++ a) 0 2]
  | .vmov vd va k => encVO 0x39 0 vd va 0 k
  | .vperm vd va vb k => encVO 0x3A 0 vd va vb k
  | .vslide vd va sh => [packVI 0x3B vd va sh 0]
  | .vslideRot vd va sh => [packVI 0x3B vd va sh 1]
  | .vexp2 m vd va k => encVR 0x40 m vd va 0 k
  | .vlog2 m vd va k => encVR 0x41 m vd va 0 k
  | .vrcp m vd va k => encVR 0x42 m vd va 0 k
  | .vrsq m vd va k => encVR 0x43 m vd va 0 k
  | .vsqrt m vd va k => encVR 0x44 m vd va 0 k
  | .vdiv m vd va vb k => encVR 0x45 m vd va vb k
  | .vtanh m vd va k => encVR 0x46 m vd va 0 k
  | .vsig m vd va k => encVR 0x47 m vd va 0 k
  | .vscl m vd va vb k => encVR 0x48 m vd va vb k
  | .vqnt m vd va vb k => encVR 0x49 m vd va vb k
  | .verrf m vd va vb k => encVR 0x4A m vd va vb k
  | .vshp a => encVO 0x50 0 0 (0#1 ++ a) 0 0
  | .vtag vd va f => encVO 0x51 0 vd va (fmtField f) 0
  | .vld vd a off oc => [packVM 0x58 vd a off oc]
  | .vst vd a off oc => [packVM 0x59 vd a off oc]
  | .vldx vd vi a k oc => [packVR 0x5A vd vi (0#1 ++ a) k oc]
  | .vstx vd vi a k oc => [packVR 0x5B vd vi (0#1 ++ a) k oc]
  | .vchain m obj ws =>
    packVC (BitVec.ofNat 3 (ws.length - 1)) obj (BitVec.ofBool m.sat ++ m.rm.code ++ 0#2)
      :: ws.map fun | some c => c.encode | none => 0
  | .mldw sub tag a => [packME 0 0x01 0 a 0 (sub ++ tag.code ++ 0#6)]
  | .mldwt sub tag a => [packME 0 0x02 0 a 0 (sub ++ tag.code ++ 0#6)]
  | .mgo t sub => [packME 0 0x03 t 0 0 (sub ++ 0#10)]
  | .mgob t sub => [packME 0 0x04 t 0 0 (sub ++ 0#10)]
  | .mgath a b size nm1 => [packME 0 0x05 0 a b (0#2 ++ size ++ nm1)]
  | .msp n => [packME 0 0x06 0 0 0 (0#8 ++ n)]
  | .msamp a b e0 e1 => [packME 1 0x07 0 a b 0, packExt e0 e1 0 0]
  | .msgo t => [packME 0 0x08 t 0 0 0]
  | .mnorm side tag a b => [packME 0 0x09 0 a b (BitVec.ofBool side ++ tag.code ++ 0#7)]
  | .malias a b e0 => [packME 1 0x0A 0 a b 0, packExt e0 0 0 0]
  | .mdrain t a b sn sat tag => [packME 0 0x0B t a b (BitVec.ofBool sn ++ BitVec.ofBool sat ++ tag.code ++ 0#6)]
  | .mdraina t a b e0 clamp oc => [packME 1 0x0C t a b (BitVec.ofBool clamp ++ 0#7 ++ oc), packExt e0 0 0 0]
  | .mdrainx t a b oc => [packME 0 0x0D t a b (0#8 ++ oc)]
  | .mrda t a b => [packME 0 0x0E t a b 0]
  | .mzero t i32 => [packME 0 0x0F t 0 0 (0#11 ++ BitVec.ofBool i32)]
  | .mvar a => [packME 0 0x10 0 a 0 0]
  | .mstat a => [packME 0 0x11 0 a 0 0]
  | .mmode m => [packME 0 0x12 0 0 0 (0#10 ++ m.code)]
  | .cpy tag a b c tv oc => [packTU 0 0x01 tag a b c (BitVec.ofBool tv ++ oc)]
  | .cpys tag a b c e0 e1 e2 oc => [packTU 1 0x02 tag a b c (0#1 ++ oc), packExt e0 e1 e2 0]
  | .cpyd tag a b c e0 e1 oc => [packTU 1 0x03 tag a b c (0#1 ++ oc), packExt e0 e1 0 0]
  | .cpyt tag a b c e0 e1 es oc => [packTU 1 0x04 tag a b c (0#1 ++ oc), packExt e0 e1 0 (0#15 ++ es)]
  | .cpyp tag a b c e0 e1 e2 q es oc => [packTU 1 0x05 tag a b c (0#1 ++ oc), packExt e0 e1 e2 (q ++ es)]
  | .cpyh tag a b c ord oc => [packTU 0 0x06 tag a b c (BitVec.ofBool ord ++ oc)]
  | .chld tag a b c nm1 k dl oc => [packTU 1 0x07 tag a b c (0#1 ++ oc), packExt 0 0 0 (dl ++ k ++ nm1)]
  | .pfch tag a b c oc => [packTU 0 0x08 tag a b c (0#1 ++ oc)]
  | .pfchMap tag a b c oc => [packTU 0 0x08 tag a b c (1#1 ++ oc)]
  | .evct tag a c oc => [packTU 0 0x09 tag a 0 c (0#1 ++ oc)]
  | .evctUnmap tag a oc => [packTU 0 0x09 tag a 0 0 (1#1 ++ oc)]
  | .ctrb tag a b c oc => [packTU 0 0x0A tag a b c (0#1 ++ oc)]
  | .ctrbXa tag a b c oc => [packTU 0 0x0A tag a b c (1#1 ++ oc)]
  | .rdyw tag a c oc => [packTU 0 0x0B tag a 0 c (0#1 ++ oc)]
  | _ => []

/-- The stream whose map decodes an instruction's words: none for the SQ, some for an engine; DEP stands in every engine's stream. -/
def Instr.stream : Instr → Option Eng
  | .dep .. => some .ve
  | .vadd .. | .vsub .. | .vmul .. | .vfma .. | .vfms .. | .vnfma .. | .vmin .. | .vmax .. | .vabs .. | .vneg .. | .vand .. | .vor ..
  | .vxor .. | .vnot .. | .vshl .. | .vshr .. | .vsra .. | .vshlImm .. | .vshrImm .. | .vsraImm .. | .vcmp .. | .vsel .. | .vmsk ..
  | .vcls .. | .viota .. | .vcvt .. | .vcvtw .. | .vcvtn .. | .vpack .. | .vunpk .. | .vred .. | .vamax .. | .vdot .. | .vsplat ..
  | .vsplatImm .. | .vsplatReg .. | .vmov .. | .vperm .. | .vslide .. | .vslideRot .. | .vexp2 .. | .vlog2 .. | .vrcp .. | .vrsq ..
  | .vsqrt .. | .vdiv .. | .vtanh .. | .vsig .. | .vscl .. | .vqnt .. | .verrf .. | .vshp .. | .vtag .. | .vld .. | .vst .. | .vldx ..
  | .vstx .. | .vchain .. => some .ve
  | .mldw .. | .mldwt .. | .mgo .. | .mgob .. | .mgath .. | .msp .. | .msamp .. | .msgo .. | .mnorm .. | .malias .. | .mdrain ..
  | .mdraina .. | .mdrainx .. | .mrda .. | .mzero .. | .mvar .. | .mstat .. | .mmode .. => some .me
  | .cpy .. | .cpys .. | .cpyd .. | .cpyt .. | .cpyp .. | .cpyh .. | .chld .. | .pfch .. | .pfchMap .. | .evct .. | .evctUnmap ..
  | .ctrb .. | .ctrbXa .. | .rdyw .. => some .tu
  | _ => none

/-- Decode the words of a stream: the SQ's section (none) or an engine's. -/
def decodeStream (st : Option Eng) (ws : List Half) : Decoded :=
  match ws with
  | [] => .bad 0
  | w :: rest =>
    match st with
    | none => Decoded.ofOption 1 (decodeSq w)
    | some e => decodeEngine e w rest

/-- The 32-bit words of a table row's bits, word 0 in the least significant bits. -/
def tableWords (w : Nat) : Nat → List Half
  | 0 => []
  | n + 1 => BitVec.ofNat 32 w :: tableWords (w / 2 ^ 32) n

/-- The stream in which a row's words are read when nothing else says which section holds them: the first of SQ, VE, ME and TU that
accepts them. -/
def tableStream (ws : List Half) : Option (Option Eng) :=
  [none, some Eng.ve, some Eng.me, some Eng.tu].find? fun st =>
    match decodeStream st ws with
    | .ok .. => true
    | .bad _ => false

/-- The instruction of a row of spec/opcode_table.json whose bits are w, followed by words of zeros. A row
without words is an event and decodes to nothing. -/
def decodeTableWord (nbits w : Nat) : Option Instr :=
  let ws := tableWords (w % 2 ^ nbits) 9
  if nbits = 0 then none
  else match tableStream ws with
    | none => none
    | some st =>
      match decodeStream st ws with
      | .ok i _ => some i
      | .bad _ => none

end Sys2Proof
end

