-- ==== Sys2Proof/Config.lean ====
section
/-! DEFINITION. What the spec leaves open: constants without a body. Nothing can be proved about their values, so a statement that
uses them holds for every value. Each is applied to the tick of State, to the operands it depends on, or to both. -/

namespace Sys2Proof.Config

/-- Which of the steps that the device may take next is taken: reduced modulo their number (R18, R50, R57; log 1). -/
opaque pick : Nat → Nat

/-- How many cc a step takes beyond the first (R169, R173, R254; log 9). -/
opaque extraCycles : Nat → Nat

/-- Whether a die that is over a limit withholds an issue slot (R26). -/
opaque withhold : Nat → Bool

/-- Whether a translation may still use an entry that was changed without PTINV (R390; log 10). -/
opaque useOldEntry : Nat → Bool

/-- Where the device places data that it allocates itself: replicas, partition page moves (R414, R315; log 11). -/
opaque placement : Nat → Nat

/-- SHA-384 of a byte string, as a number (R468, R494; log 12). -/
opaque sha384 : List Byte → BitVec 384

/-- RSASSA-PSS verification with SHA-384: modulus, message, signature (R494; log 12). -/
opaque rsaVerify : List Byte → List Byte → List Byte → Bool

/-- SLH-DSA-SHA2-192s verification: public key, message, signature (R494; log 12). -/
opaque slhVerify : List Byte → List Byte → List Byte → Bool

/-- The report that answers an identity challenge (R495; log 12). -/
opaque identityReport : Word → List Byte

/-- The bytes of one item of a flat image, whose inner layout the spec gives as the order of its entry (R468; log 13). -/
opaque imageItem : Nat → Nat → List Byte

/-- A value that the spec leaves open, fresh for each tick (log 1). -/
opaque freeWord : Nat → Word

end Sys2Proof.Config
end

