-- ==== Sys2Proof/Machine/Flags.lean ====
section
/-! DEFINITION. The exception events of computing operations and their counts (R93). -/

namespace Sys2Proof.Machine

/-- Counts of the six exception events (R93, R441). -/
structure Ev where
  nan : Nat
  inf : Nat
  ovf : Nat
  unf : Nat
  inv : Nat
  skip : Nat
  deriving DecidableEq, Repr

def Ev.zero : Ev := ⟨0, 0, 0, 0, 0, 0⟩

def Ev.add (a b : Ev) : Ev :=
  ⟨a.nan + b.nan, a.inf + b.inf, a.ovf + b.ovf, a.unf + b.unf, a.inv + b.inv, a.skip + b.skip⟩

def Ev.sum (l : List Ev) : Ev := l.foldl Ev.add Ev.zero

/-- One event when a condition holds. -/
def one (b : Bool) : Nat := if b then 1 else 0

/-- The counts of one element result, each event at most once (R93). -/
def Ev.ofFlags (nan inf ovf unf inv : Bool) : Ev := ⟨one nan, one inf, one ovf, one unf, one inv, 0⟩

/-- An invalid operation and nothing else (R90). -/
def Ev.invalid (b : Bool) : Ev := { Ev.zero with inv := one b }

/-- The count of one of the six events by its number in the order of R93. -/
def Ev.get (e : Ev) : Nat → Nat
  | 0 => e.nan
  | 1 => e.inf
  | 2 => e.ovf
  | 3 => e.unf
  | 4 => e.inv
  | _ => e.skip

/-- No event of any kind. -/
def Ev.isZero (e : Ev) : Bool := e == Ev.zero

end Sys2Proof.Machine
end

