-- ==== Sys2Proof/Machine/Fp.lean ====
section
/-! DEFINITION. Number formats, exact values, rounding, conversions, NaN rules and special functions (R74 to R103).
An exact value is a fraction times a power of two; one rounding function serves every format and mode. -/

namespace Sys2Proof.Machine

/-! ## Formats (R74 to R80) -/

/-- Element width in bits (R74). EMPTY has no elements. -/
def Fmt.width : Fmt → Nat
  | .empty => 0
  | .fp32 | .i32 | .n32 => 32
  | .bf16 | .fp16 | .i16 | .n16 => 16
  | .e4m3 | .e5m2 | .i8 | .n8 => 8
  | .e3m2 | .e2m3 => 6
  | .e2m1 | .i4 => 4

/-- Elements of a 512-byte register (R76). -/
def Fmt.count : Fmt → Nat
  | .empty => 0
  | .fp32 | .i32 | .n32 => 128
  | .bf16 | .fp16 | .i16 | .n16 => 256
  | .e4m3 | .e5m2 | .i8 | .n8 => 512
  | .e3m2 | .e2m3 => 680
  | .e2m1 | .i4 => 1024

def Fmt.isFloat : Fmt → Bool
  | .fp32 | .bf16 | .fp16 | .e4m3 | .e5m2 | .e3m2 | .e2m3 | .e2m1 => true
  | _ => false

def Fmt.isSigned : Fmt → Bool
  | .i8 | .i4 | .i16 | .i32 => true
  | _ => false

def Fmt.isInt : Fmt → Bool
  | .i8 | .i4 | .i16 | .i32 | .n8 | .n16 | .n32 => true
  | _ => false

/-- E4M3, E5M2, E3M2, E2M3 and E2M1: the formats whose results R87 decides. -/
def Fmt.isNarrow : Fmt → Bool
  | .e4m3 | .e5m2 | .e3m2 | .e2m3 | .e2m1 => true
  | _ => false

/-- A floating-point layout: exponent bits, trailing significand bits, bias (R77). -/
structure Lay where
  eb : Nat
  m : Nat
  bias : Nat
  /-- Infinities and NaNs are encoded as IEEE 754 does. -/
  ieee : Bool
  /-- The largest finite magnitude is maxK × 2^(maxQ). -/
  maxK : Nat
  maxQ : Int
  deriving DecidableEq, Repr

def Fmt.lay : Fmt → Lay
  | .bf16 => ⟨8, 7, 127, true, 2 ^ 8 - 1, 120⟩
  | .fp16 => ⟨5, 10, 15, true, 2 ^ 11 - 1, 5⟩
  | .e4m3 => ⟨4, 3, 7, false, 14, 5⟩
  | .e5m2 => ⟨5, 2, 15, true, 7, 13⟩
  | .e3m2 => ⟨3, 2, 3, false, 7, 2⟩
  | .e2m3 => ⟨2, 3, 1, false, 15, -1⟩
  | .e2m1 => ⟨2, 1, 1, false, 3, 1⟩
  | _ => ⟨8, 23, 127, true, 2 ^ 24 - 1, 104⟩

/-! ## Exact values -/

/-- A finite value (−1)^neg × num / den × 2^exp; a zero has num = 0 and keeps its sign. -/
structure Ex where
  neg : Bool
  num : Nat
  den : Nat
  exp : Int
  deriving DecidableEq, Repr

/-- The value of an encoding, or the exact result of an operation before rounding. A NaN's payload is aligned to FP32's 23 bits. -/
inductive Val where
  | nan (neg : Bool) (payload : Nat) (signalling : Bool)
  | inf (neg : Bool)
  | fin (x : Ex)
  deriving DecidableEq, Repr

def Ex.zero (neg : Bool) : Ex := ⟨neg, 0, 1, 0⟩
def Ex.ofInt (i : Int) : Ex := ⟨i < 0, i.natAbs, 1, 0⟩
def Ex.flip (x : Ex) : Ex := { x with neg := !x.neg }

/-- Shift left by a signed amount that the caller knows is not negative. -/
def shl (n : Nat) (k : Int) : Nat := n * 2 ^ k.toNat

def Ex.mul (a b : Ex) : Ex := ⟨a.neg != b.neg, a.num * b.num, a.den * b.den, a.exp + b.exp⟩

/-- a / b for a non-zero b. -/
def Ex.div (a b : Ex) : Ex := ⟨a.neg != b.neg, a.num * b.den, a.den * b.num, a.exp - b.exp⟩

/-- The exact sum; an exact zero has the sign of R83 (rdn: the mode is RDN). -/
def Ex.add (rdn : Bool) (a b : Ex) : Ex :=
  let e := min a.exp b.exp
  let x : Int := shl (a.num * b.den) (a.exp - e)
  let y : Int := shl (b.num * a.den) (b.exp - e)
  let s := (if a.neg then -x else x) + (if b.neg then -y else y)
  if s = 0 then Ex.zero (if a.neg == b.neg then a.neg else rdn)
  else ⟨s < 0, s.natAbs, a.den * b.den, e⟩

/-- Is |a| < |b|? -/
def Ex.magLt (a b : Ex) : Bool :=
  let e := min a.exp b.exp
  shl (a.num * b.den) (a.exp - e) < shl (b.num * a.den) (b.exp - e)

/-- Is a < b as a real number? -/
def Ex.lt (a b : Ex) : Bool :=
  if a.num = 0 ∧ b.num = 0 then false
  else if a.num = 0 then !b.neg
  else if b.num = 0 then a.neg
  else if a.neg then (if b.neg then Ex.magLt b a else true)
  else (if b.neg then false else Ex.magLt a b)

/-- Is a = b as a real number? -/
def Ex.eqv (a b : Ex) : Bool := !Ex.lt a b && !Ex.lt b a

/-! ## Encodings -/

def quietBit : Nat := 2 ^ 22

/-- The value of an encoding (R77, R78). -/
def decodeVal (f : Fmt) (bits : Nat) : Val :=
  let l := Fmt.lay f
  let m := bits % 2 ^ l.m
  let e := bits / 2 ^ l.m % 2 ^ l.eb
  let s := bits / 2 ^ (l.m + l.eb) % 2 == 1
  if l.ieee && e == 2 ^ l.eb - 1 then
    if m = 0 then .inf s else .nan s (m * 2 ^ (23 - l.m)) (m / 2 ^ (l.m - 1) % 2 == 0)
  else if f = .e4m3 ∧ e = 15 ∧ m = 7 then .nan s quietBit false
  else if e = 0 then .fin ⟨s, m, 1, 1 - (l.bias : Int) - l.m⟩
  else .fin ⟨s, 2 ^ l.m + m, 1, (e : Int) - l.bias - l.m⟩

def signBit (f : Fmt) (neg : Bool) : Nat := if neg then 2 ^ ((Fmt.lay f).m + (Fmt.lay f).eb) else 0

def encodeInf (f : Fmt) (neg : Bool) : Nat :=
  signBit f neg + (2 ^ (Fmt.lay f).eb - 1) * 2 ^ (Fmt.lay f).m

def encodeMax (f : Fmt) (neg : Bool) : Nat :=
  let l := Fmt.lay f
  signBit f neg + ((l.maxQ + l.m + l.bias).toNat * 2 ^ l.m + (l.maxK - 2 ^ l.m))

/-- A quiet NaN of a format that has one (R78, R89). -/
def encodeNan (f : Fmt) (neg : Bool) (payload : Nat) : Nat :=
  let l := Fmt.lay f
  if f = .e4m3 then signBit f neg + 0x7F
  else encodeInf f neg + (payload / 2 ^ (23 - l.m) ||| 2 ^ (l.m - 1))

/-- The formats with no NaN (R90). -/
def Fmt.noNan : Fmt → Bool
  | .e3m2 | .e2m3 | .e2m1 => true
  | _ => false

/-- The default NaN before it is encoded (R78). -/
def defaultNan : Val := .nan false quietBit false

/-! ## Rounding (R83, R84, R86) -/

/-- ⌊log2 (num / den)⌋ for a positive fraction. -/
def floorLog2 (num den : Nat) : Int :=
  let d : Int := (num.log2 : Int) - den.log2
  if shl den d ≤ shl num (-d) then d else d - 1

/-- How a magnitude lies between two neighbours k and k + 1 of one quantum: k, and the remainder r of d. -/
structure Cut where
  k : Nat
  r : Nat
  d : Nat
  deriving DecidableEq, Repr

/-- The magnitude of x in units of 2^q. -/
def Ex.cut (x : Ex) (q : Int) : Cut :=
  let n := shl x.num (x.exp - q)
  let d := shl x.den (q - x.exp)
  ⟨n / d, n % d, d⟩

/-- The rounded multiple of the quantum; u is the draw of R86 for SR. -/
def roundCut (mode : RMode) (neg : Bool) (u : Nat) (c : Cut) : Nat :=
  if c.r = 0 then c.k
  else
    let up : Bool := match mode with
      | .rne => c.d < 2 * c.r || (2 * c.r == c.d && c.k % 2 == 1)
      | .rtz => false
      | .rdn => neg
      | .rup => !neg
      | .sr =>
        if neg then !((c.d - c.r) * 2 ^ 32 > u * c.d) else c.r * 2 ^ 32 > u * c.d
    if up then c.k + 1 else c.k

/-- Does the magnitude k × 2^q exceed the largest finite magnitude of f? -/
def aboveMax (l : Lay) (k : Nat) (q : Int) : Bool :=
  let e := min q l.maxQ
  shl l.maxK (l.maxQ - e) < shl k (q - e)

/-- The result of an overflow (R84, R87). -/
def overflowResult (f : Fmt) (rnd : Rnd) (neg : Bool) : Nat :=
  let isMax : Bool := match rnd.rm with
    | .rne | .sr => false
    | .rtz => true
    | .rdn => !neg
    | .rup => neg
  match f with
  | .e4m3 => if rnd.sat || isMax then encodeMax f neg else encodeNan f neg 0
  | .e5m2 => if rnd.sat || isMax then encodeMax f neg else encodeInf f neg
  | .e3m2 | .e2m3 | .e2m1 => encodeMax f neg
  | _ => if isMax then encodeMax f neg else encodeInf f neg

/-- Is an encoding a NaN, or an infinity, of its format? -/
def isNanBits (f : Fmt) (b : Nat) : Bool := match decodeVal f b with | .nan .. => true | _ => false
def isInfBits (f : Fmt) (b : Nat) : Bool := match decodeVal f b with | .inf _ => true | _ => false

/-- A finite exact result rounded once to f, with its events; inv is the invalid flag found so far. -/
def roundFin (f : Fmt) (rnd : Rnd) (u : Nat) (inv : Bool) (x : Ex) : Nat × Ev :=
  let l := Fmt.lay f
  if x.num = 0 then (signBit f x.neg, Ev.ofFlags false false false false inv)
  else
    let lg := floorLog2 x.num x.den + x.exp
    let emin : Int := 1 - (l.bias : Int)
    let q := max lg emin - l.m
    let c := x.cut q
    let mode := if rnd.rm = .sr ∧ (aboveMax l c.k q ∨ (c.r ≠ 0 ∧ aboveMax l (c.k + 1) q)) then RMode.rne else rnd.rm
    let k := roundCut mode x.neg u c
    if aboveMax l k q then
      let b := overflowResult f rnd x.neg
      (b, Ev.ofFlags (isNanBits f b) (isInfBits f b) true false inv)
    else
      let bits := if k < 2 ^ l.m then k
        else if k = 2 ^ (l.m + 1) then (q + 1 + l.m + l.bias).toNat * 2 ^ l.m
        else (q + l.m + l.bias).toNat * 2 ^ l.m + (k - 2 ^ l.m)
      (signBit f x.neg + bits, Ev.ofFlags false false false (lg < emin && c.r != 0) inv)

/-- An exact result delivered in format f: NaNs and infinities by R87, R89 and R90, finite values rounded once. -/
def deliver (f : Fmt) (rnd : Rnd) (u : Nat) (v : Val × Bool) : Nat × Ev :=
  match v.1 with
  | .fin x => roundFin f rnd u v.2 x
  | .inf neg =>
    match f with
    | .e4m3 =>
      if rnd.sat then (encodeMax f neg, Ev.ofFlags false true false false v.2)
      else (encodeNan f neg 0, Ev.ofFlags true false false false true)
    | .e5m2 =>
      if rnd.sat then (encodeMax f neg, Ev.ofFlags false false false false v.2)
      else (encodeInf f neg, Ev.ofFlags false true false false v.2)
    | .e3m2 | .e2m3 | .e2m1 => (encodeMax f neg, Ev.ofFlags false false false false true)
    | _ => (encodeInf f neg, Ev.ofFlags false true false false v.2)
  | .nan neg pl _ =>
    if Fmt.noNan f then (0, Ev.ofFlags false false false false true)
    else (encodeNan f neg pl, Ev.ofFlags true false false false v.2)

/-! ## Operations on values: the exact result and whether the operation is invalid (R90 to R92) -/

def Val.isNan : Val → Bool
  | .nan .. => true
  | _ => false

def Val.isSnan : Val → Bool
  | .nan _ _ s => s
  | _ => false

def Val.isFin : Val → Bool
  | .fin _ => true
  | _ => false

def Val.isZero : Val → Bool
  | .fin x => x.num == 0
  | _ => false

def Val.neg : Val → Bool
  | .nan n _ _ => n
  | .inf n => n
  | .fin x => x.neg

def Val.flip : Val → Val
  | .nan n p s => .nan n p s
  | .inf n => .inf (!n)
  | .fin x => .fin x.flip

def Val.quiet : Val → Val
  | .nan n p _ => .nan n (p ||| quietBit) false
  | v => v

/-- |v| of a value that is no NaN. -/
def Val.abs : Val → Val
  | .nan n p s => .nan n p s
  | .inf _ => .inf false
  | .fin x => .fin { x with neg := false }

/-- The first NaN of a list of operands, quietened (R90). -/
def firstNan : List Val → Option Val
  | [] => none
  | v :: l => if v.isNan then some v.quiet else firstNan l

def anySnan (l : List Val) : Bool := l.any Val.isSnan

/-- a + b (R90). -/
def vAdd (rdn : Bool) (a b : Val) : Val × Bool :=
  match firstNan [a, b] with
  | some n => (n, anySnan [a, b])
  | none =>
    match a, b with
    | .inf s, .inf t => if s == t then (.inf s, false) else (defaultNan, true)
    | .inf s, _ => (.inf s, false)
    | _, .inf t => (.inf t, false)
    | .fin x, .fin y => (.fin (Ex.add rdn x y), false)
    | _, _ => (defaultNan, true)

/-- a × b (R90). -/
def vMul (a b : Val) : Val × Bool :=
  match firstNan [a, b] with
  | some n => (n, anySnan [a, b])
  | none =>
    match a, b with
    | .fin x, .fin y => (.fin (Ex.mul x y), false)
    | _, _ => if a.isZero || b.isZero then (defaultNan, true) else (.inf (a.neg != b.neg), false)

/-- a / b, with the special cases of the VDIV row of R102. -/
def vDiv (a b : Val) : Val × Bool :=
  match firstNan [a, b] with
  | some n => (n, anySnan [a, b])
  | none =>
    match a, b with
    | .fin x, .fin y =>
      if y.num = 0 then (if x.num = 0 then (defaultNan, true) else (.inf (x.neg != y.neg), false))
      else if x.num = 0 then (.fin (Ex.zero (x.neg != y.neg)), false)
      else (.fin (Ex.div x y), false)
    | .inf s, .fin y => (.inf (s != y.neg), false)
    | .fin x, .inf t => (.fin (Ex.zero (x.neg != t)), false)
    | _, _ => (defaultNan, true)

/-- a × b + c rounded once, with R91's treatment of 0 × ∞. -/
def vFma (rdn : Bool) (a b c : Val) : Val × Bool :=
  let sn := anySnan [a, b, c]
  match firstNan [a, b] with
  | some n => (n, sn)
  | none =>
    match vMul a b with
    | (.nan .., _) => (if c.isNan then c.quiet else defaultNan, true)
    | (p, _) =>
      if c.isNan then (c.quiet, sn)
      else vAdd rdn p c

/-- Is a below b in the order of R92, where −0 < +0? -/
def vLt92 (a b : Val) : Bool :=
  match a, b with
  | .inf s, .inf t => s && !t
  | .inf s, _ => s
  | _, .inf t => !t
  | .fin x, .fin y =>
    if x.num = 0 ∧ y.num = 0 then x.neg && !y.neg else Ex.lt x y
  | _, _ => false

def vMin (a b : Val) : Val × Bool :=
  match firstNan [a, b] with
  | some n => (n, anySnan [a, b])
  | none => (if vLt92 b a then b else a, false)

def vMax (a b : Val) : Val × Bool :=
  match firstNan [a, b] with
  | some n => (n, anySnan [a, b])
  | none => (if vLt92 a b then b else a, false)

/-- The operand of larger magnitude with its sign; a on equal magnitudes (R92). -/
def vMaxMag (a b : Val) : Val × Bool :=
  match firstNan [a, b] with
  | some n => (n, anySnan [a, b])
  | none => (if vLt92 a.abs b.abs then b else a, false)

/-- Comparison of two values that are no NaNs: −0 equals +0 (R214). -/
def vLtReal (a b : Val) : Bool :=
  match a, b with
  | .inf s, .inf t => s && !t
  | .inf s, _ => s
  | _, .inf t => !t
  | .fin x, .fin y => Ex.lt x y
  | _, _ => false

/-! ## Integer formats and conversions (R80, R87 to R89) -/

def intMin (f : Fmt) : Int := if Fmt.isSigned f then -(2 ^ (Fmt.width f - 1) : Nat) else 0
def intMax (f : Fmt) : Int := if Fmt.isSigned f then (2 ^ (Fmt.width f - 1) : Nat) - 1 else (2 ^ Fmt.width f : Nat) - 1

/-- The integer that an encoding stands for. -/
def decodeInt (f : Fmt) (bits : Nat) : Int :=
  if Fmt.isSigned f && 2 ^ (Fmt.width f - 1) ≤ bits then (bits : Int) - (2 ^ Fmt.width f : Nat) else bits

/-- The low bits of an integer as an encoding of f. -/
def encodeInt (f : Fmt) (i : Int) : Nat := (i % (2 ^ Fmt.width f : Nat)).toNat

/-- Clamp to the range of f, with OVF when the clamp changes the value. -/
def clampInt (f : Fmt) (inv : Bool) (i : Int) : Nat × Ev :=
  let c := max (intMin f) (min (intMax f) i)
  (encodeInt f c, Ev.ofFlags false false (c != i) false inv)

/-- A finite value rounded to an integer by the mode, then clamped (R88); above the destination's largest magnitude SR rounds as RNE (R86). -/
def roundToInt (f : Fmt) (rnd : Rnd) (u : Nat) (inv : Bool) (x : Ex) : Nat × Ev :=
  let c := x.cut 0
  let top : Nat := max (intMin f).natAbs (intMax f).natAbs
  let mode := if rnd.rm = .sr ∧ (top < c.k ∨ (top = c.k ∧ c.r ≠ 0)) then RMode.rne else rnd.rm
  let k : Int := roundCut mode x.neg u c
  clampInt f inv (if x.neg then -k else k)

/-- An exact result delivered in any format (R87 to R90). -/
def deliverAny (f : Fmt) (rnd : Rnd) (u : Nat) (v : Val × Bool) : Nat × Ev :=
  if Fmt.isFloat f then deliver f rnd u v
  else match v.1 with
    | .fin x => roundToInt f rnd u v.2 x
    | .inf neg => (encodeInt f (if neg then intMin f else intMax f), Ev.ofFlags false false false false true)
    | .nan .. => (0, Ev.ofFlags false false false false true)

/-- The value of an encoding of any numeric format. -/
def decodeAny (f : Fmt) (bits : Nat) : Val :=
  if Fmt.isFloat f then decodeVal f bits else .fin (Ex.ofInt (decodeInt f bits))

/-- A conversion of one encoding from format g to format f (R87 to R89, R219). -/
def convert (g f : Fmt) (rnd : Rnd) (u : Nat) (bits : Nat) : Nat × Ev :=
  let v := decodeAny g bits
  if g = f then (bits, Ev.ofFlags v.isNan (match v with | .inf _ => true | _ => false) false false v.isSnan)
  else if Fmt.isInt g && Fmt.isInt f then clampInt f false (decodeInt g bits)
  else deliverAny f rnd u (v.quiet, v.isSnan)

/-- Rounding to nearest even without saturation. -/
def rneNoSat : Rnd := ⟨false, .rne⟩

/-- An FP32 operation rounded to nearest even: the result's bits and its events. -/
def fp32Rne (v : Val × Bool) : Nat × Ev := deliver .fp32 rneNoSat 0 v

/-! ## Random draws (R86) -/

/-- The 64-bit draw for a seed and a counter; every sum and product is modulo 2^64 (R13). -/
def splitmix64 (seed c : Word) : Word :=
  let z := seed + (c + 1) * 0x9E3779B97F4A7C15#64
  let z := (z ^^^ (z >>> 30)) * 0xBF58476D1CE4E5B9#64
  let z := (z ^^^ (z >>> 27)) * 0x94D049BB133111EB#64
  z ^^^ (z >>> 31)

/-- The 32-bit draw u of element e (R86). -/
def srDraw (seed : Word) (role : BitVec 16) (rstrm : Half) (e : Nat) : Nat :=
  (splitmix64 seed (rstrm ++ role ++ BitVec.ofNat 16 e)).toNat / 2 ^ 32

/-! ## Special functions (R102): fixed point with `prec` fractional bits, far below any rounding boundary of FP32 -/

/-- Fractional bits of the fixed-point work (assumption log 8). -/
def prec : Nat := 704

/-- ⌊√n⌋ by bits from k − 1 down. -/
def isqrtGo (n : Nat) : Nat → Nat → Nat
  | 0, r => r
  | k + 1, r => if (r + 2 ^ k) * (r + 2 ^ k) ≤ n then isqrtGo n k (r + 2 ^ k) else isqrtGo n k r

def isqrt (n : Nat) : Nat := isqrtGo n (n.log2 / 2 + 1) 0

/-- Sum of y^(2i+1)/(2i+1) in fixed point: the series of artanh; p is the running power, y2 the square of the argument. -/
def artanhGo (y2 : Nat) : Nat → Nat → Nat → Nat → Nat
  | 0, _, _, acc => acc
  | fuel + 1, i, p, acc => artanhGo y2 fuel (i + 1) (p * y2 / 2 ^ prec) (acc + p / (2 * i + 1))

/-- artanh(n / d) for 0 ≤ n/d ≤ 1/3, in fixed point. -/
def artanhFix (n d : Nat) : Nat :=
  let y := n * 2 ^ prec / d
  artanhGo (y * y / 2 ^ prec) 230 0 y 0

/-- ln 2 = 2 artanh(1/3). -/
def ln2Fix : Nat := 2 * artanhFix 1 3

/-- The exponential series: t is the current term. -/
def expGo (r : Nat) : Nat → Nat → Nat → Nat → Nat
  | 0, _, _, acc => acc
  | fuel + 1, i, t, acc => expGo r fuel (i + 1) (t * r / (2 ^ prec * i)) (acc + t)

/-- e^r in fixed point for 0 ≤ r < 1. -/
def expFix (r : Nat) : Nat := expGo r 170 1 (2 ^ prec) 0

/-- The magnitude of x in fixed point; exact for every FP32 value. -/
def fixOf (x : Ex) : Nat := shl x.num (x.exp + prec) / x.den

/-- e^y for y ≥ 0 in fixed point: the fraction and the power of two. -/
def expScaled (y : Nat) : Nat × Nat :=
  let n := y / ln2Fix
  (expFix (y - n * ln2Fix), n)

/-- A positive value known to lie strictly above t × 2^(e) and below the next unit. -/
def stickyEx (neg : Bool) (t : Nat) (e : Int) : Ex := ⟨neg, 2 * t + 1, 1, e - 1⟩

/-- 2^x for finite x. -/
def exp2Ex (x : Ex) : Ex :=
  let lim : Nat := 2 ^ prec * 1024
  let y := fixOf x
  if lim ≤ y then ⟨false, 1, 1, if x.neg then -1024 else 1024⟩
  else
    let whole := y / 2 ^ prec
    let frac := y % 2 ^ prec
    if frac = 0 then ⟨false, 1, 1, if x.neg then -(whole : Int) else whole⟩
    else
      let n : Int := if x.neg then -(whole : Int) - 1 else whole
      let f := if x.neg then 2 ^ prec - frac else frac
      stickyEx false (expFix (f * ln2Fix / 2 ^ prec)) (n - prec)

/-- log2 x for positive finite x. -/
def log2Ex (x : Ex) : Ex :=
  let e := floorLog2 x.num x.den
  let d := shl x.den e
  let n := shl x.num (-e)
  if n = d then Ex.ofInt (e + x.exp)
  else
    let l := 2 * artanhFix (n - d) (n + d) * 2 ^ prec / ln2Fix
    let t : Int := (e + x.exp) * (2 ^ prec : Nat) + l
    let w := 2 * t + 1
    ⟨w < 0, w.natAbs, 1, -(prec : Int) - 1⟩

/-- √(n × 2^e) for positive n. -/
def sqrtScaled (n : Nat) (e : Int) : Ex :=
  let odd := e % 2 == 1
  let n := if odd then 2 * n else n
  let e := if odd then e - 1 else e
  let big := n * 2 ^ 128
  let r := isqrt big
  if r * r = big then ⟨false, r, 1, e / 2 - 64⟩ else stickyEx false r (e / 2 - 64)

def sqrtEx (x : Ex) : Ex := sqrtScaled x.num x.exp

/-- 1/√x for a positive dyadic x. -/
def rsqrtEx (x : Ex) : Ex :=
  let e := -x.exp
  let odd := e % 2 == 1
  let e' := if odd then e - 1 else e
  let top : Nat := 2 ^ 256 * (if odd then 2 else 1)
  let r := isqrt (top / x.num)
  if r * r * x.num = top then ⟨false, r, 1, e' / 2 - 128⟩ else stickyEx false r (e' / 2 - 128)

/-- tanh of a non-zero finite x: (w − 1)/(w + 1) with w = e^(2|x|); near 1 beyond |x| = 64. -/
def tanhEx (x : Ex) : Ex :=
  let y := fixOf x
  if 2 ^ prec * 64 ≤ y then ⟨x.neg, 2 ^ 128 - 1, 2 ^ 128, 0⟩
  else
    let (r, n) := expScaled (2 * y)
    let w := r * 2 ^ n
    ⟨x.neg, w - 2 ^ prec, w + 2 ^ prec, 0⟩

/-- 1/(1 + e^(−x)) of a non-zero finite x. -/
def sigEx (x : Ex) : Ex :=
  let y := fixOf x
  if 2 ^ prec * 256 ≤ y then (if x.neg then ⟨false, 1, 1, -300⟩ else ⟨false, 2 ^ 128 - 1, 2 ^ 128, 0⟩)
  else
    let (r, n) := expScaled y
    let w := r * 2 ^ n
    if x.neg then ⟨false, 2 ^ prec, 2 ^ prec + w, 0⟩ else ⟨false, w, 2 ^ prec + w, 0⟩

/-- The eight special functions of one operand and VDIV. -/
inductive SFun where
  | exp2 | log2 | rcp | rsq | sqrt | tanh | sig
  deriving DecidableEq, Repr

/-- The exact result of a special function, with the table of R102. -/
def specialVal (fn : SFun) (a : Val) : Val × Bool :=
  match a with
  | .nan .. => (a.quiet, a.isSnan)
  | .inf neg =>
    match fn with
    | .exp2 => (if neg then .fin (Ex.zero false) else .inf false, false)
    | .log2 | .rsq | .sqrt =>
      if neg then (defaultNan, true)
      else (if fn = .rsq then .fin (Ex.zero false) else .inf false, false)
    | .rcp => (.fin (Ex.zero neg), false)
    | .tanh => (.fin (Ex.ofInt (if neg then -1 else 1)), false)
    | .sig => (if neg then .fin (Ex.zero false) else .fin (Ex.ofInt 1), false)
  | .fin x =>
    if x.num = 0 then
      match fn with
      | .exp2 => (.fin (Ex.ofInt 1), false)
      | .log2 => (.inf true, false)
      | .rcp | .rsq => (.inf x.neg, false)
      | .sqrt | .tanh => (.fin x, false)
      | .sig => (.fin ⟨false, 1, 2, 0⟩, false)
    else
      match fn with
      | .exp2 => (.fin (exp2Ex x), false)
      | .log2 => if x.neg then (defaultNan, true) else (.fin (log2Ex x), false)
      | .rcp => (.fin (Ex.div (Ex.ofInt 1) x), false)
      | .rsq => if x.neg then (defaultNan, true) else (.fin (rsqrtEx x), false)
      | .sqrt => if x.neg then (defaultNan, true) else (.fin (sqrtEx x), false)
      | .tanh => (.fin (tanhEx x), false)
      | .sig => (.fin (sigEx x), false)

/-- A special function on FP32 bits, rounded to nearest even (R102). -/
def special (fn : SFun) (bits : Nat) : Nat × Ev := fp32Rne (specialVal fn (decodeVal .fp32 bits))

/-! ## Block sums (R94 to R98) -/

/-- The accumulator tag of a pairing, or none where R94 has no such pairing. -/
def pairing (a w : Fmt) : Option Fmt :=
  if Fmt.isNarrow a && Fmt.isNarrow w then some .fp32
  else if a = .bf16 ∧ w = .bf16 then some .fp32
  else if a = .i8 ∧ w = .i8 then some .i32
  else none

/-- The exact block sum of a list of pairs in increasing k, by the first rule of R95 that applies; the flag is INV. -/
def blockVal (ps : List (Val × Val)) : Val × Bool :=
  match ps.find? fun p => p.1.isNan || p.2.isNan with
  | some p => ((if p.1.isNan then p.1 else p.2).quiet, ps.any fun p => p.1.isSnan || p.2.isSnan)
  | none =>
    let prods := ps.map fun p => vMul p.1 p.2
    if prods.any fun p => p.2 then (defaultNan, true)
    else
      let pos := prods.any fun p => p.1 == .inf false
      let neg := prods.any fun p => p.1 == .inf true
      if pos && neg then (defaultNan, true)
      else if pos then (.inf false, false)
      else if neg then (.inf true, false)
      else
        (.fin (prods.foldl (fun acc p => match p.1 with | .fin x => Ex.add false acc x | _ => acc) (Ex.zero false)), false)

/-- The FP32 bits of a block sum: an exact zero sum gives +0 (R95). -/
def blockSum (ps : List (Val × Val)) : Nat × Ev :=
  match blockVal ps with
  | (.fin x, inv) => if x.num = 0 then (0, Ev.invalid inv) else fp32Rne (.fin x, inv)
  | v => fp32Rne v

/-- Only INV, OVF and UNF of an event count: what a block step of the ME counts (R93). -/
def Ev.steps (e : Ev) : Ev := { e with nan := 0, inf := 0 }

/-! ## The exact accumulator (R99 to R101) -/

/-- xa_add on the 512 bits of an XA (R100). -/
def xaAdd (xa : BitVec 512) (x : Half) : BitVec 512 :=
  let v := xa.extractLsb' 0 384
  let st := xa.extractLsb' 384 64
  let (v, st) := match decodeVal .fp32 x.toNat with
    | .nan .. => (v, st ||| (1 <<< 63 : Word))
    | .inf false => (v, st ||| (1 <<< 62 : Word))
    | .inf true => (v, st ||| (1 <<< 61 : Word))
    | .fin e =>
      let k : BitVec 384 := BitVec.ofNat 384 (shl e.num (e.exp + 160))
      (if e.neg then v - k else v + k, st)
  let cnt := st.extractLsb' 0 48
  let st := if cnt = BitVec.allOnes 48 then st ||| (1 <<< 60 : Word) else st
  xa.extractLsb' 448 64 ++ (st.extractLsb' 48 16 ++ (cnt + 1)) ++ v

/-- The FP32 value of an XA and the events counted (R101). -/
def xaValue (xa : BitVec 512) : Nat × Ev :=
  let st := xa.extractLsb' 384 64
  let v := (xa.extractLsb' 0 384).toInt
  if st.getLsbD 63 then (0x7FC00000, Ev.ofFlags true false false false false)
  else if st.getLsbD 62 && st.getLsbD 61 then (0x7FC00000, Ev.ofFlags true false false false true)
  else if st.getLsbD 62 then (0x7F800000, Ev.ofFlags false true false false false)
  else if st.getLsbD 61 then (0xFF800000, Ev.ofFlags false true false false false)
  else if v = 0 then (0, Ev.zero)
  else fp32Rne (.fin ⟨v < 0, v.natAbs, 1, -160⟩, false)

/-! ## Reduction trees (R103) -/

/-- One level of the tree: neighbours combine, an inactive node passes its sibling on. The combination gets the node's index. -/
def treeLevel {α : Type} (comb : Nat → α → α → α) : Nat → List (Option α) → List (Option α)
  | i, a :: b :: l =>
    (match a, b with
     | some x, some y => some (comb i x y)
     | some x, none => some x
     | none, y => y) :: treeLevel comb (i + 1) l
  | _, [a] => [a]
  | _, [] => []

/-- Levels from 1 on; comb gets the level and the node's index. -/
def treeGo {α : Type} (comb : Nat → Nat → α → α → α) : Nat → Nat → List (Option α) → List (Option α)
  | 0, _, l => l
  | fuel + 1, lev, l => treeGo comb fuel (lev + 1) (treeLevel (comb lev) 0 l)

/-- The root of the tree over at most 1,024 lanes; none is an inactive root. -/
def treeRoot {α : Type} (comb : Nat → Nat → α → α → α) (lanes : List (Option α)) : Option α :=
  (treeGo comb 10 1 lanes).headD none

end Sys2Proof.Machine
end

