-- ==== Sys2Proof/Machine/Tab.lean ====
section
/-! DEFINITION. Sparse tables: lists of (key, value) pairs in rising order of the key. They hold whatever the device has many of. -/

namespace Sys2Proof.Machine

/-- A table from numbers to values; an absent key stands for a value that the reader names. -/
abbrev Tab (α : Type) := List (Nat × α)

/-- The value at a key, if the table lists it. -/
def Tab.find {α : Type} : Tab α → Nat → Option α
  | [], _ => none
  | (j, v) :: t, k => if j = k then some v else Tab.find t k

/-- The value at a key, or d. -/
def Tab.get {α : Type} (d : α) (t : Tab α) (k : Nat) : α := (Tab.find t k).getD d

/-- Write a key, keeping the order. -/
def Tab.put {α : Type} : Tab α → Nat → α → Tab α
  | [], k, v => [(k, v)]
  | (j, w) :: t, k, v =>
    if j = k then (k, v) :: t else if k < j then (k, v) :: (j, w) :: t else (j, w) :: Tab.put t k v

/-- Remove a key. -/
def Tab.del {α : Type} : Tab α → Nat → Tab α
  | [], _ => []
  | (j, w) :: t, k => if j = k then Tab.del t k else (j, w) :: Tab.del t k

def Tab.has {α : Type} (t : Tab α) (k : Nat) : Bool := (Tab.find t k).isSome

/-- Change the value at a key, d standing for an absent one. -/
def Tab.upd {α : Type} (d : α) (t : Tab α) (k : Nat) (f : α → α) : Tab α := Tab.put t k (f (Tab.get d t k))

/-- Change the value at a key only where the table lists it. -/
def Tab.adjust {α : Type} (t : Tab α) (k : Nat) (f : α → α) : Tab α :=
  match Tab.find t k with
  | some v => Tab.put t k (f v)
  | none => t

/-- The lowest number below n that satisfies p. -/
def lowest (n : Nat) (p : Nat → Bool) : Option Nat := (List.range n).find? p

end Sys2Proof.Machine
end

