-- ==== Sys2Proof/Machine/Operands.lean ====
section
/-! DEFINITION. Operand forms. Scalar: sign and zero extension of fields (R11, R138). Vector: registers, elements, masks, groups
and what a VE word reads and writes (R200 to R210). -/

namespace Sys2Proof.Machine

/-! ## Scalar fields -/

/-- sext of a field to a scalar register's width. -/
def sext {n : Nat} (x : BitVec n) : Word := x.signExtend 64

/-- zext of a field to a scalar register's width. -/
def zext {n : Nat} (x : BitVec n) : Word := x.setWidth 64

/-- Bits [lo + n - 1 : lo] of a word as a number. -/
def bitsAt (w : Word) (lo n : Nat) : Nat := (w.extractLsb' lo n).toNat

/-- Replace bits [lo + n - 1 : lo] of a word. -/
def putBits (w : Word) (lo n : Nat) (v : Nat) : Word :=
  let m : Word := (BitVec.ofNat 64 (2 ^ n - 1)) <<< lo
  (w &&& ~~~m) ||| ((BitVec.ofNat 64 (v % 2 ^ n)) <<< lo)

/-- The bytes of a value in little-endian order (R134). -/
def bytesOf (n : Nat) (v : Nat) : List Byte := (List.range n).map fun i => BitVec.ofNat 8 (v / 256 ^ i)

/-- The value of bytes in little-endian order (R134). -/
def ofBytes : List Byte → Nat
  | [] => 0
  | b :: l => b.toNat + 256 * ofBytes l

/-! ## Vector registers -/

/-- A vector register: its format tag, its 512 bytes, its dirty bit, and its poison mark with the address where the error arose (R202,
R203, R208, R459). -/
structure VReg where
  tag : Fmt
  bytes : BitVec 4096
  dirty : Bool
  poison : Option Word
  deriving DecidableEq, Repr

def VReg.empty : VReg := ⟨.empty, 0, false, none⟩

/-- The bytes that a register keeps under a tag: an EMPTY one is zero (R202), a 6-bit one has zeros in its last two bytes (R76). -/
def fitTag (f : Fmt) (b : BitVec 4096) : BitVec 4096 :=
  match f with
  | .empty => 0
  | .e3m2 | .e2m3 => b &&& BitVec.ofNat 4096 (2 ^ 4080 - 1)
  | _ => b

/-- A written register: dirty, and no longer poisoned. -/
def VReg.written (f : Fmt) (b : BitVec 4096) : VReg := ⟨f, fitTag f b, true, none⟩

/-- Element e of format f: sub-byte elements are packed from bit 0 on (R81, R82). -/
def elem (f : Fmt) (b : BitVec 4096) (e : Nat) : Nat := (b.extractLsb' (e * Fmt.width f) (Fmt.width f)).toNat

/-- Replace element e of format f. -/
def setElem (f : Fmt) (b : BitVec 4096) (e : Nat) (v : Nat) : BitVec 4096 :=
  let w := Fmt.width f
  let m : BitVec 4096 := BitVec.ofNat 4096 (2 ^ w - 1) <<< (e * w)
  (b &&& ~~~m) ||| (BitVec.ofNat 4096 (v % 2 ^ w) <<< (e * w))

/-- Write the elements of a list of indexes; events add up. -/
def setElems (f : Fmt) (idx : List Nat) (g : Nat → Nat × Ev) (b : BitVec 4096) : BitVec 4096 × Ev :=
  idx.foldl (fun acc e => let r := g e; (setElem f acc.1 e r.1, acc.2.add r.2)) (b, Ev.zero)

/-! ## What a VE word sees -/

/-- Why a VE word has no effect: a tag that it does not accept, a word that does not decode, or a poisoned register. -/
inductive VErr where
  | fmttag
  | engill
  | poison (addr : Word)
  deriving DecidableEq, Repr

/-- The state a VE word reads and writes (R205 to R208): the register file and the window in it, a chain's temporaries, the masks,
the working shape, the rounding stream with the seed and role of R86, and the events to count. -/
structure VEnv where
  file : Tab VReg
  win : Nat
  /-- Inside a chain, numbers 56 to 63 name temporaries (R147). -/
  chain : Bool
  temps : Tab VReg
  masks : Vector (BitVec 1024) 8
  maskDirty : BitVec 8
  len : Nat
  tag : Fmt
  rstrm : Half
  seed : Word
  role : BitVec 16
  ev : List (Fmt × Ev)
  deriving DecidableEq, Repr

abbrev VRes := Except VErr VEnv

def VEnv.reg (v : VEnv) (r : Nat) : VReg :=
  if v.chain && 56 ≤ r then Tab.get .empty v.temps (r - 56) else Tab.get .empty v.file (64 * v.win + r)

def VEnv.setReg (v : VEnv) (r : Nat) (x : VReg) : VEnv :=
  if v.chain && 56 ≤ r then { v with temps := Tab.put v.temps (r - 56) x }
  else { v with file := Tab.put v.file (64 * v.win + r) x }

/-- Write a destination register with its new tag (R203, R207). -/
def VEnv.write (v : VEnv) (r : Nat) (f : Fmt) (b : BitVec 4096) : VEnv := v.setReg r (VReg.written f b)

/-- A mask; as a selector k0 stands for all ones (R206). -/
def VEnv.mask (v : VEnv) (k : KNum) : BitVec 1024 := v.masks[k.toNat]
def VEnv.sel (v : VEnv) (k : KNum) (e : Nat) : Bool := k == 0 || (v.mask k).getLsbD e

def VEnv.setMask (v : VEnv) (k : KNum) (m : BitVec 1024) : VEnv :=
  { v with masks := v.masks.set k.toNat m, maskDirty := v.maskDirty ||| (1#8 <<< k.toNat) }

/-- The active elements of an index space of n elements under a mask (R207). -/
def VEnv.active (v : VEnv) (n : Nat) (k : KNum) : List Nat := (List.range (min n v.len)).filter (v.sel k)

/-- Count events against a format (R93, R208). -/
def VEnv.count (v : VEnv) (f : Fmt) (e : Ev) : VEnv := if e.isZero then v else { v with ev := v.ev ++ [(f, e)] }

/-- A word that rounds in SR mode advances RSTRM by 1 (R85). -/
def VEnv.bump (v : VEnv) (m : Rnd) : VEnv := if m.rm = .sr then { v with rstrm := v.rstrm + 1 } else v

def VEnv.draw (v : VEnv) (e : Nat) : Nat := srDraw v.seed v.role v.rstrm e

/-- Read source registers: a poisoned one stops the word (R208). -/
def VEnv.sources (v : VEnv) (rs : List Nat) : Except VErr (List VReg) :=
  let l := rs.map v.reg
  match l.findSome? VReg.poison with
  | some a => .error (.poison a)
  | none => .ok l

/-- Continue only where the tags are accepted (R75). -/
def need (b : Bool) : Except VErr Unit := if b then .ok () else .error .fmttag

/-- A source register whose tag satisfies p. -/
def VEnv.src (v : VEnv) (r : Nat) (p : Fmt → Bool) : Except VErr VReg :=
  match (v.reg r).poison with
  | some a => .error (.poison a)
  | none => if p (v.reg r).tag then .ok (v.reg r) else .error .fmttag

def isNumeric (f : Fmt) : Bool := f != .empty

/-- Compute the active elements of a destination from a function of the element index, and count the events (R207, R208). A poison mark
stays where the word does not write every element. -/
def VEnv.compute (v : VEnv) (vd : Nat) (f : Fmt) (idx : List Nat) (g : Nat → Nat × Ev) : VEnv :=
  let r := setElems f idx g (v.reg vd).bytes
  let mark := if idx.length = Fmt.count f then none else (v.reg vd).poison
  (v.setReg vd ⟨f, fitTag f r.1, true, mark⟩).count f r.2

/-- The register and position of element e of a group of w registers (R210). -/
def groupReg (first w e : Nat) : Nat := first + e % w
def groupPos (w e : Nat) : Nat := e / w

end Sys2Proof.Machine
end

