-- ==== Sys2Proof/Machine/State.lean ====
section
/-! DEFINITION. The machine's state as plain data, its faults and refusals, and the state after power-on reset.
One device is modelled: four dies, 256 cores, its memories, tables, links and management space. Sparse tables (Tab) hold what the
device has many of; an absent entry stands for the reset value. -/

namespace Sys2Proof.Machine

/-- Why the model stops. -/
inductive Fault where
  /-- Raised by a meaning when the state's turn names no context, entry, command or request for the word to act for.
  Safe: no step that the device takes reaches it, and nothing is claimed about a state that does. -/
  | strayTurn
  deriving DecidableEq, Repr

/-- Why an instruction has no meaning in the model. -/
inductive Refusal where
  /-- Raised by the dispatcher for an instruction that has no meaning yet. Safe: nothing is claimed about it. -/
  | notModelled (mnemonic : String)
  deriving DecidableEq, Repr

/-! ## Memory -/

/-- Bytes by address, in rising order, with no entry equal to zero: an unlisted byte reads as zero (log 5). -/
abbrev Memory := List Host.Cell

/-! ## Task records and tables -/

/-- A 128-byte task record, byte 0 lowest (R41). -/
abbrev Rec := BitVec 1024

/-- A cause code of R453 with its value. -/
structure Cause where
  code : Nat
  value : Word
  deriving DecidableEq, Repr

/-- The key of a loaded image (R289). -/
structure ImgKey where
  part : Nat
  handle : Nat
  gen : Nat
  deriving DecidableEq, Repr

/-- A loaded image: its entry point and its four code sections (R289, R290). `age` orders dispatches. -/
structure Loaded where
  key : ImgKey
  entry : Nat
  sq : List Half
  ve : List Half
  me : List Half
  tu : List Half
  age : Nat
  deriving DecidableEq, Repr

/-- A cached translation (R390): page size exponent and entry. -/
structure Cached where
  base : Nat
  size : Nat
  entry : Word
  deriving DecidableEq, Repr

/-- A piece that is asked of another device: the device, the address, the bytes, and the identity of the request. That of a load is the
tag that its packet and its reply carry; that of a numbered request of R445 is 65,536 more than its number (log 21). -/
structure Ask where
  dev : Nat
  addr : Word
  n : Nat
  id : Nat
  deriving DecidableEq, Repr

/-- A queue entry of an engine chain (R346). `pos` is the word it has reached, `seq` the number of its next word, `deps` the numbers that
its DEP tokens resolved to, by word offset (R151); `busy`: the word at pos has been executed and completes next; `failed`: the error the
engine reports at this entry (R155, R208, R252); `susp`: suspended at a remote access (R296); `resume`: a stopped ME word (R275). -/
structure Entry where
  slot : Nat
  start : Nat
  len : Nat
  firstSeq : Nat
  seq : Nat
  regs : Vector Word 32
  kern : Nat
  vshp : Word
  vwb : Nat
  own : Bool
  deps : List (Nat × List (Eng × Nat))
  started : Bool
  pos : Nat
  shape : Word
  busy : Bool
  failed : Option Cause
  susp : Bool
  resume : Bool
  /-- Outstanding stores that the suspended word has issued; what it reads at other devices, as asked and as answered; the mark of an
  answer. -/
  osc : List Nat
  asks : List Ask
  got : List (Word × List Byte)
  mark : Option Word
  /-- The translations that a suspended word used at its issue (R109); the rows that a drain to windows has sent (R263, R264). -/
  pages : List Cached
  row : Nat
  deriving DecidableEq, Repr

/-- An accepted TU command (R320). `word` is its instruction, `regs` its captured registers; `res`: how it will end, or none while it is held
or runs; `line`: the place reached; `step`, `hops`, `ptr`, `list`: a chain's progress and its steps (R336), `ptr` also the storage base of a
version (R328); `out`: a chain's final data, or its whole record from another device; `form`: the engine form of its word (R455);
`asks`: reads sent to other devices, and a contribution whose check is awaited (R341); `got`: what they have answered, with the mark;
`acks`: stores sent: device, identity; `moved`: MOVED answers in succession, by address (R319); `dl`: its deadline in cc, 0 for none (R322);
`pages`: the translations of the pages it has touched (R109). -/
structure TuCmd where
  id : Nat
  slot : Nat
  part : Nat
  tid : Word
  role : Nat
  word : Instr
  regs : Vector Word 32
  det : Option (Nat × Half)
  kern : Nat
  res : Option (Nat × Nat × Nat)
  held : Bool
  line : Nat
  step : Nat
  hops : Nat
  ptr : Word
  list : List (Word × Word × Nat)
  out : List Byte
  form : Word
  asks : List Ask
  got : List (Word × List Byte × Bool)
  acks : List (Nat × Nat)
  moved : List (Nat × Nat)
  accepted : Word
  dl : Nat
  seq : Nat
  entry : Nat
  pages : List Cached
  deriving DecidableEq, Repr

/-- A step word of the ME in flight (R251): its place in the block, its number and kernel, its latched active set, its nest position and its
completed steps. `idx` is empty when every step is done and the epilogue drain is left. -/
structure MeJob where
  id : Nat
  slot : Nat
  word : Instr
  pos : Nat
  seq : Nat
  kern : Nat
  tile : Nat
  sub : Nat
  act : Tab Word
  idx : List Nat
  steps : Nat
  deriving DecidableEq, Repr

/-- One side of a scratchpad line's state (R280): image differs, region filled, region dirty, poisoned 64-byte units. -/
structure LineSt where
  imgd : Bool
  rgf : Bool
  rgd : Bool
  pois : BitVec 4
  deriving DecidableEq, Repr

def LineSt.clean : LineSt := ⟨false, false, false, 0⟩

/-- The R68 bits of a window word with the region and phase they are keyed to. -/
structure DetBits where
  touched : Bool
  ordered : Bool
  region : Nat
  phase : Nat
  deriving DecidableEq, Repr

/-- A physical accumulator slice (R243, R286, R287): bytes, R68 bits by word, reduction metadata by line (R439), poisoned 64-byte units. -/
structure Slice where
  bytes : Memory
  bits : Tab DetBits
  red : Tab Word
  pois : List Nat
  deriving DecidableEq, Repr

def Slice.zero : Slice := ⟨[], [], [], []⟩

/-- A ring of a context (R352, R353). -/
structure Ring where
  valid : Bool
  bound : Bool
  done : Bool
  fault : Bool
  kind : Nat
  ocls : Nat
  nslot : Nat
  slines : Nat
  lbase : Nat
  gbase : Word
  gstride : Word
  count : Nat
  tail : BitVec 16
  claim : BitVec 16
  head : BitVec 16
  /-- Stream position: tiles moved. -/
  pos : Nat
  held : Bool
  /-- The 64-byte unit reached in the present tile, and what is sent to other devices for it: reads, their answers, stores. -/
  line : Nat
  asks : List Ask
  got : List (Word × List Byte × Bool)
  acks : List (Nat × Nat)
  deriving DecidableEq, Repr

def Ring.empty : Ring := ⟨false, false, false, false, 0, 0, 0, 0, 0, 0, 0, 0, 0, 0, 0, 0, false, 0, [], [], []⟩

/-- The weight state of a sub-array (R240): mode it was loaded in, tag, sparse code, and the source bytes it was loaded from. -/
structure Weights where
  tag : Fmt
  sparse : Nat
  transposed : Bool
  bytes : List Byte
  deriving DecidableEq, Repr

def Weights.empty : Weights := ⟨.empty, 0, false, []⟩

/-- The ME state of a context (R241, R246, R259, R266, R267). Configuration registers are held by their numbers of R246. -/
structure MeState where
  mode : MMode
  sparse : Nat
  weights : Tab Weights
  latch : Tab (List Byte)
  shadow : Tab Word
  active : Tab Word
  mpos0 : Word
  mpos1 : Word
  badmeta : Bool
  seed : Word
  tau : Half
  nmin : Nat
  nmax : Nat
  /-- Table record: norm addresses, table address and K (R270). -/
  tabA : Word
  tabB : Word
  tabE : Word
  tabK : Nat
  mqsum : Half
  tvalid : Bool
  inval : Bool
  srun : Bool
  sctr : Half
  mean : Tab Half
  m2 : Tab Half
  mscnt : Half
  mvar : Half
  deriving DecidableEq, Repr

def MeState.reset : MeState :=
  ⟨.full, 0, [], [], [], [], 0, 0, false, 0, 0, 0, 0, 0, 0, 0, 0, 0, false, false, false, 0, [], [], 0, 0⟩

/-- An outstanding operation of OSC (R430, R431): identity, whether it has completed, and the devices it waits for, with the identities
of its requests (R445). `cls`: the ordering class of an SQ access or of a drain, none for another engine's (R118, R119); `place`: the
device and the 64 KiB page of its requests where they have one; `kern`: the kernel whose events it counts (R93); `sending`: its word has
still requests to send. -/
structure Osc where
  id : Nat
  done : Bool
  devs : List (Nat × Nat)
  cls : Option Nat
  place : Option (Nat × Nat)
  kern : Nat
  sending : Bool
  deriving DecidableEq, Repr

/-- An answer that a parked word awaits from another device: the address it named, its destination and the number of bits kept,
sign-extended when the flag is set; HLC before the word, the cause that a refusal raises, and the identity of its request. -/
structure FarWait where
  dev : Nat
  addr : Word
  d : Reg
  bits : Nat
  signed : Bool
  was : Nat
  code : Nat
  id : Nat
  /-- Of a lineage instruction, the delta that it marks once its home has allowed it, 0 but for RETAIN (R421, R424); none for other words. -/
  delta : Option Int
  deriving DecidableEq, Repr

/-- Where the answer to another device's waiting request goes; `id` is the lock identity that a lock request carries. -/
structure FarReply where
  dev : Nat
  part : Nat
  addr : Nat
  rsn : Nat
  id : Word
  deriving DecidableEq, Repr

/-- What a parked context waits for (R53). -/
inductive Park where
  /-- A reply from another device. -/
  | remote (w : FarWait)
  | join (addr : Word)
  | wait (d : Reg) (addr : Word)
  | lock
  /-- A parent at its SPAWN or POPT: the child's task ID, and POPT's destination. -/
  | child (tid : Word) (pop : Option Reg)
  deriving DecidableEq, Repr

/-- Life of a context slot (R53, R192, R456). `woken`: the parked condition has come true and the task is ready. -/
inductive Life where
  | free
  | loading
  | running
  | parked (p : Park) (woken : Bool)
  | halted
  | aborting (c : Cause)
  deriving DecidableEq, Repr

/-- A context binding or group binding table (R381, R383): cores of the roles and their slots. -/
structure Binding where
  cores : List Nat
  slots : List Nat
  deriving DecidableEq, Repr

/-- A resident context (R161). -/
structure Ctx where
  life : Life
  part : Nat
  tid : Word
  role : Nat
  record : Rec
  image : ImgKey
  a : Vector Word 32
  /-- Poison marks of a1 to a31 and the addresses that the loading accesses read (R294, R459). -/
  apois : Tab Word
  p : BitVec 8
  pc : Half
  -- SST (R167)
  inline : Bool
  recomp : Bool
  inh : Bool
  sys : Bool
  -- PRIO (R168); EFF is computed
  tvec : Word
  epc : Half
  trapc : Half
  trapv : Word
  tscr : Word
  ocls : BitVec 4
  /-- The handler was entered for CHKPT (R426), and the core's CYC at its entry (R472). -/
  chkpt : Bool
  entered : Word
  -- VE (R204 to R206, R85)
  window : Nat
  vwb : BitVec 6
  vshp : Word
  rstrm : Half
  masks : Vector (BitVec 1024) 8
  maskDirty : BitVec 8
  -- ME and accumulator (R242, R245)
  held : Nat
  win : BitVec 16
  /-- Physical slice of each logical one (R243). -/
  phys : List Nat
  tileTag : Tab Fmt
  rowDirty : Tab (BitVec 256)
  me : MeState
  -- memory (R280, R283)
  l : Memory
  lines : Tab LineSt
  srm : Tab (Word × Word)
  hlc : Nat
  binding : Binding
  nocommit : Bool
  -- counters (R430 to R437, R440, R447)
  loads : List Osc
  stores : List Osc
  tiles : List Osc
  tags : Word
  tagStatus : Tab (BitVec 16)
  appended : Vector Half 3
  done : Vector Half 3
  det : Bool
  creg : Nat
  ctl : Bool
  kern : BitVec 6
  phase : Half
  rings : Tab Ring
  /-- A Slate reader (R310). -/
  slateReader : Bool
  /-- The entry that an ENQW has appended and waits for, by the ENQW's offset: engine, block start, first number (R348). -/
  enqw : Tab (Eng × Nat × Nat)
  /-- Bytes that the waiting word reads at other devices, as asked and as answered (R513, R53). -/
  asks : List Ask
  got : List (Word × List Byte × Bool)
  /-- A flat image that a CTXS is writing: its bytes, the 64-byte units written, a fault met (R469). -/
  writing : Option (List Byte × Nat × Bool)
  /-- Entries taken from the chains into an image (R351, R464). -/
  savedEntries : List (Eng × Entry)
  /-- Step words that pre-emption has stopped (R275). -/
  savedJobs : List MeJob
  /-- A cause that is delivered when the context runs again (R472, R487). -/
  pend : Option Cause
  /-- Accesses that have met a fill that cannot be had, by engine, none for the SQ: the cause is delivered when their words have completed
  (R114). -/
  doomed : List (Option Eng × Cause)
  /-- Order of dispatch, for saving out the oldest first (R243, R290). -/
  order : Nat
  /-- The vector registers of the image that the context was restored from into a fresh window: what a clean register is carried from
  (R203). None for a context that has no image, or that took its retained window back. -/
  carried : Option (Tab VReg)
  deriving DecidableEq, Repr

/-- A context image (R464): the context with its registers and its accumulator slices that are not pinned. -/
structure Image where
  role : Nat
  ctx : Ctx
  vregs : Tab VReg
  slices : Tab Slice
  fromCore : Nat
  fromSlot : Nat
  deriving DecidableEq, Repr

/-- A flat image that CTXS has written: its bytes, its record, and the image that the bytes stand for (R468; log 13). -/
structure Flat where
  bytes : List Byte
  record : Rec
  image : Image
  deriving DecidableEq, Repr

/-- Who holds a register window (R201): a resident context; a saved one whose slot no other context has taken; one whose slot was
taken, `age` ordering these. -/
inductive WinUse where
  | free
  | held (slot : Nat)
  | saved (slot part : Nat) (tid : Word) (role : Nat)
  | retained (part : Nat) (tid : Word) (role age : Nat)
  deriving DecidableEq, Repr

/-- A watch on a window word (R303, R365): the condition, the operand and the task that waits, or the device that does; `join`: a JOIN's. -/
structure Watch where
  part : Nat
  tid : Word
  role : Nat
  slice : Nat
  off : Nat
  cond : WCond
  arg : Word
  far : Option FarReply
  join : Bool
  deriving DecidableEq, Repr

/-- A context in a word's lock queue (R305). -/
structure LockWait where
  part : Nat
  tid : Word
  role : Nat
  slice : Nat
  off : Nat
  far : Option FarReply
  deriving DecidableEq, Repr

/-- A boot mailbox (R370). -/
structure Mailbox where
  handle : BitVec 20
  arg : Word
  launches : Half
  fcause : BitVec 16
  check : BitVec 8
  fault : Bool
  done : Bool
  busy : Bool
  deriving DecidableEq, Repr

def Mailbox.zero : Mailbox := ⟨0, 0, 0, 0, 0, false, false, false⟩

/-- A transfer that writes scratchpad lines: a TU command by core and identity, a stream by its member and ring (R131). -/
inductive Mover where
  | cmd (core id : Nat)
  | stream (part : Nat) (tid : Word) (role ring : Nat)
  deriving DecidableEq, Repr

/-- A core (R18, R19). -/
structure Core where
  /-- Held in core reset: of no partition, or isolated (R31, R461). -/
  heldReset : Bool
  isolated : Bool
  /-- The slot of the context that the SQ runs. -/
  active : Option Nat
  cyc : Word
  ctxs : Tab Ctx
  vrf : Tab VReg
  windows : Tab WinUse
  slices : Tab Slice
  sliceOwner : Tab Nat
  lineOwner : Tab Nat
  imem : List Loaded
  ve : List Entry
  me : List Entry
  tu : List Entry
  jobs : List MeJob
  cmds : List TuCmd
  watches : List Watch
  lockq : List LockWait
  faults : List Word
  perf : Tab Word
  mbox : Mailbox
  /-- Saves in the shadow store that have not drained, oldest first: slot, task and bytes (R465). -/
  shadow : List (Nat × Word × Nat)
  /-- Scratchpad banks that transfers have written and hold locked (R131). -/
  locks : List (Mover × Nat)
  deriving DecidableEq, Repr

def Core.reset : Core :=
  ⟨true, false, none, 0, [], [], [], [], [], [], [], [], [], [], [], [], [], [], [], [], Mailbox.zero, [], []⟩

/-! ## Tasks -/

/-- Where a record stands (R361). -/
inductive Place where
  | local (core : Nat)
  | spill (die : Nat)
  | stage (die region stage : Nat)
  | inline (parent : Word)
  | boot (core : Nat)
  | none
  deriving DecidableEq, Repr

/-- State of a record (R53); `reserved`: a core or gang has taken it and it starts next (R47, R57); `taken`: a message that a task
has taken with QGET, and the queue that it was in (R367). -/
inductive TState where
  | waiting
  | ready
  | reserved (cores : List Nat)
  | running
  | parked
  | taken (taker : Word) (queue : Place)
  deriving DecidableEq, Repr

/-- A live task record (R41 to R70). -/
structure Task where
  part : Nat
  record : Rec
  tid : Word
  st : TState
  place : Place
  die : Nat
  /-- The core that inserted it, for PIN (R58). -/
  core : Nat
  phase : Half
  recomp : Bool
  /-- Order of becoming ready (R57). -/
  readyAt : Nat
  /-- Base priority after aging (R60). -/
  aged : Nat
  waitPri : Nat
  reruns : Nat
  excl : List Nat
  parent : Option Word
  bySpawn : Bool
  /-- Operand slots whose version is not current (R409), and versions whose replica is awaited (R414). -/
  waits : List Word
  replWaits : List Word
  deltas : List (Word × Int)
  images : List Image
  /-- Roles whose contexts have an image area, and the dies that it lies on (R465). -/
  areas : List (Nat × Nat)
  /-- Members that run, by role: core and slot (R46, R47). -/
  members : List (Nat × Nat × Nat)
  halted : List Nat
  /-- a2 to a4 of a handler record (R398). -/
  stop : Option (Word × Word × Word)
  boot : Option Nat
  /-- The die's queue clock when the record became ready or was last aged (R60). -/
  since : Nat
  depth : Nat
  /-- The core that its first member ran on last, none before it has run (R398). -/
  ranOn : Option Nat
  deriving DecidableEq, Repr

/-! ## Partitions, regions, dies -/

inductive RState where
  | free | running | stopping
  deriving DecidableEq, Repr

/-- A region of the region table (R394): the installed RCB (32 words), open phase and phases begun (R66), core assignments (R39). -/
structure Region where
  st : RState
  rcb : List Word
  openPhase : Half
  begun : Half
  assign : List (Nat × Nat)
  deriving DecidableEq, Repr

def Region.free : Region := ⟨.free, [], 0, 0, []⟩

/-- A partition (R31, R490). -/
structure Part where
  exists_ : Bool
  inReset : Bool
  busy : Bool
  stat : BitVec 8
  /-- The STAT that the operation in progress will report. -/
  result : Nat
  /-- The reason of a quiesce in progress (R455, R472). -/
  quiesce : Option Word
  /-- Devices lost since the quiesce began (R472, R473). -/
  lostDevs : List Nat
  /-- Pages whose leaf of the remote-device kind counts as invalid since the loss of its device, by their base (R472). -/
  lostPages : List Nat
  desc : Memory
  regions : Tab Region
  bindings : List (Nat × Nat × List Nat)
  serial : Nat
  exc : Tab Half
  thresholds : Tab Word
  hwbase : Word
  hwsize : Word
  tlb : List Cached
  /-- MSI-X table bytes, vectors that are not masked, pending bits (R476; log 7). -/
  msix : Memory
  msixOpen : List Nat
  msixPending : List Nat
  deriving DecidableEq, Repr

def Part.reset : Part := ⟨false, false, false, 0, 0, none, [], [], [], [], [], 0, [], [], 0, 0, [], [], [], []⟩

/-- A registered management record of a die (R369). -/
structure EvReg where
  part : Nat
  event : Nat
  oneShot : Bool
  record : Rec
  deriving DecidableEq, Repr

/-- A slot of the bounce buffer (R317): the page, the bytes written and where they lie. -/
structure Bounce where
  part : Nat
  page : Nat
  bytes : Tab Byte
  pois : List Nat
  deriving DecidableEq, Repr

/-- A die (R16, R17). -/
structure Die where
  lost : Bool
  qclk : Word
  pos : BitVec 14
  errors : Tab Half
  monitors : Tab Half
  /-- Issue slots are withheld: by the thermal limit, and by the power limit (R26, R496). -/
  withheld : Bool
  capped : Bool
  events : List EvReg
  bounce : List Bounce
  heartbeat : Nat
  /-- The 4,096-cc period in which the stage balancer last acted (R40), the monitors were sampled (R442), the heartbeat was sent (R483). -/
  balanced : Nat
  sampled : Nat
  deriving DecidableEq, Repr

def Die.reset : Die := ⟨false, 0, 0, [], [], false, false, [], [], 0, 0, 0⟩

/-! ## Versions -/

/-- STATE of a directory entry (R407). -/
inductive VState where
  | unprod | pending | current | lost | recomp | restore
  deriving DecidableEq, Repr

/-- A mark for publication (R410, R422). -/
structure PubMark where
  tid : Word
  base : Word
  size : Nat
  ncol : Nat
  nrow : Nat
  ext : Bool
  norm : Bool
  deriving DecidableEq, Repr

/-- A lineage entry (R411). `counted`: the operand slots that it counts; `held`: its counts stand on them (R412). -/
structure Lineage where
  record : Rec
  slot : Nat
  counted : List Nat
  held : Bool
  deriving DecidableEq, Repr

/-- What another device has of a version homed here (R409, R412, R414): inserted records and lineage entries that name it, whether it waits
for a notice, the largest effective priority that waits, and the place it prefers for a replica that its records wait for. -/
structure FarUse where
  dev : Nat
  cons : Nat
  dref : Nat
  waits : Bool
  pri : Nat
  repl : Option (Option (Nat × Nat))
  deriving DecidableEq, Repr

/-- What the holder of a version's record and its home on another device tell each other (R409 to R427; log 35). -/
inductive HomeOp where
  | look | use | tvq | publ | retain | repl | rcvr | trim | hold | publish | delta | current | lost | dead | again | unuse | drefUp
  | drefDown | produce | unproduce | lose | replicate | replicated | raise
  deriving DecidableEq, Repr

/-- A message to another device about a version, waiting for its stream. -/
structure HomeMsg where
  part : Nat
  dev : Nat
  nv : Word
  op : HomeOp
  data : List Byte
  deriving DecidableEq, Repr

/-- A version directory entry with its mark and lineage (R406, R411). NEED is computed. The entry of a version that is homed on another
device holds what its home has told. -/
structure DirEntry where
  part : Nat
  nv : Word
  die : Nat
  st : VState
  depth : Nat
  ext : Bool
  repl : Bool
  norm : Bool
  unrc : Bool
  hold : Nat
  base : Word
  nrow : Nat
  ncol : Nat
  size : Nat
  rdev : Nat
  rdie : Nat
  rpa : Nat
  /-- The bytes that a replica on another device holds (R414). -/
  rbytes : List Byte
  rpois : List Nat
  dref : Nat
  cons : Nat
  ptid : Word
  mark : Option PubMark
  lin : Option Lineage
  /-- Cause of the loss (R419). -/
  lossCause : Nat
  /-- Uses on other devices, a producer that was inserted on another device, and whether a commit there holds the version (R415). -/
  far : List FarUse
  maker : Option (Nat × Rec)
  taking : Bool
  deriving DecidableEq, Repr

/-! ## Links, management, outside -/

/-- One request stream's requester side (R445): to a die (dev = own) or a device; `port` is the one its packets left by (R401); `moved`:
requests that were answered MOVED and are to be reissued, in program order (R133). -/
structure Stream where
  fromDie : Nat
  toDie : Nat
  toDev : Option Nat
  part : Nat
  rsn : BitVec 16
  unanswered : List (BitVec 16 × Packet)
  port : Nat
  moved : List (BitVec 16 × Packet)
  /-- Tags of the loads that have not been answered. -/
  loads : List Nat
  deriving DecidableEq, Repr

/-- One request stream's responder side (R445). -/
structure Responder where
  dev : Nat
  part : Nat
  base : BitVec 16
  seen : List (BitVec 16)
  cache : List (BitVec 16 × Packet)
  deriving DecidableEq, Repr

/-- A UCIe module, one direction: counters of R446 and the replay buffer of R372, whose last flit of a packet delivers it (log 21). -/
structure Ucie where
  side : UcieSide
  up : Bool
  retraining : Bool
  items : Tab Half
  width : Nat
  nextSeq : BitVec 8
  expect : BitVec 8
  replay : List (BitVec 8 × Option Packet)
  deriving DecidableEq, Repr

/-- A Tunar port (R484, R373): `tx` holds the flits of what is being sent on each class and channel; `credits` counts the flits sent on a
channel whose credit has not come back; `rx` is a channel's receive buffer, and `asm` the packet at its head, whose flits have left it. -/
structure Tunar where
  up : Bool
  /-- It has trained; a ROUTW over it then brings it into service (R484, R493). -/
  trained : Bool
  seq : BitVec 8
  expect : BitVec 8
  replays : Nat
  items : Tab Half
  replay : List (BitVec 8 × BitVec 512)
  credits : Tab Nat
  tx : List (Nat × Nat × BitVec 512)
  rx : Tab (List (BitVec 512))
  asm : Tab (List (BitVec 512))
  deriving DecidableEq, Repr

def Tunar.reset : Tunar := ⟨false, false, 0, 0, 0, [], [], [], [], [], []⟩

/-- An NVMe request in flight (R481). -/
structure NvmeReq where
  id : Nat
  slot : Nat
  part : Nat
  page : Nat
  deriving DecidableEq, Repr

/-- A call of the pager that waits for its answer (R318, R114, R290). -/
inductive PagerCall where
  | command (core cmd : Nat) (addr : Word)
  | fill (core slot : Nat) (addr : Word)
  | image (core slot : Nat) (addr : Word)
  | stream (part : Nat) (tid : Word) (role ring : Nat) (addr : Word)
  | chain (core : Nat) (addr : Word)
  deriving DecidableEq, Repr

/-- What has left the device: interrupts, notices, packets, reports. -/
inductive Msg where
  | msix (pf vector : Nat)
  | ready (pf : Nat)
  | packet (p : Packet)
  | flit (port : Nat) (f : BitVec 512)
  | notice (port : Nat)
  | heartbeat (die : Nat)
  | cxlData (data : List Byte) (poison : Bool)
  | cxlError
  | mown (v : Word)
  | identity (report : List Byte)
  | nvme (req : NvmeReq)
  | trimmed (part : Nat) (nv : Word)
  deriving DecidableEq, Repr

/-- Management ownership (R488). -/
structure Mown where
  deny : Nat
  htgt : Nat
  owner : Nat
  deriving DecidableEq, Repr

/-- The management space outside MOWN, PCTL and the descriptors (R492). -/
structure Mgmt where
  fsvn : Nat
  rsvn : Nat
  recov : Bool
  step : Nat
  /-- A fuse raise in progress (R492 SVNR). -/
  raising : Bool
  plim : Nat
  hdm0 : Tab Word
  hdm1 : Tab Word
  /-- HDM decoders whose slices are being emptied. -/
  emptying : List Nat
  nvme : Tab Word
  deriving DecidableEq, Repr

/-- The fuses (R494; log 6). -/
structure Fuses where
  rsa : BitVec 384
  slh : BitVec 384
  svn : Nat
  deriving DecidableEq, Repr

/-- A promotion in flight (R339): the page by its number in G, the class that its leaf gets, and the die that asked for it. -/
structure Promotion where
  part : Nat
  page : Nat
  cls : Nat
  die : Nat
  deriving DecidableEq, Repr

/-- Which agent acts in the next step, and for whom. -/
inductive Turn where
  /-- The oldest event of the inbox happens, if there is one. -/
  | idle
  | sq (core slot : Nat)
  | ve (core : Nat)
  | me (core : Nat)
  | tu (core : Nat)
  /-- An accepted TU command goes on. -/
  | cmd (core id : Nat)
  | event (e : Event)
  deriving DecidableEq, Repr

/-- Who stalls at a fill: the sequencer or an engine of the line's context, a step word of its ME in flight, a command, a stream. -/
inductive Stalled where
  | sq
  | eng (e : Eng)
  | job
  | cmd (core id : Nat)
  | stream
  deriving DecidableEq, Repr

/-- A scratchpad-region line whose fill is awaited, with those who wait for it (R114, R284). -/
structure Fill where
  core : Nat
  slot : Nat
  line : Nat
  who : List Stalled
  deriving DecidableEq, Repr

/-- The state of the device. -/
structure State where
  tick : Nat
  turn : Turn
  inbox : List Event
  outbox : List Msg
  mem : Memory
  /-- Poisoned 64-byte lines of the device memories, by line number (R309). -/
  memPois : List Nat
  /-- Page access stamps by physical page (R314), and promotions in flight (R339). -/
  stamps : Tab Nat
  promoting : List Promotion
  cores : Tab Core
  parts : Tab Part
  dies : Tab Die
  tasks : List Task
  flats : List Flat
  versions : List DirEntry
  routes : Tab Half
  streams : List Stream
  responders : List Responder
  ucies : List Ucie
  /-- Requests of a reset module that wait for room in the others of its pair of dies (R445). -/
  ucieHeld : List (Nat × Nat × Packet)
  tunars : Tab Tunar
  hbmUp : List Nat
  pager : List PagerCall
  fills : List Fill
  nvmeReqs : List NvmeReq
  /-- Replies to other devices that have not left (R445, R487). -/
  answers : List Packet
  /-- Messages about versions that wait for their streams, oldest first (R404, R445). -/
  homeMsgs : List HomeMsg
  mown : Mown
  mgmt : Mgmt
  fuses : Fuses
  link : HostLink
  fwReady : Bool
  /-- Counter of records becoming ready, and of contexts, commands and requests made: identities only. -/
  serial : Nat
  deriving DecidableEq, Repr

/-- Power-on reset (R4, R463): every core held in reset, every table empty, no partition, nothing waiting. -/
def State.reset : State where
  tick := 0
  turn := .idle
  inbox := []
  outbox := []
  mem := []
  memPois := []
  stamps := []
  promoting := []
  cores := []
  parts := []
  dies := []
  tasks := []
  flats := []
  versions := []
  routes := []
  streams := []
  responders := []
  ucies := []
  ucieHeld := []
  tunars := []
  hbmUp := []
  pager := []
  fills := []
  nvmeReqs := []
  answers := []
  homeMsgs := []
  mown := ⟨0, 0, 0⟩
  mgmt := ⟨0, 0, false, 0, false, 3200, [], [], [], []⟩
  fuses := ⟨0, 0, 0⟩
  link := .none
  fwReady := false
  serial := 0

end Sys2Proof.Machine
end

