-- ==== Sys2Proof/Machine/Ops.lean ====
section
/-! DEFINITION. The named operations over the state: reading and writing cores, contexts, partitions and dies, registers, memory, taking
a trap, aborting and returning from the handler. Every meaning is written with them. -/

namespace Sys2Proof.Machine

/-- The result of a meaning or a step. -/
abbrev Out := Host.Outcome State Fault Refusal

/-! ## Parts of the state -/

/-- The die of a core (R8). A number from 256 on stands for the place where an image of core n − 256 is worked on (R326). -/
def dieOf (core : Nat) : Nat := core / 64 % 4

def State.core (s : State) (c : Nat) : Core := Tab.get Core.reset s.cores c
def State.setCore (s : State) (c : Nat) (x : Core) : State := { s with cores := Tab.put s.cores c x }
def State.updCore (s : State) (c : Nat) (f : Core → Core) : State := s.setCore c (f (s.core c))

def State.ctx? (s : State) (c k : Nat) : Option Ctx := Tab.find (s.core c).ctxs k
def State.setCtx (s : State) (c k : Nat) (x : Ctx) : State := s.updCore c fun r => { r with ctxs := Tab.put r.ctxs k x }
def State.updCtx (s : State) (c k : Nat) (f : Ctx → Ctx) : State :=
  match s.ctx? c k with
  | some x => s.setCtx c k (f x)
  | none => s

def State.part (s : State) (p : Nat) : Part := Tab.get Part.reset s.parts p
def State.updPart (s : State) (p : Nat) (f : Part → Part) : State := { s with parts := Tab.put s.parts p (f (s.part p)) }

def State.die (s : State) (d : Nat) : Die := Tab.get Die.reset s.dies d
def State.updDie (s : State) (d : Nat) (f : Die → Die) : State := { s with dies := Tab.put s.dies d (f (s.die d)) }

/-- A number that names nothing yet. -/
def State.fresh (s : State) : Nat × State := (s.serial, { s with serial := s.serial + 1 })

def State.emit (s : State) (m : Msg) : State := { s with outbox := s.outbox ++ [m] }

/-- Send an MSI-X message; one of a masked vector of a partition's function waits in its pending bit (R477; log 7). With die 0 the host
port is lost, and nothing is sent (R16). -/
def State.interrupt (s : State) (pf v : Nat) : State :=
  if (s.die 0).lost then s
  else if pf = 0 || (s.part (pf - 1)).msixOpen.contains v then s.emit (.msix pf v)
  else s.updPart (pf - 1) fun x => if x.msixPending.contains v then x else { x with msixPending := x.msixPending ++ [v] }

/-- Is the context resident in some slot? -/
def Ctx.live (x : Ctx) : Bool := x.life != .free

/-- The slots of a core. -/
def slotNums : List Nat := List.range 16
def coreNums : List Nat := List.range 256
def dieNums : List Nat := List.range 4
def partNums : List Nat := List.range 8

/-! ## Saturating and wrapping counters (R441, R442) -/

/-- Add to a 32-bit counter that saturates. -/
def satAdd (x : Half) (n : Nat) : Half := BitVec.ofNat 32 (min (x.toNat + n) (2 ^ 32 - 1))

def bumpTab (t : Tab Half) (i n : Nat) : Tab Half := if n = 0 then t else Tab.put t i (satAdd (Tab.get 0 t i) n)

/-- Count an item of a die's error counters (GROUP 0x04). -/
def State.countError (s : State) (d i : Nat) : State := s.updDie d fun x => { x with errors := bumpTab x.errors i 1 }

/-- Count an item of a core's performance counters (GROUP 0x03), n64 and wrapping. -/
def State.countPerf (s : State) (c i : Nat) : State := s.updCore c fun x => { x with perf := Tab.put x.perf i (Tab.get 0 x.perf i + 1) }

/-- The index of an exception counter (R429 GROUP 0x02). -/
def excIndex (kern : Nat) (f : Fmt) (e : Nat) : Nat := kern * 256 + f.code.toNat * 16 + e

/-- Count the events of results of one format against a kernel; a recomputation counts none (R441). -/
def State.countEv (s : State) (p kern : Nat) (recomp : Bool) (f : Fmt) (e : Ev) : State :=
  if recomp || e.isZero then s
  else s.updPart p fun x =>
    { x with exc := (List.range 6).foldl (fun t i => bumpTab t (excIndex kern f i) (e.get i)) x.exc }

/-! ## Bytes of a memory -/

/-- The byte at an address: zero where nothing is listed (log 5). -/
def Memory.get (m : Memory) (a : Nat) : Byte := Tab.get 0 m a

/-- Write a byte and keep the canonical form: a zero byte is not listed. -/
def Memory.set (m : Memory) (a : Nat) (v : Byte) : Memory := if v = 0 then Tab.del m a else Tab.put m a v

def Memory.read (m : Memory) (a n : Nat) : List Byte := (List.range n).map fun i => m.get (a + i)

def Memory.write (m : Memory) : Nat → List Byte → Memory
  | _, [] => m
  | a, b :: l => Memory.write (m.set a b) (a + 1) l

/-- A little-endian value. -/
def Memory.value (m : Memory) (a n : Nat) : Nat := ofBytes (m.read a n)

/-- Keys strictly rising and no listed zero. -/
def Memory.wf : Memory → Bool
  | [] => true
  | [(_, v)] => v != 0
  | (a, v) :: (b, w) :: l => v != 0 && a < b && Memory.wf ((b, w) :: l)

/-! ## Scalar registers and predicates (R138, R162, R163) -/

/-- A register's value; a0 reads 0. -/
def Ctx.reg (x : Ctx) (r : Reg) : Word := if r = 0 then 0 else x.a[r.toNat]

/-- Write a register and clear its poison mark; a write to a0 is discarded (R294). -/
def Ctx.setReg (x : Ctx) (r : Reg) (v : Word) : Ctx :=
  if r = 0 then x else { x with a := x.a.set r.toNat v, apois := Tab.del x.apois r.toNat }

/-- Set a register's poison mark with the address read (R294). -/
def Ctx.markReg (x : Ctx) (r : Reg) (addr : Word) : Ctx := if r = 0 then x else { x with apois := Tab.put x.apois r.toNat addr }

/-- A predicate; p0 reads true. -/
def Ctx.pred (x : Ctx) (p : Pred) : Bool := p == 0 || x.p.getLsbD p.toNat

/-- Write a predicate; a write to p0 is discarded. -/
def Ctx.setPred (x : Ctx) (p : Pred) (v : Bool) : Ctx :=
  if p = 0 then x
  else { x with p := if v then x.p ||| (1#8 <<< p.toNat) else x.p &&& ~~~(1#8 <<< p.toNat) }

/-- The next word (R164). -/
def Ctx.step (x : Ctx) : Ctx := { x with pc := x.pc + 1 }

/-- The poison mark that a word meets in its source registers (R294). -/
def Ctx.marked (x : Ctx) (rs : List Reg) : Option Word :=
  match rs with
  | [] => none
  | r :: l => if r = 0 then x.marked l else match Tab.find x.apois r.toNat with
    | some a => some a
    | none => x.marked l

/-! ## Task records (R41, R42) -/

def recHeader (r : Rec) : Word := r.extractLsb' 0 64
def recWord (r : Rec) (i : Nat) : Word := r.extractLsb' (64 * i) 64
def recSeed (r : Rec) : Word := recWord r 1
def recOperand (r : Rec) (i : Nat) : Word := recWord r (2 + i)
def recResult (r : Rec) (i : Nat) : Word := recWord r (8 + i)
def recArg (r : Rec) (i : Nat) : Word := recWord r (11 + i)
def recJoin (r : Rec) : Word := recWord r 15

def recCode (r : Rec) : Nat := bitsAt (recHeader r) 0 20
/-- The REGION field. -/
def recRegionField (r : Rec) : Nat := bitsAt (recHeader r) 20 12
def recStage (r : Rec) : Nat := bitsAt (recHeader r) 32 4
def recPri (r : Rec) : Nat := bitsAt (recHeader r) 36 4
def recGang (r : Rec) : Nat := bitsAt (recHeader r) 40 4
def recNops (r : Rec) : Nat := bitsAt (recHeader r) 44 3
def recNres (r : Rec) : Nat := bitsAt (recHeader r) 47 2
def recMgmt (r : Rec) : Bool := (recHeader r).getLsbD 49
/-- The region that a record belongs to: a management record's is the root, whatever its field names (R42). -/
def recRegion (r : Rec) : Nat := if recMgmt r then 0 else recRegionField r
def recPin (r : Rec) : Bool := (recHeader r).getLsbD 50
def recRecomp (r : Rec) : Bool := (recHeader r).getLsbD 51
def recCont (r : Rec) : Bool := (recHeader r).getLsbD 52

/-- Replace one 64-bit word of a record. -/
def recSet (r : Rec) (i : Nat) (v : Word) : Rec :=
  let m : Rec := (BitVec.ofNat 1024 (2 ^ 64 - 1)) <<< (64 * i)
  (r &&& ~~~m) ||| (v.setWidth 1024 <<< (64 * i))

def recOperands (r : Rec) : List Word := (List.range (min 6 (recNops r))).map (recOperand r)
def recResults (r : Rec) : List Word := (List.range (min 3 (recNres r))).map (recResult r)

/-! ## Tasks by their partition and ID -/

def State.task? (s : State) (p : Nat) (tid : Word) : Option Task := s.tasks.find? fun t => t.part == p && t.tid == tid
def State.updTask (s : State) (p : Nat) (tid : Word) (f : Task → Task) : State :=
  { s with tasks := s.tasks.map fun t => if t.part == p && t.tid == tid then f t else t }
def State.dropTask (s : State) (p : Nat) (tid : Word) : State :=
  { s with tasks := s.tasks.filter fun t => !(t.part == p && t.tid == tid) }

/-! ## Regions (R35, R392, R394) -/

def State.region (s : State) (p r : Nat) : Region := Tab.get Region.free (s.part p).regions r

/-- Word i of an installed RCB. -/
def Region.word (r : Region) (i : Nat) : Word := r.rcb.getD i 0

def rcbParent (w : List Word) : Nat := bitsAt (w.getD 0 0) 36 12
/-- The raw value of field i of R392's list: 0 cores, 1 scratchpad, 2 accumulator, 3 HBM, 4 queue slots, 5 PRI, 6 FD, 7 DET, 8 D. -/
def rcbField (w : List Word) (i : Nat) : Nat :=
  match i with
  | 0 => bitsAt (w.getD 2 0) 0 9
  | 1 => (w.getD 3 0).toNat
  | 2 => bitsAt (w.getD 2 0) 16 5
  | 3 => (w.getD 4 0).toNat
  | 4 => bitsAt (w.getD 5 0) 0 32
  | 5 => bitsAt (w.getD 0 0) 32 4
  | 6 => bitsAt (w.getD 0 0) 31 1
  | 7 => bitsAt (w.getD 0 0) 30 1
  | _ => bitsAt (w.getD 0 0) 26 4

def rcbInh (w : List Word) (i : Nat) : Bool := (w.getD 1 0).getLsbD i
def rcbOvr (w : List Word) (i : Nat) : Bool := (w.getD 1 0).getLsbD (32 + i)

/-- The effective value of a field for an RCB whose chain of ancestors is given, nearest first (R35). -/
def effField (i : Nat) : List (List Word) → Nat
  | [] => 0
  | [w] => rcbField w i
  | w :: up :: l =>
    let par := effField i (up :: l)
    let own := if rcbInh up i && !rcbOvr w i then par else rcbField w i
    if i = 5 then min own par else if i = 7 then max own par else own

/-- The RCBs of a region and its ancestors, nearest first; region 0 is the root (R34). -/
def State.rcbChain (s : State) (p : Nat) : Nat → Nat → List (List Word)
  | 0, _ => []
  | fuel + 1, r => (s.region p r).rcb :: (if r = 0 then [] else State.rcbChain s p fuel (rcbParent (s.region p r).rcb))

/-- The effective value of field i of region r; trees are less than 4,096 deep. -/
def State.eff (s : State) (p r i : Nat) : Nat := effField i (s.rcbChain p 4096 r)

/-- The RCB that gives a region's pipeline declaration (field 9 of INH and OVR). -/
def pipeRcb : List (List Word) → List Word
  | [] => []
  | [w] => w
  | w :: up :: l => if rcbInh up 9 && !rcbOvr w 9 then pipeRcb (up :: l) else w

def State.stageCount (s : State) (p r : Nat) : Nat := bitsAt ((pipeRcb (s.rcbChain p 4096 r)).getD 0 0) 22 4 + 1
/-- The 32-bit word of stage i: CAPM1, MAX and MIN. -/
def rcbStage (w : List Word) (i : Nat) : Word := BitVec.ofNat 64 (bitsAt (w.getD (8 + i / 2) 0) (32 * (i % 2)) 32)
def State.stageWord (s : State) (p r i : Nat) : Word := rcbStage (pipeRcb (s.rcbChain p 4096 r)) i
def stageCap (w : Word) : Nat := bitsAt w 20 12 + 1
def stageMax (w : Word) : Nat := bitsAt w 9 9
def stageMin (w : Word) : Nat := bitsAt w 0 9

/-- Is region r the region top, or below it? -/
def State.below (s : State) (p top : Nat) : Nat → Nat → Bool
  | 0, _ => false
  | fuel + 1, r => r == top || (r != 0 && State.below s p top fuel (rcbParent (s.region p r).rcb))

def State.inSubtree (s : State) (p top r : Nat) : Bool := s.below p top 4096 r

def State.running (s : State) (p r : Nat) : Bool := r < 4096 && (s.region p r).st == .running
def State.det (s : State) (p r : Nat) : Bool := s.eff p r 7 == 1

/-! ## The partition descriptor (R490) -/

def Part.desc64 (x : Part) (off : Nat) : Word := BitVec.ofNat 64 (x.desc.value off 8)
def Part.devnum (x : Part) : Nat := bitsAt (x.desc64 0) 0 12
def Part.hshift (x : Part) : Nat := bitsAt (x.desc64 0) 16 6
def Part.otbase (x : Part) : Word := x.desc64 8
def Part.otsize (x : Part) : Nat := bitsAt (x.desc64 0x10) 0 32
def Part.ptroot (x : Part) : Nat := (x.desc64 0x18).toNat
def Part.ownsCore (x : Part) (c : Nat) : Bool := (x.desc.get (0x80 + c / 8)).getLsbD (c % 8)
/-- HBM slice g of stack st. -/
def Part.ownsHbm (x : Part) (st g : Nat) : Bool := (x.desc.get (0xA0 + (48 * st + g) / 8)).getLsbD ((48 * st + g) % 8)
def Part.ownsQuartz (x : Part) (d i : Nat) : Bool := (x.desc.get (0xD0 + 4 * d + i / 8)).getLsbD (i % 8)
def Part.ownsSlate (x : Part) (d i : Nat) : Bool := (x.desc.get (0xE0 + (16 * d + i) / 8)).getLsbD ((16 * d + i) % 8)
/-- Entry i of the home map: device and die (R404). -/
def Part.home (x : Part) (i : Nat) : Nat × Nat :=
  let e := x.desc.value (0x100 + 2 * i) 2
  (e / 4 % 4096, e % 4)

/-- A packet header. -/
def packetHeader (addr oparg rsn dst src part hops cls typ : Nat) : BitVec 128 :=
  BitVec.ofNat 128 (addr % 2 ^ 56 * 2 ^ 72 + oparg % 256 * 2 ^ 56 + rsn % 65536 * 2 ^ 40 + dst % 4096 * 2 ^ 28 +
    src % 4096 * 2 ^ 16 + part % 8 * 2 ^ 12 + hops % 8 * 2 ^ 9 + cls % 2 * 2 ^ 8 + typ % 256)

/-- Answer another device's request: 0x80 with a value, its OPARG 0 done, 1 refused, 2 MOVED, with bit 7 for a poison mark (log 21). -/
def State.reply (s : State) (r : FarReply) (oparg : Nat) (data : List Byte) : State :=
  { s with answers := s.answers ++ [⟨packetHeader r.addr oparg r.rsn r.dev (s.part r.part).devnum r.part 0 1 0x80, data⟩] }

/-- The partition that owns a core. -/
def State.coreOwner (s : State) (c : Nat) : Option Nat := partNums.find? fun p => (s.part p).exists_ && (s.part p).ownsCore c

/-! ## Images in instruction memory -/

def Core.loaded (r : Core) (k : ImgKey) : Option Loaded := r.imem.find? fun l => l.key == k

def Loaded.section (l : Loaded) (e : Eng) : List Half := match e with | .ve => l.ve | .me => l.me | .tu => l.tu

/-- The words of a context's .sq section. -/
def State.sqWords (s : State) (c : Nat) (x : Ctx) : List Half :=
  match (s.core c).loaded x.image with
  | some l => l.sq
  | none => []

/-- A transfer target inside .sq (R183). -/
def State.validTarget (s : State) (c : Nat) (x : Ctx) (t : Int) : Bool := 0 ≤ t && t < (s.sqWords c x).length

/-! ## Chains of a core -/

def Core.chain (r : Core) (e : Eng) : List Entry := match e with | .ve => r.ve | .me => r.me | .tu => r.tu
def Core.setChain (r : Core) (e : Eng) (l : List Entry) : Core :=
  match e with
  | .ve => { r with ve := l }
  | .me => { r with me := l }
  | .tu => { r with tu := l }

def engIdx : Eng → Fin 3
  | .ve => 0
  | .me => 1
  | .tu => 2

/-! ## Aborting, trapping and returning (R194, R197, R453 to R456) -/

/-- Remove everything that a context has in the chains of its core. -/
def Core.dropEntries (r : Core) (k : Nat) : Core :=
  let keep := fun (l : List Entry) => l.filter fun n => n.slot != k
  { r with ve := keep r.ve, me := keep r.me, tu := keep r.tu, jobs := r.jobs.filter fun j => j.slot != k }

/-- Remove a context's entries that have not started and the one that has failed; the others run to their end, but the TU accepts no
further word (R326, R456). -/
def Core.dropWaiting (r : Core) (k : Nat) : Core :=
  let keep := fun (l : List Entry) => l.filter fun n => n.slot != k || ((n.started || n.resume) && n.failed.isNone)
  { r with ve := keep r.ve, me := keep r.me, tu := r.tu.filter fun n => n.slot != k }

/-- The rank of a cause, 1 the highest (R454). -/
def causeRank (n : Nat) : Nat :=
  match n with
  | 12 => 1
  | 11 => 2
  | 10 => 3
  | 7 => 5
  | _ => 4

/-- The task of a context aborts: it issues no further word and its entries are removed. A higher-ranked cause stays (R454, R456). -/
def State.abort (s : State) (c k : Nat) (w : Cause) : State :=
  match s.ctx? c k with
  | none => s
  | some x =>
    let w := match x.life with
      | .aborting o => if causeRank w.code < causeRank o.code then w else o
      | _ => w
    let s := s.setCtx c k { x with life := .aborting w }
    s.updCore c fun r => { r.dropWaiting k with active := if r.active = some k then none else r.active }

/-- Handler entry (R194): the one place where a trap is taken. epc is the offset at which ERET resumes. -/
def State.takeTrap (s : State) (c k : Nat) (w : Cause) (sw bnd : Bool) (epc : Half) : State :=
  match s.ctx? c k with
  | none => s
  | some x =>
    let off := x.tvec.setWidth 32
    if x.inh || !x.tvec.getLsbD 63 || !s.validTarget c x off.toNat then s.abort c k w
    else
      s.setCtx c k { x with
        epc := epc
        trapc := BitVec.ofBool sw ++ BitVec.ofBool bnd ++ BitVec.ofNat 30 (if sw then 0 else w.code)
        trapv := w.value
        inh := true
        chkpt := w.code == 12
        entered := (s.core c).cyc
        asks := []
        got := []
        writing := none
        pc := off }

/-- A precise trap at the word that a context is at (R453, class P). -/
def State.trap (s : State) (c k : Nat) (code : Nat) (v : Word) : State :=
  match s.ctx? c k with
  | none => s
  | some x => s.takeTrap c k ⟨code, v⟩ false false x.pc

/-- Leave the handler (R197); the checks are ERET's. -/
def State.leaveHandler (s : State) (c k : Nat) (t : Half) : State :=
  s.updCtx c k fun x => { x with inh := false, chkpt := false, pc := t }

/-- Does a word that parks run again from its start, or end, when its wait is over (R175)? Every other one is behind its context. -/
def Park.stays : Park → Bool
  | .join _ => true
  | .wait .. => true
  | _ => false

/-- Park a context: the SQ may run another one (R53). -/
def State.park (s : State) (c k : Nat) (x : Ctx) (p : Park) : State :=
  let s := s.setCtx c k { (if p.stays then x else x.step) with life := .parked p false }
  s.updCore c fun r => { r with active := if r.active = some k then none else r.active }

/-! ## Running an SQ word -/

/-- The context that an SQ word runs for. -/
def State.sqTurn (s : State) : Option (Nat × Nat × Ctx) :=
  match s.turn with
  | .sq c k =>
    match s.ctx? c k with
    | some x => if x.life = .running then some (c, k, x) else none
    | none => none
  | _ => none

/-- The common course of an SQ word (R174, R294): the guard, then the poison marks of its sources, then its body. -/
def sqRun (g : Pred) (srcs : List Reg) (s : State) (body : Nat → Nat → Ctx → State) : Out :=
  match s.sqTurn with
  | none => .fault .strayTurn
  | some (c, k, x) =>
    if !x.pred g then .next (s.setCtx c k x.step)
    else match x.marked srcs with
      | some a => .next (s.abort c k ⟨10, a⟩)
      | none => .next (body c k x)

/-- A word that computes a value for a register (R176). -/
def sqValue (g : Pred) (srcs : List Reg) (d : Reg) (f : Ctx → Word) (s : State) : Out :=
  sqRun g srcs s fun c k x => s.setCtx c k (x.step.setReg d (f x))

/-- A word that computes a predicate (R181, R182). -/
def sqPred (g : Pred) (srcs : List Reg) (pd : Pred) (f : Ctx → Bool) (s : State) : Out :=
  sqRun g srcs s fun c k x => s.setCtx c k (x.step.setPred pd (f x))

/-- Codes of the causes (R453). -/
def ILLOP : Nat := 1
def PRIV : Nat := 2
def OBJFAULT : Nat := 3
def MISALIGN : Nat := 4
def FMTTAG : Nat := 5
def DETTRAP : Nat := 6
def ENGILL : Nat := 9
def POISON : Nat := 10

end Sys2Proof.Machine
end

