-- ==== Sys2Proof/Machine/Access.lean ====
section
/-! DEFINITION. Reaching memory: page tables, places, rights, scratchpad lines, window slices, device memory, poison marks, watches
(R104 to R115, R279 to R288, R303, R308 to R315, R385 to R390, R472). -/

namespace Sys2Proof.Machine

/-! ## Device physical memory (R388) -/

def hbmEnd : Nat := 0x6000000000
def slateBase : Nat := 0x8000000000
def quartzBase : Nat := 0x9000000000
def hostBase : Nat := 0x100000000000

def isHbm (pa : Nat) : Bool := pa < hbmEnd
def isSlate (pa : Nat) : Bool := slateBase ≤ pa && pa < slateBase + 0x400000000
def isQuartz (pa : Nat) : Bool := quartzBase ≤ pa && pa < quartzBase + 4 * 0x60000000
def isHost (pa : Nat) : Bool := hostBase ≤ pa && pa < 2 * hostBase

/-- An address of the device's own memories. -/
def onDevice (pa : Nat) : Bool := isHbm pa || isSlate pa || isQuartz pa

/-- The die whose memory an address selects. -/
def dieOfPa (pa : Nat) : Nat :=
  if isHbm pa then pa / 0xC00000000 / 2 else if isSlate pa then (pa - slateBase) / 2 ^ 32 else (pa - quartzBase) / 0x60000000

/-- The class of the tier that holds a physical address, as a die sees it (R308, R314). -/
def tierClass (pa die : Nat) : Nat :=
  if isHost pa then 7 else if isSlate pa || isQuartz pa then 1 else if dieOfPa pa = die then 2 else 3

/-- Does the storage of an address still exist? -/
def State.present (s : State) (pa : Nat) : Bool := isHost pa || (onDevice pa && !(s.die (dieOfPa pa)).lost)

/-- Does the partition own the memory of an address (R31, R490)? -/
def Part.ownsPa (x : Part) (pa : Nat) : Bool :=
  if isHbm pa then x.ownsHbm (pa / 0xC00000000) (pa / 2 ^ 30 % 48)
  else if isSlate pa then x.ownsSlate (dieOfPa pa) ((pa - slateBase) / 2 ^ 28 % 16)
  else if isQuartz pa then x.ownsQuartz (dieOfPa pa) ((pa - quartzBase) % 0x60000000 / 2 ^ 26)
  else isHost pa

/-! ## HDM decoders (R479, R492) -/

def hdmEn (w : Word) : Bool := w.getLsbD 63
def hdmPart (w : Word) : Nat := bitsAt w 56 3
def hdmBase (w : Word) : Nat := bitsAt w 30 22 * 2 ^ 30
def hdmFirst (w : Word) : Nat := bitsAt w 32 9
def hdmCount (w : Word) : Nat := bitsAt w 0 9

def State.hdm (s : State) (j : Nat) : Word × Word := (Tab.get 0 s.mgmt.hdm0 j, Tab.get 0 s.mgmt.hdm1 j)

/-- Decoders that are enabled or are being emptied. -/
def State.hdmLive (s : State) : List Nat := (List.range 8).filter fun j => hdmEn (s.hdm j).1 || s.mgmt.emptying.contains j

/-- HBM slices, by index, of a decoder. -/
def State.inDecoder (s : State) (j pa : Nat) : Bool :=
  let i := pa / 0xC00000000 * 48 + pa / 2 ^ 30 % 48
  isHbm pa && hdmFirst (s.hdm j).2 ≤ i && i < hdmFirst (s.hdm j).2 + hdmCount (s.hdm j).2

/-! ## Page tables (R385 to R390) -/

def entryKind (e : Word) : Nat := bitsAt e 60 3
def entryLat (e : Word) : Nat := bitsAt e 57 3
def entryR (e : Word) : Bool := e.getLsbD 56
def entryW (e : Word) : Bool := e.getLsbD 55
def entryBody (e : Word) : Nat := bitsAt e 0 48

/-- Position of the index field and the leaf size exponent of each level. -/
def levelShift : Nat → Nat
  | 1 => 48
  | 2 => 39
  | 3 => 30
  | 4 => 21
  | _ => 16

def levelBits : Nat → Nat
  | 1 => 8
  | 5 => 5
  | _ => 9

/-- Is an entry well formed for its level: a pointer to a table, or a leaf (R386)? -/
def entryFormed (lv : Nat) (e : Word) : Bool :=
  let b := entryBody e
  let leafOk := 3 ≤ lv
  e.getLsbD 63 && bitsAt e 48 7 == 0 &&
  (match entryKind e with
   | 0 => lv < 5 && b % 4096 == 0 && onDevice b
   | 1 => leafOk && b % 2 ^ levelShift lv == 0 && (onDevice b || isHost b) && !(4 ≤ entryLat e && entryLat e ≤ 6)
   | 2 => leafOk
   | 3 => lv == 5 && b / 65536 == 0 && b % 2 == 0 && (b / 128 % 2 == 0 || b / 4096 == 0)
   | 4 => leafOk && b / 4096 == 0
   | _ => false)

/-- Has the storage that an entry names not been lost (R472)? -/
def State.entryHere (s : State) (e : Word) : Bool :=
  let b := entryBody e
  match entryKind e with
  | 0 => s.present b
  | 1 => s.present b
  | 3 => b / 128 % 2 == 1 || !(s.die (dieOf (b / 256))).lost
  | _ => true

/-- An entry that does not end the walk. -/
def State.entryValid (s : State) (lv : Nat) (e : Word) : Bool := entryFormed lv e && s.entryHere e

/-- A walk from a table at a level, down the levels that are left: the valid leaf it ends at. -/
def State.walk (s : State) (addr : Nat) : List Nat → Nat → Option Cached
  | [], _ => none
  | lv :: l, table =>
    let e := BitVec.ofNat 64 (s.mem.value (table + 8 * (addr / 2 ^ levelShift lv % 2 ^ levelBits lv)) 8)
    if !s.entryValid lv e then none
    else if entryKind e = 0 then s.walk addr l (entryBody e)
    else some ⟨addr / 2 ^ levelShift lv * 2 ^ levelShift lv, levelShift lv, e⟩

def Cached.covers (x : Cached) (addr : Nat) : Bool := addr / 2 ^ x.size == x.base / 2 ^ x.size

/-- Is an entry still usable: its storage has not been lost (R472)? -/
def State.cachedOk (s : State) (x : Cached) : Bool := s.entryHere x.entry

/-- Does the walk end at a well-formed leaf whose storage has been lost (R472)? -/
def State.walkLost (s : State) (addr : Nat) : List Nat → Nat → Bool
  | [], _ => false
  | lv :: l, table =>
    let e := BitVec.ofNat 64 (s.mem.value (table + 8 * (addr / 2 ^ levelShift lv % 2 ^ levelBits lv)) 8)
    entryFormed lv e && (if s.entryHere e then entryKind e = 0 && s.walkLost addr l (entryBody e) else entryKind e ≠ 0)

/-- The command that a turn works for, by core and identity: of a word that the TU takes up, its newest. -/
def State.workCmd (s : State) : Option (Nat × Nat) :=
  match s.turn with
  | .cmd c id => some (c, id)
  | .tu c => if (s.core c).tu.any Entry.busy then (s.core c).cmds.getLast?.map fun m => (c, m.id) else none
  | .event (.chainStep c id) => some (c, id)
  | .event (.chainReply c id) => some (c, id)
  | _ => none

/-- The translation that the command at work has for a page since it first touched it (R109). -/
def State.touchedPage (s : State) (p addr : Nat) : Option Cached :=
  s.workCmd.bind fun (c, id) => ((s.core c).cmds.find? fun m => m.id == id && m.part == p).bind fun m =>
    m.pages.find? fun x => x.covers addr && s.cachedOk x

/-- The translation of a G address in a partition: the tables as they stand, or a cached earlier entry (R390; log 10). A TU command keeps
that of its first touch (R109). -/
def State.translate (s : State) (p addr : Nat) : Option Cached :=
  let now := s.walk addr [1, 2, 3, 4, 5] (s.part p).ptroot
  match s.touchedPage p addr with
  | some x => some x
  | none => match (s.part p).tlb.find? fun x => x.covers addr && s.cachedOk x with
    | some x => if Config.useOldEntry s.tick then some x else now
    | none => now

/-- Keep a used entry in the partition's translation caches, and with the command at work. -/
def State.keepEntry (s : State) (p : Nat) (x : Cached) : State :=
  let s := if (s.part p).tlb.contains x then s else s.updPart p fun y => { y with tlb := y.tlb ++ [x] }
  match s.workCmd with
  | some (c, id) => if entryKind x.entry = 2 then s else s.updCore c fun r => { r with
      cmds := r.cmds.map fun m => if m.id = id && m.part = p && !m.pages.contains x then { m with pages := m.pages ++ [x] } else m }
  | none => s

/-- Drop the cached entries that map any byte of a range, also those that commands and suspended words of the partition keep. -/
def State.dropEntries (s : State) (p lo len : Nat) : State :=
  let keep := fun (l : List Cached) => l.filter fun x => !(x.base < lo + len && lo < x.base + 2 ^ x.size)
  let s := s.updPart p fun y => { y with tlb := keep y.tlb }
  { s with cores := s.cores.map fun (c, r) => (c, { r with
      cmds := r.cmds.map fun m => if m.part = p then { m with pages := keep m.pages } else m
      ve := r.ve.map fun n => match Tab.find r.ctxs n.slot with
        | some x => if x.part = p then { n with pages := keep n.pages } else n
        | none => n }) }

/-- The used entries of a table: its listed bytes tell which can be non-zero. -/
def State.tableEntries (s : State) (table lv : Nat) : List (Nat × Word) :=
  let near := s.mem.filter fun c => table ≤ c.1 && c.1 < table + 8 * 2 ^ levelBits lv
  let idx := (near.map fun c => (c.1 - table) / 8).eraseDups
  idx.map fun i => (i, BitVec.ofNat 64 (s.mem.value (table + 8 * i) 8))

/-- Every valid leaf below a table, with the place of its entry. -/
def State.leavesFrom (s : State) : List Nat → Nat → Nat → List (Nat × Cached)
  | [], _, _ => []
  | lv :: l, table, base =>
    (s.tableEntries table lv).flatMap fun (i, e) =>
      if !s.entryValid lv e then []
      else if entryKind e = 0 then s.leavesFrom l (entryBody e) (base + i * 2 ^ levelShift lv)
      else [(table + 8 * i, ⟨base + i * 2 ^ levelShift lv, levelShift lv, e⟩)]

/-- All valid leaves of a partition. -/
def State.leaves (s : State) (p : Nat) : List (Nat × Cached) := s.leavesFrom [1, 2, 3, 4, 5] (s.part p).ptroot 0

/-- Is a physical slice pinned by a window page (R288)? -/
def State.pinned (s : State) (core slice : Nat) : Bool :=
  partNums.any fun p => (s.part p).exists_ && (s.leaves p).any fun (_, x) =>
    let b := entryBody x.entry
    entryKind x.entry == 3 && b / 128 % 2 == 0 && b / 256 == core && b / 8 % 16 == slice

/-! ## Places -/

/-- Where an address leads. -/
inductive Target where
  /-- A byte of a context's scratchpad contents. -/
  | l (core slot off : Nat)
  /-- A byte of a physical accumulator slice. -/
  | win (core slice off : Nat)
  | mem (pa : Nat)
  | host (pa : Nat)
  | remote (dev : Nat)
  /-- A valid leaf of the non-resident kind. -/
  | away
  /-- No valid leaf. -/
  | hole
  /-- A leaf whose storage lies on a lost die or device (R472). -/
  | lost
  /-- A resource of another partition (R32). -/
  | foreign
  /-- An address that R105, R106 or R387 refuses. -/
  | refused
  /-- Selector 0x82 (R105). -/
  | instr
  deriving DecidableEq, Repr

/-- An address with its rights and the leaf that gave them. -/
structure Reach where
  t : Target
  r : Bool
  w : Bool
  lat : Nat
  leaf : Option Cached
  deriving DecidableEq, Repr

def Reach.bare (t : Target) : Reach := ⟨t, true, true, 0, none⟩

/-- The physical slice of a context's window slice, if it is one (R106, R242). -/
def Ctx.winSlice (x : Ctx) (i : Nat) : Option Nat := if i < x.held && x.win.getLsbD i then x.phys[i]? else none

/-- Where a leaf leads for an address (R387). -/
def State.leafTarget (s : State) (p : Nat) (bind : Binding) (addr : Nat) (e : Cached) : Target :=
  let b := entryBody e.entry
  match entryKind e.entry with
  | 1 =>
    let pa := b + addr % 2 ^ e.size
    if isHost pa then .host pa else if (s.part p).ownsPa pa then .mem pa else .foreign
  | 2 => .away
  | 3 =>
    let slice := b / 8 % 16
    let off := b / 2 % 4 * 65536 + addr % 65536
    if b / 128 % 2 = 0 then
      if (s.part p).ownsCore (b / 256) then .win (b / 256) slice off else .foreign
    else
      let role := b / 256 % 16
      match bind.cores[role]?, bind.slots[role]? with
      | some mcore, some mslot =>
        match (s.ctx? mcore mslot).bind fun y => if y.part = p then y.winSlice slice else none with
        | some ph => .win mcore ph off
        | none => .refused
      | _, _ => .refused
  | _ => .remote (b % 4096)

/-- Resolve a G address of a partition, under a context's binding. -/
def State.reachG (s : State) (p : Nat) (bind : Binding) (addr : Nat) : Reach :=
  match s.translate p addr with
  | none => Reach.bare (if s.walkLost addr [1, 2, 3, 4, 5] (s.part p).ptroot then .lost else .hole)
  | some e =>
    if entryKind e.entry = 4 ∧ (s.part p).lostPages.contains e.base then Reach.bare .lost
    else ⟨s.leafTarget p bind addr e, entryR e.entry, entryW e.entry, entryLat e.entry, some e⟩

/-- Resolve an effective address of a context (R105, R106). remoteL: selector 0x83 is allowed (TU commands). -/
def State.reach (s : State) (c k : Nat) (x : Ctx) (remoteL : Bool) (a : Word) : Reach :=
  let addr := bitsAt a 0 56
  match bitsAt a 56 8 with
  | 0x00 => s.reachG x.part x.binding addr
  | 0x80 => if bitsAt a 20 36 = 0 then Reach.bare (.l c k addr) else Reach.bare .refused
  | 0x81 =>
    if bitsAt a 22 34 ≠ 0 then Reach.bare .refused
    else match x.winSlice (addr / 0x40000) with
      | some ph => Reach.bare (.win c ph (addr % 0x40000))
      | none => Reach.bare .refused
  | 0x82 => Reach.bare .instr
  | 0x83 =>
    let rc := bitsAt a 40 8
    let rk := bitsAt a 36 4
    if !remoteL || bitsAt a 48 8 ≠ 0 || bitsAt a 20 16 ≠ 0 then Reach.bare .refused
    else match s.ctx? rc rk with
      | some y => if y.part = x.part ∧ y.life ≠ .free then Reach.bare (.l rc rk (addr % 0x100000)) else Reach.bare .refused
      | none => Reach.bare .refused
  | _ => Reach.bare .refused

/-! ## Scratchpad lines (R280 to R285) -/

/-- Lines owned by the contexts of a region's subtree. -/
def State.ownedLines (s : State) (p r : Nat) : Nat :=
  (s.cores.map fun (c, core) =>
    (core.lineOwner.filter fun (_, k) =>
      match s.ctx? c k with
      | some x => x.part == p && s.inSubtree p r (recRegion x.record)
      | none => false).length).foldl (· + ·) 0

/-- A region and its ancestors. -/
def State.ancestors (s : State) (p : Nat) : Nat → Nat → List Nat
  | 0, _ => []
  | fuel + 1, r => r :: (if r = 0 then [] else s.ancestors p fuel (rcbParent (s.region p r).rcb))

/-- Does one more line fit the scratchpad budgets of a context's region and its ancestors (R36, R281)? A line that a context of the same
subtree loses leaves the count as it is. -/
def State.lineFits (s : State) (c line : Nat) (x : Ctx) : Bool :=
  let loses := fun r => match (Tab.find (s.core c).lineOwner line).bind (s.ctx? c) with
    | some y => y.part == x.part && s.inSubtree x.part r (recRegion y.record)
    | none => false
  (s.ancestors x.part 4096 (recRegion x.record)).all fun r =>
    (s.ownedLines x.part r + if loses r then 0 else 1) * 256 ≤ s.eff x.part r 1

/-- The exchange of R281, before an access to a line: none where the budget forbids it. -/
def State.exchange (s : State) (c k line : Nat) : Option State :=
  match s.ctx? c k with
  | none => none
  | some x =>
    if Tab.find (s.core c).lineOwner line = some k then some s
    else if Tab.has x.lines line then
      some ((s.updCore c fun r => { r with lineOwner := Tab.put r.lineOwner line k }).countPerf c 6)
    else if s.lineFits c line x then
      let s := s.setCtx c k { x with lines := Tab.put x.lines line ⟨true, false, false, 0⟩ }
      some ((s.updCore c fun r => { r with lineOwner := Tab.put r.lineOwner line k }).countPerf c 6)
    else none

/-- The fields of a scratchpad region map entry (R283). -/
def srmValid (e : Word × Word) : Bool := e.1.getLsbD 63
def srmClass (e : Word × Word) : Nat := bitsAt e.1 56 4
def srmBase (e : Word × Word) : Nat := bitsAt e.1 8 48 * 256
def srmLines (e : Word × Word) : Nat := bitsAt e.2 20 13
def srmFirst (e : Word × Word) : Nat := bitsAt e.2 8 12

/-- The G image of a line that lies in a region (R284). -/
def Ctx.regionOf (x : Ctx) (line : Nat) : Option Nat :=
  (x.srm.find? fun (_, e) => srmValid e && srmFirst e ≤ line && line < srmFirst e + srmLines e).map fun (_, e) =>
    srmBase e + 256 * (line - srmFirst e)

/-- The ordering class of the region that a line lies in. -/
def Ctx.regionClass (x : Ctx) (line : Nat) : Option Nat :=
  (x.srm.find? fun (_, e) => srmValid e && srmFirst e ≤ line && line < srmFirst e + srmLines e).map fun (_, e) => srmClass e

def Ctx.line (x : Ctx) (i : Nat) : LineSt := Tab.get LineSt.clean x.lines i

/-- The outcome of asking for a line. -/
inductive Touch where
  | ready (s : State)
  /-- The line's fill is awaited (R114). -/
  | filling (s : State)
  | full
  deriving DecidableEq, Repr

/-- Who stalls at a fill in this turn. -/
def State.staller (s : State) : Stalled :=
  match s.workCmd with
  | some (c, id) => .cmd c id
  | none => match s.turn with
    | .ve _ => .eng .ve
    | .event (.veRemoteResume ..) => .eng .ve
    | .me _ => .eng .me
    | .tu _ => .eng .tu
    | .event (.tuAccept _) => .eng .tu
    | .event (.meStepComplete ..) => .job
    | .event (.msgoBatchEnd ..) => .job
    | .event (.streamInTile ..) => .stream
    | .event (.streamOutTile ..) => .stream
    | _ => .sq

def Fill.names (f : Fill) (c k line : Nat) : Bool := f.core == c && f.slot == k && f.line == line

/-- An access waits for a line's fill. -/
def State.awaitFill (s : State) (c k line : Nat) : State :=
  let w := s.staller
  { s with fills :=
      if s.fills.any fun f => f.names c k line then
        s.fills.map fun f => if f.names c k line && !f.who.contains w then { f with who := f.who ++ [w] } else f
      else s.fills ++ [⟨c, k, line, [w]⟩] }

/-- Make a line accessible; whole: the access writes all of it (R284). -/
def State.touch (s : State) (c k line : Nat) (whole : Bool) : Touch :=
  match s.exchange c k line with
  | none => .full
  | some s =>
    match s.ctx? c k with
    | none => .full
    | some x =>
      if (x.regionOf line).isNone || (x.line line).rgf || whole then .ready s
      else .filling (s.awaitFill c k line)

/-- Units of 64 bytes that n bytes at off cover wholly. -/
def wholeUnits (off n : Nat) : List Nat := (List.range (n / 64 + 2)).filterMap fun i =>
  let u := off / 64 + i
  if off ≤ 64 * u ∧ 64 * u + 64 ≤ off + n then some u else none

/-- Units that n bytes at off touch. -/
def someUnits (off n : Nat) : List Nat := (List.range (n / 64 + 2)).filterMap fun i =>
  let u := off / 64 + i
  if n ≠ 0 ∧ 64 * u < off + n then some u else none

/-- Lines that n bytes at off touch. -/
def someLines (off n : Nat) : List Nat := (List.range (n / 256 + 2)).filterMap fun i =>
  let u := off / 256 + i
  if n ≠ 0 ∧ 256 * u < off + n then some u else none

/-- The banks of n bytes at an offset of L (R279). -/
def banksOf (off n : Nat) : List Nat := (someUnits off n).map (· % 32)

/-- Is a transfer still at work? -/
def State.moving (s : State) : Mover → Bool
  | .cmd c id => (s.core c).cmds.any fun m => m.id == id
  | .stream .. => true

/-- Must an access of this turn to some banks of a core wait for a transfer's lock (R131)? The accesses of the core's SQ, VE and ME do; a
command of its TU waits for older ones and for streams; what comes from outside the core does not (log 53). -/
def State.bankHeld (s : State) (core off n : Nat) : Bool :=
  (s.core core).locks.any fun (m, b) => (banksOf off n).contains b && s.moving m && (match s.workCmd with
    | none => true
    | some (c, id) => c == core && (match m with
      | .cmd _ older => older < id
      | .stream .. => true))

/-- A transfer locks the banks that it has written. -/
def State.lockBanks (s : State) (core : Nat) (m : Mover) (off n : Nat) : State :=
  s.updCore core fun r => { r with locks := (r.locks ++ (banksOf off n).map fun b => (m, b)).eraseDups }

/-- A transfer is over: its locks go. -/
def State.unlock (s : State) (m : Mover) : State :=
  if s.cores.any fun (_, r) => r.locks.any fun q => q.1 == m then
    { s with cores := s.cores.map fun (c, r) => (c, { r with locks := r.locks.filter fun q => q.1 != m }) }
  else s

/-- Store into a context's scratchpad contents, with the line states (R280, R282, R284). -/
def Ctx.storeL (x : Ctx) (off : Nat) (bs : List Byte) : Ctx :=
  let n := bs.length
  let mark := fun (t : Tab LineSt) line =>
    let st := Tab.get LineSt.clean t line
    let clear := (wholeUnits off n).foldl (fun m u => if u / 4 = line then m &&& ~~~(1#4 <<< (u % 4)) else m) st.pois
    let inReg := (x.regionOf line).isSome
    Tab.put t line ⟨true, st.rgf || inReg, st.rgd || inReg, clear⟩
  { x with l := x.l.write off bs, lines := (someLines off n).foldl mark x.lines }

def Ctx.poisonL (x : Ctx) (u : Nat) : Ctx :=
  { x with lines := Tab.upd LineSt.clean x.lines (u / 4) fun st => { st with pois := st.pois ||| (1#4 <<< (u % 4)) } }

/-! ## Waking what waits on a window word (R303, R365) -/

def condMet (c : WCond) (w b : Word) : Bool :=
  match c with
  | .eq => w == b
  | .ne => w != b
  | .ge => b.toInt ≤ w.toInt
  | .lt => w.toInt < b.toInt

/-- Change the context of a task's member, resident or in its image. -/
def State.onMember (s : State) (p : Nat) (tid : Word) (role : Nat) (f : Ctx → Ctx) : State :=
  match s.task? p tid with
  | none => s
  | some t =>
    match t.members.find? fun (r, _, _) => r == role with
    | some (_, c, k) => s.updCtx c k f
    | none => s.updTask p tid fun t =>
      { t with images := t.images.map fun i => if i.role = role then { i with ctx := f i.ctx } else i }

/-- A parked member's wait has ended: its task becomes ready (R54). -/
def State.wakeMember (s : State) (p : Nat) (tid : Word) (role : Nat) (f : Ctx → Ctx) : State :=
  let s := s.onMember p tid role fun x => match x.life with
    | .parked w _ => { f x with life := .parked w true }
    | _ => x
  let (n, s) := s.fresh
  s.updTask p tid fun t =>
    if t.st = .parked then { t with st := .ready, readyAt := n, since := (s.die t.die).qclk.toNat, record := recSet t.record 0 (recHeader t.record ||| 1#64 <<< 52) } else t

def Slice.word (x : Slice) (off : Nat) : Word := BitVec.ofNat 64 (x.bytes.value (off / 8 * 8) 8)

def State.slice (s : State) (core slice : Nat) : Slice := Tab.get Slice.zero (s.core core).slices slice
def State.setSlice (s : State) (core slice : Nat) (x : Slice) : State :=
  s.updCore core fun r => { r with slices := Tab.put r.slices slice x }

/-- Fire the watches on a word whose condition now holds, or whose unit is poisoned: a WAITW ends, a JOIN runs again (R175, R303, R365). -/
def State.wake (s : State) (core slice off : Nat) : State :=
  let sl := s.slice core slice
  let w := sl.word off
  let bad := sl.pois.contains (off / 64)
  let hit := fun (x : Watch) => x.slice == slice && x.off == off / 8 * 8 && (condMet x.cond w x.arg || bad)
  let fired := (s.core core).watches.filter hit
  let s := s.updCore core fun r => { r with watches := r.watches.filter fun x => !hit x }
  fired.foldl (fun s x => match x.far with
    | some r => s.reply r (if bad then 0x80 else 0) (bytesOf 8 w.toNat)
    | none => s.wakeMember x.part x.tid x.role fun y =>
      match y.life with
      | .parked (.wait d a) _ => let z := y.step.setReg d w; if bad then z.markReg d a else z
      | _ => y) s

/-- The context whose slice a physical slice is, and its logical number. -/
def State.sliceHolder (s : State) (core slice : Nat) : Option (Nat × Nat) :=
  match Tab.find (s.core core).sliceOwner slice with
  | some k => (s.ctx? core k).bind fun x => (x.phys.findIdx? (· == slice)).map fun i => (k, i)
  | none => none

/-- Set the dirty bit of the 1 KiB row that a byte of a slice lies in (R245). -/
def State.dirtyRow (s : State) (core slice off : Nat) : State :=
  match s.sliceHolder core slice with
  | some (k, i) => s.updCtx core k fun x => { x with rowDirty := Tab.upd 0 x.rowDirty i fun m => m ||| (1#256 <<< (off / 1024)) }
  | none => s

/-- Store into a slice, clear the marks of whole units or set those of what the bytes touch, and wake what waits. -/
def State.storeWin (s : State) (core slice off : Nat) (bs : List Byte) (bad : Bool) : State :=
  let sl := s.slice core slice
  let units := if bad then someUnits off bs.length else wholeUnits off bs.length
  let s := s.setSlice core slice { sl with
    bytes := sl.bytes.write off bs, pois := (sl.pois.filter fun u => !units.contains u) ++ if bad then units else [] }
  let s := s.dirtyRow core slice off
  ((List.range ((bs.length + off % 8 + 7) / 8)).map fun i => off / 8 * 8 + 8 * i).foldl (fun s w => s.wake core slice w) s

/-! ## Reading, writing and poisoning at a place -/

/-- The page of a device address, as the pool's stamps name it. -/
def pageOf (pa : Nat) : Nat := pa / 65536

/-- Stamp the page of an access with its die's queue clock (R314). -/
def State.stamp (s : State) (t : Target) : State :=
  match t with
  | .mem pa => { s with stamps := Tab.put s.stamps (pageOf pa) (s.die (dieOfPa pa)).qclk.toNat }
  | _ => s

def State.readAt (s : State) (t : Target) (n : Nat) : List Byte :=
  match t with
  | .l c k off => match s.ctx? c k with
    | some x => x.l.read off n
    | none => (List.replicate n 0)
  | .win c sl off => (s.slice c sl).bytes.read off n
  | .mem pa => s.mem.read pa n
  | .host pa => s.mem.read pa n
  | _ => List.replicate n 0

/-- The units of n bytes at a place that carry a poison mark. -/
def State.marksAt (s : State) (t : Target) (n : Nat) : List Nat :=
  match t with
  | .l c k off => match s.ctx? c k with
    | some x => (someUnits off n).filter fun u => (x.line (u / 4)).pois.getLsbD (u % 4)
    | none => []
  | .win c sl off => (someUnits off n).filter (s.slice c sl).pois.contains
  | .mem pa => (someUnits pa n).filter s.memPois.contains
  | .host pa => (someUnits pa n).filter s.memPois.contains
  | _ => []

def State.writeAt (s : State) (t : Target) (bs : List Byte) : State :=
  match t with
  | .l c k off => s.updCtx c k fun x => x.storeL off bs
  | .win c sl off => s.storeWin c sl off bs false
  | .mem pa =>
    let whole := wholeUnits pa bs.length
    { s with mem := s.mem.write pa bs, memPois := s.memPois.filter fun u => !whole.contains u }
  | .host pa =>
    let whole := wholeUnits pa bs.length
    { s with mem := s.mem.write pa bs, memPois := s.memPois.filter fun u => !whole.contains u }
  | _ => s

/-- Poison the unit that a place lies in; what waits at a window word of it goes on (R303). -/
def State.poisonAt (s : State) (t : Target) : State :=
  match t with
  | .l c k off => s.updCtx c k fun x => x.poisonL (off / 64)
  | .win c sl off =>
    let x := s.slice c sl
    if x.pois.contains (off / 64) then s
    else (List.range 8).foldl (fun s i => s.wake c sl (off / 64 * 64 + 8 * i)) (s.setSlice c sl { x with pois := x.pois ++ [off / 64] })
  | .mem pa => if s.memPois.contains (pa / 64) then s else { s with memPois := s.memPois ++ [pa / 64] }
  | .host pa => if s.memPois.contains (pa / 64) then s else { s with memPois := s.memPois ++ [pa / 64] }
  | _ => s

/-- Write bytes that carry a mark where bad is set. -/
def State.writeMarked (s : State) (t : Target) (bs : List Byte) (bad : Bool) : State :=
  match t with
  | .win c sl off => s.storeWin c sl off bs bad
  | _ => let s := s.writeAt t bs; if bad then s.poisonAt t else s

/-- Move a place by some bytes within its line, slice or page. -/
def Target.add (t : Target) (n : Nat) : Target :=
  match t with
  | .l c k off => .l c k (off + n)
  | .win c sl off => .win c sl (off + n)
  | .mem pa => .mem (pa + n)
  | .host pa => .host (pa + n)
  | t => t

/-! ## Accesses of the SQ and the VE (R110, R389) -/

/-- What an access does. -/
inductive Use where
  | read | write | atomic
  deriving DecidableEq, Repr

def Use.reads (u : Use) : Bool := u != .write
def Use.writes (u : Use) : Bool := u != .read

/-- The cause that refuses an SQ or VE access, if any (R32, R105, R106, R110, R298, R310, R389). -/
def refusal (q : Reach) (u : Use) : Option Nat :=
  let bad := some OBJFAULT
  if (u.reads && !q.r) || (u.writes && !q.w) then (match q.t with | .foreign => some PRIV | _ => bad)
  else match q.t with
    | .l .. => if u = .atomic then bad else none
    | .win .. => none
    | .mem pa => if 3 < q.lat || u = .atomic || (u = .write && isSlate pa) then bad else none
    | .remote _ => none
    | .foreign => some PRIV
    | .instr => some PRIV
    | _ => bad

/-- The outcome of an SQ or VE access's checks. -/
inductive Acc where
  | go (s : State) (t : Target)
  | wait (s : State)
  | deny (code : Nat)
  deriving DecidableEq, Repr

/-- A context becomes a Slate reader at its first Slate read (R310). -/
def State.noteReader (s : State) (c k : Nat) (t : Target) (u : Use) : State :=
  match t with
  | .mem pa => if u.reads && isSlate pa then s.updCtx c k fun x => { x with slateReader := true } else s
  | _ => s

/-! ## Pages that still have a slot in the bounce buffer (R317) -/

/-- The slot of a page, with its die. -/
def State.bounceSlot (s : State) (p page : Nat) : Option (Nat × Bounce) :=
  dieNums.findSome? fun d => ((s.die d).bounce.find? fun b => b.part == p && b.page == page).map fun b => (d, b)

def State.updBounce (s : State) (d p page : Nat) (f : Bounce → Bounce) : State :=
  s.updDie d fun x => { x with bounce := x.bounce.map fun b => if b.part = p ∧ b.page = page then f b else b }

/-- Move a slot into its page at a physical address and free it. -/
def State.emptySlot (s : State) (d : Nat) (b : Bounce) (to' : Nat) : State :=
  let s : State := { s with mem := b.bytes.foldl (fun m (i, v) => m.set (to' + i) v) s.mem }
  let units := (b.bytes.map fun q => q.1 / 64).eraseDups
  let whole := units.filter fun u => (List.range 64).all fun i => Tab.has b.bytes (64 * u + i)
  let s : State := { s with memPois := s.memPois.filter fun u => !(to' / 64 ≤ u && whole.contains (u - to' / 64)) }
  let s := b.pois.foldl (fun s u => s.poisonAt (.mem (to' + 64 * u))) s
  s.updDie d fun x => { x with bounce := x.bounce.filter (· != b) }

/-- No access meets a resident page whose slot has not been moved: the slot goes into the page first (R317; log 55). -/
def State.settlePage (s : State) (p addr : Nat) (t : Target) : State :=
  match t with
  | .mem pa => match s.bounceSlot p (addr / 65536) with
    | some (d, b) => if isSlate pa then s else s.emptySlot d b (pa - addr % 65536)
    | none => s
  | _ => s

/-- Does a read reach a Slate bank in its refresh (R312)? -/
def State.bankBusy (s : State) (t : Target) : Bool :=
  match t with
  | .mem pa =>
    let pos := (s.die (dieOfPa pa)).pos.toNat
    isSlate pa && (pa - slateBase) / 256 % 64 == pos / 256 && pos % 256 < 128
  | _ => false

/-- Check and open n bytes, which lie in one line and one page, for an access of a context. -/
def State.openAt (s : State) (c k : Nat) (x : Ctx) (a : Word) (n : Nat) (u : Use) : Acc :=
  let q := s.reach c k x false a
  match refusal q u with
  | some code => .deny code
  | none =>
    let s := match q.leaf with
      | some e => s.keepEntry x.part e
      | none => s
    match q.t with
    | .l lc lk off =>
      if s.bankHeld lc off n then .wait s
      else match s.touch lc lk (off / 256) (u = .write && off % 256 == 0 && n == 256) with
      | .ready s => .go s q.t
      | .filling s => .wait s
      | .full => .deny OBJFAULT
    | t => if u.reads && s.bankBusy t then .wait s else .go (((s.settlePage x.part (bitsAt a 0 56) t).stamp t).noteReader c k t u) t

/-! ## The order of a context's SQ accesses (R117, R118) -/

/-- The device and the 64 KiB page that requests to a place of another device name. -/
def placeOf (t : Target) (a : Word) : Option (Nat × Nat) := match t with
  | .remote dev => some (dev, bitsAt a 16 40)
  | _ => none

/-- Outstanding operations of a class let a later access at a place perform: they have performed themselves, or they go before it to the
same page of the same device, which takes requests in their order. -/
def Osc.lets (cls : Nat) (place : Option (Nat × Nat)) (o : Osc) : Bool := o.cls != some cls || o.done || (place.isSome && o.place == place)

def Ctx.inOrder (x : Ctx) (cls : Nat) (place : Option (Nat × Nat)) : Bool := (x.loads ++ x.stores).all (Osc.lets cls place)

/-- Outstanding accesses of the SQ: those that have a class. -/
def Ctx.sqPending (x : Ctx) : List Osc := (x.loads ++ x.stores).filter fun o => o.cls.isSome && !o.done

/-- Check and open an access of the SQ in a class: it waits for the earlier ones of its class (R118). -/
def State.openSq (s : State) (c k : Nat) (x : Ctx) (cls : Nat) (a : Word) (n : Nat) (u : Use) : Acc :=
  match s.openAt c k x a n u with
  | .go t q => if x.inOrder cls (placeOf q a) then .go t q else .wait s
  | o => o

end Sys2Proof.Machine
end

