-- ==== Sys2Proof/Machine/Remote.lean ====
section
/-! DEFINITION. Reaching other devices: routes, packets, flits, request streams (R373, R399 to R401, R445, R484 to R487). -/

namespace Sys2Proof.Machine

/-! ## Routes (R399, R400) -/

def routeV (e : Half) : Bool := e.getLsbD 31
def routeAV (e : Half) : Bool := e.getLsbD 30
def routeHops (e : Half) : Nat := (e.extractLsb' 27 3).toNat
def routeAHops (e : Half) : Nat := (e.extractLsb' 24 3).toNat
def routePart (e : Half) : Nat := (e.extractLsb' 21 3).toNat
def routePort (e : Half) : Nat := (e.extractLsb' 16 5).toNat
def routeAPort (e : Half) : Nat := (e.extractLsb' 8 5).toNat

def State.tunar (s : State) (port : Nat) : Tunar := Tab.get Tunar.reset s.tunars port
def State.updTunar (s : State) (port : Nat) (f : Tunar → Tunar) : State :=
  { s with tunars := Tab.put s.tunars port (f (s.tunar port)) }

/-- How a packet of a partition for a device leaves. -/
inductive Way where
  /-- No valid entry of the partition. -/
  | none
  /-- A valid entry with no port up. -/
  | down
  | via (port hops : Nat)
  deriving DecidableEq, Repr

def State.wayTo (s : State) (p dev : Nat) : Way :=
  let e := Tab.get 0 s.routes dev
  if !routeV e || routePart e != p then .none
  else if (s.tunar (routePort e)).up then .via (routePort e) (routeHops e)
  else if routeAV e && (s.tunar (routeAPort e)).up then .via (routeAPort e) (routeAHops e)
  else .down

/-! ## Packets and flits (R484, R486) -/

def Packet.field (p : Packet) (lo n : Nat) : Nat := (p.hdr.extractLsb' lo n).toNat
def Packet.addr (p : Packet) : Nat := Packet.field p 72 56
def Packet.oparg (p : Packet) : Nat := Packet.field p 56 8
def Packet.rsn (p : Packet) : BitVec 16 := p.hdr.extractLsb' 40 16
def Packet.dst (p : Packet) : Nat := Packet.field p 28 12
def Packet.src (p : Packet) : Nat := Packet.field p 16 12
def Packet.part (p : Packet) : Nat := Packet.field p 12 3
def Packet.hops (p : Packet) : Nat := Packet.field p 9 3
def Packet.cls (p : Packet) : Nat := Packet.field p 8 1
def Packet.typ (p : Packet) : Nat := Packet.field p 0 8

/-- A listed type with its reserved bits zero (R486). -/
def Packet.ok (p : Packet) : Bool :=
  [1, 2, 3, 4, 5, 6, 0x80, 0x81].contains (Packet.typ p) && Packet.field p 64 8 == 0 && Packet.field p 15 1 == 0

/-- CRC-32 with the IEEE 802.3 polynomial, bit by bit. -/
def crcBits : Nat → BitVec 32 → BitVec 32
  | 0, c => c
  | n + 1, c => crcBits n (if c.getLsbD 0 then (c >>> 1) ^^^ 0xEDB88320#32 else c >>> 1)

def crc32 (bs : List Byte) : BitVec 32 := ~~~(bs.foldl (fun c b => crcBits 8 (c ^^^ b.setWidth 32)) (BitVec.allOnes 32))

/-- The bytes of a flit. -/
def flitBytes (f : BitVec 512) : List Byte := (List.range 64).map fun i => f.extractLsb' (8 * i) 8
def flitOf (bs : List Byte) : BitVec 512 := BitVec.ofNat 512 (ofBytes (bs.take 64))

/-- A flit with its CRC. -/
def mkFlit (cls vc kind : Nat) (seq ack ret : BitVec 8) (payload : List Byte) : BitVec 512 :=
  let body := [BitVec.ofNat 8 (cls * 128 + vc * 16 + kind), seq, ack, ret] ++ (payload ++ List.replicate 56 0).take 56
  flitOf (body ++ bytesOf 4 (crc32 body).toNat)

def flitGood (f : BitVec 512) : Bool :=
  let bs := flitBytes f
  crc32 (bs.take 60) == BitVec.ofNat 32 (ofBytes (bs.drop 60))

/-- The payloads of a packet, 56 bytes each. -/
def chop (n : Nat) : Nat → List Byte → List (List Byte)
  | 0, _ => []
  | _ + 1, [] => []
  | fuel + 1, l => l.take n :: chop n fuel (l.drop n)

/-- A packet as its payloads carry it: the header, the length of its data, and the data (log 21). -/
def packetBytes (p : Packet) : List Byte := bytesOf 16 p.hdr.toNat ++ bytesOf 2 p.data.length ++ p.data

/-- Send what credits and the replay buffer allow, in the order of each class and channel: those that have no credit hold up no other
(R373, R484). -/
def pumpGo : List (Nat × Nat × BitVec 512) → Tunar → List (BitVec 512) → Tunar × List (BitVec 512)
  | [], t, out => (t, out)
  | (cls, vc, f) :: l, t, out =>
    let i := 5 * cls + vc
    if 128 ≤ t.replay.length || 32 ≤ Tab.get 0 t.credits i || t.tx.any fun q => q.1 == cls && q.2.1 == vc then
      pumpGo l { t with tx := t.tx ++ [(cls, vc, f)] } out
    else
      let bs := flitBytes f
      let g := mkFlit cls vc (bs.getD 0 0 &&& 15).toNat t.seq (t.expect - 1) 0 ((bs.drop 4).take 56)
      pumpGo l { t with
        seq := t.seq + 1, replay := t.replay ++ [(t.seq, g)], credits := Tab.upd 0 t.credits i (· + 1)
        items := bumpTab t.items 0 1 } (out ++ [g])

def State.pump (s : State) (port : Nat) : State :=
  let t := s.tunar port
  let r := pumpGo t.tx { t with tx := [] } []
  r.2.foldl (fun s f => s.emit (.flit port f)) (s.updTunar port fun _ => r.1)

/-- May a new packet go to a class and channel of a port: has what was sent before left? -/
def State.portOpen (s : State) (port cls vc : Nat) : Bool := !(s.tunar port).tx.any fun q => q.1 == cls && q.2.1 == vc

/-- Put a packet on a port: class and channel by R373. -/
def State.transmit (s : State) (port vc : Nat) (p : Packet) : State :=
  let cls := Packet.cls p
  let pieces := chop 56 (p.data.length + 19) (packetBytes p)
  let fl := pieces.mapIdx fun i b => (cls, vc, mkFlit cls vc (if i = 0 then 1 else 2) 0 0 0 b)
  ((s.updTunar port fun t => { t with tx := t.tx ++ fl }).emit (.packet p)).pump port

/-! ## Request streams (R445) -/

def State.stream? (s : State) (p dev : Nat) : Option Stream := s.streams.find? fun x => x.part == p && x.toDev == some dev

/-- Unanswered requests of a stream. -/
def State.unanswered (s : State) (p dev : Nat) : Nat :=
  match s.stream? p dev with
  | some x => x.unanswered.length
  | none => 0

/-- The next request number of a stream. -/
def State.nextRsn (s : State) (p dev : Nat) : BitVec 16 :=
  match s.stream? p dev with
  | some x => x.rsn
  | none => 0

/-- Change the stream of a partition to a device; one that has sent nothing begins here. -/
def State.onStream (s : State) (p dev : Nat) (f : Stream → Stream) : State :=
  match s.stream? p dev with
  | some _ => { s with streams := s.streams.map fun x => if x.part == p && x.toDev == some dev then f x else x }
  | none => { s with streams := s.streams ++ [f ⟨0, 0, some dev, p, 0, [], 0, [], []⟩] }

/-- A numbered request, or a load under its tag, has left by a port. -/
def Stream.noted (numbered : Bool) (id port : Nat) (q : Packet) (x : Stream) : Stream :=
  if numbered then { x with rsn := x.rsn + 1, unanswered := x.unanswered ++ [(x.rsn, q)], port := port }
  else { x with loads := x.loads ++ [id], port := port }

/-- Send a request on a port, and its identity. Requests of R445 are numbered and kept until they are answered; a load carries a tag. -/
def State.request (s : State) (p dev port typ oparg addr : Nat) (data : List Byte) : Nat × State :=
  let numbered := typ != 1
  let n := if numbered then 65536 + (s.nextRsn p dev).toNat else s.serial % 65536
  let q : Packet := ⟨packetHeader addr oparg n dev (s.part p).devnum p 0 0 typ, data⟩
  let s := if numbered then s else { s with serial := s.serial + 1 }
  (n, (s.onStream p dev (Stream.noted numbered n port q)).transmit port 0 q)

/-- The die whose memory or slice a place of this device is. -/
def Target.die : Target → Option Nat
  | .mem pa => some (dieOfPa pa)
  | .win core _ _ => some (dieOf core)
  | .l core _ _ => some (dieOf core)
  | _ => none

/-- A request between two dies of the device takes a number of their stream, and is answered in the same step (R445, R446 item 8). -/
def State.crossed (s : State) (core : Nat) (t : Target) : State :=
  match t.die with
  | none => s
  | some d =>
    let me := dieOf core
    let mine := fun (x : Stream) => x.toDev.isNone && x.fromDie == me && x.toDie == d
    if d = me then s
    else if s.streams.any mine then { s with streams := s.streams.map fun x => if mine x then { x with rsn := x.rsn + 1 } else x }
    else { s with streams := s.streams ++ [⟨me, d, none, 8, 1, [], 0, [], []⟩] }

/-- Does a changed port wait for what has gone by the old one (R401)? -/
def State.portWaits (s : State) (p dev port : Nat) : Bool :=
  match s.stream? p dev with
  | some x => x.port != port && !(x.unanswered.isEmpty && x.loads.isEmpty)
  | none => false

/-- Has a stream requests to reissue to the 64 KiB page of an address? No newer request goes to that page before them (R133). -/
def State.pageMoved (s : State) (p dev addr : Nat) : Bool :=
  match s.stream? p dev with
  | some x => x.moved.any fun q => Packet.addr q.2 / 65536 == addr % 2 ^ 56 / 65536
  | none => false

/-- An outcome of trying to reach another device. -/
inductive Sent where
  /-- The requests have left; their identities. -/
  | sent (s : State) (ids : List Nat)
  /-- The stream is full, or the peer's loss is being handled. -/
  | wait (s : State)
  | refused
  deriving DecidableEq, Repr

/-- Try to send a request for a partition: refused without a route (R400), a peer loss without a port, a wait when the stream is full. -/
def State.sendRemote (s : State) (p dev typ oparg addr : Nat) (data : List Byte) : Sent :=
  match s.wayTo p dev with
  | .none => .refused
  | .down => .wait (if s.inbox.contains (.peerLoss p dev) then s else { s with inbox := s.inbox ++ [.peerLoss p dev] })
  | .via port _ =>
    if (typ != 1 && 1024 ≤ s.unanswered p dev) || s.portWaits p dev port || !s.portOpen port 0 0 || s.pageMoved p dev addr then .wait s
    else
      let r := s.request p dev port typ oparg addr data
      .sent r.2 [r.1]

/-- Send a list of requests of one type, all or none: device, address, operand code and data of each. -/
def State.sendList (s : State) (p typ : Nat) (l : List (Nat × Word × Nat × List Byte)) : Sent :=
  let devs := (l.map Prod.fst).eraseDups
  if devs.any fun d => s.wayTo p d == .none then .refused
  else match devs.find? fun d => s.wayTo p d == .down with
    | some d => s.sendRemote p d typ 0 0 []
    | none =>
      let late := fun d => (typ != 1 && 1024 < s.unanswered p d + (l.filter fun q => q.1 == d).length) ||
        (match s.wayTo p d with | .via port _ => s.portWaits p d port || !s.portOpen port 0 0 | _ => false)
      if devs.any late || l.any fun q => s.pageMoved p q.1 (bitsAt q.2.1 0 56) then .wait s
      else
        let r := l.foldl (fun (r : State × List Nat) (d, a, o, data) => match r.1.wayTo p d with
          | .via port _ => let t := r.1.request p d port typ o (bitsAt a 0 56) data; (t.2, r.2 ++ [t.1])
          | _ => r) (s, [])
        .sent r.1 r.2

/-! ## Messages about versions (R404, R409 to R427; log 35) -/

/-- The operations in the order of their codes. -/
def homeOps : List HomeOp := [.look, .use, .tvq, .publ, .retain, .repl, .rcvr, .trim, .hold, .publish, .delta, .current, .lost, .dead, .again, .unuse,
  .drefUp, .drefDown, .produce, .unproduce, .lose, .replicate, .replicated, .raise]

/-- The operand code of a message: an atomic's packet with a code beyond those of R142. -/
def HomeOp.code (o : HomeOp) : Nat := 0x60 + homeOps.findIdx (· == o)
def homeOp (oparg : Nat) : Option HomeOp := if oparg < 0x60 then none else homeOps[oparg - 0x60]?

/-- A message's data: the version, then what the operation carries. -/
def homeBytes (nv : Word) (data : List Byte) : List Byte := bytesOf 8 nv.toNat ++ data

/-- Send a message; none while it must wait. A device without a route gets none. -/
def State.sendHome (s : State) (m : HomeMsg) : Option State :=
  match s.sendRemote m.part m.dev 3 m.op.code (bitsAt m.nv 0 56) (homeBytes m.nv m.data) with
  | .sent s _ => some s
  | .refused => some s
  | .wait _ => none

/-- Send what can go, in order for each device. -/
def State.flushHome (s : State) : State :=
  s.homeMsgs.foldl (fun s m =>
    let keep := fun (s : State) => { s with homeMsgs := s.homeMsgs ++ [m] }
    if s.homeMsgs.any fun q => q.part == m.part && q.dev == m.dev then keep s else (s.sendHome m).getD (keep s)) { s with homeMsgs := [] }

/-- Tell another device something about a version. -/
def State.tellDev (s : State) (p dev : Nat) (nv : Word) (op : HomeOp) (data : List Byte) : State :=
  ({ s with homeMsgs := s.homeMsgs ++ [⟨p, dev, nv, op, data⟩] } : State).flushHome

/-! ## Outstanding operations (R430, R431) -/

def Osc.count (l : List Osc) : Nat := l.length

/-- Retire from the head what has completed. -/
def retire : List Osc → List Osc
  | [] => []
  | x :: l => if x.done then retire l else x :: l

def oscDone (id : Nat) (l : List Osc) : List Osc := retire (l.map fun x => if x.id = id then { x with done := true } else x)

def Ctx.oscList (x : Ctx) : OscKind → List Osc
  | .load => x.loads
  | .store => x.stores
  | .tile => x.tiles

def Ctx.setOsc (x : Ctx) (k : OscKind) (l : List Osc) : Ctx :=
  match k with
  | .load => { x with loads := l }
  | .store => { x with stores := l }
  | .tile => { x with tiles := l }

/-- An operation of a context becomes outstanding: its class, the page that it goes to, and its requests by device and identity. -/
def State.issueOsc (s : State) (c k : Nat) (kind : OscKind) (cls : Option Nat) (place : Option (Nat × Nat)) (reqs : List (Nat × Nat)) : State :=
  let (id, s) := s.fresh
  s.updCtx c k fun x => x.setOsc kind (x.oscList kind ++ [⟨id, false, reqs, cls, place, x.kern.toNat, false⟩])

/-- Requests that a context has outstanding. -/
def Ctx.requests (x : Ctx) : Nat :=
  x.loads.length + x.stores.length + x.asks.length + (x.rings.map fun (_, q) => q.asks.length + q.acks.length).foldl (· + ·) 0

/-- Requests that a core has outstanding: those of its contexts, of its suspended words and of its TU (R19, R112, R430). -/
def State.coreRequests (s : State) (c : Nat) : Nat :=
  let r := s.core c
  (r.ctxs.map fun (_, x) => x.requests).foldl (· + ·) 0 + (r.ve.map fun n => n.asks.length).foldl (· + ·) 0 +
  (r.cmds.map fun m => m.asks.length + m.acks.length).foldl (· + ·) 0

/-- May a core send n more requests? A place where an image is worked on stands for its core (R326). -/
def State.requestRoom (s : State) (c n : Nat) : Bool := s.coreRequests (c % 256) + n ≤ 8192

end Sys2Proof.Machine
end

