-- ==== Sys2Proof/Machine/Versions.lean ====
section
/-! DEFINITION. Tile versions: homes, directory entries, their states and counts, losses, replicas and walks; objects of the object
table; the checks of a record (R43, R44, R377, R378, R404 to R419). -/

namespace Sys2Proof.Machine

/-! ## Homes (R404, R405) -/

/-- The tile name and the version of a slot. -/
def nvName (nv : Word) : Nat := bitsAt nv 16 48
def nameOk (nv : Word) : Bool := nvName nv != 0 && nvName nv / 2 ^ 32 != 0xFFFF

/-- Device and die of a version's home. -/
def State.home (s : State) (p : Nat) (nv : Word) : Nat × Nat :=
  (s.part p).home (nvName nv / 2 ^ (s.part p).hshift % 64)

def State.homeLocal (s : State) (p : Nat) (nv : Word) : Bool := (s.home p nv).1 == (s.part p).devnum

/-- The die that serves as home: the mirror where the home die is lost, none where both are. -/
def State.homeDie (s : State) (p : Nat) (nv : Word) : Option Nat :=
  let d := (s.home p nv).2
  if !(s.die d).lost then some d else if !(s.die ((d + 1) % 4)).lost then some ((d + 1) % 4) else none

/-! ## Directory entries (R406, R407) -/

def State.version? (s : State) (p : Nat) (nv : Word) : Option DirEntry := s.versions.find? fun e => e.part == p && e.nv == nv
def State.updVersion (s : State) (p : Nat) (nv : Word) (f : DirEntry → DirEntry) : State :=
  { s with versions := s.versions.map fun e => if e.part == p && e.nv == nv then f e else e }

def DirEntry.need (e : DirEntry) : Nat := e.hold + e.cons + e.dref
def DirEntry.linked (e : DirEntry) : Bool := e.lin.isSome

def vstateCode : VState → Nat
  | .unprod => 0
  | .pending => 1
  | .current => 2
  | .lost => 3
  | .recomp => 4
  | .restore => 5

def DirEntry.fresh (p : Nat) (nv : Word) (die : Nat) : DirEntry :=
  ⟨p, nv, die, .unprod, 0, false, false, false, false, 0, 0, 0, 0, 0, 0, 0, 0, [], [], 0, 0, 0, none, none, 0, [], none, false⟩

/-- Words 1 to 4 of an entry (R406, R423). -/
def DirEntry.word1 (e : DirEntry) : Word :=
  BitVec.ofNat 64 (vstateCode e.st * 2 ^ 61 + e.depth % 16 * 2 ^ 57 + one e.ext * 2 ^ 56 + one e.repl * 2 ^ 55 +
    one e.linked * 2 ^ 54 + one e.norm * 2 ^ 53 + one e.unrc * 2 ^ 52 + e.hold % 65536 * 2 ^ 32 + e.need % 2 ^ 32)
def DirEntry.word3 (e : DirEntry) : Word := BitVec.ofNat 64 (e.nrow % 65536 * 2 ^ 48 + e.ncol % 65536 * 2 ^ 32 + e.size % 2 ^ 32)
def DirEntry.word4 (e : DirEntry) : Word :=
  BitVec.ofNat 64 (e.rdev % 4096 * 2 ^ 50 + e.rdie % 4 * 2 ^ 48 + e.rpa % 2 ^ 48)

/-- The storage range: bytes to the end of the norm trailer. -/
def rangeLen (size ncol nrow : Nat) : Nat := (size + 63) / 64 * 64 + 4 * (ncol + nrow)
def DirEntry.rangeLen (e : DirEntry) : Nat :=
  if e.norm then Sys2Proof.Machine.rangeLen e.size e.ncol e.nrow else e.size

def overlaps (a la b lb : Nat) : Bool := a < b + lb && b < a + la

/-- Entries of a die's directory. What homes on other devices have told is not among them. -/
def State.entriesOn (s : State) (die : Nat) : Nat := (s.versions.filter fun e => e.die == die && s.homeLocal e.part e.nv).length

/-- Make an entry where none exists; none where the directory is full. -/
def State.ensureVersion (s : State) (p : Nat) (nv : Word) : Option State :=
  match s.version? p nv with
  | some _ => some s
  | none =>
    let d := (s.homeDie p nv).getD 0
    if s.homeLocal p nv && 524288 ≤ s.entriesOn d then none else some { s with versions := s.versions ++ [DirEntry.fresh p nv d] }

/-- Tell a version's home on another device something. -/
def State.tellHome (s : State) (p : Nat) (nv : Word) (op : HomeOp) (data : List Byte) : State := s.tellDev p (s.home p nv).1 nv op data

def FarUse.none (dev : Nat) : FarUse := ⟨dev, 0, 0, false, 0, Option.none⟩
def FarUse.empty (u : FarUse) : Bool := u.cons == 0 && u.dref == 0 && !u.waits && u.repl.isNone

/-- Change what a device has of a version. -/
def DirEntry.updFar (e : DirEntry) (dev : Nat) (f : FarUse → FarUse) : DirEntry :=
  let u := f ((e.far.find? fun u => u.dev == dev).getD (FarUse.none dev))
  let rest := e.far.filter fun u => u.dev != dev
  { e with far := if u.empty then rest else rest ++ [u] }

/-- What a device tells of a version of which its home has one thing to say: words 0 to 3 (R328). -/
def DirEntry.told (e : DirEntry) : List Byte :=
  bytesOf 8 e.nv.toNat ++ bytesOf 8 e.word1.toNat ++ bytesOf 8 e.base.toNat ++ bytesOf 8 e.word3.toNat

/-- May an entry with no need be freed (R407)? -/
def DirEntry.freeable (e : DirEntry) : Bool :=
  e.need == 0 && e.mark.isNone && (e.st == .unprod || e.st == .current || (e.st == .lost && e.unrc))

/-- Subtract the counts that a lineage entry holds on its operands (R412). -/
def State.dropDref (s : State) (p : Nat) (l : Lineage) : State :=
  if !l.held then s
  else l.counted.foldl (fun s i =>
    let nv := recOperand l.record i
    if s.homeLocal p nv then s.updVersion p nv fun e => { e with dref := e.dref - 1 } else s.tellHome p nv .drefDown []) s

def State.addDref (s : State) (p : Nat) (l : Lineage) : State :=
  l.counted.foldl (fun s i =>
    let nv := recOperand l.record i
    if s.homeLocal p nv then s.updVersion p nv fun e => { e with dref := e.dref + 1 } else s.tellHome p nv .drefUp []) s

/-- Free entries until none is freeable; each round frees one. -/
def State.sweepGo : Nat → State → State
  | 0, s => s
  | n + 1, s =>
    match s.versions.find? DirEntry.freeable with
    | none => s
    | some e =>
      let s := { s with versions := s.versions.filter fun x => !(x.part == e.part && x.nv == e.nv) }
      let s := if s.homeLocal e.part e.nv then s.emit (.trimmed e.part e.nv) else s
      State.sweepGo n (match e.lin with | some l => s.dropDref e.part l | none => s)

def State.sweep (s : State) : State := State.sweepGo s.versions.length s

/-- Change a version's count of inserted records (R409, R412). -/
def State.addCons (s : State) (p : Nat) (nv : Word) : State :=
  let s := s.updVersion p nv fun e => { e with cons := e.cons + 1 }
  if s.homeLocal p nv then s else s.tellHome p nv .use []
def State.dropCons (s : State) (p : Nat) (rec' : Rec) : State :=
  ((recOperands rec').foldl (fun s nv =>
    let s := s.updVersion p nv fun e => { e with cons := e.cons - 1 }
    if s.homeLocal p nv then s else s.tellHome p nv .unuse []) s).sweep

/-- Nothing is known any more of a version that a home on another device will tell of again. -/
def State.forget (s : State) (p : Nat) (nv : Word) : State :=
  if s.homeLocal p nv then s
  else s.updVersion p nv fun e => { e with st := if e.st = .pending then .pending else .unprod, unrc := false }

/-! ## Objects (R377, R378) -/

/-- Bytes of G memory as the device itself reads them; zero where nothing is mapped. -/
def State.readG (s : State) (p addr n : Nat) : List Byte := (List.range n).map fun i =>
  match s.translate p ((addr + i) % 2 ^ 56) with
  | some e => match entryKind e.entry with
    | 1 => s.mem.get (entryBody e.entry + (addr + i) % 2 ^ e.size)
    | _ => 0
  | none => 0

/-- Is every byte of a range on a resident leaf? -/
def State.residentG (s : State) (p addr n : Nat) : Bool :=
  ((List.range (n / 65536 + 2)).all fun i =>
    let a := (addr / 65536 + i) * 65536
    addr + n ≤ a || (match s.translate p (a % 2 ^ 56) with | some e => entryKind e.entry == 1 | none => false))

def State.object (s : State) (p i : Nat) : Word × Nat × Nat × Word :=
  let bs := s.readG p ((s.part p).otbase.toNat + 32 * i) 32
  let w := fun j => ofBytes ((bs.drop (8 * j)).take 8)
  (BitVec.ofNat 64 (w 0), w 1, w 2 % 2 ^ 40, BitVec.ofNat 64 (w 3))

def objV (w : Word) : Bool := w.getLsbD 63
def objKind (w : Word) : Nat := bitsAt w 60 3
def objR (w : Word) : Bool := w.getLsbD 59
def objX (w : Word) : Bool := w.getLsbD 57
def objGen (w : Word) : Nat := bitsAt w 32 16

/-- A valid image object with execute right (R43 row 6). -/
def State.isImage (s : State) (p h : Nat) : Bool :=
  let o := (s.object p h).1
  h != 0 && h < (s.part p).otsize && objV o && objKind o == 1 && objX o

/-! ## Records (R43, R44) -/

/-- A record with what R44 does not compare cleared: join, CONT and RECOMP. -/
def recKey (r : Rec) : Rec := recSet (recSet r 15 0) 0 (recHeader r &&& ~~~(3#64 <<< 51))

def sameRecord (a b : Rec) : Bool := recKey a == recKey b

/-- The record of a version's producer while that is known: of a task here, or of one on another device. -/
def State.makerRecord (s : State) (p : Nat) (e : DirEntry) : Option Rec :=
  match e.maker with
  | some (_, r) => some r
  | none => (s.task? p e.ptid).map Task.record

/-- The producer record of a version that is pending or published, as far as this device knows. Of a published version that has no
lineage entry and whose producer is gone no record is left to compare with: none is identical (log 57). -/
def State.producer? (s : State) (p : Nat) (nv : Word) : Option (Option Rec) :=
  match s.version? p nv with
  | none => none
  | some e =>
    match e.st with
    | .unprod => none
    | .pending => some (s.makerRecord p e)
    | _ => if s.homeLocal p nv then some (match e.lin with | some l => some l.record | none => s.makerRecord p e) else none

/-- Is some result of a record pending or published, and all such of the same record? -/
def State.produced (s : State) (p : Nat) (r : Rec) : List (Option Rec) := (recResults r).filterMap (s.producer? p)

/-- R44: an identical record is already pending or published. -/
def State.adopts (s : State) (p : Nat) (r : Rec) : Bool :=
  let l := s.produced p r
  !l.isEmpty && l.all fun | some q => sameRecord q r | none => false

/-- Who inserts a record: partition, whether privileged, the region of the inserting task, and whether software wrote the record. -/
structure Inserter where
  part : Nat
  sys : Bool
  region : Nat
  soft : Bool
  deriving DecidableEq, Repr

/-- The first row of R43 that refuses a record, with its cause. -/
def State.recordCheck (s : State) (w : Inserter) (r : Rec) : Option (Nat × Nat) :=
  let h := recHeader r
  let p := w.part
  let reg := recRegion r
  let bad := fun (i n : Nat) (v : Word) => if i < n then !nameOk v else v != 0
  if bitsAt h 53 11 ≠ 0 || recNops r = 7 || (w.soft && (recCont r || recRecomp r)) then some (1, ILLOP)
  else if recMgmt r && !w.sys then some (2, PRIV)
  else if !s.running p (recRegionField r) || !s.inSubtree p w.region (recRegionField r) then some (3, PRIV)
  else if s.stageCount p reg ≤ recStage r then some (4, ILLOP)
  else if s.eff p reg 0 < recGang r + 1 then some (5, ILLOP)
  else if !s.isImage p (recCode r) then some (6, OBJFAULT)
  else if (List.range 6).any (fun i => bad i (recNops r) (recOperand r i)) ||
      (List.range 3).any (fun i => bad i (recNres r) (recResult r i)) then some (7, ILLOP)
  else if bitsAt (recJoin r) 0 3 ≠ 0 then some (8, MISALIGN)
  else if !(s.produced p r).isEmpty && !s.adopts p r then some (9, OBJFAULT)
  else none

/-- PRI as lowered on insertion (R43). -/
def State.lowerPri (s : State) (p : Nat) (r : Rec) : Rec :=
  if recMgmt r then r else recSet r 0 (putBits (recHeader r) 36 4 (min (recPri r) (s.eff p (recRegion r) 5)))

/-! ## Losses and replicas (R414, R416, R417) -/

/-- A version whose storage range holds a G address. -/
def DirEntry.holds (e : DirEntry) (a : Nat) : Bool := e.base.toNat ≤ a && a < e.base.toNat + e.rangeLen

/-- A record that waits, one of whose operand versions is lost, waits for that version again (R53). -/
def Task.rewait (p : Nat) (nv : Word) (t : Task) : Task :=
  if t.part = p ∧ t.st = .waiting ∧ (recOperands t.record).contains nv then
    { t with waits := if t.waits.contains nv then t.waits else t.waits ++ [nv], replWaits := [] }
  else t

/-- A CURRENT version is lost (R416). -/
def State.loseVersion (s : State) (p : Nat) (nv : Word) (cause : Nat) : State :=
  match s.version? p nv with
  | some e =>
    if e.st = .current then
      let due := e.far.filter fun u => u.cons != 0 && !u.waits
      let s := due.foldl (fun s u => (s.updVersion p nv fun e => e.updFar u.dev fun u => { u with waits := true }).tellDev p u.dev nv .lost []) s
      { s.updVersion p nv fun e => { e with st := .lost, lossCause := cause } with tasks := s.tasks.map (Task.rewait p nv) }
    else s
  | none => s

/-- The die that holds the page at a G address. -/
def State.dieHolding (s : State) (p addr : Nat) : Option Nat :=
  match s.translate p addr with
  | some e => match entryKind e.entry with
    | 1 => some (dieOfPa (entryBody e.entry + addr % 2 ^ e.size))
    | 3 => some (entryBody e.entry / 256 / 64)
    | _ => none
  | none => none

def Part.hbmOnDie (x : Part) (d : Nat) : Bool :=
  [2 * d, 2 * d + 1].any fun st => (List.range 48).any fun g => x.ownsHbm st g

/-- The next die, ascending modulo 4, on which the partition owns HBM. -/
def State.nextDie (s : State) (p from' : Nat) : Option Nat :=
  ((List.range 3).map fun i => (from' + i + 1) % 4).find? fun d => !(s.die d).lost && (s.part p).hbmOnDie d

/-- Is slice i of a die's HBM in its partition's pool: no decoder of the host maps it (R479)? -/
def State.inPool (s : State) (die i : Nat) : Bool :=
  !s.hdmLive.any fun j => s.inDecoder j ((2 * die + i / 48) * 0xC00000000 + i % 48 * 2 ^ 30)

/-- Bytes of the replicas on this device that lie on some dies, of some versions. -/
def State.replicaBytes (s : State) (p : Nat) (on : Nat → Bool) (of' : DirEntry → Bool) : Nat :=
  ((s.versions.filter fun e => e.part == p && e.repl && e.rdev == (s.part p).devnum && on e.rdie && of' e && s.homeLocal p e.nv).map
    DirEntry.rangeLen).foldl (· + ·) 0

/-- Where a replica that the device places itself lies (log 11). -/
def State.placeReplica (s : State) (p die : Nat) : Nat :=
  let free := (List.range 96).filter fun i => (s.part p).ownsHbm (2 * die + i / 48) (i % 48) && s.inPool die i
  (2 * die * 48 + free.getD (Config.placement s.tick % max 1 free.length) 0) * 2 ^ 30 + Config.placement (s.tick + 1) % 2 ^ 14 * 65536

/-- The 64-byte units of a G range: number, address, bytes. -/
def unitsOf (addr n : Nat) : List (Nat × Nat × Nat) := (List.range ((n + 63) / 64)).map fun i => (i, addr + 64 * i, min 64 (n - 64 * i))

/-- The physical place of a G address on a resident leaf. -/
def State.residentPa (s : State) (p addr : Nat) : Option Nat := (s.translate p (addr % 2 ^ 56)).bind fun e =>
  if entryKind e.entry = 1 then some (entryBody e.entry + addr % 2 ^ e.size) else none

/-- The units of a G range that carry a mark. -/
def State.markedUnits (s : State) (p addr n : Nat) : List Nat := (unitsOf addr n).filterMap fun (i, a, _) =>
  (s.residentPa p a).bind fun pa => if s.memPois.contains (pa / 64) then some i else none

/-- Write bytes and marks at a physical address, unit by unit. -/
def State.putUnits (s : State) (pa : Nat) (bs : List Byte) (pois : List Nat) : State :=
  (unitsOf pa bs.length).foldl (fun s (i, a, n) =>
    let s := s.writeAt (.mem a) ((bs.drop (64 * i)).take n)
    if pois.contains i then s.poisonAt (.mem a) else s) s

/-- Make a replica: its place, REPL, depth 0 and the counts of R412. The copy carries the marks of its source. -/
def State.makeReplica (s : State) (p : Nat) (nv : Word) (dev die : Nat) : State :=
  match s.version? p nv with
  | none => s
  | some e =>
    if e.repl then s
    else
      let pa := s.placeReplica p die
      let here := dev == (s.part p).devnum
      let bytes := s.readG p e.base.toNat e.rangeLen
      let pois := s.markedUnits p e.base.toNat e.rangeLen
      let s := if here then s.putUnits pa bytes pois else s
      let s := match e.lin with | some l => s.dropDref p l | none => s
      (s.updVersion p nv fun e => { e with
        repl := true, lin := e.lin.map fun l => { l with held := false }, rdev := dev, rdie := die, rpa := pa, depth := 0
        rbytes := if here then [] else bytes, rpois := if here then [] else pois }).sweep

end Sys2Proof.Machine
end

