-- ==== Sys2Proof/Machine/TaskOps.lean ====
section
/-! DEFINITION. Tasks: priorities, eligibility, insertion and release, setting up, saving and restoring contexts, ends of tasks and fault
domains (R35 to R73, R201, R243, R288, R394, R398, R456 to R466). -/

namespace Sys2Proof.Machine

/-! ## Priorities (R59 to R62, R168, R304, R306) -/

/-- CTXID (R168). -/
def ctxid (p c k : Nat) : Nat := p * 4096 + c * 16 + k

/-- The task that is in a slot of a core, or was saved from it. -/
def State.taskAt (s : State) (p c k : Nat) : Option Word :=
  match s.ctx? c k with
  | some x => if x.part = p ∧ x.life ≠ .free then some x.tid else none
  | none => (s.tasks.find? fun t => t.part == p && t.images.any fun i => i.fromCore == c && i.fromSlot == k).map Task.tid

/-- The task that a lock word of this device names (R306). -/
def State.lockOwner (s : State) (p : Nat) (w : Word) : Option Word :=
  let o := bitsAt w 0 15
  if w.getLsbD 63 && bitsAt w 27 36 == 0 && bitsAt w 15 12 == (s.part p).devnum && o / 4096 == p then s.taskAt p (o / 16 % 256) (o % 16) else none

/-- The tasks that wait for the lock words that a task owns, in ALOCK or in a WAITW; a JOIN lends nothing. -/
def State.lockWaiters (s : State) (t : Task) : List Word :=
  (s.cores.flatMap fun (_, r) =>
    let at' := fun slice off => (Tab.get Slice.zero r.slices slice).word off
    (r.watches.filterMap fun w => if w.part = t.part ∧ !w.join ∧ s.lockOwner t.part (at' w.slice w.off) = some t.tid then some w.tid else none) ++
    (r.lockq.filterMap fun w => if w.part = t.part ∧ s.lockOwner t.part (at' w.slice w.off) = some t.tid then some w.tid else none)).eraseDups

/-- Effective priority: base after aging, from waiting consumers, and through locks over up to 16 links (R59, R306). -/
def State.effPriGo (s : State) : Nat → Task → Nat
  | 0, t => min 15 (max t.aged t.waitPri)
  | n + 1, t =>
    ((s.lockWaiters t).filterMap (s.task? t.part)).foldl (fun m w => max m (s.effPriGo n w)) (min 15 (max t.aged t.waitPri))

def State.effPri (s : State) (t : Task) : Nat := s.effPriGo 16 t

/-! ## Eligibility (R36, R58, R66) -/

/-- Does a life occupy its core? -/
def Life.busy : Life → Bool
  | .running => true
  | .loading => true
  | .halted => true
  | .aborting _ => true
  | _ => false

/-- Cores that are reserved for a record. -/
def Task.reservedCores (t : Task) : List Nat := match t.st with
  | .reserved l => l
  | _ => []

/-- Cores that run tasks of a region's subtree, or that records of it have taken. -/
def State.coresUsed (s : State) (p r : Nat) : List Nat :=
  ((s.cores.filterMap fun (c, core) =>
    if core.ctxs.any fun (_, x) => x.part == p && Life.busy x.life && s.inSubtree p r (recRegion x.record) then some c else none) ++
  s.tasks.flatMap fun t => if t.part == p && s.inSubtree p r (recRegion t.record) then t.reservedCores else []).eraseDups

/-- Has a region with its ancestors core budget to spare, or is the core already counted in it (R58)? -/
def State.coreBudget (s : State) (p r core : Nat) : Bool :=
  (s.ancestors p 4096 r).all fun a =>
    let u := s.coresUsed p a
    u.contains core || u.length < s.eff p a 0

/-- Do a region and its ancestors keep to their core budgets, which an UPDATE can lower (R36, R396)? -/
def State.withinBudget (s : State) (p r : Nat) : Bool :=
  (s.ancestors p 4096 r).all fun a => (s.coresUsed p a).length ≤ s.eff p a 0

/-- The region and stage a core is assigned to. -/
def State.assigned (s : State) (p core : Nat) : Option (Nat × Nat) :=
  ((s.part p).regions.filterMap fun (r, x) => (x.assign.find? fun (c, _) => c == core).map fun (_, st) => (r, st)).head?

/-- Cores of a stage of a region on a die. -/
def State.stageCores (s : State) (p r st die : Nat) : Nat :=
  ((s.region p r).assign.filter fun (c, i) => dieOf c == die && i == st).length

/-- Has a core taken a task that counts for stages and has not ended? Boot and management tasks are taken under none of R58's rules. -/
def Task.tookOn (t : Task) (p c : Nat) : Bool :=
  t.part == p && !recMgmt t.record && t.boot.isNone && (t.reservedCores.contains c || t.members.any fun (_, m, _) => m == c)

/-- The region and stage that a core belongs to: those of the task it has taken until that ends, one that is not parked first; else those
it is assigned to (R40, R58). -/
def State.stageOf (s : State) (p c : Nat) : Option (Nat × Nat) :=
  let l := s.tasks.filter fun t => t.tookOn p c
  match (match l.find? fun t => t.st != .parked with | some t => some t | none => l.head?) with
  | some t => some (recRegion t.record, recStage t.record)
  | none => s.assigned p c

/-- Cores of a die that belong to a stage, other than one. -/
def State.stageHeld (s : State) (p r st die but : Nat) : Nat :=
  let own := ((s.region p r).assign.filter fun (_, i) => i == st).map Prod.fst
  let took := (s.tasks.filter fun t => t.part == p && recRegion t.record == r && recStage t.record == st).flatMap fun t =>
    t.reservedCores ++ t.members.map fun m => m.2.1
  ((own ++ took).eraseDups.filter fun c => c != but && dieOf c == die && s.stageOf p c == some (r, st)).length

/-- May a record of a phase be dispatched (R66, R69)? Records that carry a recomputation's stamp stand outside the phases with it (log 58). -/
def State.phaseOpen (s : State) (t : Task) : Bool :=
  let r := recRegion t.record
  !s.det t.part r || t.recomp || t.phase == BitVec.allOnes 32 || t.phase.toNat ≤ (s.region t.part r).begun.toNat

/-- The inline child that a parent waits for at its SPAWN or POPT. -/
def Ctx.waitsFor (x : Ctx) : Option Word := match x.life with
  | .parked (.child c _) _ => some c
  | _ => none

/-- Slices of a core that no context holds and no page pins. -/
def State.freeSlices (s : State) (c : Nat) : List Nat := (List.range 16).filter fun i => !Tab.has (s.core c).sliceOwner i && !s.pinned c i

/-! ## When a context may be saved (R63, R278, R296, R464, R465) -/

/-- Entries of a slot in an engine's chain. -/
def Core.entriesOf (r : Core) (e : Eng) (k : Nat) : List Entry := (r.chain e).filter fun n => n.slot == k

/-- The vector registers of a window, by number. -/
def Core.windowRegs (r : Core) (w : Nat) : Tab VReg := r.vrf.filterMap fun (i, v) => if i / 64 = w then some (i % 64, v) else none

/-- The bytes of the context shadow store. -/
def shadowStore : Nat := 0x80000

/-- The bytes that a save writes into the shadow store: what R464 saves by its dirty bits. A save that exceeds the store fills it (log 66). -/
def State.saveBytes (s : State) (c : Nat) (x : Ctx) : Nat :=
  let regs := (((s.core c).windowRegs x.window).filter fun (_, v) => v.dirty).length
  let masks := ((List.range 8).filter x.maskDirty.getLsbD).length
  let lines := (x.lines.filter fun (_, l) => l.imgd).length
  let rows := (x.rowDirty.map fun (_, b) => ((List.range 256).filter b.getLsbD).length).foldl (· + ·) 0
  min shadowStore (512 * regs + 128 * masks + 256 * lines + 1024 * rows)

/-- Bytes of HBM that a partition owns on a die and the host does not hold. -/
def State.poolSize (s : State) (p die : Nat) : Nat :=
  ((List.range 96).filter fun i => (s.part p).ownsHbm (2 * die + i / 48) (i % 48) && s.inPool die i).length * 2 ^ 30

/-- An image area. -/
def areaSize : Nat := 0x800000

/-- Bytes of a partition's HBM on a die that image areas and replicas take. -/
def State.poolUsed (s : State) (p die : Nat) : Nat :=
  areaSize * ((s.tasks.filter fun t => t.part == p).flatMap fun t => t.areas.filter fun (_, d) => d == die).length + s.replicaBytes p (· == die) fun _ => true

/-- Bytes of HBM that a region's subtree takes (R36). -/
def State.hbmUsed (s : State) (p r : Nat) : Nat :=
  areaSize * ((s.tasks.filter fun t => t.part == p && s.inSubtree p r (recRegion t.record)).flatMap Task.areas).length +
  s.replicaBytes p (fun _ => true) fun e => match e.lin with
    | some l => s.inSubtree p r (recRegion l.record)
    | none => false

/-- Is there room for n bytes of HBM on a die, for a region if one holds them? -/
def State.hbmRoom (s : State) (p die n : Nat) (r : Option Nat) : Bool :=
  s.poolUsed p die + n ≤ s.poolSize p die && (match r with
    | some r => (s.ancestors p 4096 r).all fun a => s.hbmUsed p a + n ≤ s.eff p a 3
    | none => true)

/-- Has a context its image area, or is there room for one (R465)? -/
def State.areaRoom (s : State) (c : Nat) (x : Ctx) : Bool :=
  match s.task? x.part x.tid with
  | some t => t.areas.any (fun (r, _) => r == x.role) || s.hbmRoom x.part (dieOf c) areaSize (some (recRegion x.record))
  | none => true

/-- May the context be saved now: no started VE or TU entry runs, except a suspended one (R63, R296); no nest whose last step is done still
has its epilogue drain before it (R278), and no drain to windows has rows left to send; it has an image area, and the shadow store has room (R465)? -/
def State.canSave (s : State) (c k : Nat) : Bool :=
  let r := s.core c
  ((r.entriesOf .ve k).all fun n => !n.started || n.susp) && (r.entriesOf .tu k).all (fun n => !n.started) &&
  (r.jobs.all fun j => j.slot != k || !j.idx.isEmpty) && ((r.entriesOf .me k).all fun n => n.row == 0 && n.asks.isEmpty) &&
  match s.ctx? c k with
  | some x => s.areaRoom c x && (r.shadow.map fun q => q.2.2).foldl (· + ·) 0 + s.saveBytes c x ≤ shadowStore
  | none => true

/-- Resident contexts that may be saved out to make room, oldest first (R243, R290); a gang is saved whole or not at all (R384). -/
def State.savable (s : State) (c : Nat) : List Nat :=
  let l := (s.core c).ctxs.filterMap fun (k, x) => match x.life with
    | .parked .. => if recGang x.record = 0 && s.canSave c k then some (x.order, k) else none
    | _ => none
  (l.mergeSort fun a b => a.1 ≤ b.1).map Prod.snd

/-- The slices that a task's contexts hold: the region's effective accumulator budget (R242). -/
def State.budgetSlices (s : State) (t : Task) : Nat := min 16 (s.eff t.part (recRegion t.record) 2)

/-- Can the core meet the accumulator budget without a pinned slice, once what may be saved is saved (R288)? A task that would be
pre-empted counts as saved. -/
def State.slicesFit (s : State) (c : Nat) (t : Task) : Bool :=
  let saved := (s.core c).ctxs.foldl (fun n (_, x) =>
    let may := match x.life with
      | .parked .. => recGang x.record == 0
      | .running => true
      | _ => false
    if may then n + (x.phys.filter fun i => !s.pinned c i).length else n) 0
  s.budgetSlices t ≤ (s.freeSlices c).length + saved

/-- A core that takes work. -/
def State.coreOk (s : State) (p c : Nat) : Bool :=
  (s.part p).ownsCore c && !(s.core c).heldReset && !(s.core c).isolated && !(s.die (dieOf c)).lost

/-- Rules 1 to 3 of R58. -/
def State.assignOk (s : State) (c : Nat) (t : Task) : Bool :=
  let r := recRegion t.record
  let st := recStage t.record
  match s.assigned t.part c with
  | some (ar, ast) =>
    ar == r && (ast == st ||
      (s.stageHeld t.part r st (dieOf c) c < stageMax (s.stageWord t.part r st) &&
        !s.tasks.any fun u => u.part == t.part && u.st == .ready && u.die == dieOf c && recRegion u.record == r && recStage u.record == ast))
  | none => ((s.coresUsed t.part r).filter (· != c)).length < s.eff t.part r 0

/-- Must a saved context return to its core: it holds a lock, or VWB or a queued VE entry names another window (R204, R304)? -/
def Image.bound (i : Image) : Bool :=
  i.ctx.hlc != 0 || i.ctx.vwb.toNat != i.ctx.window ||
  i.ctx.savedEntries.any fun (e, n) => e == .ve && !n.own && n.vwb != i.ctx.window

/-- May a task's saved contexts go to a core? -/
def Task.homeBound (t : Task) (c : Nat) : Bool := t.images.all fun i => !i.bound || i.fromCore == c

/-- The pinned table of a gang's dispatch (R382). -/
def State.pinnedTable (s : State) (t : Task) : Option (List Nat) :=
  if recGang t.record = 0 then none
  else ((s.part t.part).bindings.find? fun (r, h, cores) => r == recRegion t.record && h == recCode t.record && cores.length == recGang t.record + 1).map
    fun e => e.2.2

/-- The die whose cores serve a record: its queue's, or that of its pinned table. -/
def State.queueDie (s : State) (t : Task) : Nat :=
  match s.pinnedTable t with
  | some (c :: _) => dieOf c
  | _ => t.die

/-- Eligible apart from the exclusions of R460 and R462. -/
def State.eligibleBase (s : State) (c : Nat) (t : Task) : Bool :=
  let single := recGang t.record == 0
  s.coreOk t.part c && s.queueDie t == dieOf c && s.phaseOpen t && (!t.members.isEmpty || s.slicesFit c t) &&
  (!single || (Task.homeBound t c && t.members.all fun (_, m, _) => m == c)) &&
  (if recPin t.record then t.core == c else true) &&
  s.coreBudget t.part (recRegion t.record) c &&
  (t.boot == some c || recMgmt t.record || s.assignOk c t) &&
  (match t.place with
   | .inline up => (match s.task? t.part up with
      | some u => if recGang u.record = 0 then Task.homeBound u c else u.images.all fun i => i.ctx.waitsFor != some t.tid || i.fromCore == c
      | none => true)
   | _ => true)

/-- Eligible for a core (R58); an excluded core serves a single-core record only where no other core is eligible (R461). -/
def State.eligible (s : State) (c : Nat) (t : Task) : Bool :=
  s.eligibleBase c t && (!t.excl.contains c ||
    (recGang t.record == 0 && !coreNums.any fun d => d != c && !t.excl.contains d && s.eligibleBase d t))

/-! ## Gangs (R46, R47, R384, R462) -/

/-- The core that each role of a gang must have, where it must have one: a member that holds a lock or uses another window returns to its
core, a pinned table names the others that it may. -/
def State.gangRoles (s : State) (t : Task) : List (Option Nat) :=
  let fixed := t.images.filterMap fun i => if i.bound then some (i.role, i.fromCore) else none
  (List.range (recGang t.record + 1)).map fun i =>
    match fixed.find? fun q => q.1 == i with
    | some (_, c) => some c
    | none => (s.pinnedTable t).bind fun tab => match tab[i]? with
      | some c => if s.coreOk t.part c && !t.excl.contains c && !fixed.any (fun q => q.2 == c) then some c else none
      | none => none

/-- Cores that may serve in a gang: those its roles need, and others while roles are open. -/
def State.gangCores (s : State) (t : Task) : List Nat :=
  let roles := s.gangRoles t
  let need := roles.filterMap id
  coreNums.filter fun c => s.eligible c t && (need.contains c || roles.any Option.isNone)

/-- Has every budget room for a gang on some of the cores: those that it counts already, and those it has to spare? -/
def State.gangFits (s : State) (t : Task) (cores : List Nat) : Bool :=
  (s.ancestors t.part 4096 (recRegion t.record)).all fun a =>
    let u := s.coresUsed t.part a
    recGang t.record + 1 ≤ (cores.filter u.contains).length + (s.eff t.part a 0 - u.length)

/-- A gang that is reserving its cores (R47). -/
def Task.gathering (t : Task) : Bool := recGang t.record != 0 && (match t.st with
  | .reserved _ => true
  | _ => false)

/-- May a gang begin to reserve cores: enough are eligible, and no other gang of the die is gathering? -/
def State.gangReady (s : State) (t : Task) : Bool :=
  let cores := s.gangCores t
  recGang t.record + 1 ≤ cores.length && s.gangFits t cores && ((s.gangRoles t).filterMap id).all cores.contains &&
  !s.tasks.any fun u => u.gathering && s.queueDie u == s.queueDie t

/-- Can a gang that has some cores use one more: a role needs it, or a role is open? -/
def State.gangTakes (s : State) (t : Task) (c : Nat) : Bool :=
  let need := (s.gangRoles t).filterMap id
  need.contains c || (t.reservedCores.filter fun d => !need.contains d).length < recGang t.record + 1 - need.length

/-- A record whose contexts are to be handed over is served during its partition's quiesce; no other is (R472). -/
def State.dispatchable (s : State) (t : Task) : Bool :=
  (s.part t.part).quiesce.isNone || !t.images.isEmpty || !t.members.isEmpty

/-- Ready records of a die in the order of R57, gangs that are gathering among them; a boot task comes before its equals (R49). -/
def State.readyQueue (s : State) (die : Nat) : List Task :=
  let l := s.tasks.filter fun t => (t.st == .ready || t.gathering) && s.queueDie t == die && s.dispatchable t
  l.mergeSort fun a b =>
    let pa := s.effPri a
    let pb := s.effPri b
    pb < pa || (pa == pb && ((a.boot.isSome && b.boot.isNone) || (a.boot.isSome == b.boot.isSome && a.readyAt ≤ b.readyAt)))

/-- May a core take a record now? -/
def State.mayTake (s : State) (c : Nat) (t : Task) : Bool :=
  if recGang t.record = 0 then s.eligible c t else (s.gangCores t).contains c && s.gangTakes t c && (t.gathering || s.gangReady t)

/-- The first ready record that a core may take. -/
def State.nextFor (s : State) (c : Nat) : Option Task := (s.readyQueue (dieOf c)).find? (s.mayTake c)

/-! ## Queues (R345, R361) -/

def State.localCount (s : State) (c : Nat) : Nat := (s.tasks.filter fun t => t.place == .local c).length
def State.spillCount (s : State) (p die : Nat) : Nat := (s.tasks.filter fun t => t.part == p && t.place == .spill die).length
/-- Where a record that has left its queue goes: the die's spill region, or, beyond its room, no queue, and it runs as the scheduler finds
room (R361). -/
def State.spillOr (s : State) (p die : Nat) : Place := if s.spillCount p die < 4096 then .spill die else .none

/-- Records in a stage's input queue, on all dies (R38, R361). -/
def State.stageFill (s : State) (p r st : Nat) : Nat :=
  (s.tasks.filter fun t => t.part == p && (match t.place with | .stage _ a b => a == r && b == st | _ => false)).length

/-- Records of a region's subtree held in the queues, against its queue-slot budget (R36, R361). -/
def State.queued (s : State) (p r : Nat) : Nat := (s.tasks.filter fun t =>
  t.part == p && s.inSubtree p r (recRegion t.record) &&
  (match t.place with | .none => false | .inline _ => false | .boot _ => false | _ => true)).length

def State.queueRoom (s : State) (p r : Nat) : Bool := (s.ancestors p 4096 r).all fun a => s.queued p a < s.eff p a 4

/-! ## Insertion and release (R53, R66, R409, R414) -/

/-- The phase stamp of a record (R66, R447). What a recomputed task inserts into its own region takes that task's stamp, and so stands outside
the phases with it (DEDUCED, log 58). -/
def State.stampFor (s : State) (p : Nat) (r : Rec) (by' : Option (Nat × Half)) : Half :=
  let reg := recRegion r
  if recRecomp r then BitVec.allOnes 32
  else if !s.det p reg then 0
  else match by' with
    | some (ireg, ph) => if ireg = reg then ph else (s.region p reg).openPhase
    | none => (s.region p reg).openPhase

/-- The depth that a task's results would have (R413). -/
def State.depthOf (s : State) (p : Nat) (r : Rec) : Nat :=
  if recNops r = 0 then 0
  else 1 + (recOperands r).foldl (fun m nv => max m ((s.version? p nv).map DirEntry.depth |>.getD 0)) 0

/-- A record is ready. Its count of cc towards the next aged level starts here each time; the level it has reached stays (R60; DESIGN CHOICE,
log 59). -/
def State.makeReady (s : State) (p : Nat) (tid : Word) : State :=
  let (n, s) := s.fresh
  s.updTask p tid fun t => { t with st := .ready, readyAt := n, since := (s.die t.die).qclk.toNat, waits := [], replWaits := [] }

/-- The home of a record's first result, if it has one: where a replica that its release needs is put first (R414 step 2). -/
def State.wantHome (s : State) (p : Nat) (r : Rec) : Option (Nat × Nat) := if recNres r = 0 then none else some (s.home p (recResult r 0))

def State.wantBytes (s : State) (p : Nat) (r : Rec) : List Byte :=
  match s.wantHome p r with
  | some (dev, die) => [1] ++ bytesOf 2 dev ++ [BitVec.ofNat 8 die]
  | none => [0]

/-- Release a record whose operand count is 0 (R414). -/
def State.release (s : State) (p : Nat) (tid : Word) : State :=
  match s.task? p tid with
  | none => s
  | some t =>
    let d := s.depthOf p t.record
    let bound := s.eff p (recRegion t.record) 8
    let deep := (recOperands t.record).filter fun nv => match s.version? p nv with
      | some e => bound ≤ e.depth && !e.repl
      | none => false
    let s := s.updTask p tid fun t => { t with depth := d }
    if recNops t.record = 0 || t.recomp || d ≤ bound || deep.isEmpty then s.makeReady p tid
    else
      let s := (deep.eraseDups.filter fun nv => !s.homeLocal p nv).foldl (fun s nv => s.tellHome p nv .replicate (s.wantBytes p t.record)) s
      s.updTask p tid fun t => { t with waits := [], replWaits := deep.eraseDups }

/-- Operands of a record whose versions are not current, as the DMU knows them (R409). -/
def State.missing (s : State) (p : Nat) (r : Rec) : List Word :=
  (recOperands r).filter fun nv => match s.version? p nv with
    | some e => !s.homeLocal p nv || e.st != .current
    | none => true

/-- Consumers raise the priority of the re-enqueued producers that they wait for, and these that of theirs (R62). -/
def State.raiseProducers (s : State) (p : Nat) (pri : Nat) : Nat → List Word → State
  | 0, _ => s
  | n + 1, l => l.foldl (fun s nv =>
    if !s.homeLocal p nv then s.tellHome p nv .raise [BitVec.ofNat 8 pri]
    else match s.version? p nv with
      | some e =>
        if e.st ≠ .recomp then s
        else match s.task? p e.ptid with
          | some t => if pri ≤ t.waitPri then s else (s.updTask p e.ptid fun t => { t with waitPri := pri }).raiseProducers p pri n (recOperands t.record)
          | none => s
      | none => s) s

/-- A record's place and origin. -/
structure Origin where
  core : Nat
  die : Nat
  place : Place
  phase : Half
  parent : Option Word
  bySpawn : Bool
  boot : Option Nat
  stop : Option (Word × Word × Word)
  depth : Nat
  deriving DecidableEq, Repr

def taskId (serial : Nat) (r : Rec) : Word :=
  if recNres r = 0 then BitVec.ofNat 64 (0xFFFF * 2 ^ 48 + serial % 2 ^ 48) else recResult r 0

/-- Insert a checked record: entries, PENDING results, operand counts, and its release if nothing is waited for. The word is the tile
name of an insertion that finds a directory full (R407). -/
def State.insertTask (s : State) (p : Nat) (r0 : Rec) (o : Origin) : Except Word (Word × State) :=
  let r := s.lowerPri p r0
  let made := (recResults r ++ recOperands r).foldl (fun (acc : Except Word State) nv => match acc with
    | .error e => .error e
    | .ok s => match s.ensureVersion p nv with
      | some s => .ok s
      | none => .error (BitVec.ofNat 64 (nvName nv))) (.ok s)
  match made with
  | .error e => .error e
  | .ok s =>
    let tid := taskId (s.part p).serial r
    let s := if recNres r = 0 then s.updPart p fun x => { x with serial := (x.serial + 1) % 2 ^ 48 } else s
    let s := (recResults r).foldl (fun s nv => s.updVersion p nv fun e => if e.st = .unprod then { e with st := .pending, ptid := tid } else e) s
    let s := (recOperands r).foldl (fun s nv => (s.forget p nv).addCons p nv) s
    let waits := s.missing p r
    let t : Task := ⟨p, r, tid, .waiting, o.place, o.die, o.core, o.phase, recRecomp r, 0, recPri r, 0, 0, [], o.parent, o.bySpawn,
      waits, [], [], [], [], [], [], o.stop, o.boot, (s.die o.die).qclk.toNat, 0, none⟩
    let s := ({ s with tasks := s.tasks ++ [t] } : State).raiseProducers p (recPri r) (s.tasks.length + 1) (recOperands r)
    .ok (tid, if waits.isEmpty then s.release p tid else s)

/-! ## Windows, slices and contexts (R201, R243) -/

/-- The window a new context takes: a free one, else the oldest retained one. -/
def Core.pickWindow (r : Core) : Option Nat :=
  match lowest 64 fun w => Tab.get .free r.windows w == .free with
  | some w => some w
  | none =>
    let l := r.windows.filterMap fun (w, u) => match u with
      | .retained _ _ _ age => some (age, w)
      | _ => none
    ((l.mergeSort fun a b => a.1 ≤ b.1).head?).map Prod.snd

/-- The slot of a saved context is reused: its window is retained from now on (R201). -/
def Core.reuseSlot (r : Core) (k now : Nat) : Core :=
  { r with windows := r.windows.map fun (w, u) => (w, match u with
    | .saved j p tid role => if j = k then .retained p tid role now else u
    | _ => u) }

/-- The window that still holds a saved context's registers. -/
def Core.windowKept (r : Core) (p : Nat) (tid : Word) (role : Nat) : Option Nat := (r.windows.find? fun (_, u) => match u with
  | .saved _ q i o => q == p && i == tid && o == role
  | .retained q i o _ => q == p && i == tid && o == role
  | _ => false).map Prod.fst

def Core.clearWindow (r : Core) (w : Nat) : Core := { r with vrf := r.vrf.filter fun (i, _) => i / 64 != w }

/-- Give a slot the physical slices ks, zeroed, as its logical slices (R243). -/
def State.giveSlices (s : State) (c k : Nat) (ks : List Nat) : State :=
  s.updCore c fun r => ks.foldl (fun r i => { r with sliceOwner := Tab.put r.sliceOwner i k, slices := Tab.del r.slices i }) r

/-- Remove a context from its slot: its window becomes free or stays a saved one's, its slices and lines are given up. -/
def State.dropCtx (s : State) (c k : Nat) (keepWindow : Bool) : State :=
  match s.ctx? c k with
  | none => s
  | some x =>
    let gone := x.phys.filter fun i => !s.pinned c i
    let r := (s.core c).dropEntries k
    s.setCore c { r with
      ctxs := Tab.del r.ctxs k
      active := if r.active = some k then none else r.active
      windows := Tab.put r.windows x.window (if keepWindow then .saved k x.part x.tid x.role else .free)
      sliceOwner := r.sliceOwner.filter fun (_, o) => o != k
      slices := r.slices.filter fun (i, _) => !gone.contains i
      lineOwner := r.lineOwner.filter fun (_, o) => o != k }

/-- Loaded copies of a partition's earlier generations that no context runs from any more go (R379). -/
def State.evictOld (s : State) (p : Nat) : State :=
  let used := fun (key : ImgKey) => (s.cores.any fun (_, r) => r.ctxs.any fun (_, x) => x.image == key) ||
    s.tasks.any fun t => t.images.any fun i => i.ctx.image == key
  let gone := fun (l : Loaded) => l.key.part == p && objGen (s.object p l.key.handle).1 != l.key.gen && !used l.key
  if s.cores.any fun (_, r) => r.imem.any gone then
    { s with cores := s.cores.map fun (c, r) => (c, { r with imem := r.imem.filter fun l => !gone l }) }
  else s

/-- Save a context as an image of its task and free its slot (R464, R465). st: the record's next state. -/
def State.saveCtx (s : State) (c k : Nat) (st : TState) : State :=
  match s.ctx? c k with
  | none => s
  | some x =>
    let r := s.core c
    let jobs := x.savedJobs ++ r.jobs.filter fun j => j.slot == k
    let ents := [Eng.ve, .me, .tu].flatMap fun e => (r.entriesOf e k).map fun n => (e, { n with started := false, susp := false, resume := n.started || n.resume, osc := [], asks := [], got := [], mark := none, pages := [] })
    let slices := (x.phys.mapIdx fun i ph => (i, ph)).filterMap fun (i, ph) =>
      if s.pinned c ph then none else (Tab.find r.slices ph).map fun v => (i, v)
    let life := match x.life with
      | .parked p w => Life.parked p w
      | _ => .running
    let y := { x with
      life := life, savedEntries := ents, savedJobs := jobs, maskDirty := 0, rowDirty := []
      lines := x.lines.map fun (i, (l : LineSt)) => (i, { l with imgd := false }) }
    let now := r.windowRegs x.window
    let regs := (List.range 64).filterMap fun i => match Tab.find now i, x.carried with
      | some v, none => some (i, { v with dirty := false })
      | some v, some old => if v.dirty then some (i, { v with dirty := false }) else (Tab.find old i).map fun v => (i, v)
      | none, some old => (Tab.find old i).map fun v => (i, v)
      | none, none => none
    let img : Image := ⟨x.role, { y with carried := none }, regs, slices, c, k⟩
    let (n, s) := s.fresh
    let s := s.updTask x.part x.tid fun t => { t with
      images := (t.images.filter fun i => i.role != x.role) ++ [img]
      areas := if t.areas.any (fun (r, _) => r == x.role) then t.areas else t.areas ++ [(x.role, dieOf c)]
      members := t.members.filter fun (ro, _, _) => ro != x.role
      st := st
      readyAt := if st = .ready ∧ t.st ≠ .ready then n else t.readyAt
      since := if st = .ready ∧ t.st ≠ .ready then (s.die t.die).qclk.toNat else t.since
      record := recSet t.record 0 (recHeader t.record ||| 1#64 <<< 52) }
    let n := s.saveBytes c x
    let s := s.updCore c fun r => { r with
      shadow := r.shadow ++ [(k, x.tid, n)]
      vrf := r.vrf.map fun (i, v) => (i, if i / 64 = x.window then { v with dirty := false } else v) }
    s.dropCtx c k true

/-- Is a slot kept for a saved context that left it holding a lock? Its CTXID stands in lock words, so no other context may have it
(R304; log 41). -/
def State.slotKept (s : State) (c k : Nat) : Bool :=
  s.tasks.any fun t => t.images.any fun i => i.fromCore == c && i.fromSlot == k && i.ctx.hlc != 0

/-- Does a resident context hold a lock? -/
def State.holdsLock (s : State) (c k : Nat) : Bool := match s.ctx? c k with
  | some x => x.hlc != 0
  | none => false

/-- Room for a new resident context: a free slot, saving out the oldest parked context where there is none. -/
def State.freeSlot (s : State) (c : Nat) : Option (Nat × State) :=
  match lowest 16 fun k => !Tab.has (s.core c).ctxs k && !s.slotKept c k with
  | some k => some (k, s)
  | none =>
    match (s.savable c).find? fun k => !s.holdsLock c k with
    | some k => some (k, s.saveCtx c k (match (s.ctx? c k).map Ctx.life with | some (.parked _ true) => .ready | _ => .parked))
    | none => none

/-- Free slices for a context: those that no context holds, then those of parked contexts, oldest first (R243). -/
def State.takeSlices (s : State) (c n : Nat) : List Nat → Option (List Nat × State)
  | [] => if n ≤ (s.freeSlices c).length then some ((s.freeSlices c).take n, s) else none
  | k :: l =>
    if n ≤ (s.freeSlices c).length then some ((s.freeSlices c).take n, s)
    else (s.saveCtx c k (match (s.ctx? c k).map Ctx.life with | some (.parked _ true) => .ready | _ => .parked)).takeSlices c n l

/-- The scalar registers at dispatch (R45, R398). -/
def startRegs (t : Task) (role : Nat) : Vector Word 32 :=
  let r := t.record
  Vector.ofFn fun i =>
    let n := i.val
    match t.stop with
    | some (a2, a3, a4) =>
      if n = 2 then a2 else if n = 3 then a3 else if n = 4 then a4 else startWord r t.tid role n
    | none => startWord r t.tid role n
where
  startWord (r : Rec) (tid : Word) (role n : Nat) : Word :=
    if n = 0 then 0
    else if n ≤ 4 then recArg r (n - 1)
    else if n = 5 then recSeed r
    else if n = 6 then recHeader r
    else if n = 7 then recJoin r
    else if n ≤ 13 then recOperand r (n - 8)
    else if n ≤ 16 then recResult r (n - 14)
    else if n = 17 then tid
    else if n = 18 then BitVec.ofNat 64 role
    else 0

/-- A context as dispatch sets it up (R45). -/
def State.newCtx (s : State) (t : Task) (role window : Nat) (phys : List Nat) (b : Binding) (order : Nat) (img : ImgKey) : Ctx where
  life := .loading
  part := t.part
  tid := t.tid
  role := role
  record := t.record
  image := img
  a := startRegs t role
  apois := []
  p := 0
  pc := 0
  inline := (match t.place with | .inline _ => true | _ => false)
  recomp := t.recomp
  inh := false
  sys := recMgmt t.record
  tvec := 0
  epc := 0
  trapc := 0
  trapv := 0
  tscr := 0
  ocls := 0
  chkpt := false
  entered := 0
  window := window
  vwb := BitVec.ofNat 6 window
  vshp := 0x4000000
  rstrm := 0
  masks := Vector.replicate 8 0
  maskDirty := 0
  held := phys.length
  win := 0
  phys := phys
  tileTag := []
  rowDirty := []
  me := MeState.reset
  l := []
  lines := []
  srm := []
  hlc := 0
  binding := b
  nocommit := false
  loads := []
  stores := []
  tiles := []
  tags := 0
  tagStatus := []
  appended := Vector.replicate 3 0
  done := Vector.replicate 3 0
  det := s.det t.part (recRegion t.record)
  creg := 0
  ctl := false
  kern := (recHeader t.record).extractLsb' 0 6
  phase := t.phase
  rings := []
  slateReader := false
  enqw := []
  asks := []
  got := []
  writing := none
  savedEntries := []
  savedJobs := []
  pend := none
  doomed := []
  order := order
  carried := none

/-- The loaded copy that a new dispatch of a handle uses: that of the present generation (R290). -/
def State.imageKey (s : State) (p h : Nat) : ImgKey := ⟨p, h, objGen (s.object p h).1⟩

/-- The slot that an image must return to: that of a context which holds a lock (R304). -/
def Task.homeSlot (t : Task) : Option Nat := (t.images.find? fun i => i.ctx.hlc != 0).map Image.fromSlot

/-- Make room in one slot, or in any. -/
def State.roomAt (s : State) (c : Nat) : Option Nat → Option (Nat × State)
  | none => s.freeSlot c
  | some k =>
    match s.ctx? c k with
    | none => some (k, s)
    | some x => match x.life with
      | .parked _ w => if recGang x.record = 0 && s.canSave c k then some (k, s.saveCtx c k (if w then .ready else .parked)) else none
      | _ => none

/-- The slot that a task needs on a core: an inline child's is the one that its parent must return to (R55). -/
def State.slotFor (s : State) (t : Task) : Option Nat :=
  match t.place with
  | .inline up => (s.task? t.part up).bind fun u =>
    if recGang u.record = 0 then u.homeSlot
    else (u.images.find? fun i => i.ctx.waitsFor == some t.tid).map Image.fromSlot
  | _ => Task.homeSlot t

/-- Start one member of a task in a slot (R45, R46): none where the core has no slot, window or slices. -/
def State.startMember (s : State) (t : Task) (role c : Nat) : Option (Nat × State) :=
  match s.roomAt c (s.slotFor t) with
  | none => none
  | some (k, s) =>
    match s.takeSlices c (s.budgetSlices t) (s.savable c), (s.core c).pickWindow with
    | some (ks, s), some w =>
      let (n, s) := s.fresh
      let key := s.imageKey t.part (recCode t.record)
      let s := s.giveSlices c k ks
      let x := s.newCtx t role w ks ⟨[c], [k]⟩ n key
      let x := match (s.core c).loaded key with
        | some l => { x with life := .running, pc := BitVec.ofNat 32 l.entry }
        | none => x
      let s := s.updCore c fun r => let r := (r.reuseSlot k n).clearWindow w; { r with
        windows := Tab.put r.windows w (.held k), active := some k
        imem := r.imem.map fun l => if l.key = key then { l with age := n } else l }
      some (k, s.setCtx c k x)
    | _, _ => none

/-- Put an image back into a slot of a core (R466). -/
def State.restoreImage (s : State) (t : Task) (img : Image) (c k : Nat) : Option State :=
  let fresh := img.ctx.held
  let same := img.fromCore == c
  let room := [Eng.ve, .me, .tu].all fun e => ((s.core c).chain e).length + (img.ctx.savedEntries.filter fun q => q.1 == e).length ≤ 64
  let back := if same then img.ctx.phys.filter fun i => s.pinned c i && !Tab.has (s.core c).sliceOwner i else []
  match if room then s.takeSlices c (fresh - back.length) (s.savable c) else none with
  | none => none
  | some (ks, s) =>
    let phys := (img.ctx.phys.foldl (fun (acc : List Nat × List Nat) i =>
      if back.contains i then (acc.1 ++ [i], acc.2) else (acc.1 ++ [acc.2.getD 0 0], acc.2.drop 1)) ([], ks)).1
    let kept := if same then (s.core c).windowKept t.part t.tid img.role else none
    match (match kept with | some w => some w | none => (s.core c).pickWindow) with
    | none => none
    | some w =>
      let (n, s) := s.fresh
      let x := { img.ctx with
        phys := phys, window := w
        binding := if recGang t.record = 0 then ⟨[c], [k]⟩ else img.ctx.binding
        carried := if kept.isSome then none else some img.vregs
        vwb := if img.ctx.vwb.toNat = img.ctx.window then BitVec.ofNat 6 w else img.ctx.vwb
        savedEntries := [], savedJobs := img.ctx.savedJobs.map fun j => { j with slot := k } }
      let s := s.giveSlices c k ks
      let s := s.updCore c fun r =>
        let r := back.foldl (fun r i => { r with sliceOwner := Tab.put r.sliceOwner i k }) r
        let r := img.slices.foldl (fun r (i, v) => { r with slices := Tab.put r.slices (phys.getD i 0) v }) r
        let r := r.reuseSlot k n
        let r := { r with windows := Tab.put r.windows w (.held k) }
        let r := if kept.isSome then { r with vrf := r.vrf.map fun (i, v) => (i, if i / 64 = w then { v with dirty := false } else v) }
          else img.vregs.foldl (fun r (i, v) => { r with vrf := Tab.put r.vrf (64 * w + i) v }) (r.clearWindow w)
        img.ctx.savedEntries.foldl (fun r (e, n) => r.setChain e (r.chain e ++ [{ n with slot := k }])) r
      let s := s.setCtx c k x
      some (s.updTask t.part t.tid fun t => { t with
        images := t.images.filter fun i => i.role != img.role
        members := t.members ++ [(img.role, c, k)] })

/-! ## Ends of tasks (R37, R52, R394, R398, R457) -/

/-- The results of a record that its task does not publish return to UNPROD (R407). -/
def State.unproduce (s : State) (p : Nat) (tid : Word) (r : Rec) : State :=
  (recResults r).foldl (fun s nv =>
    let s := s.updVersion p nv fun e => if e.ptid = tid && e.st = .pending then { e with st := .unprod, mark := none, maker := none, taking := false } else e
    if s.homeLocal p nv then s else s.tellHome p nv .unproduce (bytesOf 8 tid.toNat)) s

/-- Discard a task's marks for publication (R52). -/
def State.unmark (s : State) (p : Nat) (tid : Word) : State :=
  { s with versions := s.versions.map fun e =>
      if e.part == p && (match e.mark with | some m => m.tid == tid | none => false) then { e with mark := none } else e }

/-- Take a record out of the machine: withdrawn, or ended with no re-run. -/
def State.removeRecord (s : State) (p : Nat) (tid : Word) : State :=
  match s.task? p tid with
  | none => s
  | some t => (((s.dropTask p tid).unmark p tid).unproduce p tid t.record).dropCons p t.record

/-- A record that has not been dispatched; a gang that is still reserving its cores has not. -/
def Task.undispatched (t : Task) : Bool :=
  (t.st == .waiting || t.st == .ready || t.gathering) && t.images.isEmpty && t.members.isEmpty

/-- Withdraw the undispatched children of a task (R52). -/
def State.withdrawChildren (s : State) (p : Nat) (tid : Word) : State :=
  ((s.tasks.filter fun t => t.part == p && t.parent == some tid && t.undispatched).map Task.tid).foldl (fun s i => s.removeRecord p i) s

/-- The messages that a task has taken with QGET, with the queues they were in (R367). -/
def State.takenBy (s : State) (p : Nat) (tid : Word) : List (Task × Place) := s.tasks.filterMap fun u => match u.st with
  | .taken t q => if u.part = p ∧ t = tid then some (u, q) else none
  | _ => none

/-- Messages taken with QGET go back to the head of their queues, with their IDs and levels as they were (R52, R367); those of a region
that has been stopped meanwhile are withdrawn (R396). -/
def State.returnTaken (s : State) (p : Nat) (tid : Word) : State :=
  (s.takenBy p tid).foldl (fun s (u, q) =>
    if s.running p (recRegion u.record) then s.updTask p u.tid fun u => { u with st := .ready, place := q, readyAt := 0 }
    else s.removeRecord p u.tid) s

/-- Region indices of a subtree. -/
def State.subtree (s : State) (p r : Nat) : List Nat := ((s.part p).regions.map Prod.fst).filter (s.inSubtree p r)

/-- STOPPING subtrees with no task left become FREE; their cores return to the parent's first stage (R394). -/
def State.freeRegions (s : State) (p : Nat) : State :=
  let done := (s.part p).regions.filter fun (r, x) => x.st == .stopping && !s.tasks.any fun t => t.part == p && s.inSubtree p r (recRegion t.record)
  done.foldl (fun s (r, x) =>
    let up := rcbParent x.rcb
    s.updPart p fun q =>
      let t := Tab.put q.regions r Region.free
      { q with
        bindings := q.bindings.filter fun (br, _, _) => br != r
        regions := if up = r then t else Tab.adjust t up fun y => { y with assign := y.assign ++ x.assign.map fun (c, _) => (c, 0) } }) s

/-- Stop a region and its subtree (R396, R398). -/
def State.stopRegion (s : State) (p r : Nat) : State :=
  let sub := s.subtree p r
  let s := s.updPart p fun q => { q with
    regions := q.regions.map fun (i, x) => (i, if sub.contains i && x.st == .running then { x with st := .stopping } else x) }
  let gone := s.tasks.filter fun t => t.part == p && t.undispatched && sub.contains (recRegion t.record)
  (gone.foldl (fun s t => s.removeRecord p t.tid) s).freeRegions p

/-- The nearest fault domain at or above a region (R37). -/
def State.domain (s : State) (p r : Nat) : Nat :=
  ((s.ancestors p 4096 r).find? fun a => a == 0 || s.eff p a 6 == 1).getD 0

/-- A fault-domain stop with its handler record (R398). -/
def State.stopDomain (s : State) (p r die : Nat) (who : Option (Word × Cause)) : State :=
  let top := s.domain p r
  let handler := ((s.region p top).word 7).toNat
  let sub := s.subtree p top
  let s := (s.stopRegion p top).countError die 13
  if handler = 0 then s
  else
    let rec' : Rec := BitVec.ofNat 1024 (ofBytes (s.readG p handler 128))
    let info := match who with
      | some (tid, w) => (tid, w.value, BitVec.ofNat 64 (w.code * 2 ^ 32 + top))
      | none => (0, 0, BitVec.ofNat 64 top)
    if !s.residentG p handler 128 || sub.contains (recRegionField rec') || (s.recordCheck ⟨p, true, 0, true⟩ rec').isSome || s.adopts p rec'
    then s.countError die 13
    else match s.insertTask p rec' ⟨0, die, .stage die (recRegion rec') (recStage rec'), s.stampFor p rec' none, none, false, none, some info, 0⟩ with
      | .ok (tid, s) => s.makeReady p tid
      | .error _ => s.countError die 13

/-- A boot mailbox of a partition's core changes and interrupts its function (R371, R477). -/
def State.mailbox (s : State) (p c : Nat) (f : Mailbox → Mailbox) : State :=
  (s.updCore c fun r => { r with mbox := f r.mbox }).interrupt (p + 1) 256

/-- The rest of an abort with no re-run (R457). -/
def State.endAborted (s : State) (p : Nat) (t : Task) (w : Cause) : State :=
  let s := (s.removeRecord p t.tid).withdrawChildren p t.tid
  let s := match t.boot with
    | some c => s.mailbox p c fun m => { m with fault := true, fcause := BitVec.ofNat 16 w.code }
    | none => s
  (s.stopDomain p (recRegion t.record) ((t.ranOn.map dieOf).getD t.die) (some (t.tid, w))).freeRegions p

/-- Re-register an aborted or handed-over record: it waits for what is not current (R409, R457). -/
def State.requeue (s : State) (p : Nat) (tid : Word) (clear : Bool) : State :=
  match s.task? p tid with
  | none => s
  | some t =>
    let rec' := if clear then recSet t.record 0 (recHeader t.record &&& ~~~(1#64 <<< 52)) else t.record
    let place := match t.place, t.boot with
      | .none, some c => Place.boot c
      | .none, none => s.spillOr p t.die
      | q, _ => q
    let s := s.updTask p tid fun t => { t with
      record := rec', st := .waiting, waits := s.missing p rec', replWaits := [], images := [], members := [], halted := [], deltas := [], ranOn := none
      areas := [], aged := recPri rec', place := place }
    let s := ((recOperands rec').filter fun nv => !s.homeLocal p nv).foldl (fun s nv => (s.forget p nv).tellHome p nv .again []) s
    if (s.missing p rec').isEmpty then s.release p tid
    else s.raiseProducers p (max (recPri rec') t.waitPri) (s.tasks.length + 1) (recOperands rec')

/-- Does a cause allow a re-run (R453, R457)? -/
def rerunCause (code : Nat) : Bool := code == 10 || code == 11 || code == 12

end Sys2Proof.Machine
end

