-- ==== Sys2Proof/Machine/Scalar.lean ====
section
/-! DEFINITION. Scalar loads and stores, LDA and STL, FENCE, control registers and YIELD (R120, R165 to R172, R188 to R190, R193,
R292 to R294). -/

namespace Sys2Proof.Machine

/-! ## Parking (R53) -/

/-- Park a context at its word; a single-core task is then parked as a whole. -/
def State.parkTask (s : State) (c k : Nat) (x : Ctx) (p : Park) : State :=
  (s.park c k x p).updTask x.part x.tid fun t => if recGang t.record = 0 then { t with st := .parked } else t

/-- Send a request of an SQ word to another device: what is refused raises OBJFAULT, what must wait runs again. -/
def State.viaRemote (s : State) (c k : Nat) (x : Ctx) (dev typ oparg : Nat) (a : Word) (data : List Byte) (f : State → Nat → State) : State :=
  if !s.requestRoom c 1 then s
  else match s.sendRemote x.part dev typ oparg (bitsAt a 0 56) data with
    | .refused => s.trap c k OBJFAULT a
    | .wait s => s
    | .sent s ids => f s (ids.headD 0)

/-- Send a request of an SQ word in a class and park its context until the answer; cls: it counts as an outstanding load meanwhile (R430).
g is what else the word does. -/
def State.askAndPark (s : State) (c k : Nat) (x : Ctx) (typ oparg : Nat) (data : List Byte) (cls : Option Nat) (w : FarWait) (g : Ctx → Ctx) : State :=
  s.viaRemote c k x w.dev typ oparg w.addr data fun s id =>
    let s := if cls.isSome then s.issueOsc c k .load cls (placeOf (.remote w.dev) w.addr) [(w.dev, id)] else s
    match s.ctx? c k with
    | some x => s.parkTask c k (g x) (.remote { w with id := id })
    | none => s

/-- What the home of a version on another device answers a word or a commit that cannot do without: a code (log 35). -/
inductive HomeSays where
  | says (code : Nat)
  | wait (s : State)
  | deny
  deriving DecidableEq, Repr

/-- Ask a version's home for a code. The question is sent once, and the word runs again when the answer has come. -/
def State.askHome (s : State) (c k : Nat) (x : Ctx) (nv : Word) (op : HomeOp) (data : List Byte) : HomeSays :=
  match x.got.find? fun q => q.1 == nv && q.2.1.length ≤ 1 with
  | some (_, bs, _) => match bs with
    | b :: _ => .says b.toNat
    | [] => .deny
  | none =>
    if x.asks.any (fun q => q.addr == nv && q.n == 1) || !s.requestRoom c 1 then .wait s
    else
      let dev := (s.home x.part nv).1
      match s.sendRemote x.part dev 3 op.code (bitsAt nv 0 56) (homeBytes nv data) with
      | .refused => .deny
      | .wait s => .wait s
      | .sent s ids => .wait (s.updCtx c k fun x => { x with asks := x.asks ++ ids.map fun id => ⟨dev, nv, 1, id⟩ })

/-- Ask the homes of several versions: their answers, in order, when all have come. -/
def State.askHomes (s : State) (c k : Nat) (x : Ctx) (op : HomeOp) (data : Word → List Byte) : List Word → Except (Option State) (List (Word × Nat))
  | [] => .ok []
  | nv :: l => match s.askHome c k x nv op (data nv), s.askHomes c k x op data l with
    | .says v, .ok r => .ok ((nv, v) :: r)
    | .deny, _ => .error none
    | .wait s, _ => .error (some s)
    | _, .error o => .error o

/-- The answers that a word has been waiting for have served. -/
def Ctx.heard (x : Ctx) : Ctx := { x with asks := [], got := [] }

/-! ## Loads and stores (R292, R293) -/

def widthBytes : Width → Nat
  | .b8 => 1
  | .b16 => 2
  | .b32 => 4
  | .b64 => 8

/-- Extend a value read. -/
def extendTo (bits : Nat) (signed : Bool) (v : Nat) : Word :=
  if signed && 2 ^ (bits - 1) ≤ v then BitVec.ofNat 64 v - BitVec.ofNat 64 (2 ^ bits) else BitVec.ofNat 64 v

/-- A load of size bytes at an address, in a class (R118, R292). -/
def loadBody (d : Reg) (size : Nat) (signed : Bool) (cls : Nat) (addr : Word) (s : State) (c k : Nat) (x : Ctx) : State :=
  if addr.toNat % size ≠ 0 then s.trap c k MISALIGN addr
  else match s.openSq c k x cls addr size .read with
    | .deny code => s.trap c k code addr
    | .wait s => s
    | .go s (.remote dev) => s.askAndPark c k x 1 (size - 1) [] (some cls) ⟨dev, addr, d, 8 * size, signed, x.hlc, OBJFAULT, 0, none⟩ id
    | .go s t =>
      let v := extendTo (8 * size) signed (ofBytes (s.readAt t size))
      let bad := !(s.marksAt t size).isEmpty
      s.updCtx c k fun x =>
        let y := x.step.setReg d v
        if bad then y.markReg d addr else y

/-- A store of the low bytes of a register, in a class (R118, R292). -/
def storeBody (d : Reg) (size : Nat) (cls : Nat) (addr : Word) (s : State) (c k : Nat) (x : Ctx) : State :=
  let data := bytesOf size (x.reg d).toNat
  if addr.toNat % size ≠ 0 then s.trap c k MISALIGN addr
  else match s.openSq c k x cls addr size .write with
    | .deny code => s.trap c k code addr
    | .wait s => s
    | .go s (.remote dev) => s.viaRemote c k x dev 2 (size - 1) addr data fun s id =>
        (s.issueOsc c k .store (some cls) (placeOf (.remote dev) addr) [(dev, id)]).updCtx c k Ctx.step
    | .go s t => ((s.crossed c t).writeAt t data).updCtx c k Ctx.step

/-- The address of an SM word: the offset counts units of the size. -/
def smAddr (x : Ctx) (a : Reg) (off : BitVec 9) (size : Nat) : Word := x.reg a + sext off * BitVec.ofNat 64 size

def smLoad (d a : Reg) (oc : OClass) (off : BitVec 9) (size : Nat) (signed : Bool) (g : Pred) (s : State) : Out :=
  sqRun g [a] s fun c k x => loadBody d size signed oc.toNat (smAddr x a off size) s c k x

def smStore (d a : Reg) (oc : OClass) (off : BitVec 9) (size : Nat) (g : Pred) (s : State) : Out :=
  sqRun g [d, a] s fun c k x => storeBody d size oc.toNat (smAddr x a off size) s c k x

def execLdI8 (d a : Reg) (oc : OClass) (off : BitVec 9) (g : Pred) (s : State) : Out := smLoad d a oc off 1 true g s
def execLdN8 (d a : Reg) (oc : OClass) (off : BitVec 9) (g : Pred) (s : State) : Out := smLoad d a oc off 1 false g s
def execLdI16 (d a : Reg) (oc : OClass) (off : BitVec 9) (g : Pred) (s : State) : Out := smLoad d a oc off 2 true g s
def execLdN16 (d a : Reg) (oc : OClass) (off : BitVec 9) (g : Pred) (s : State) : Out := smLoad d a oc off 2 false g s
def execLdI32 (d a : Reg) (oc : OClass) (off : BitVec 9) (g : Pred) (s : State) : Out := smLoad d a oc off 4 true g s
def execLdN32 (d a : Reg) (oc : OClass) (off : BitVec 9) (g : Pred) (s : State) : Out := smLoad d a oc off 4 false g s
def execLd64 (d a : Reg) (oc : OClass) (off : BitVec 9) (g : Pred) (s : State) : Out := smLoad d a oc off 8 false g s
def execSt8 (d a : Reg) (oc : OClass) (off : BitVec 9) (g : Pred) (s : State) : Out := smStore d a oc off 1 g s
def execSt16 (d a : Reg) (oc : OClass) (off : BitVec 9) (g : Pred) (s : State) : Out := smStore d a oc off 2 g s
def execSt32 (d a : Reg) (oc : OClass) (off : BitVec 9) (g : Pred) (s : State) : Out := smStore d a oc off 4 g s
def execSt64 (d a : Reg) (oc : OClass) (off : BitVec 9) (g : Pred) (s : State) : Out := smStore d a oc off 8 g s

/-- LDA: a zero-extending load whose value is fixed before any later access (R120, R293). -/
def execLda (d a : Reg) (oc : OClass) (_sc : Scope) (w : Width) (g : Pred) (s : State) : Out :=
  sqRun g [a] s fun c k x => loadBody d (widthBytes w) false oc.toNat (x.reg a) s c k x

/-- STL: a store that waits until the context's earlier SQ accesses, of every class, have performed (R120, R293). -/
def execStl (d a : Reg) (oc : OClass) (_sc : Scope) (w : Width) (g : Pred) (s : State) : Out :=
  sqRun g [d, a] s fun c k x => if x.sqPending.isEmpty then storeBody d (widthBytes w) oc.toNat (x.reg a) s c k x else s

/-- FENCE: it waits for the SQ accesses of the classes in its mask; a mask of 0 is a NOP (R119, R188). -/
def execFence (mask : BitVec 16) (_sc : Scope) (g : Pred) (s : State) : Out :=
  sqRun g [] s fun c k x => if x.sqPending.all fun o => !mask.getLsbD (o.cls.getD 0) then s.setCtx c k x.step else s

/-! ## Control registers (R165 to R171, R189, R190) -/

/-- The partition's Slate write window is open (R310). -/
def State.slateOpen (s : State) (p : Nat) : Bool :=
  (s.cores.all fun (_, r) => r.ctxs.all fun (_, x) => !(x.part == p && x.slateReader)) &&
  s.tasks.all fun t => t.part != p || t.images.all fun i => !i.ctx.slateReader

/-- SLFW (R313). -/
def State.slfw (s : State) (c p : Nat) : Word :=
  let pos := (s.die (dieOf c)).pos.toNat
  let ref := pos / 128 % 2 == 0
  BitVec.ofNat 64 (pos + one ref * 2 ^ 15 + (if ref then pos / 256 * 2 ^ 16 else 0) + one (s.slateOpen p) * 2 ^ 32)

/-- Accepted, unfinished TU commands of a context (R430). -/
def State.copies (s : State) (x : Ctx) : Nat :=
  (s.cores.map fun (_, r) => (r.cmds.filter fun m => m.part == x.part && m.tid == x.tid && m.role == x.role).length).foldl (· + ·) 0

def sstWord (x : Ctx) : Word := BitVec.ofNat 64 (one x.sys + 2 * one x.inh + 4 * one x.recomp + 8 * one x.inline)

/-- PRIO (R168). -/
def State.prioWord (s : State) (x : Ctx) : Word :=
  match s.task? x.part x.tid with
  | some t => BitVec.ofNat 64 (recPri x.record * 256 + min 15 t.aged * 16 + s.effPri t)
  | none => BitVec.ofNat 64 (recPri x.record * 256 + recPri x.record * 16 + recPri x.record)

/-- OSC (R430). -/
def State.oscWord (s : State) (x : Ctx) : Word :=
  BitVec.ofNat 64 (x.loads.length * 2 ^ 42 + x.stores.length * 2 ^ 28 + x.tiles.length * 2 ^ 16 + s.copies x)

/-- DETM (R440). -/
def detmWord (x : Ctx) : Word := BitVec.ofNat 64 (one x.det * 2 ^ 44 + x.creg % 4096 * 2 ^ 32 + one x.ctl * 2 ^ 31 + x.kern.toNat)

/-- The value that RDC reads. -/
def State.ctrl (s : State) (c k : Nat) (x : Ctx) : CReg → Word
  | .cyc => (s.core c).cyc
  | .ctxid => BitVec.ofNat 64 (ctxid x.part c k)
  | .prio => s.prioWord x
  | .sst => sstWord x
  | .tvec => x.tvec
  | .epc => zext x.epc
  | .trapc => zext x.trapc
  | .trapv => x.trapv
  | .tscr => x.tscr
  | .ocls => zext x.ocls
  | .vshp => x.vshp
  | .vwb => zext x.vwb
  | .rstrm => zext x.rstrm
  | .accpart => BitVec.ofNat 64 (x.held * 2 ^ 16 + x.win.toNat)
  | .mscnt => zext x.me.mscnt
  | .mvar => zext x.me.mvar
  | .tags => x.tags
  | .osc => s.oscWord x
  | .detm => detmWord x
  | .phase => zext x.phase
  | .slfw => s.slfw c x.part

/-- RDC: none of the registers is of access P, so no read is refused (R165, R189). -/
def execRdc (d : Reg) (cr : CReg) (g : Pred) (s : State) : Out :=
  sqRun g [] s fun c k x => s.setCtx c k (x.step.setReg d (s.ctrl c k x cr))

/-- Bits of a register that WRC writes. -/
def tvecMask : Word := 0x80000000FFFFFFFF
def trapcMask : Half := 0xC000FFFF
def vshpMask : Word := 0x7FF000F

/-- May a system-level task name a window: held or retained by a context of its partition (R204)? -/
def State.windowOf (s : State) (c p w : Nat) : Bool :=
  match Tab.get .free (s.core c).windows w with
  | .free => false
  | .held k => (match s.ctx? c k with | some y => y.part == p | none => false)
  | .saved _ q _ _ => q == p
  | .retained q _ _ _ => q == p

/-- Has every earlier access of the context to A completed (R244)? -/
def State.accIdle (s : State) (c k : Nat) (x : Ctx) : Bool :=
  let r := s.core c
  (r.entriesOf .ve k).isEmpty && (r.entriesOf .me k).isEmpty && (r.entriesOf .tu k).isEmpty &&
  (r.jobs.all fun j => j.slot != k) && s.copies x == 0 && x.stores.isEmpty && x.loads.isEmpty

/-- WRC of ACCPART: bits at or above HELD stay 0; a slice that becomes a tile is EMPTY (R242, R244). -/
def Ctx.setWin (x : Ctx) (v : BitVec 16) : Ctx :=
  let w := v &&& BitVec.ofNat 16 (2 ^ x.held - 1)
  { x with win := w, tileTag := x.tileTag.filter fun (i, _) => !(x.win.getLsbD i && !w.getLsbD i) }

/-- The change that WRC makes to a context. -/
def Ctx.writeCtrl (x : Ctx) (v : Word) : CReg → Ctx
  | .tvec => { x with tvec := v &&& tvecMask }
  | .epc => { x with epc := v.setWidth 32 }
  | .trapc => { x with trapc := v.setWidth 32 &&& trapcMask }
  | .trapv => { x with trapv := v }
  | .tscr => { x with tscr := v }
  | .ocls => { x with ocls := v.setWidth 4 }
  | .vshp => { x with vshp := v &&& vshpMask }
  | .vwb => { x with vwb := v.setWidth 6 }
  | .detm => { x with creg := bitsAt v 32 12, ctl := v.getLsbD 31, kern := v.setWidth 6 }
  | .accpart => x.setWin (v.setWidth 16)
  | _ => x

def execWrc (cr : CReg) (a : Reg) (g : Pred) (s : State) : Out :=
  sqRun g [a] s fun c k x =>
    let v := x.reg a
    let go := s.setCtx c k (x.step.writeCtrl v cr)
    match cr with
    | .vwb =>
      if !x.sys then s.trap c k PRIV (zext cr.num)
      else if s.windowOf c x.part (bitsAt v 0 6) then go else s.trap c k PRIV (BitVec.ofNat 64 (bitsAt v 0 6))
    | .detm => if x.sys then go else s.trap c k PRIV (zext cr.num)
    | .accpart => if s.accIdle c k x then go else s
    | _ => go

/-! ## YIELD (R193) -/

/-- Pre-empt a context: its image is saved and its record is ready (R63). -/
def State.preempt (s : State) (c k : Nat) : State := (s.saveCtx c k .ready).countPerf c 7

/-- YIELD counts the ready tasks that dispatch would take: none of a partition that is being quiesced, whose dispatch has stopped (R472;
DEDUCED, log 60). -/
def execYield (g : Pred) (s : State) : Out :=
  sqRun g [] s fun c k x =>
    match s.task? x.part x.tid with
    | none => s.setCtx c k x.step
    | some t =>
      let pri := s.effPri t
      let other := s.tasks.any fun u => u.st == .ready && (s.part u.part).quiesce.isNone && s.eligible c u && pri ≤ s.effPri u
      if recGang t.record ≠ 0 || x.inline || x.inh || !other then s.setCtx c k x.step
      else if s.canSave c k then (s.setCtx c k x.step).preempt c k
      else s

end Sys2Proof.Machine
end

