-- ==== Sys2Proof/Machine/Atomics.lean ====
section
/-! DEFINITION. Window ports: atomics, the determinism check, word waits and locks (R68, R298 to R306). -/

namespace Sys2Proof.Machine

/-! ## What a port does to a word (R299 to R302) -/

def aopCode : AOp → Nat
  | .add => 0
  | .addf => 1
  | .xchg => 2
  | .cas => 3
  | .max => 4
  | .min => 5
  | .maxf => 6
  | .clrmax => 7
  | .incb => 8
  | .incw => 9
  | .decz => 10
  | .addl => 11
  | .xadd => 12

/-- Bytes that the operation updates. -/
def aopWidth : AOp → Nat
  | .addf => 4
  | .maxf => 4
  | .clrmax => 4
  | .xadd => 64
  | _ => 8

/-- Alignment of the address (R299, R300). -/
def aopAlign : AOp → Nat
  | .addl => 16
  | op => aopWidth op

/-- Commutative and ordered forms (R68). -/
def aopCommutes : AOp → Bool
  | .add => true
  | .min => true
  | .max => true
  | .maxf => true
  | .incw => true
  | .xadd => true
  | _ => false

/-- The new value of an integer word. limit: the 8 bytes after it (AADDL). -/
def atomInt (op : AOp) (w x cmp limit : Word) : Word :=
  match op with
  | .add => w + x
  | .xchg => x
  | .cas => if w = cmp then x else w
  | .max => if w.toInt < x.toInt then x else w
  | .min => if x.toInt < w.toInt then x else w
  | .incb => if w.toNat < x.toNat then w + 1 else w
  | .incw => if x ≠ 0 ∧ x.toNat - 1 ≤ w.toNat then 0 else w + 1
  | .decz => if 0 < w.toInt then w - 1 else w
  | .addl => if w.toInt + x.toInt ≤ limit.toInt then w + x else w
  | _ => w

/-- The new value of an FP32 word, with its events. -/
def atomFloat (op : AOp) (w x : Nat) : Nat × Ev :=
  match op with
  | .addf => fp32Rne (vAdd false (decodeVal .fp32 w) (decodeVal .fp32 x))
  | .maxf =>
    let r := fp32Rne (vMaxMag (decodeVal .fp32 w) (decodeVal .fp32 x))
    let bits := if isNanBits .fp32 r.1 then r.1 else r.1 % 2 ^ 31
    (bits, r.2)
  | _ => (0, Ev.zero)

/-- Perform an operation once at its port: the old value and the events to count. -/
def State.port (s : State) (core slice off : Nat) (op : AOp) (x cmp : Word) : State × Word × Ev :=
  let t := Target.win core slice off
  let rd := fun (o n : Nat) => ofBytes (s.readAt (.win core slice o) n)
  match op with
  | .addf | .maxf | .clrmax =>
    let w := rd off 4
    let r := atomFloat op w (x.toNat % 2 ^ 32)
    (s.writeAt t (bytesOf 4 r.1), BitVec.ofNat 64 w, r.2)
  | .xadd =>
    let xa := xaAdd (BitVec.ofNat 512 (rd off 64)) (x.setWidth 32)
    (s.writeAt t (bytesOf 56 xa.toNat), 0, Ev.zero)
  | _ =>
    let w := BitVec.ofNat 64 (rd off 8)
    let v := atomInt op w x cmp (BitVec.ofNat 64 (rd (off + 8) 8))
    (if v = w then s else s.writeAt t (bytesOf 8 v.toNat), w, Ev.zero)

/-! ## The determinism check (R68) -/

/-- The region and phase that key the bits for a context's atomics; none where they are not checked (R68, R69). -/
def Ctx.detKey (x : Ctx) : Option (Nat × Nat) := if x.det && !x.recomp then some (recRegion x.record, x.phase.toNat % 256) else none

/-- The bits of a word as a region and phase see them. -/
def Slice.keyed (x : Slice) (off : Nat) (key : Nat × Nat) : DetBits :=
  match Tab.find x.bits (off / 8) with
  | some b => if b.region = key.1 ∧ b.phase = key.2 then b else ⟨false, false, key.1, key.2⟩
  | none => ⟨false, false, key.1, key.2⟩

/-- Does the access trap? -/
def DetBits.traps (b : DetBits) (commutes : Bool) : Bool := if commutes then b.ordered else b.touched

/-- Check an access and set the bits; none where it traps. -/
def State.detCheck (s : State) (key : Option (Nat × Nat)) (core slice off : Nat) (commutes : Bool) : Option State :=
  match key with
  | none => some s
  | some key =>
    let sl := s.slice core slice
    let b := sl.keyed off key
    if b.traps commutes then none
    else some (s.setSlice core slice { sl with bits := Tab.put sl.bits (off / 8) { b with touched := true, ordered := b.ordered || !commutes } })

/-! ## Atomics of the SQ (R298) -/

/-- The address of the poisoned unit that an access names. -/
def unitOf (a : Word) : Word := a &&& ~~~63#64

/-- Count the events of an SQ atomic against its task. -/
def State.countSq (s : State) (x : Ctx) (e : Ev) : State := s.countEv x.part x.kern.toNat x.recomp .fp32 e

/-- What a request to a window word of another device carries after its operands: whether the check of R68 is made, whether the access
commutes and returns a value, and the key of the bits (log 21). -/
def detBytes (key : Option (Nat × Nat)) (commutes returning : Bool) : List Byte :=
  let k := key.getD (0, 0)
  BitVec.ofNat 8 ((if key.isSome then 1 else 0) + (if commutes then 2 else 0) + if returning then 4 else 0) :: (bytesOf 2 k.1 ++ bytesOf 1 k.2)

def wordData (x cmp : Word) (key : Option (Nat × Nat)) (commutes returning : Bool) : List Byte :=
  bytesOf 8 x.toNat ++ bytesOf 8 cmp.toNat ++ detBytes key commutes returning

/-- The code that a cause waits under when it aborts at the next entry boundary and enters no handler (R298). -/
def aborts (code : Nat) : Nat := 512 + code

/-- Does the context wait for a port's answer to a word that has been sent (R68, R298)? -/
def Ctx.awaitsPort (x : Ctx) : Bool := x.asks.any fun q => 65536 ≤ q.id && q.n == 0

/-- The address rules of R298 with the alignment first; f gets the place. -/
def atWindow (align : Nat) (cls : Nat) (addr : Word) (s : State) (c k : Nat) (x : Ctx)
    (far : State → Nat → State) (f : State → Nat → Nat → Nat → State) : State :=
  if addr.toNat % align ≠ 0 then s.trap c k MISALIGN addr
  else match s.openSq c k x cls addr (min align 64) .atomic with
    | .deny code => s.trap c k code addr
    | .wait s => s
    | .go s (.remote dev) => far s dev
    | .go s (.win core slice off) => f s core slice off
    | .go s _ => s.trap c k OBJFAULT addr

/-- An atomic word. ret: the destination of a returning form; commutes: its kind under R68; cls: its class. A form that returns nothing
goes on at once, or in a deterministic region when the port of another device has answered. -/
def atomBody (op : AOp) (ret : Option Reg) (commutes : Bool) (cls : Nat) (addr v cmp : Word) (s : State) (c k : Nat) (x : Ctx) : State :=
  let far := fun (s : State) dev =>
    let data := wordData v cmp x.detKey commutes ret.isSome
    match ret with
    | some d => s.askAndPark c k x 3 (aopCode op) data (some cls) ⟨dev, addr, d, 8 * min 8 (aopWidth op), false, x.hlc, aborts OBJFAULT, 0, none⟩ id
    | none =>
      if x.awaitsPort then s
      else s.viaRemote c k x dev 3 (aopCode op) addr data fun s id =>
        (s.issueOsc c k .store (some cls) (placeOf (.remote dev) addr) [(dev, id)]).updCtx c k fun x =>
          if x.detKey.isSome then { x with asks := x.asks ++ [⟨dev, addr, 0, id⟩] } else x.step
  atWindow (aopAlign op) cls addr s c k x far fun s core slice off =>
    let s := s.crossed c (.win core slice off)
    match s.detCheck x.detKey core slice off commutes with
    | none => s.trap c k DETTRAP addr
    | some s' =>
      let bad := !(s.marksAt (.win core slice off) (min 64 (aopWidth op))).isEmpty
      if bad then
        match ret with
        | some d => s.updCtx c k fun x => (x.step.setReg d (BitVec.ofNat 64 (ofBytes (s.readAt (.win core slice off) (min 8 (aopWidth op)))))).markReg d addr
        | none => (s.updCtx c k Ctx.step).abort c k ⟨POISON, unitOf addr⟩
      else
        let r := s'.port core slice off op v cmp
        let s := r.1.countSq x r.2.2
        s.updCtx c k fun x => match ret with
          | some d => x.step.setReg d r.2.1
          | none => x.step

/-- A returning atomic with its operand b. -/
def atomRet (op : AOp) (d a b : Reg) (oc : OClass) (g : Pred) (s : State) : Out :=
  sqRun g [a, b] s fun c k x => atomBody op (some d) false oc.toNat (x.reg a) (x.reg b) 0 s c k x

/-- A non-returning atomic with its operand b. -/
def atomNon (op : AOp) (a b : Reg) (oc : OClass) (g : Pred) (s : State) : Out :=
  sqRun g [a, b] s fun c k x => atomBody op none (aopCommutes op) oc.toNat (x.reg a) (x.reg b) 0 s c k x

def execAadd (d a b : Reg) (oc : OClass) (g : Pred) (s : State) : Out := atomRet .add d a b oc g s
def execAaddf (d a b : Reg) (oc : OClass) (g : Pred) (s : State) : Out := atomRet .addf d a b oc g s
def execAxchg (d a b : Reg) (oc : OClass) (g : Pred) (s : State) : Out := atomRet .xchg d a b oc g s
def execAcas (d a b : Reg) (oc : OClass) (g : Pred) (s : State) : Out :=
  sqRun g [d, a, b] s fun c k x => atomBody .cas (some d) false oc.toNat (x.reg a) (x.reg b) (x.reg d) s c k x
def execAmax (d a b : Reg) (oc : OClass) (g : Pred) (s : State) : Out := atomRet .max d a b oc g s
def execAmin (d a b : Reg) (oc : OClass) (g : Pred) (s : State) : Out := atomRet .min d a b oc g s
def execAmaxf (d a b : Reg) (oc : OClass) (g : Pred) (s : State) : Out := atomRet .maxf d a b oc g s
def execAclrmax (d a : Reg) (oc : OClass) (g : Pred) (s : State) : Out := atomRet .clrmax d a 0 oc g s
def execAincb (d a b : Reg) (oc : OClass) (g : Pred) (s : State) : Out := atomRet .incb d a b oc g s
def execAincw (d a b : Reg) (oc : OClass) (g : Pred) (s : State) : Out := atomRet .incw d a b oc g s
def execAdecz (d a : Reg) (oc : OClass) (g : Pred) (s : State) : Out := atomRet .decz d a 0 oc g s
def execAaddl (d a b : Reg) (oc : OClass) (g : Pred) (s : State) : Out := atomRet .addl d a b oc g s
def execAaddN (a b : Reg) (oc : OClass) (g : Pred) (s : State) : Out := atomNon .add a b oc g s
def execAaddfN (a b : Reg) (oc : OClass) (g : Pred) (s : State) : Out := atomNon .addf a b oc g s
def execAxchgN (a b : Reg) (oc : OClass) (g : Pred) (s : State) : Out := atomNon .xchg a b oc g s
def execAcasN (d a b : Reg) (oc : OClass) (g : Pred) (s : State) : Out :=
  sqRun g [d, a, b] s fun c k x => atomBody .cas none false oc.toNat (x.reg a) (x.reg b) (x.reg d) s c k x
def execAmaxN (a b : Reg) (oc : OClass) (g : Pred) (s : State) : Out := atomNon .max a b oc g s
def execAminN (a b : Reg) (oc : OClass) (g : Pred) (s : State) : Out := atomNon .min a b oc g s
def execAmaxfN (a b : Reg) (oc : OClass) (g : Pred) (s : State) : Out := atomNon .maxf a b oc g s
def execAclrmaxN (a : Reg) (oc : OClass) (g : Pred) (s : State) : Out := atomNon .clrmax a 0 oc g s
def execAincbN (a b : Reg) (oc : OClass) (g : Pred) (s : State) : Out := atomNon .incb a b oc g s
def execAincwN (a b : Reg) (oc : OClass) (g : Pred) (s : State) : Out := atomNon .incw a b oc g s
def execAdeczN (a : Reg) (oc : OClass) (g : Pred) (s : State) : Out := atomNon .decz a 0 oc g s
def execAaddlN (a b : Reg) (oc : OClass) (g : Pred) (s : State) : Out := atomNon .addl a b oc g s
def execAxadd (a b : Reg) (oc : OClass) (g : Pred) (s : State) : Out := atomNon .xadd a b oc g s

/-- AXRD: the FP32 value of an XA, an ordered access that changes nothing (R302). -/
def execAxrd (d a : Reg) (oc : OClass) (g : Pred) (s : State) : Out :=
  sqRun g [a] s fun c k x =>
    let addr := x.reg a
    let far := fun (s : State) dev =>
      s.askAndPark c k x 3 12 (wordData 0 0 x.detKey false true) (some oc.toNat) ⟨dev, addr, d, 32, false, x.hlc, aborts OBJFAULT, 0, none⟩ id
    atWindow 64 oc.toNat addr s c k x far fun s core slice off =>
      let s := s.crossed c (.win core slice off)
      match s.detCheck x.detKey core slice off false with
      | none => s.trap c k DETTRAP addr
      | some s' =>
        let v := xaValue (BitVec.ofNat 512 (ofBytes (s.readAt (.win core slice off) 64)))
        if (s.marksAt (.win core slice off) 64).isEmpty then
          (s'.countSq x v.2).updCtx c k fun x => x.step.setReg d (BitVec.ofNat 64 v.1)
        else s.updCtx c k fun x => (x.step.setReg d (BitVec.ofNat 64 v.1)).markReg d addr

/-! ## Word waits (R303) -/

def WCond.code : WCond → Nat
  | .eq => 0
  | .ne => 1
  | .ge => 2
  | .lt => 3

/-- Code of a word wait or a lock in a request to another device (log 21). -/
def waitOparg (n : Nat) : Nat := 0x40 + n

def State.addWatch (s : State) (core : Nat) (w : Watch) : State := s.updCore core fun r => { r with watches := r.watches ++ [w] }

def waitBody (cond : WCond) (d a b : Reg) (oc : OClass) (g : Pred) (s : State) : Out :=
  sqRun g [a, b] s fun c k x =>
    let addr := x.reg a
    let v := x.reg b
    let far := fun (s : State) dev => s.askAndPark c k x 3 (waitOparg (WCond.code cond)) (wordData v 0 x.detKey false true) none
      ⟨dev, addr, d, 64, false, x.hlc, aborts OBJFAULT, 0, none⟩ id
    atWindow 8 oc.toNat addr s c k x far fun s core slice off =>
      let s := s.crossed c (.win core slice off)
      match s.detCheck x.detKey core slice off false with
      | none => s.trap c k DETTRAP addr
      | some s' =>
        let w := (s.slice core slice).word off
        if !(s.marksAt (.win core slice off) 8).isEmpty then s.updCtx c k fun x => (x.step.setReg d w).markReg d addr
        else if condMet cond w v then s'.updCtx c k fun x => x.step.setReg d w
        else
          let s := s'.addWatch core ⟨x.part, x.tid, x.role, slice, off, cond, v, none, false⟩
          match s.ctx? c k with
          | some x => s.parkTask c k x (.wait d addr)
          | none => s

def execWaitwEq (d a b : Reg) (oc : OClass) (g : Pred) (s : State) : Out := waitBody .eq d a b oc g s
def execWaitwNe (d a b : Reg) (oc : OClass) (g : Pred) (s : State) : Out := waitBody .ne d a b oc g s
def execWaitwGe (d a b : Reg) (oc : OClass) (g : Pred) (s : State) : Out := waitBody .ge d a b oc g s
def execWaitwLt (d a b : Reg) (oc : OClass) (g : Pred) (s : State) : Out := waitBody .lt d a b oc g s

/-! ## Locks (R304, R305) -/

/-- One less, as n16 counts (R9, R304). -/
def lessOne (n : Nat) : Nat := (n + 65535) % 65536

/-- The lock identity of a context in a slot (R304). -/
def State.lockId (s : State) (p c k : Nat) : Word :=
  BitVec.ofNat 64 (2 ^ 63 + (s.part p).devnum * 2 ^ 15 + ctxid p c k % 2 ^ 15)

def execAlock (a : Reg) (oc : OClass) (g : Pred) (s : State) : Out :=
  sqRun g [a] s fun c k x =>
    let addr := x.reg a
    let far := fun (s : State) dev =>
      if x.hlc = 0xFFFF then s.trap c k ILLOP addr
      else s.askAndPark c k x 3 (waitOparg 4) (wordData (s.lockId x.part c k) 0 x.detKey false true) none
        ⟨dev, addr, 0, 64, false, x.hlc, aborts OBJFAULT, 0, none⟩ fun x => { x with hlc := x.hlc + 1 }
    atWindow 8 oc.toNat addr s c k x far fun s core slice off =>
      if x.hlc = 0xFFFF then s.trap c k ILLOP addr
      else
        let s := s.crossed c (.win core slice off)
        match s.detCheck x.detKey core slice off false with
        | none => s.trap c k DETTRAP addr
        | some s' =>
          let w := (s.slice core slice).word off
          let me := s.lockId x.part c k
          if !(s.marksAt (.win core slice off) 8).isEmpty then (s.updCtx c k Ctx.step).abort c k ⟨POISON, unitOf addr⟩
          else if w = 0 then
            (s'.writeAt (.win core slice off) (bytesOf 8 me.toNat)).updCtx c k fun x => { x.step with hlc := x.hlc + 1 }
          else if w = me then s.trap c k ILLOP w
          else
            let s := s'.updCore core fun r => { r with lockq := r.lockq ++ [⟨x.part, x.tid, x.role, slice, off, none⟩] }
            match s.ctx? c k with
            | some x => s.parkTask c k x .lock
            | none => s

/-- Where a waiting member's context is or was saved from. -/
def State.memberPlace (s : State) (p : Nat) (tid : Word) (role : Nat) : Nat × Nat :=
  match s.task? p tid with
  | none => (0, 0)
  | some t => match t.members.find? fun (r, _, _) => r == role with
    | some (_, c, k) => (c, k)
    | none => match t.images.find? fun i => i.role == role with
      | some i => (i.fromCore, i.fromSlot)
      | none => (0, 0)

/-- Give a released lock word to the head of its queue, or free it (R305). -/
def State.handOver (s : State) (core slice off : Nat) : State :=
  let q := (s.core core).lockq
  match q.find? fun w => w.slice == slice && w.off == off with
  | none => s.writeAt (.win core slice off) (bytesOf 8 0)
  | some h =>
    let (hc, hk) := s.memberPlace h.part h.tid h.role
    let s := s.updCore core fun r => { r with lockq := r.lockq.erase h }
    match h.far with
    | some r => (s.writeAt (.win core slice off) (bytesOf 8 r.id.toNat)).reply r 0 (bytesOf 8 r.id.toNat)
    | none =>
    let s := s.writeAt (.win core slice off) (bytesOf 8 (s.lockId h.part hc hk).toNat)
    s.wakeMember h.part h.tid h.role fun y => { y with hlc := (y.hlc + 1) % 65536 }

def execAunlk (a : Reg) (oc : OClass) (g : Pred) (s : State) : Out :=
  sqRun g [a] s fun c k x =>
    let addr := x.reg a
    let far := fun (s : State) dev =>
      if !x.sqPending.isEmpty then s
      else s.askAndPark c k x 3 (waitOparg 5) (wordData (s.lockId x.part c k) 0 x.detKey false true) none
        ⟨dev, addr, 0, 64, false, x.hlc, aborts OBJFAULT, 0, none⟩ fun x => { x with hlc := lessOne x.hlc }
    atWindow 8 oc.toNat addr s c k x far fun s core slice off =>
      if !x.sqPending.isEmpty then s
      else
        let s := s.crossed c (.win core slice off)
        match s.detCheck x.detKey core slice off false with
        | none => s.trap c k DETTRAP addr
        | some s' =>
          let w := (s.slice core slice).word off
          if !(s.marksAt (.win core slice off) 8).isEmpty then (s.updCtx c k Ctx.step).abort c k ⟨POISON, unitOf addr⟩
          else if w ≠ s.lockId x.part c k then s.trap c k ILLOP w
          else (s'.updCtx c k fun x => { x.step with hlc := lessOne x.hlc }).handOver core slice off

end Sys2Proof.Machine
end

