-- ==== Sys2Proof/Machine/Tasks.lean ====
section
/-! DEFINITION. The task instructions, and what the device reads from memory for its own use (R55, R56, R362 to R369, R438,
R444, R513). -/

namespace Sys2Proof.Machine

/-! ## Device reads and writes (R513) -/

/-- The outcome of a device read: what it gives, or why it does not. -/
inductive DevRead where
  | bytes (s : State) (bs : List Byte)
  | deny (code : Nat)
  | wait (s : State)
  | poison (addr : Word)
  deriving DecidableEq, Repr

/-- A range as pieces of one 64-byte unit each; its start is aligned. -/
def devPieces (a : Word) (n : Nat) : List (Word × Nat) :=
  (List.range ((n + 63) / 64)).map fun i => (a + BitVec.ofNat 64 (64 * i), min 64 (n - 64 * i))

/-- Read pieces in class OCLS. What lies on another device is asked for once, and the word runs again when the answer has come (R171). -/
def State.readPieces (s : State) (c k : Nat) (x : Ctx) : List (Word × Nat) → DevRead
  | [] => .bytes s []
  | (a, n) :: l =>
    let more := fun (s : State) bs => match s.readPieces c k x l with
      | .bytes s cs => DevRead.bytes s (bs ++ cs)
      | o => o
    match x.got.find? fun q => q.1 == a && q.2.1.length != 1 with
    | some (_, bs, bad) => if bad then .poison (unitOf a) else if bs.length = n then more s bs else .deny OBJFAULT
    | none =>
      match s.openSq c k x x.ocls.toNat a n .read with
      | .deny code => .deny code
      | .wait s => .wait s
      | .go s (.remote dev) =>
        if x.asks.any (fun q => q.addr == a && q.n != 1) || !s.requestRoom c 1 then .wait s
        else match s.sendRemote x.part dev 1 (n - 1) (bitsAt a 0 56) [] with
          | .refused => .deny OBJFAULT
          | .wait s => .wait s
          | .sent s ids => .wait (s.updCtx c k fun x => { x with asks := x.asks ++ ids.map fun id => ⟨dev, a, n, id⟩ })
      | .go s t => if (s.marksAt t n).isEmpty then more s (s.readAt t n) else .poison (unitOf a)

/-- A word reads n bytes for the device's own use: a refused address traps with the value v, a mark aborts, and f gets the bytes. The
answers of other devices stay with the word. -/
def State.devKeep (s : State) (c k : Nat) (x : Ctx) (a : Word) (n : Nat) (v : Word) (f : State → List Byte → State) : State :=
  match s.readPieces c k x (devPieces a n) with
  | .deny code => s.trap c k code v
  | .wait s => s
  | .poison u => s.abort c k ⟨POISON, u⟩
  | .bytes s bs => f s bs

/-- As devKeep for a word that asks nothing else of other devices. -/
def State.devRead (s : State) (c k : Nat) (x : Ctx) (a : Word) (n : Nat) (v : Word) (f : State → List Byte → State) : State :=
  s.devKeep c k x a n v fun s bs => f (s.updCtx c k Ctx.heard) bs

/-- A record from its bytes. -/
def recOf (bs : List Byte) : Rec := BitVec.ofNat 1024 (ofBytes bs)

/-- Store bytes for a word in class OCLS, 64 at a time, all checked before the first is written (R171). -/
def State.devWrite (s : State) (c k : Nat) (x : Ctx) (a : Word) (bs : List Byte) (f : State → State) : State :=
  let pieces := devPieces a bs.length
  let opened := pieces.foldl (fun (acc : Acc × List Target) q => match acc.1 with
    | .go s _ => match s.openSq c k x x.ocls.toNat q.1 q.2 .write with
      | .go s t => (.go s .hole, acc.2 ++ [t])
      | o => (o, acc.2)
    | _ => acc) (.go s .hole, [])
  match opened with
  | (.deny code, _) => s.trap c k code a
  | (.wait s, _) => s
  | (.go s _, ts) =>
    let data := (devPieces 0 bs.length).map fun q => (bs.drop q.1.toNat).take q.2
    let far := ((pieces.zip ts).zip data).filterMap fun ((q, t), d) => match t with
      | .remote dev => some (dev, q.1, q.2 - 1, d)
      | _ => none
    let near := (ts.zip data).foldl (fun s (t, d) => (s.crossed c t).writeAt t d) s
    if far.isEmpty then f near
    else if !s.requestRoom c far.length then s
    else match near.sendList x.part 2 far with
      | .refused => s.trap c k OBJFAULT a
      | .wait _ => s
      | .sent s ids => f ((far.zip ids).foldl (fun s (q, id) =>
          s.issueOsc c k .store (some x.ocls.toNat) (placeOf (.remote q.1) q.2.1) [(q.1, id)]) s)

/-! ## Join counters (R363, R365, R438) -/

/-- The window word that a join address names by the test of R363. -/
def State.joinWord (s : State) (x : Ctx) (a : Word) : Option (Nat × Nat × Nat) :=
  if bitsAt a 56 8 ≠ 0 then none
  else match (s.reachG x.part x.binding (bitsAt a 0 56)).t with
    | .win core slice off => some (core, slice, off)
    | _ => none

/-- Decrement a join counter as ADECZ.N does; one that finds 0 or reaches no word is counted as item 20 (R438). -/
def State.joinDec (s : State) (x : Ctx) (die : Nat) (a : Word) : State :=
  if a = 0 then s
  else match s.joinWord x a with
    | none => s.countError die 20
    | some (core, slice, off) =>
      if (s.die (dieOf core)).lost then s.countError die 20
      else if (s.slice core slice).word off = 0 then s.countError die 20
      else ((s.crossed (64 * die) (.win core slice off)).port core slice off .decz 0 0).1

/-! ## Admitting a record (R43, R44) -/

/-- Whether a record may be inserted. -/
inductive Admit where
  | refused (s : State) (code : Nat)
  /-- An identical record is pending or published. -/
  | same (s : State)
  | fresh (s : State)
  | wait (s : State)
  deriving DecidableEq, Repr

/-- The codes of a home's answer to a record that names a result homed there. -/
def makerFresh : Nat := 1
def makerOther : Nat := 2
def makerSame : Nat := 3

/-- Homes on other devices that have taken a record take it back. -/
def State.retract (s : State) (p : Nat) (r : Rec) (l : List Word) : State :=
  (l.filter fun nv => !s.homeLocal p nv).foldl (fun s nv => s.tellHome p nv .unproduce (bytesOf 8 (recResult r 0).toNat)) s

/-- Take in a record whose rows 1 to 8 have been checked: the homes of its results here, then those on other devices, tell whether a result
has another producer (R43 row 9, R44). A home that has taken the record takes it back when another one refuses it. -/
def State.enterRecord (s : State) (c k : Nat) (x : Ctx) (r : Rec) (bad : Option (Nat × Nat)) : Admit :=
  let clear := fun (s : State) => s.updCtx c k Ctx.heard
  match bad with
  | some (_, code) => .refused (clear s) code
  | none =>
    if s.adopts x.part r then .same (clear s)
    else
      let far := (recResults r).filter fun nv => !s.homeLocal x.part nv
      match s.askHomes c k x .produce (fun _ => bytesOf 128 r.toNat) far with
      | .error (some s) => .wait s
      | .error none => .refused (clear s) OBJFAULT
      | .ok l =>
        let s := clear s
        if l.any fun q => q.2 == makerOther then
          .refused (s.retract x.part r ((l.filter fun q => q.2 == makerFresh).map Prod.fst)) OBJFAULT
        else if l.any fun q => q.2 == makerSame then .same s
        else .fresh s

/-- A record that the device itself inserts is announced to the homes of its results on other devices (log 35). -/
def State.announce (s : State) (p : Nat) (r : Rec) : State :=
  ((recResults r).filter fun nv => !s.homeLocal p nv).foldl (fun s nv => s.tellHome p nv .produce (bytesOf 128 r.toNat)) s

/-! ## SPAWN (R55, R363) -/

/-- The unfinished task that a record adopts (R44, R52): none where it has committed or is recomputed. -/
def State.kept (s : State) (p : Nat) (r : Rec) : Option Task :=
  (s.task? p (recResult r 0)).bind fun t => if t.recomp then none else some t

/-- Where SPAWN puts a record: the local queue if it has room and the budget allows, else the spill region if it has room, or nowhere. -/
def State.spawnPlace (s : State) (p c : Nat) (r : Rec) (tid : Word) : Place :=
  if s.localCount c < 64 && s.queueRoom p (recRegion r) then .local c
  else if s.spillCount p (dieOf c) < 4096 then .spill (dieOf c)
  else .inline tid

/-- Park a parent at an inline child: its context is saved as on pre-emption, and the child takes its effective priority (R55). The other
members of a gang go on. -/
def State.runInline (s : State) (c k : Nat) (x : Ctx) (child : Word) (pop : Option Reg) : State :=
  match s.task? x.part x.tid with
  | none => s
  | some t =>
    let s := s.updTask x.part child fun u => { u with place := .inline x.tid, aged := s.effPri t }
    (s.parkTask c k x (.child child pop)).saveCtx c k (if recGang t.record = 0 then .parked else t.st)

def execSpawn (d a b : Reg) (g : Pred) (s : State) : Out :=
  sqRun g [a, b] s fun c k x =>
    let addr := x.reg a
    let join := x.reg b
    if addr.toNat % 128 ≠ 0 then s.trap c k MISALIGN addr
    else if join.toNat % 8 ≠ 0 then s.trap c k MISALIGN join
    else match s.joinWord x join with
      | none => s.trap c k OBJFAULT join
      | some (jc, js, jo) =>
        if !x.inOrder x.ocls.toNat none then s
        else s.devKeep c k x addr 128 addr fun s bs =>
          let r := recSet (recOf bs) 15 join
          let inc := fun (s : State) => ((s.crossed c (.win jc js jo)).port jc js jo .add 1 0).1
          match s.enterRecord c k x r (s.recordCheck ⟨x.part, x.sys, recRegion x.record, true⟩ r) with
          | .refused s code => s.trap c k code addr
          | .wait s => s
          | .same s =>
            let s := match s.kept x.part r with
              | some u => (inc s).updTask x.part u.tid fun u => { u with record := recSet u.record 15 join, parent := some x.tid, bySpawn := true }
              | none => s
            s.updCtx c k fun x => x.step.setReg d (recResult r 0)
          | .fresh s =>
              let place := s.spawnPlace x.part c r x.tid
              let inline := match place with | .inline _ => true | _ => false
              if inline && !s.canSave c k then s
              else
                let o : Origin := ⟨c, dieOf c, place, s.stampFor x.part r (some (recRegion x.record, x.phase)), some x.tid, true, none, none, 0⟩
                match s.insertTask x.part r o with
                | .error name => (s.retract x.part r (recResults r)).trap c k OBJFAULT name
                | .ok (tid, s) =>
                  let s := inc s
                  if inline then match s.ctx? c k with
                    | some x => s.runInline c k (x.setReg d tid) tid none
                    | none => s
                  else s.updCtx c k fun x => x.step.setReg d tid

/-! ## POPT and JOIN (R364, R365) -/

/-- The oldest ready child of a task in a core's local queue. -/
def State.poppable (s : State) (x : Ctx) (c : Nat) : Option Task := s.tasks.find? fun t =>
  t.part == x.part && t.place == .local c && t.parent == some x.tid && t.bySpawn && t.st == .ready && t.undispatched && recGang t.record == 0

def execPopt (d : Reg) (g : Pred) (s : State) : Out :=
  sqRun g [] s fun c k x =>
    let none' := s.setCtx c k (x.step.setReg d 0)
    if recGang x.record ≠ 0 || x.inh then none'
    else match s.poppable x c with
      | none => none'
      | some t => if s.canSave c k then s.runInline c k x t.tid (some d) else s

def execJoin (a : Reg) (g : Pred) (s : State) : Out :=
  sqRun g [a] s fun c k x =>
    let addr := x.reg a
    if addr.toNat % 8 ≠ 0 then s.trap c k MISALIGN addr
    else match s.joinWord x addr with
      | none => s.trap c k OBJFAULT addr
      | some (jc, js, jo) =>
        if !x.inOrder x.ocls.toNat none then s
        else if !(s.marksAt (.win jc js jo) 8).isEmpty then s.abort c k ⟨POISON, unitOf addr⟩
        else if (s.slice jc js).word jo = 0 then s.setCtx c k x.step
        else (s.addWatch jc ⟨x.part, x.tid, x.role, js, jo / 8 * 8, .eq, 0, none, true⟩).parkTask c k x (.join addr)

/-! ## Stage queues (R366, R367) -/

def State.stageFull (s : State) (p r st : Nat) : Bool := stageCap (s.stageWord p r st) ≤ s.stageFill p r st

def execQput (d a : Reg) (g : Pred) (s : State) : Out :=
  sqRun g [a] s fun c k x =>
    let addr := x.reg a
    if addr.toNat % 128 ≠ 0 then s.trap c k MISALIGN addr
    else s.devKeep c k x addr 128 addr fun s bs =>
      let r := recOf bs
      let reg := recRegion r
      let fin := fun (s : State) v => s.updCtx c k fun x => x.step.setReg d v
      let bad := match s.recordCheck ⟨x.part, x.sys, recRegion x.record, true⟩ r with
        | none => if recJoin r ≠ 0 then some (0, ILLOP) else none
        | o => o
      match s.enterRecord c k x r bad with
      | .refused s code => s.trap c k code addr
      | .wait s => s
      | .same s => fin s 0
      | .fresh s =>
        if s.stageFull x.part reg (recStage r) || !s.queueRoom x.part reg then fin (s.retract x.part r (recResults r)) 1
        else
          let o : Origin := ⟨c, dieOf c, .stage (dieOf c) reg (recStage r), s.stampFor x.part r (some (recRegion x.record, x.phase)), none, false, none, none, 0⟩
          match s.insertTask x.part r o with
          | .error name => (s.retract x.part r (recResults r)).trap c k OBJFAULT name
          | .ok (_, s) => fin s 0

/-- The message record that QGET takes: the oldest ready one of the queue on the caller's die. -/
def State.message (s : State) (x : Ctx) (c st : Nat) : Option Task :=
  let l := s.tasks.filter fun t => t.part == x.part && t.st == .ready && t.place == .stage (dieOf c) (recRegion x.record) st &&
    recNops t.record == 0 && recNres t.record == 0 && recGang t.record == 0 && (!x.det || t.phase == x.phase)
  (l.mergeSort fun a b => a.readyAt ≤ b.readyAt).head?

def execQget (d a b : Reg) (g : Pred) (s : State) : Out :=
  sqRun g [a, b] s fun c k x =>
    let addr := x.reg a
    let sel := x.reg b
    let reg := recRegion x.record
    if bitsAt sel 4 12 ≠ reg then s.trap c k PRIV sel
    else if s.stageCount x.part reg ≤ bitsAt sel 0 4 || bitsAt sel 16 48 ≠ 0 then s.trap c k ILLOP sel
    else if addr.toNat % 128 ≠ 0 then s.trap c k MISALIGN addr
    else match s.message x c (bitsAt sel 0 4) with
      | none => s.setCtx c k (x.step.setReg d 0)
      | some m =>
        s.devWrite c k x addr (bytesOf 128 m.record.toNat) fun s =>
          (s.updTask x.part m.tid fun m => { m with st := .taken x.tid m.place, place := .none }).updCtx c k fun x => x.step.setReg d 1

/-! ## RCLM and EVREG (R368, R369) -/

def execRclm (d a : Reg) (g : Pred) (s : State) : Out :=
  sqRun g [a] s fun c k x =>
    let id := x.reg a
    let queued := fun (t : Task) => match t.place with
      | .local _ => true
      | .spill _ => true
      | _ => false
    if x.det then s.trap c k DETTRAP id
    else match s.task? x.part id with
      | some t =>
        if t.parent = some x.tid && t.bySpawn && t.undispatched && queued t then
          ((s.removeRecord x.part id).joinDec x (dieOf c) (recJoin t.record)).updCtx c k fun x => x.step.setReg d 1
        else s.setCtx c k (x.step.setReg d 0)
      | none => s.setCtx c k (x.step.setReg d 0)

def execEvreg (d a b : Reg) (g : Pred) (s : State) : Out :=
  sqRun g [a, b] s fun c k x =>
    let addr := x.reg a
    let v := x.reg b
    let ev := bitsAt v 0 16
    let die := dieOf c
    let fin := fun (s : State) v => s.updCtx c k fun x => x.step.setReg d v
    let mine := fun (e : EvReg) => e.part == x.part && e.event == ev
    if !x.sys then s.trap c k PRIV v
    else if bitsAt v 17 47 ≠ 0 || 64 ≤ ev then s.trap c k ILLOP v
    else if addr = 0 then fin (s.updDie die fun q => { q with events := q.events.filter fun e => !mine e }) 0
    else if addr.toNat % 128 ≠ 0 then s.trap c k MISALIGN addr
    else s.devRead c k x addr 128 addr fun s bs =>
      let r := recOf bs
      if !recMgmt r then s.trap c k ILLOP addr
      else match s.recordCheck ⟨x.part, x.sys, recRegion x.record, true⟩ r with
        | some (_, code) => s.trap c k code addr
        | none =>
          let q := s.die die
          let e : EvReg := ⟨x.part, ev, v.getLsbD 16, r⟩
          if q.events.any mine then fin (s.updDie die fun q => { q with events := q.events.map fun o => if mine o then e else o }) 0
          else if q.events.length < 64 then fin (s.updDie die fun q => { q with events := q.events ++ [e] }) 0
          else fin s 1

end Sys2Proof.Machine
end

