-- ==== Sys2Proof/Machine/Engines.lean ====
section
/-! DEFINITION. Engine chains: appending entries, numbering and tokens, the matrix engine's registers, starting entries, completing words
and reporting errors (R123, R149 to R151, R246 to R250, R346 to R351, R436, R437, R455, R456). -/

namespace Sys2Proof.Machine

/-! ## Numbering and tokens (R151, R349) -/

/-- The number that a token names: the largest not above m with the given low bits; none below 1. -/
def tokenNumber (m : Nat) (t : BitVec 8) : Option Nat :=
  let n := m - (m + 256 - t.toNat) % 256
  if m < (m + 256 - t.toNat) % 256 || n < 1 then none else some n

/-- The tokens of a DEP word, resolved against the numbers appended before it. -/
def resolveDep (app : Eng → Nat) (ts : List (Option (Eng × BitVec 8))) : List (Eng × Nat) :=
  ts.filterMap fun t => match t with
    | some (e, v) => (tokenNumber (app e) v).map fun n => (e, n)
    | none => none

/-- The slots of a DEP word; a malformed slot names nothing and is refused when the engine reaches it. -/
def depSlots (w : Half) : List (Option (Eng × BitVec 8)) :=
  [w.f 20 10, w.f 10 10, w.f 0 10].map fun t => match depSlot t with
    | some x => x
    | none => none

/-- Words that follow a word without a number: the words of a chain, an extension word. -/
def followers (e : Eng) (w : Half) : Nat :=
  match e with
  | .ve => if w.f 25 7 = 0x5C then (w.f 22 3).toNat + 1 else 0
  | _ => if w.f 31 1 = 1 then 1 else 0

/-- Number a block: the words left, their offset, the words to skip, the numbers so far and the resolved tokens. -/
def numberGo (e : Eng) (app : Eng → Nat) : List Half → Nat → Nat → Nat → List (Nat × List (Eng × Nat)) → Nat × List (Nat × List (Eng × Nat))
  | [], _, _, n, deps => (n, deps)
  | w :: l, off, skip + 1, n, deps => let _ := w; numberGo e app l (off + 1) skip n deps
  | w :: l, off, 0, n, deps =>
    if isDep w then
      numberGo e app l (off + 1) 0 n (deps ++ [(off, resolveDep (fun f => if f = e then n else app f) (depSlots w))])
    else numberGo e app l (off + 1) (followers e w) (n + 1) deps

/-! ## ENQ and ENQW (R348) -/

/-- The words of an engine's section of a context's image. -/
def State.section (s : State) (c : Nat) (x : Ctx) (e : Eng) : List Half :=
  match (s.core c).loaded x.image with
  | some l => l.section e
  | none => []

def Ctx.app (x : Ctx) (e : Eng) : Nat := (x.appended[engIdx e]).toNat
def Ctx.dn (x : Ctx) (e : Eng) : Nat := (x.done[engIdx e]).toNat

/-- The entry that ENQ captures (R149, R204, R205, R346). -/
def mkEntry (x : Ctx) (k : Nat) (e : Eng) (off len : Nat) (deps : List (Nat × List (Eng × Nat))) : Entry where
  slot := k
  start := off
  len := len
  firstSeq := x.app e + 1
  seq := x.app e + 1
  regs := x.a.set 0 0
  kern := x.kern.toNat
  vshp := x.vshp
  vwb := x.vwb.toNat
  own := x.vwb.toNat == x.window
  deps := deps
  started := false
  pos := 0
  shape := x.vshp
  busy := false
  failed := none
  susp := false
  resume := false
  osc := []
  asks := []
  got := []
  mark := none
  pages := []
  row := 0

/-- Append a block; none when it must wait for room. -/
def State.appendBlock (s : State) (c k : Nat) (x : Ctx) (e : Eng) (off len : Nat) : Option State :=
  let r := s.core c
  if 16 ≤ (r.entriesOf e k).length || 64 ≤ (r.chain e).length then none
  else
    let words := ((s.section c x e).drop off).take len
    let n := numberGo e x.app words 0 0 (x.app e) []
    let ent := mkEntry x k e off len n.2
    let s := s.updCore c fun r => r.setChain e (r.chain e ++ [ent])
    some (s.updCtx c k fun x => { x with appended := x.appended.set (engIdx e) (BitVec.ofNat 32 n.1) })

/-- The scalar registers that an engine word captures (R149). -/
def Instr.captures : Instr → List Reg
  | .vsplatReg _ a => [a]
  | .vshp a => [a]
  | .vld _ a _ _ | .vst _ a _ _ | .vldx _ _ a _ _ | .vstx _ _ a _ _ => [a]
  | .mldw _ _ a | .mldwt _ _ a | .mvar a | .mstat a => [a]
  | .mgath a b _ _ | .mnorm _ _ a b | .mdrain _ a b _ _ _ | .mdrainx _ a b _ | .mrda _ a b => [a, b]
  | .msamp a b c d => [a, b, c, d]
  | .malias a b c | .mdraina _ a b c _ _ => [a, b, c]
  | .cpy _ a b c _ _ | .cpyh _ a b c _ _ | .chld _ a b c _ _ _ _ | .pfch _ a b c _ | .pfchMap _ a b c _ | .ctrb _ a b c _ | .ctrbXa _ a b c _ =>
    [a, b, c]
  | .cpys _ a b c d e f _ => [a, b, c, d, e, f]
  | .cpyd _ a b c d e _ | .cpyt _ a b c d e _ _ => [a, b, c, d, e]
  | .cpyp _ a b c d e f _ _ _ => [a, b, c, d, e, f]
  | .evct _ a c _ | .rdyw _ a c _ => [a, c]
  | .evctUnmap _ a _ => [a]
  | _ => []

/-- The scalar registers that the words of a block capture. -/
def blockRegs (e : Eng) : List Half → Nat → List Reg
  | [], _ => []
  | _ :: l, skip + 1 => blockRegs e l skip
  | w :: l, 0 =>
    (match decodeEngine e w l with | .ok i _ => Instr.captures i | .bad _ => []) ++ blockRegs e l (if isDep w then 0 else followers e w)

/-- A marked register that a block would capture: the word does not execute (R294). -/
def State.blockMark (s : State) (c : Nat) (x : Ctx) (e : Eng) (off len : Word) : Option Word :=
  x.marked (blockRegs e (((s.section c x e).drop off.toNat).take len.toNat) 0)

/-- The check of a block (R348). -/
def State.blockBad (s : State) (c : Nat) (x : Ctx) (e : Eng) (off len : Word) : Bool :=
  len.toNat == 0 || 4096 < len.toNat || (s.section c x e).length < off.toNat + len.toNat

def execEnq (e : Eng) (a b : Reg) (g : Pred) (s : State) : Out :=
  sqRun g [a, b] s fun c k x =>
    if s.blockBad c x e (x.reg a) (x.reg b) then s.trap c k ILLOP (x.reg a)
    else match s.blockMark c x e (x.reg a) (x.reg b) with
      | some v => s.abort c k ⟨POISON, v⟩
      | none => match s.appendBlock c k x e (x.reg a).toNat (x.reg b).toNat with
        | some s => s.updCtx c k Ctx.step
        | none => s

/-- Has an entry ended (R350)? -/
def State.entryEnded (s : State) (c k : Nat) (x : Ctx) (e : Eng) (off first : Nat) : Bool :=
  let r := s.core c
  ((r.entriesOf e k).all fun n => !(n.start == off && n.firstSeq == first)) && x.stores.isEmpty && x.tiles.isEmpty &&
  s.cores.all fun (_, r) => r.cmds.all fun m => !(m.part == x.part && m.tid == x.tid && m.role == x.role && m.entry == first)

def execEnqw (e : Eng) (a b : Reg) (g : Pred) (s : State) : Out :=
  sqRun g [a, b] s fun c k x =>
    match Tab.find x.enqw x.pc.toNat with
    | some (e', off, first) =>
      if s.entryEnded c k x e' off first then s.updCtx c k fun x => { x.step with enqw := Tab.del x.enqw x.pc.toNat } else s
    | none =>
      if s.blockBad c x e (x.reg a) (x.reg b) then s.trap c k ILLOP (x.reg a)
      else match s.blockMark c x e (x.reg a) (x.reg b) with
        | some v => s.abort c k ⟨POISON, v⟩
        | none => match s.appendBlock c k x e (x.reg a).toNat (x.reg b).toNat with
          | some s => s.updCtx c k fun y => { y with enqw := Tab.put y.enqw y.pc.toNat (e, (x.reg a).toNat, x.app e + 1) }
          | none => s

def execRdseq (a : Reg) (e : Eng) (g : Pred) (s : State) : Out :=
  sqValue g [] a (fun x => x.appended[engIdx e] ++ x.done[engIdx e]) s

/-! ## The matrix engine's registers (R246 to R250) -/

/-- The bits that MCW writes of a shadowed register; none for every other number. -/
def meRegMask (n : Nat) : Option Word :=
  if n < 48 then
    if n % 8 = 0 then some 0x1FFFFF else if n % 8 ≤ 5 then some (BitVec.allOnes 64) else none
  else match n with
    | 0x40 | 0x41 | 0x42 | 0x43 | 0x44 | 0x48 | 0x80 | 0x81 => some (BitVec.allOnes 64)
    | 0x45 => some 0xFFFFFFFFFF1FF
    | 0x46 => some 0x1F
    | 0x47 => some 0x7F
    | 0x82 => some 0xFFFFFFFF
    | 0x83 => some 0xFF
    | _ => if 0x90 ≤ n && n < 0xA0 then some 0x8000FFFF else none

def modeCode : MMode → Nat
  | .full => 0
  | .half => 1
  | .quarter => 2

/-- MSTAT's first word (R266). -/
def MeState.flags (m : MeState) : Nat :=
  modeCode m.mode + m.sparse * 16 + one m.badmeta * 256 + one m.tvalid * 512 + one m.inval * 1024 + one m.srun * 2048

/-- What MCRD reads; none for a number that R246 does not list, which raises ILLOP (DESIGN CHOICE, log 63). -/
def MeState.read (m : MeState) (n : Nat) : Option Word :=
  match n with
  | 0x100 => some m.mpos0
  | 0x101 => some m.mpos1
  | 0x102 => some (zext m.mqsum)
  | 0x103 => some (zext m.sctr)
  | 0x104 => some (BitVec.ofNat 64 (m.flags % 65536))
  | _ =>
    if 0x200 ≤ n then (meRegMask (n - 0x200)).map fun _ => Tab.get 0 m.active (n - 0x200)
    else (meRegMask n).map fun _ => Tab.get 0 m.shadow n

/-- A word that latches a configuration set (R248). -/
def latches (w : Half) : Bool := !isDep w && [3, 4, 7].contains (w.f 26 5).toNat

/-- Does a block of ME words hold a latching word? -/
def anyLatch : List Half → Nat → Bool
  | [], _ => false
  | _ :: l, skip + 1 => anyLatch l skip
  | w :: l, 0 => latches w || anyLatch l (if isDep w then 0 else followers .me w)

/-- Words of an ME entry that have not run. -/
def State.unrun (s : State) (c : Nat) (x : Ctx) (n : Entry) : List Half :=
  let l := ((s.section c x .me).drop (n.start + n.pos)).take (n.len - n.pos)
  if n.busy then l.drop (1 + (match l with | w :: _ => followers .me w | [] => 0)) else l

def execMcw (n : BitVec 11) (a : Reg) (g : Pred) (s : State) : Out :=
  sqRun g [a] s fun c k x =>
    match meRegMask n.toNat with
    | none => s.trap c k ILLOP (zext n)
    | some m =>
      if ((s.core c).entriesOf .me k).any fun e => anyLatch (s.unrun c x e) 0 then s
      else s.setCtx c k { x.step with me := { x.me with shadow := Tab.put x.me.shadow n.toNat (x.reg a &&& m) } }

def execMcrd (a : Reg) (n : BitVec 11) (g : Pred) (s : State) : Out :=
  sqRun g [] s fun c k x =>
    match x.me.read n.toNat with
    | none => s.trap c k ILLOP (zext n)
    | some v => s.setCtx c k (x.step.setReg a v)

/-! ## Running entries (R347) -/

/-- The entry that an engine executes. -/
def Core.current (r : Core) (e : Eng) : Option Entry := (r.chain e).find? fun n => n.started && !n.susp && n.failed.isNone

/-- Replace an engine's executing entry. -/
def Core.updCurrent (r : Core) (e : Eng) (f : Entry → Entry) : Core :=
  match r.current e with
  | none => r
  | some n => r.setChain e ((r.chain e).map fun m => if m == n then f m else m)

/-- The words of the executing entry from its place on. -/
def State.entryWords (s : State) (c : Nat) (x : Ctx) (e : Eng) (n : Entry) : List Half :=
  ((s.section c x e).drop (n.start + n.pos)).take (n.len - n.pos)

/-- Which engine an engine word runs in, by the turn. -/
def Turn.engine : Turn → Option (Nat × Eng)
  | .ve c => some (c, .ve)
  | .me c => some (c, .me)
  | .tu c => some (c, .tu)
  | _ => none

/-- The executing entry of the turn's engine with its context. -/
def State.engineTurn (s : State) : Option (Nat × Eng × Entry × Ctx) :=
  match Turn.engine s.turn with
  | none => none
  | some (c, e) =>
    match (s.core c).current e with
    | none => none
    | some n => match s.ctx? c n.slot with
      | some x => some (c, e, n, x)
      | none => none

/-- The engine form of a value (R455). -/
def engineForm (e : Eng) (n : Entry) (idx off : Nat) : Word :=
  BitVec.ofNat 64 (n.start * 2 ^ 32 + (match e with | .ve => 0 | .me => 1 | .tu => 2) * 2 ^ 30 + idx % 2 ^ 18 * 2 ^ 12 + off % 4096)

/-- The engine stops at this entry with a cause; it reports it next (R208, R252, R456). -/
def State.failEntry (s : State) (c : Nat) (e : Eng) (w : Cause) : State :=
  s.updCore c fun r => r.updCurrent e fun n => { n with failed := some w, busy := false }

/-- The word at the entry's place has run and completes next. -/
def State.wordDone (s : State) (c : Nat) (e : Eng) : State := s.updCore c fun r => r.updCurrent e fun n => { n with busy := true }

/-- Is a numbered word complete, on n32 counts? -/
def reached (done n : Nat) : Bool := (BitVec.ofNat 32 done - BitVec.ofNat 32 n).toNat < 2 ^ 31

/-- The entry of an engine whose next word has not run. -/
def State.wordTurn (s : State) (e : Eng) : Option (Nat × Entry × Ctx) :=
  match s.engineTurn with
  | some (c, f, n, x) => if f = e && !n.busy then some (c, n, x) else none
  | none => none

/-- Has a numbered word completed (R123)? The ME completes words of its running entry out of order (R251). -/
def State.tokenDone (s : State) (c k : Nat) (x : Ctx) (e : Eng) (v : Nat) : Bool :=
  reached (x.dn e) v ||
  (e == .me && (s.core c).me.any fun n => n.slot == k && (n.started || n.resume) && n.firstSeq ≤ v && v < n.seq &&
    !((s.core c).jobs ++ x.savedJobs).any fun j => j.slot == k && j.seq == v)

/-- DEP: the next word waits for its tokens (R123, R150). -/
def execDep (t0 t1 t2 : Option (Eng × BitVec 8)) (s : State) : Out :=
  match s.engineTurn with
  | none => .fault .strayTurn
  | some (c, e, n, x) =>
    let illegal := match s.entryWords c x e n with
      | _ :: w :: _ => isDep w
      | _ => true
    if illegal then .next (s.failEntry c e ⟨ENGILL, engineForm e n 0 n.pos⟩)
    else
      let deps := match n.deps.find? fun (o, _) => o == n.pos with
        | some (_, l) => l
        | none => resolveDep x.app [t0, t1, t2]
      if deps.all fun (f, v) => s.tokenDone c n.slot x f v then .next (s.updCore c fun r => r.updCurrent e fun m => { m with pos := m.pos + 1 })
      else .next s

/-- May an entry start now: no other runs, and its own context has none suspended (R347)? -/
def Core.startable (r : Core) (e : Eng) : Option Entry :=
  if (r.chain e).any (fun n => n.started && !n.susp) || (e = .me && !r.jobs.isEmpty) then none
  else (r.chain e).find? fun n => !n.started && !(r.chain e).any fun m => m.susp && m.slot == n.slot

/-- An entry starts, with its captured shape; one that was stopped goes on, and its stopped step words are in flight again (R205, R275). -/
def execEngineEntryStart (core : Nat) (e : Eng) (s : State) : Out :=
  match (s.core core).startable e with
  | none => .next s
  | some n =>
    let jobs := match s.ctx? core n.slot with
      | some x => if e = .me && n.resume then x.savedJobs else []
      | none => []
    let s := s.updCore core fun r => { r.setChain e ((r.chain e).map fun m =>
      if m == n then { m with started := true, resume := false, shape := if m.resume then m.shape else m.vshp } else m) with jobs := r.jobs ++ jobs }
    .next (if jobs.isEmpty then s else s.updCtx core n.slot fun x => { x with savedJobs := [] })

/-- Words that the word at an entry's place takes. -/
def wordLen (e : Eng) (ws : List Half) : Nat := match ws with
  | w :: _ => 1 + followers e w
  | [] => 1

/-- After an entry of a slot has moved: DONE is the number before the oldest word that has not completed, and an entry at its end leaves
the chain when none of its step words is in flight (R347, R436). -/
def State.settleEntry (s : State) (c : Nat) (e : Eng) (k : Nat) : State :=
  match ((s.core c).chain e).find? fun n => n.slot == k && n.started && !n.susp with
  | none => s
  | some n =>
    let jobs := if e = .me then (s.core c).jobs.filter fun j => j.slot == k else []
    let next := jobs.foldl (fun m j => min m j.seq) n.seq
    let s := s.updCtx c k fun x => { x with done := x.done.set (engIdx e) (BitVec.ofNat 32 (next - 1)) }
    if n.len ≤ n.pos && jobs.isEmpty && n.failed.isNone then s.updCore c fun r => r.setChain e ((r.chain e).filter fun m => m != n) else s

/-- Move the executing entry past its word. -/
def State.advance (s : State) (c : Nat) (e : Eng) (n : Entry) (x : Ctx) : State :=
  let len := wordLen e (s.entryWords c x e n)
  let s := s.updCore c fun r => r.updCurrent e fun m => { m with pos := m.pos + len, seq := m.seq + 1, busy := false }
  s.settleEntry c e n.slot

/-- A word that has run completes: its token is satisfied (R123). A step word of the ME completes through its job. A word that had stalled at a
fill that cannot be had is the last of its entry (R114). -/
def execEngineWordComplete (core : Nat) (e : Eng) (s : State) : Out :=
  match (s.core core).current e with
  | none => .next s
  | some n =>
    match s.ctx? core n.slot with
    | none => .next s
    | some x =>
      if !n.busy then .next s
      else
        let t := s.advance core e n x
        match x.doomed.find? fun d => d.1 == some e with
        | none => .next t
        | some (_, w) =>
          let t := t.updCtx core n.slot fun y => { y with doomed := y.doomed.filter fun d => d.1 != some e }
          .next (if ((t.core core).current e).any fun m => m.slot == n.slot then t.failEntry core e w else t.abort core n.slot w)

/-- An engine reports a boundary cause: earlier step words complete first, then the entry and the context's unstarted ones go and the task
aborts (R456). ACCBUSY enters the handler and holds the entry (R265). -/
def execEngineErrorReport (core : Nat) (e : Eng) (s : State) : Out :=
  match ((s.core core).chain e).find? fun n => n.failed.isSome with
  | none => .next s
  | some n =>
    match n.failed, s.ctx? core n.slot with
    | some w, some x =>
      if w.code ≠ 7 then
        .next (if e = .me && (s.core core).jobs.any (fun j => j.slot == n.slot) then s else s.abort core n.slot w)
      else if x.life = .halted then .next (s.abort core n.slot w)
      else if x.life ≠ .running || x.awaitsPort then .next s
      else
        let s := s.updCore core fun r => r.setChain e ((r.chain e).map fun m => if m == n then { m with failed := none } else m)
        .next (s.takeTrap core n.slot w false true x.pc)
    | _, _ => .next s

end Sys2Proof.Machine
end

