-- ==== Sys2Proof/Machine/VeWords.lean ====
section
/-! DEFINITION. What each VE word does to the state it sees (R211 to R233), and chains (R234, R235). Loads and stores are in Ve.lean. -/

namespace Sys2Proof.Machine

/-! ## Arithmetic (R211, R212) -/

inductive ArithOp where
  | add | sub | mul | fma | fms | nfma | min | max | abs | neg
  deriving DecidableEq, Repr

def ArithOp.isFma : ArithOp → Bool
  | .fma | .fms | .nfma => true
  | _ => false

def ArithOp.unary : ArithOp → Bool
  | .abs | .neg => true
  | _ => false

/-- The words whose floating-point form rounds (R85). -/
def ArithOp.rounds : ArithOp → Bool
  | .add | .sub | .mul | .fma | .fms | .nfma => true
  | _ => false

/-- One floating-point element (R211). VMIN and VMAX round nothing, so SAT does not bear on them (R146; DESIGN CHOICE, log 61). -/
def arithFloat (op : ArithOp) (f : Fmt) (m : Rnd) (u a b c : Nat) : Nat × Ev :=
  let x := decodeVal f a
  let y := decodeVal f b
  let z := decodeVal f c
  let rdn := m.rm == .rdn
  match op with
  | .add => deliver f m u (vAdd rdn x y)
  | .sub => deliver f m u (vAdd rdn x y.flip)
  | .mul => deliver f m u (vMul x y)
  | .fma => deliver f m u (vFma rdn x y z)
  | .fms => deliver f m u (vFma rdn x y z.flip)
  | .nfma => deliver f m u (vFma rdn x.flip y z)
  | .min => deliver f rneNoSat u (vMin x y)
  | .max => deliver f rneNoSat u (vMax x y)
  | .abs =>
    let r := a % 2 ^ (Fmt.width f - 1)
    (r, Ev.ofFlags (isNanBits f r) (isInfBits f r) false false false)
  | .neg =>
    let r := a ^^^ 2 ^ (Fmt.width f - 1)
    (r, Ev.ofFlags (isNanBits f r) (isInfBits f r) false false false)

/-- An exact integer result: modulo 2^N without SAT, clamped with SAT (R212). -/
def resolveInt (f : Fmt) (sat : Bool) (i : Int) : Nat × Ev := if sat then clampInt f false i else (encodeInt f i, Ev.zero)

/-- One integer element (R212). -/
def arithInt (op : ArithOp) (f : Fmt) (m : Rnd) (a b c : Nat) : Nat × Ev :=
  let x := decodeInt f a
  let y := decodeInt f b
  let z := decodeInt f c
  match op with
  | .add => resolveInt f m.sat (x + y)
  | .sub => resolveInt f m.sat (x - y)
  | .mul => resolveInt f m.sat (x * y)
  | .fma => resolveInt f m.sat (x * y + z)
  | .fms => resolveInt f m.sat (x * y - z)
  | .nfma => resolveInt f m.sat (z - x * y)
  | .min => (if y < x then b else a, Ev.zero)
  | .max => (if x < y then b else a, Ev.zero)
  | .abs => resolveInt f m.sat x.natAbs
  | .neg => resolveInt f m.sat (-x)

def veArith (op : ArithOp) (m : Rnd) (vd va vb : Nat) (k : KNum) (v : VEnv) : VRes := do
  let a ← v.src va isNumeric
  let f := a.tag
  let b ← if op.unary then pure a else v.src vb (· == f)
  let c ← if op.isFma then v.src vd (· == f) else pure a
  let g := fun e =>
    if Fmt.isFloat f then arithFloat op f m (v.draw e) (elem f a.bytes e) (elem f b.bytes e) (elem f c.bytes e)
    else arithInt op f m (elem f a.bytes e) (elem f b.bytes e) (elem f c.bytes e)
  let r := v.compute vd f (v.active (Fmt.count f) k) g
  pure (if Fmt.isFloat f && op.rounds then r.bump m else r)

/-! ## Logic and shifts (R213) -/

inductive LogicOp where
  | and | or | xor | not
  deriving DecidableEq, Repr

def veLogic (op : LogicOp) (vd va vb : Nat) (k : KNum) (v : VEnv) : VRes := do
  let a ← v.src va isNumeric
  let f := a.tag
  let b ← if op = .not then pure a else v.src vb (· == f)
  let g := fun e =>
    let x := elem f a.bytes e
    let y := elem f b.bytes e
    match op with
    | .and => x &&& y
    | .or => x ||| y
    | .xor => x ^^^ y
    | .not => 2 ^ Fmt.width f - 1 - x
  pure (v.compute vd f (v.active (Fmt.count f) k) fun e => (g e, Ev.zero))

inductive ShiftOp where
  | shl | shr | sra
  deriving DecidableEq, Repr

/-- A shift by any count: N or more gives 0, or N copies of the top bit (R213). -/
def shiftElem (op : ShiftOp) (n x s : Nat) : Nat :=
  match op with
  | .shl => if n ≤ s then 0 else x * 2 ^ s % 2 ^ n
  | .shr => if n ≤ s then 0 else x / 2 ^ s
  | .sra =>
    let i : Int := if 2 ^ (n - 1) ≤ x then (x : Int) - (2 ^ n : Nat) else x
    (i / (2 ^ (min s n) : Nat) % (2 ^ n : Nat)).toNat

def veShift (op : ShiftOp) (vd va vb : Nat) (k : KNum) (v : VEnv) : VRes := do
  let a ← v.src va Fmt.isInt
  let f := a.tag
  let b ← v.src vb (· == f)
  pure (v.compute vd f (v.active (Fmt.count f) k) fun e =>
    (shiftElem op (Fmt.width f) (elem f a.bytes e) (elem f b.bytes e), Ev.zero))

def veShiftImm (op : ShiftOp) (vd va n : Nat) (v : VEnv) : VRes := do
  let a ← v.src va Fmt.isInt
  let f := a.tag
  pure (v.compute vd f (v.active (Fmt.count f) 0) fun e => (shiftElem op (Fmt.width f) (elem f a.bytes e) n, Ev.zero))

/-! ## Compare, select and masks (R214 to R218) -/

/-- A condition on two encodings of one format (R214). -/
def condHolds (c : VCond) (f : Fmt) (a b : Nat) : Bool :=
  let x := decodeAny f a
  let y := decodeAny f b
  let un := x.isNan || y.isNan
  match c with
  | .eq => !un && !vLtReal x y && !vLtReal y x
  | .ne => un || vLtReal x y || vLtReal y x
  | .lt => !un && vLtReal x y
  | .le => !un && !vLtReal y x
  | .gt => !un && vLtReal y x
  | .ge => !un && !vLtReal x y
  | .un => un
  | .ord => !un

/-- The mask whose bit e is 1 for the listed e that satisfy p. -/
def maskOf (idx : List Nat) (p : Nat → Bool) : BitVec 1024 :=
  idx.foldl (fun m e => if p e then m ||| (1#1024 <<< e) else m) 0

def veCmp (c : VCond) (kd : KNum) (va vb : Nat) (k : KNum) (v : VEnv) : VRes := do
  let a ← v.src va isNumeric
  let f := a.tag
  let b ← v.src vb (· == f)
  let idx := v.active (Fmt.count f) k
  let inv := idx.foldl (fun acc e =>
    acc.add (Ev.invalid ((decodeAny f (elem f a.bytes e)).isSnan || (decodeAny f (elem f b.bytes e)).isSnan))) Ev.zero
  pure ((v.setMask kd (maskOf idx fun e => condHolds c f (elem f a.bytes e) (elem f b.bytes e))).count f inv)

def veSel (vd va vb : Nat) (k : KNum) (v : VEnv) : VRes := do
  let a ← v.src va isNumeric
  let f := a.tag
  let b ← v.src vb (· == f)
  pure (v.compute vd f (v.active (Fmt.count f) 0) fun e => (elem f (if v.sel k e then a else b).bytes e, Ev.zero))

/-- The lowest set bit alone (R216 .first). -/
def lowestBit (m : BitVec 1024) : BitVec 1024 := m &&& (0 - m)

/-- Bits 0 to min(LEN, 1,024) − 1 (R216 .len). -/
def lenMask (len : Nat) : BitVec 1024 := BitVec.ofNat 1024 (2 ^ (min len 1024) - 1)

def veMsk (op : MskOp) (kd ka kb : KNum) (v : VEnv) : VEnv :=
  let a := v.mask ka
  let b := v.mask kb
  v.setMask kd (match op with
    | .and => a &&& b
    | .or => a ||| b
    | .xor => a ^^^ b
    | .andn => a &&& ~~~b
    | .not => ~~~a
    | .first => lowestBit a
    | .len => lenMask v.len)

/-- The class of an encoding as the bit number of R217. -/
def classOf (f : Fmt) (bits : Nat) : Nat :=
  match decodeVal f bits with
  | .nan .. => 0
  | .inf true => 1
  | .inf false => 2
  | .fin x => if x.num = 0 then 3 else if x.num < 2 ^ (Fmt.lay f).m then 4 else 5

def veCls (kd : KNum) (va : Nat) (set : BitVec 6) (k : KNum) (v : VEnv) : VRes := do
  let a ← v.src va Fmt.isFloat
  let f := a.tag
  pure (v.setMask kd (maskOf (v.active (Fmt.count f) k) fun e => set.getLsbD (classOf f (elem f a.bytes e))))

/-- The number of set bits of a mask below position e. -/
def prefixCount (v : VEnv) (k : KNum) (e : Nat) : Nat := ((List.range e).filter (v.sel k)).length

def veIota (vd : Nat) (f : Fmt) (k : KNum) (v : VEnv) : VEnv :=
  v.compute vd f (v.active (Fmt.count f) 0) fun e => (prefixCount v k e % 2 ^ Fmt.width f, Ev.zero)

/-! ## Conversions and groups (R219 to R221) -/

/-- A conversion rounds in SR mode only with a floating-point format on one side (R85). -/
def bumpCvt (g f : Fmt) (m : Rnd) (v : VEnv) : VEnv := if Fmt.isFloat g || Fmt.isFloat f then v.bump m else v

def veCvt (m : Rnd) (vd va : Nat) (f : Fmt) (k : KNum) (v : VEnv) : VRes := do
  let a ← v.src va isNumeric
  let n := min (Fmt.count a.tag) (Fmt.count f)
  pure (bumpCvt a.tag f m (v.compute vd f (v.active n k) fun e => convert a.tag f m (v.draw e) (elem a.tag a.bytes e)))

/-- The number of registers of the group format for a single register's format, where R220 permits the pair. -/
def groupWidth (single group : Fmt) : Option Nat :=
  match Fmt.width single, Fmt.width group with
  | 16, 32 => some 2
  | 8, 16 => some 2
  | 8, 32 => some 4
  | 4, 8 => some 2
  | 4, 16 => some 4
  | 6, 16 => some 4
  | _, _ => none

/-- The elements of one register of a group among the active ones. -/
def inReg (w r : Nat) (idx : List Nat) : List Nat := idx.filter fun e => e % w == r

def veCvtw (m : Rnd) (vd va : Nat) (f : Fmt) (k : KNum) (v : VEnv) : VRes := do
  let a ← v.src va isNumeric
  match groupWidth a.tag f with
  | none => .error .fmttag
  | some w =>
    let idx := v.active (Fmt.count a.tag) k
    let r := (List.range w).foldl (fun acc r =>
      let pos := (inReg w r idx).map (groupPos w)
      acc.compute (vd + r) f pos fun p => convert a.tag f m (v.draw (p * w + r)) (elem a.tag a.bytes (p * w + r))) v
    pure (bumpCvt a.tag f m r)

def veCvtn (m : Rnd) (vd va : Nat) (f : Fmt) (k : KNum) (v : VEnv) : VRes := do
  let a ← v.src va isNumeric
  let g := a.tag
  match groupWidth f g with
  | none => .error .fmttag
  | some w =>
    let regs ← v.sources ((List.range w).map (va + ·))
    need (regs.all fun r => r.tag == g)
    let get := fun e => elem g (regs.getD (e % w) VReg.empty).bytes (groupPos w e)
    pure (bumpCvt g f m (v.compute vd f (v.active (Fmt.count f) k) fun e => convert g f m (v.draw e) (get e)))

/-- VPACK and VUNPK: the elements of a group between interleaved and sequential order (R221). -/
def veRegroup (pack : Bool) (vd va w : Nat) (v : VEnv) : VRes := do
  let a ← v.src va isNumeric
  let f := a.tag
  let n := Fmt.count f
  let regs ← v.sources ((List.range w).map (va + ·))
  need (regs.all fun r => r.tag == f)
  let inter := fun i => elem f (regs.getD (i % w) VReg.empty).bytes (i / w)
  let sequ := fun i => elem f (regs.getD (i / n) VReg.empty).bytes (i % n)
  pure ((List.range w).foldl (fun acc r =>
    acc.compute (vd + r) f (List.range n) fun p =>
      (if pack then inter (r * n + p) else sequ (p * w + r), Ev.zero)) v)

/-! ## Reductions and dot products (R222 to R224) -/

/-- The format in which the lanes of a source combine (R222). -/
def redFmt (f : Fmt) : Fmt :=
  match f with
  | .fp32 | .bf16 | .fp16 => f
  | .e4m3 | .e5m2 | .e3m2 | .e2m3 | .e2m1 => .fp32
  | .i8 | .i4 | .i16 | .i32 => .i32
  | _ => .n32

/-- The events of one element result made of several roundings: NAN and INF by the result, the others if any part raised them (R93). -/
def Ev.once (final others : Ev) : Ev :=
  ⟨one (final.nan != 0), one (final.inf != 0), one (final.ovf + others.ovf != 0), one (final.unf + others.unf != 0),
   one (final.inv + others.inv != 0), final.skip + others.skip⟩

/-- One combination of the tree: bits and the events so far. -/
def redComb (op : RedOp) (f : Fmt) (m : Rnd) (u : Nat) (a b : Nat × Ev) : Nat × Ev :=
  if Fmt.isFloat f then
    let x := decodeVal f a.1
    let y := decodeVal f b.1
    let r := match op with
      | .sum => deliver f m u (vAdd (m.rm == RMode.rdn) x y)
      | .min => deliver f rneNoSat u (vMin x y)
      | .max => deliver f rneNoSat u (vMax x y)
      | .amax => deliver f rneNoSat u (vMaxMag x y)
    (r.1, (a.2.add b.2).add r.2)
  else
    let x := decodeInt f a.1
    let y := decodeInt f b.1
    match op with
    | .sum => (encodeInt f (x + y), Ev.zero)
    | .min => (if y < x then b.1 else a.1, Ev.zero)
    | .max => (if x < y then b.1 else a.1, Ev.zero)
    | .amax => (if x.natAbs < y.natAbs then b.1 else a.1, Ev.zero)

/-- The result of an inactive root (R103). -/
def redEmpty (op : RedOp) (f : Fmt) : Nat :=
  match op with
  | .sum | .amax => 0
  | .min => if Fmt.isFloat f then encodeInf f false else encodeInt f (intMax f)
  | .max => if Fmt.isFloat f then encodeInf f true else encodeInt f (intMin f)

/-- NAN and INF of a result's bits. -/
def Ev.ofBits (f : Fmt) (b : Nat) : Ev :=
  if Fmt.isFloat f then Ev.ofFlags (isNanBits f b) (isInfBits f b) false false false else Ev.zero

def veRed (m : Rnd) (op : RedOp) (vd va : Nat) (k : KNum) (v : VEnv) : VRes := do
  let a ← v.src va isNumeric
  let f := redFmt a.tag
  let lane := fun e =>
    if e < min (Fmt.count a.tag) v.len && v.sel k e then
      let c := convert a.tag f rneNoSat 0 (elem a.tag a.bytes e)
      some (c.1, if a.tag = f then Ev.zero else c.2)
    else none
  let r := match treeRoot (fun lev i x y => redComb op f m (v.draw (1024 * lev + i)) x y) ((List.range 1024).map lane) with
    | some x => x
    | none => (redEmpty op f, Ev.zero)
  let ev := Ev.once (Ev.ofBits f r.1) r.2
  let out := v.compute vd f [0] fun _ => (r.1, ev)
  pure (if Fmt.isFloat f && op = .sum then out.bump m else out)

def veAmax (vd va vb : Nat) (k : KNum) (v : VEnv) : VRes := do
  let a ← v.src va Fmt.isFloat
  let b ← v.src vb (· == .fp32)
  let f := a.tag
  let n := Fmt.count f
  let block := fun j =>
    let lane := fun i =>
      let e := 128 * j + i
      if e < min n v.len && v.sel k e then some (elem f a.bytes e, Ev.zero) else none
    let mx : Nat × Ev := match treeRoot (fun _ _ x y => redComb .amax f rneNoSat 0 x y) ((List.range 128).map lane) with
      | some x => let c := convert f .fp32 rneNoSat 0 x.1; (c.1, c.2.add x.2)
      | none => (0, Ev.zero)
    let r := fp32Rne (vMaxMag (decodeVal .fp32 (elem .fp32 b.bytes j)) (decodeVal .fp32 mx.1))
    let bits := if isNanBits .fp32 r.1 then r.1 else r.1 % 2 ^ 31
    (bits, Ev.once (Ev.ofBits .fp32 bits) (r.2.add mx.2))
  pure (v.compute vd .fp32 (List.range ((n + 127) / 128)) block)

def veDot (m : Rnd) (vd va vb : Nat) (k : KNum) (v : VEnv) : VRes := do
  let a ← v.src va isNumeric
  let b ← v.src vb isNumeric
  match pairing a.tag b.tag with
  | none => .error .fmttag
  | some f =>
    let d ← v.src vd (· == f)
    let n := min (Fmt.count a.tag) (Fmt.count b.tag)
    let act := v.active n k
    let inBlock := fun j => act.filter fun e => e / 128 == j
    let block := fun j =>
      let es := inBlock j
      let acc := elem f d.bytes j
      if f = .i32 then
        let s : Int := es.foldl (fun t e => t + decodeInt .i8 (elem .i8 a.bytes e) * decodeInt .i8 (elem .i8 b.bytes e)) 0
        clampInt .i32 false (decodeInt .i32 acc + s)
      else
        let s := blockSum (es.map fun e => (decodeVal a.tag (elem a.tag a.bytes e), decodeVal b.tag (elem b.tag b.bytes e)))
        let r := deliver .fp32 m (v.draw j) (vAdd (m.rm == RMode.rdn) (decodeVal .fp32 acc) (decodeVal .fp32 s.1))
        (r.1, Ev.once r.2 s.2)
    let r := v.compute vd f ((List.range ((n + 127) / 128)).filter fun j => !(inBlock j).isEmpty) block
    pure (if f = .fp32 then r.bump m else r)

/-! ## Moves, splats and permutations (R225 to R227) -/

def veSplat (vd va i : Nat) (v : VEnv) : VRes := do
  let a ← v.src va isNumeric
  need (i < Fmt.count a.tag)
  pure (v.compute vd a.tag (v.active (Fmt.count a.tag) 0) fun _ => (elem a.tag a.bytes i, Ev.zero))

def veSplatImm (vd : Nat) (i : BitVec 9) (v : VEnv) : VRes := do
  need (isNumeric v.tag)
  let r := if Fmt.isFloat v.tag then deliver v.tag rneNoSat 0 (.fin (Ex.ofInt i.toInt), false) else clampInt v.tag false i.toInt
  pure (v.compute vd v.tag (v.active (Fmt.count v.tag) 0) fun _ => r)

def veSplatReg (vd : Nat) (x : Word) (v : VEnv) : VRes := do
  need (isNumeric v.tag)
  pure (v.compute vd v.tag (v.active (Fmt.count v.tag) 0) fun _ => (x.toNat % 2 ^ Fmt.width v.tag, Ev.zero))

def veMov (vd va : Nat) (k : KNum) (v : VEnv) : VRes := do
  let a ← v.src va isNumeric
  pure (v.compute vd a.tag (v.active (Fmt.count a.tag) k) fun e => (elem a.tag a.bytes e, Ev.zero))

def vePerm (vd va vb : Nat) (k : KNum) (v : VEnv) : VRes := do
  let a ← v.src va isNumeric
  let b ← v.src vb Fmt.isInt
  let c := Fmt.count a.tag
  pure (v.compute vd a.tag (v.active (min c (Fmt.count b.tag)) k) fun e =>
    let x := decodeInt b.tag (elem b.tag b.bytes e)
    (if 0 ≤ x ∧ x < c then elem a.tag a.bytes x.toNat else 0, Ev.zero))

def veSlide (rot : Bool) (vd va : Nat) (sh : BitVec 9) (v : VEnv) : VRes := do
  let a ← v.src va isNumeric
  let n := Fmt.count a.tag
  pure (v.compute vd a.tag (v.active n 0) fun e =>
    let x : Int := e + sh.toInt
    (if rot then elem a.tag a.bytes (x % n).toNat else if 0 ≤ x ∧ x < n then elem a.tag a.bytes x.toNat else 0, Ev.zero))

/-! ## Special functions (R228) -/

def veSpecial (fn : SFun) (vd va : Nat) (k : KNum) (v : VEnv) : VRes := do
  let a ← v.src va (· == .fp32)
  pure (v.compute vd .fp32 (v.active 128 k) fun e => special fn (elem .fp32 a.bytes e))

def veDiv (vd va vb : Nat) (k : KNum) (v : VEnv) : VRes := do
  let a ← v.src va (· == .fp32)
  let b ← v.src vb (· == .fp32)
  pure (v.compute vd .fp32 (v.active 128 k) fun e =>
    fp32Rne (vDiv (decodeVal .fp32 (elem .fp32 a.bytes e)) (decodeVal .fp32 (elem .fp32 b.bytes e))))

/-! ## Scaling, quantisation and error feedback (R229 to R231) -/

def veScl (m : Rnd) (vd va vb : Nat) (k : KNum) (v : VEnv) : VRes := do
  let a ← v.src va Fmt.isFloat
  let b ← v.src vb (· == .fp32)
  let f := a.tag
  let r := v.compute vd f (v.active (Fmt.count f) k) fun e =>
    deliver f m (v.draw e) (vMul (decodeVal f (elem f a.bytes e)) (decodeVal .fp32 (elem .fp32 b.bytes (e / 128))))
  pure (r.bump m)

def veQnt (m : Rnd) (vd va vb : Nat) (k : KNum) (v : VEnv) : VRes := do
  let a ← v.src va fun t => t == Fmt.fp32 || t == Fmt.bf16 || t == Fmt.fp16
  let b ← v.src vb (· == .fp32)
  let f := v.tag
  need (isNumeric f)
  let r := v.compute vd f (v.active (min (Fmt.count a.tag) (Fmt.count f)) k) fun e =>
    deliverAny f m (v.draw e) (vDiv (decodeVal a.tag (elem a.tag a.bytes e)) (decodeVal .fp32 (elem .fp32 b.bytes (e / 128))))
  pure (r.bump m)

/-- Does an encoding of any format stand for a number? -/
def isFiniteBits (f : Fmt) (b : Nat) : Bool := (decodeAny f b).isFin

/-- One element of VERRF: the quantised value and the new error, each with its events (R231). -/
def errfElem (f : Fmt) (m : Rnd) (u x e s : Nat) : (Nat × Ev) × (Nat × Ev) :=
  let sv := decodeVal .fp32 s
  let y := vAdd (m.rm == RMode.rdn) (decodeVal .fp32 x) (decodeVal .fp32 e)
  let d := vDiv y.1 sv
  let q := deliverAny f m u (d.1, y.2 || d.2)
  match y.1, sv, decodeAny f q.1 with
  | .fin yx, .fin sx, .fin qx => (q, fp32Rne (.fin (Ex.add false yx (Ex.mul qx sx).flip), false))
  | _, _, _ => (q, (0, Ev.zero))

def veErrf (m : Rnd) (vd va vb : Nat) (k : KNum) (v : VEnv) : VRes := do
  let s ← v.src (vd + 1) (· == .fp32)
  let a ← v.src va (· == .fp32)
  let b ← v.src vb (· == .fp32)
  let f := v.tag
  need (isNumeric f)
  let idx := v.active (min 128 (Fmt.count f)) k
  let el := fun e => errfElem f m (v.draw e) (elem .fp32 a.bytes e) (elem .fp32 b.bytes e) (elem .fp32 s.bytes (e / 128))
  let v1 := v.compute vb .fp32 idx fun e => (el e).2
  pure ((v1.compute vd f idx fun e => (el e).1).bump m)

/-! ## Shape and tag words (R232, R233) -/

/-- The working shape of a VSHP value: LEN above 1,024 acts as 1,024 (R205). -/
def shapeLen (x : Word) : Nat := min (bitsAt x 16 11) 1024
def shapeTag (x : Word) : Fmt :=
  let c := bitsAt x 0 4
  [Fmt.empty, .fp32, .bf16, .fp16, .e4m3, .e5m2, .e3m2, .e2m3, .e2m1, .i8, .i4, .i16, .i32, .n8, .n16, .n32].getD c .empty

def veShape (x : Word) (v : VEnv) : VEnv := { v with len := shapeLen x, tag := shapeTag x }

def veTag (vd va : Nat) (f : Fmt) (v : VEnv) : VRes :=
  match (v.reg va).poison with
  | some a => .error (.poison a)
  | none => .ok (v.write vd f (v.reg va).bytes)

/-! ## Chains (R234, R235) -/

/-- A chain word by its own description, with the header's rounding and SAT. -/
def veChainWord (m : Rnd) (c : ChainWord) (v : VEnv) : VRes :=
  let d := c.vd.toNat
  let a := c.va.toNat
  let b := c.vb.toNat
  match c.op with
  | .vadd => veArith .add m d a b c.k v
  | .vsub => veArith .sub m d a b c.k v
  | .vmul => veArith .mul m d a b c.k v
  | .vfma => veArith .fma m d a b c.k v
  | .vfms => veArith .fms m d a b c.k v
  | .vnfma => veArith .nfma m d a b c.k v
  | .vmin => veArith .min m d a b c.k v
  | .vmax => veArith .max m d a b c.k v
  | .vabs => veArith .abs m d a b c.k v
  | .vneg => veArith .neg m d a b c.k v
  | .vand => veLogic .and d a b c.k v
  | .vor => veLogic .or d a b c.k v
  | .vxor => veLogic .xor d a b c.k v
  | .vnot => veLogic .not d a b c.k v
  | .vshl => veShift .shl d a b c.k v
  | .vshr => veShift .shr d a b c.k v
  | .vsra => veShift .sra d a b c.k v
  | .vsel => veSel d a b c.k v
  | .vcls => veCls (c.vd.extractLsb' 0 3) a c.vb c.k v
  | .vcvt => veCvt m d a (shapeTag (zext c.vb)) c.k v
  | .vmov => veMov d a c.k v
  | .vexp2 => veSpecial .exp2 d a c.k v
  | .vlog2 => veSpecial .log2 d a c.k v
  | .vrcp => veSpecial .rcp d a c.k v
  | .vrsq => veSpecial .rsq d a c.k v
  | .vsqrt => veSpecial .sqrt d a c.k v
  | .vdiv => veDiv d a b c.k v
  | .vtanh => veSpecial .tanh d a c.k v
  | .vsig => veSpecial .sig d a c.k v
  | .vscl => veScl m d a b c.k v
  | .vqnt => veQnt m d a b c.k v
  | .verrf => veErrf m d a b c.k v

/-- The registers that a word reads; a poisoned one is met before any other check (R454). -/
def VEnv.clean (v : VEnv) (rs : List Nat) (f : VEnv → VRes) : VRes :=
  match v.sources rs with
  | .error e => .error e
  | .ok _ => f v

/-- The registers that a chain word reads. -/
def ChainWord.reads (c : ChainWord) : List Nat :=
  let d := c.vd.toNat
  let a := c.va.toNat
  let b := c.vb.toNat
  match c.op with
  | .vfma | .vfms | .vnfma => [a, b, d]
  | .verrf => [a, b, d + 1]
  | .vabs | .vneg | .vnot | .vcls | .vcvt | .vmov | .vexp2 | .vlog2 | .vrcp | .vrsq | .vsqrt | .vtanh | .vsig => [a]
  | _ => [a, b]

/-- The words of a chain in order; a trap in any of them cancels the chain and names the word's own offset from the header. -/
def veChainGo (m : Rnd) : Nat → List (Option ChainWord) → VEnv → Except (Nat × VErr) VEnv
  | _, [], v => .ok v
  | i, none :: _, _ => .error (i, .engill)
  | i, some c :: l, v =>
    match v.clean (ChainWord.reads c) (veChainWord m c) with
    | .error e => .error (i, e)
    | .ok v => veChainGo m (i + 1) l v

/-- A chain: temporaries start EMPTY, t7 with the object operand where there is one, and end with the chain (R235). -/
def veChain (m : Rnd) (t7 : Option VReg) (ws : List (Option ChainWord)) (v : VEnv) : Except (Nat × VErr) VEnv :=
  match veChainGo m 1 ws { v with chain := true, temps := (match t7 with | some r => [(7, r)] | none => []) } with
  | .error e => .error e
  | .ok v1 => .ok { v1 with chain := false, temps := [] }

end Sys2Proof.Machine
end

