-- ==== Sys2Proof/Machine/Ve.lean ====
section
/-! DEFINITION. The VE words: each one's run in its entry, the loads and stores, chains, and the replies of other devices (R200 to R238,
R295 to R297). -/

namespace Sys2Proof.Machine

/-! ## Running a VE word -/

/-- What a VE word of an entry sees (R204, R205, R207, R86). -/
def State.veEnv (s : State) (c : Nat) (x : Ctx) (n : Entry) : VEnv where
  file := (s.core c).vrf
  win := if n.own then x.window else n.vwb
  chain := false
  temps := []
  masks := x.masks
  maskDirty := x.maskDirty
  len := shapeLen n.shape
  tag := shapeTag n.shape
  rstrm := x.rstrm
  seed := recSeed x.record
  role := BitVec.ofNat 16 x.role
  ev := []

/-- Take over what a word has changed, and count its events against the entry's kernel (R208, R441). -/
def State.keepEnv (s : State) (c : Nat) (x : Ctx) (n : Entry) (v : VEnv) : State :=
  let s := s.updCore c fun r => { r with vrf := v.file }
  let s := s.updCtx c n.slot fun y => { y with masks := v.masks, maskDirty := v.maskDirty, rstrm := v.rstrm }
  v.ev.foldl (fun s (f, e) => s.countEv x.part n.kern x.recomp f e) s

/-- The cause that an error of the word at an offset of the block is reported with (R155, R208, R455, R459). -/
def veCause (n : Entry) (off : Nat) : VErr → Cause
  | .fmttag => ⟨FMTTAG, engineForm .ve n 0 off⟩
  | .engill => ⟨ENGILL, engineForm .ve n 0 off⟩
  | .poison a => ⟨POISON, a⟩

/-- The common course of a VE word: its poisoned sources first (R454), then its body; a word that fails has no effect. -/
def veRun (srcs : List Nat) (body : Entry → VEnv → VRes) (s : State) : Out :=
  match s.wordTurn .ve with
  | none => .fault .strayTurn
  | some (c, n, x) =>
    match (s.veEnv c x n).clean srcs (body n) with
    | .error e => .next (s.failEntry c .ve (veCause n n.pos e))
    | .ok v => .next ((s.keepEnv c x n v).wordDone c .ve)

/-- A captured register (R149). -/
def Entry.reg (n : Entry) (a : Reg) : Word := n.regs[a.toNat]

def execVadd (m : Rnd) (vd va vb : VNum) (k : KNum) (s : State) : Out :=
  veRun [va.toNat, vb.toNat] (fun _ => veArith .add m vd.toNat va.toNat vb.toNat k) s
def execVsub (m : Rnd) (vd va vb : VNum) (k : KNum) (s : State) : Out :=
  veRun [va.toNat, vb.toNat] (fun _ => veArith .sub m vd.toNat va.toNat vb.toNat k) s
def execVmul (m : Rnd) (vd va vb : VNum) (k : KNum) (s : State) : Out :=
  veRun [va.toNat, vb.toNat] (fun _ => veArith .mul m vd.toNat va.toNat vb.toNat k) s
def execVfma (m : Rnd) (vd va vb : VNum) (k : KNum) (s : State) : Out :=
  veRun [va.toNat, vb.toNat, vd.toNat] (fun _ => veArith .fma m vd.toNat va.toNat vb.toNat k) s
def execVfms (m : Rnd) (vd va vb : VNum) (k : KNum) (s : State) : Out :=
  veRun [va.toNat, vb.toNat, vd.toNat] (fun _ => veArith .fms m vd.toNat va.toNat vb.toNat k) s
def execVnfma (m : Rnd) (vd va vb : VNum) (k : KNum) (s : State) : Out :=
  veRun [va.toNat, vb.toNat, vd.toNat] (fun _ => veArith .nfma m vd.toNat va.toNat vb.toNat k) s
def execVmin (m : Rnd) (vd va vb : VNum) (k : KNum) (s : State) : Out :=
  veRun [va.toNat, vb.toNat] (fun _ => veArith .min m vd.toNat va.toNat vb.toNat k) s
def execVmax (m : Rnd) (vd va vb : VNum) (k : KNum) (s : State) : Out :=
  veRun [va.toNat, vb.toNat] (fun _ => veArith .max m vd.toNat va.toNat vb.toNat k) s
def execVabs (m : Rnd) (vd va : VNum) (k : KNum) (s : State) : Out :=
  veRun [va.toNat] (fun _ => veArith .abs m vd.toNat va.toNat 0 k) s
def execVneg (m : Rnd) (vd va : VNum) (k : KNum) (s : State) : Out :=
  veRun [va.toNat] (fun _ => veArith .neg m vd.toNat va.toNat 0 k) s
def execVand (vd va vb : VNum) (k : KNum) (s : State) : Out :=
  veRun [va.toNat, vb.toNat] (fun _ => veLogic .and vd.toNat va.toNat vb.toNat k) s
def execVor (vd va vb : VNum) (k : KNum) (s : State) : Out :=
  veRun [va.toNat, vb.toNat] (fun _ => veLogic .or vd.toNat va.toNat vb.toNat k) s
def execVxor (vd va vb : VNum) (k : KNum) (s : State) : Out :=
  veRun [va.toNat, vb.toNat] (fun _ => veLogic .xor vd.toNat va.toNat vb.toNat k) s
def execVnot (vd va : VNum) (k : KNum) (s : State) : Out := veRun [va.toNat] (fun _ => veLogic .not vd.toNat va.toNat 0 k) s
def execVshl (vd va vb : VNum) (k : KNum) (s : State) : Out :=
  veRun [va.toNat, vb.toNat] (fun _ => veShift .shl vd.toNat va.toNat vb.toNat k) s
def execVshr (vd va vb : VNum) (k : KNum) (s : State) : Out :=
  veRun [va.toNat, vb.toNat] (fun _ => veShift .shr vd.toNat va.toNat vb.toNat k) s
def execVsra (vd va vb : VNum) (k : KNum) (s : State) : Out :=
  veRun [va.toNat, vb.toNat] (fun _ => veShift .sra vd.toNat va.toNat vb.toNat k) s
def execVshlImm (vd va : VNum) (n : BitVec 9) (s : State) : Out :=
  veRun [va.toNat] (fun _ => veShiftImm .shl vd.toNat va.toNat n.toNat) s
def execVshrImm (vd va : VNum) (n : BitVec 9) (s : State) : Out :=
  veRun [va.toNat] (fun _ => veShiftImm .shr vd.toNat va.toNat n.toNat) s
def execVsraImm (vd va : VNum) (n : BitVec 9) (s : State) : Out :=
  veRun [va.toNat] (fun _ => veShiftImm .sra vd.toNat va.toNat n.toNat) s
def execVcmp (c : VCond) (kd : KNum) (va vb : VNum) (k : KNum) (s : State) : Out :=
  veRun [va.toNat, vb.toNat] (fun _ => veCmp c kd va.toNat vb.toNat k) s
def execVsel (vd va vb : VNum) (k : KNum) (s : State) : Out :=
  veRun [va.toNat, vb.toNat] (fun _ => veSel vd.toNat va.toNat vb.toNat k) s
def execVmsk (op : MskOp) (kd ka kb : KNum) (s : State) : Out := veRun [] (fun _ v => .ok (veMsk op kd ka kb v)) s
def execVcls (kd : KNum) (va : VNum) (set : BitVec 6) (k : KNum) (s : State) : Out :=
  veRun [va.toNat] (fun _ => veCls kd va.toNat set k) s
def execViota (vd : VNum) (f : Fmt) (k : KNum) (s : State) : Out := veRun [] (fun _ v => .ok (veIota vd.toNat f k v)) s
def execVcvt (m : Rnd) (vd va : VNum) (f : Fmt) (k : KNum) (s : State) : Out :=
  veRun [va.toNat] (fun _ => veCvt m vd.toNat va.toNat f k) s
def execVcvtw (m : Rnd) (vd va : VNum) (f : Fmt) (k : KNum) (s : State) : Out :=
  veRun [va.toNat] (fun _ => veCvtw m vd.toNat va.toNat f k) s
def execVcvtn (m : Rnd) (vd va : VNum) (f : Fmt) (k : KNum) (s : State) : Out :=
  veRun [va.toNat] (fun _ => veCvtn m vd.toNat va.toNat f k) s
def execVpack (_m : Rnd) (vd va : VNum) (w : BitVec 3) (s : State) : Out :=
  veRun ((List.range w.toNat).map (va.toNat + ·)) (fun _ => veRegroup true vd.toNat va.toNat w.toNat) s
def execVunpk (_m : Rnd) (vd va : VNum) (w : BitVec 3) (s : State) : Out :=
  veRun ((List.range w.toNat).map (va.toNat + ·)) (fun _ => veRegroup false vd.toNat va.toNat w.toNat) s
def execVred (m : Rnd) (op : RedOp) (vd va : VNum) (k : KNum) (s : State) : Out :=
  veRun [va.toNat] (fun _ => veRed m op vd.toNat va.toNat k) s
def execVamax (_m : Rnd) (vd va vb : VNum) (k : KNum) (s : State) : Out :=
  veRun [va.toNat, vb.toNat] (fun _ => veAmax vd.toNat va.toNat vb.toNat k) s
def execVdot (m : Rnd) (vd va vb : VNum) (k : KNum) (s : State) : Out :=
  veRun [va.toNat, vb.toNat, vd.toNat] (fun _ => veDot m vd.toNat va.toNat vb.toNat k) s
def execVsplat (vd va : VNum) (i : BitVec 9) (s : State) : Out := veRun [va.toNat] (fun _ => veSplat vd.toNat va.toNat i.toNat) s
def execVsplatImm (vd : VNum) (v : BitVec 9) (s : State) : Out := veRun [] (fun _ => veSplatImm vd.toNat v) s
def execVsplatReg (vd : VNum) (a : Reg) (s : State) : Out := veRun [] (fun n => veSplatReg vd.toNat (n.reg a)) s
def execVmov (vd va : VNum) (k : KNum) (s : State) : Out := veRun [va.toNat] (fun _ => veMov vd.toNat va.toNat k) s
def execVperm (vd va vb : VNum) (k : KNum) (s : State) : Out :=
  veRun [va.toNat, vb.toNat] (fun _ => vePerm vd.toNat va.toNat vb.toNat k) s
def execVslide (vd va : VNum) (sh : BitVec 9) (s : State) : Out := veRun [va.toNat] (fun _ => veSlide false vd.toNat va.toNat sh) s
def execVslideRot (vd va : VNum) (sh : BitVec 9) (s : State) : Out := veRun [va.toNat] (fun _ => veSlide true vd.toNat va.toNat sh) s
def execVexp2 (_m : Rnd) (vd va : VNum) (k : KNum) (s : State) : Out :=
  veRun [va.toNat] (fun _ => veSpecial .exp2 vd.toNat va.toNat k) s
def execVlog2 (_m : Rnd) (vd va : VNum) (k : KNum) (s : State) : Out :=
  veRun [va.toNat] (fun _ => veSpecial .log2 vd.toNat va.toNat k) s
def execVrcp (_m : Rnd) (vd va : VNum) (k : KNum) (s : State) : Out :=
  veRun [va.toNat] (fun _ => veSpecial .rcp vd.toNat va.toNat k) s
def execVrsq (_m : Rnd) (vd va : VNum) (k : KNum) (s : State) : Out :=
  veRun [va.toNat] (fun _ => veSpecial .rsq vd.toNat va.toNat k) s
def execVsqrt (_m : Rnd) (vd va : VNum) (k : KNum) (s : State) : Out :=
  veRun [va.toNat] (fun _ => veSpecial .sqrt vd.toNat va.toNat k) s
def execVdiv (_m : Rnd) (vd va vb : VNum) (k : KNum) (s : State) : Out :=
  veRun [va.toNat, vb.toNat] (fun _ => veDiv vd.toNat va.toNat vb.toNat k) s
def execVtanh (_m : Rnd) (vd va : VNum) (k : KNum) (s : State) : Out :=
  veRun [va.toNat] (fun _ => veSpecial .tanh vd.toNat va.toNat k) s
def execVsig (_m : Rnd) (vd va : VNum) (k : KNum) (s : State) : Out :=
  veRun [va.toNat] (fun _ => veSpecial .sig vd.toNat va.toNat k) s
def execVscl (m : Rnd) (vd va vb : VNum) (k : KNum) (s : State) : Out :=
  veRun [va.toNat, vb.toNat] (fun _ => veScl m vd.toNat va.toNat vb.toNat k) s
def execVqnt (m : Rnd) (vd va vb : VNum) (k : KNum) (s : State) : Out :=
  veRun [va.toNat, vb.toNat] (fun _ => veQnt m vd.toNat va.toNat vb.toNat k) s
def execVerrf (m : Rnd) (vd va vb : VNum) (k : KNum) (s : State) : Out :=
  veRun [va.toNat, vb.toNat, vd.toNat + 1] (fun _ => veErrf m vd.toNat va.toNat vb.toNat k) s
def execVtag (vd va : VNum) (f : Fmt) (s : State) : Out := veRun [va.toNat] (fun _ => veTag vd.toNat va.toNat f) s

/-- VSHP changes the working shape of the rest of the entry (R205, R232). -/
def execVshp (a : Reg) (s : State) : Out :=
  match s.wordTurn .ve with
  | none => .fault .strayTurn
  | some (c, n, _) =>
    let s := s.updCore c fun r => r.updCurrent .ve fun m => { m with shape := n.reg a &&& vshpMask }
    .next (s.wordDone c .ve)

/-! ## Ranges of bytes -/

/-- A place with the number of bytes used there and its address. -/
structure Spot where
  t : Target
  n : Nat
  a : Word
  deriving DecidableEq, Repr

def Spot.remote (p : Spot) : Option Nat := match p.t with
  | .remote dev => some dev
  | _ => none

/-- Split a range at the boundaries of 256-byte lines. -/
def splitLines : Nat → Word → Nat → List (Word × Nat)
  | 0, _, _ => []
  | _ + 1, _, 0 => []
  | f + 1, a, n =>
    let m := min n (256 - a.toNat % 256)
    (a, m) :: splitLines f (a + BitVec.ofNat 64 m) (n - m)

def lineParts (a : Word) (n : Nat) : List (Word × Nat) := splitLines (n / 256 + 2) a n

/-- The outcome of opening many places: every check comes before any byte moves. -/
inductive Opened where
  | go (s : State) (l : List Spot)
  | wait (s : State)
  | deny (code : Nat) (a : Word)
  deriving DecidableEq, Repr

/-- Open many places, some by the translations that pages give (R109). -/
def State.openBy (s : State) (c k : Nat) (x : Ctx) (u : Use) (pages : List Cached) : List (Word × Nat) → Opened
  | [] => .go s []
  | (a, n) :: l =>
    let held := if bitsAt a 56 8 = 0 then pages.find? fun e => e.covers (bitsAt a 0 56) && s.cachedOk e else none
    match (match held with
      | some e => Acc.go s (s.leafTarget x.part x.binding (bitsAt a 0 56) e)
      | none => s.openAt c k x a n u) with
    | .deny code => .deny code a
    | .wait s => .wait s
    | .go s t =>
      match s.openBy c k x u pages l with
      | .go s r => .go s (⟨t, n, a⟩ :: r)
      | o => o

def State.openAll (s : State) (c k : Nat) (x : Ctx) (u : Use) (l : List (Word × Nat)) : Opened := s.openBy c k x u [] l

/-- The address of the first poisoned unit of some places. -/
def State.firstMark (s : State) (l : List Spot) : Option Word := l.findSome? fun p =>
  (s.marksAt p.t p.n).head?.map fun u =>
    let base := match p.t with | .l _ _ o => o | .win _ _ o => o | .mem pa => pa | _ => 0
    unitOf (p.a + BitVec.ofNat 64 (64 * u - base))

/-! ## Loads and stores (R295 to R297) -/

/-- A VE memory word as its accesses: the parts it loads or stores, in order, and what a load does with the bytes. -/
structure Plan where
  write : Bool
  parts : List (Word × List Byte)
  fin : List Byte → Option Word → VEnv → VEnv

/-- The bytes that hold elements 0 to m − 1 of a format. -/
def byteSpan (f : Fmt) (m : Nat) : Nat := (m * Fmt.width f + 7) / 8

def regBytes (b : BitVec 4096) (o n : Nat) : List Byte := (List.range n).map fun i => b.extractLsb' (8 * (o + i)) 8

/-- Replace the low n bytes of a register. -/
def setBytes (b : BitVec 4096) (bs : List Byte) : BitVec 4096 :=
  let m : BitVec 4096 := BitVec.ofNat 4096 (2 ^ (8 * bs.length) - 1)
  (b &&& ~~~m) ||| (BitVec.ofNat 4096 (ofBytes bs) &&& m)

/-- A loaded register: poisoned by what the load has read, and still poisoned where old bytes stay. -/
def VEnv.loaded (v : VEnv) (vd : Nat) (f : Fmt) (b : BitVec 4096) (whole : Bool) (mark : Option Word) : VEnv :=
  v.setReg vd ⟨f, fitTag f b, true, match mark with
    | some a => some a
    | none => if whole then none else (v.reg vd).poison⟩

def splitData : List (Word × Nat) → List Byte → List (Word × List Byte)
  | [], _ => []
  | (a, n) :: l, bs => (a, bs.take n) :: splitData l (bs.drop n)

/-- The address of a VM word. -/
def vmAddr (n : Entry) (a : Reg) (off : BitVec 10) : Word := n.reg a + sext off * 64

def vldPlan (vd : VNum) (a : Reg) (off : BitVec 10) (n : Entry) (v : VEnv) : Except Cause Plan :=
  let addr := vmAddr n a off
  let f := v.tag
  if f = .empty then .error (veCause n n.pos .fmttag)
  else if addr.toNat % 64 ≠ 0 then .error ⟨MISALIGN, addr⟩
  else
    let nb := byteSpan f (min (Fmt.count f) v.len)
    .ok ⟨false, splitData (lineParts addr nb) (List.replicate nb 0), fun bs mark v =>
      v.loaded vd.toNat f (setBytes (v.reg vd.toNat).bytes bs) (nb == byteSpan f (Fmt.count f)) mark⟩

def vstPlan (vd : VNum) (a : Reg) (off : BitVec 10) (n : Entry) (v : VEnv) : Except Cause Plan :=
  let addr := vmAddr n a off
  let r := v.reg vd.toNat
  match r.poison with
  | some p => .error ⟨POISON, p⟩
  | none =>
    if r.tag = .empty then .error (veCause n n.pos .fmttag)
    else if addr.toNat % 64 ≠ 0 then .error ⟨MISALIGN, addr⟩
    else
      let nb := byteSpan r.tag (min (Fmt.count r.tag) v.len)
      .ok ⟨true, splitData (lineParts addr nb) (regBytes r.bytes 0 nb), fun _ _ v => v⟩

/-- The active elements of an indexed word with their addresses, in increasing element. -/
def indexed (f : Fmt) (vi : VReg) (base : Word) (k : KNum) (v : VEnv) : List (Nat × Word) :=
  let sz := Fmt.width f / 8
  (v.active (min (Fmt.count f) (Fmt.count vi.tag)) k).map fun e =>
    (e, base + BitVec.ofInt 64 (decodeInt vi.tag (elem vi.tag vi.bytes e) * sz))

/-- Formats of whole bytes (R297). -/
def byteFmt (f : Fmt) : Bool := f != .empty && Fmt.width f % 8 == 0

def indexedPlan (write : Bool) (vd vi : VNum) (a : Reg) (k : KNum) (n : Entry) (v : VEnv) : Except Cause Plan :=
  let r := v.reg vd.toNat
  let f := if write then r.tag else v.tag
  let i := v.reg vi.toNat
  match v.sources (if write then [vi.toNat, vd.toNat] else [vi.toNat]) with
  | .error e => .error (veCause n n.pos e)
  | .ok _ =>
    if !byteFmt f || !Fmt.isInt i.tag then .error (veCause n n.pos .fmttag)
    else
      let sz := Fmt.width f / 8
      let l := indexed f i (n.reg a) k v
      match l.find? fun q => q.2.toNat % sz ≠ 0 with
      | some q => .error ⟨MISALIGN, q.2⟩
      | none => .ok ⟨write, l.map fun q => (q.2, if write then regBytes r.bytes (sz * q.1) sz else List.replicate sz 0),
          fun bs mark v =>
            let b := (l.foldl (fun (acc : BitVec 4096 × List Byte) q =>
              (setElem f acc.1 q.1 (ofBytes (acc.2.take sz)), acc.2.drop sz)) ((v.reg vd.toNat).bytes, bs)).1
            v.loaded vd.toNat f b (l.length == Fmt.count f) mark⟩

/-- The requests that the remote places of a plan need, 64 bytes at most each. -/
def remoteParts (write : Bool) : List Spot → List (Word × List Byte) → List (Nat × Word × Nat × List Byte)
  | p :: l, (_, bs) :: ds =>
    (match p.remote with
     | none => []
     | some dev => (chop 64 (p.n + 1) bs).mapIdx fun i b =>
        (dev, p.a + BitVec.ofNat 64 (64 * i), b.length - 1, if write then b else [])) ++ remoteParts write l ds
  | _, _ => []

/-- The bytes of a load: its own places are read, the others take the replies in order. -/
def State.gather (s : State) : List Spot → List Byte → List Byte
  | [], _ => []
  | p :: l, data => match p.remote with
    | none => s.readAt p.t p.n ++ s.gather l data
    | some _ => data.take p.n ++ s.gather l (data.drop p.n)

def State.scatter (s : State) : List Spot → List (Word × List Byte) → State
  | p :: l, (_, bs) :: ds => ((if p.remote.isNone then s.writeAt p.t bs else s)).scatter l ds
  | _, _ => s

/-- Replace an entry of a chain. -/
def State.setEntry (s : State) (c : Nat) (e : Eng) (n m : Entry) : State :=
  s.updCore c fun r => r.setChain e ((r.chain e).map fun q => if q == n then m else q)

/-- Suspend an entry at a word whose requests have been sent: its stores are outstanding, its loads are asked for (R109, R296, R430). -/
def State.suspend (s : State) (c : Nat) (n : Entry) (write : Bool) (reqs : List Ask) (pages : List Cached) : State :=
  let ids := reqs.mapIdx fun i _ => s.serial + i
  let s := { s with serial := s.serial + reqs.length }
  let oscs := reqs.mapIdx fun i q => (⟨ids.getD i 0, false, [(q.dev, q.id)], none, none, n.kern, false⟩ : Osc)
  let s := if write then s.updCtx c n.slot fun x => { x with stores := x.stores ++ oscs } else s
  s.setEntry c .ve n { n with susp := true, osc := if write then ids else [], asks := if write then [] else reqs, pages := pages }

/-- Run a memory word: at its first issue, or with the replies of the other devices. done: what follows its effect. Its class orders nothing
more: a word that waits for another device holds the context's later words (R118, R347). -/
def State.memWord (s : State) (c : Nat) (n : Entry) (x : Ctx) (plan : Entry → VEnv → Except Cause Plan) (data : Option (List Byte))
    (fail : State → Cause → State) (stay done : State → State) : State :=
  match plan n (s.veEnv c x n) with
  | .error w => fail s w
  | .ok p =>
    match s.openBy c n.slot x (if p.write then .write else .read) n.pages (p.parts.map fun q => (q.1, q.2.length)) with
    | .deny code a => fail s ⟨code, a⟩
    | .wait s => stay s
    | .go s spots =>
      let asks := remoteParts p.write spots p.parts
      match asks.isEmpty, data with
      | false, none =>
        if !s.requestRoom c asks.length then s
        else match s.sendList x.part (if p.write then 2 else 1) asks with
        | .refused => fail s ⟨OBJFAULT, (asks.head?.map fun q => q.2.1).getD 0⟩
        | .wait s => s
        | .sent s ids =>
          s.suspend c n p.write ((asks.zip ids).map fun ((dev, a, sz, _), id) => ⟨dev, a, sz + 1, id⟩)
            (p.parts.filterMap fun q => (s.reach c n.slot x false q.1).leaf)
      | _, _ =>
        let replies := data.getD []
        let wanted := (spots.filterMap fun q => q.remote.map fun _ => q.n).foldl (· + ·) 0
        if !asks.isEmpty && replies.length ≠ (if p.write then 0 else wanted) then
          fail s ⟨OBJFAULT, (asks.head?.map fun q => q.2.1).getD 0⟩
        else if p.write then done ((spots.foldl (fun s q => s.crossed c q.t) s).scatter spots p.parts)
        else
          let v := p.fin (s.gather spots replies) (match s.firstMark spots with | some a => some a | none => n.mark) (s.veEnv c x n)
          done (s.keepEnv c x n v)

/-- A VE memory word at its first issue. -/
def veMem (plan : Entry → VEnv → Except Cause Plan) (s : State) : Out :=
  match s.wordTurn .ve with
  | none => .fault .strayTurn
  | some (c, n, x) => .next (s.memWord c n x plan none (fun s w => s.failEntry c .ve w) id fun s => s.wordDone c .ve)

def execVld (vd : VNum) (a : Reg) (off : BitVec 10) (_oc : OClass) (s : State) : Out := veMem (vldPlan vd a off) s
def execVst (vd : VNum) (a : Reg) (off : BitVec 10) (_oc : OClass) (s : State) : Out := veMem (vstPlan vd a off) s
def execVldx (vd vi : VNum) (a : Reg) (k : KNum) (_oc : OClass) (s : State) : Out := veMem (indexedPlan false vd vi a k) s
def execVstx (vd vi : VNum) (a : Reg) (k : KNum) (_oc : OClass) (s : State) : Out := veMem (indexedPlan true vd vi a k) s

/-- The plan of the memory word at an entry's place. -/
def planOf (ws : List Half) : Option (Entry → VEnv → Except Cause Plan) :=
  match ws with
  | [] => none
  | w :: rest => match decodeVe w rest with
    | .ok (.vld vd a off _) _ => some (vldPlan vd a off)
    | .ok (.vst vd a off _) _ => some (vstPlan vd a off)
    | .ok (.vldx vd vi a k _) _ => some (indexedPlan false vd vi a k)
    | .ok (.vstx vd vi a k _) _ => some (indexedPlan true vd vi a k)
    | _ => none

/-- The bytes of a suspended word's answers in order, once it has all of them; a word that stores has none. -/
def Entry.gathered (n : Entry) : Option (List Byte) :=
  if n.asks.isEmpty then some (n.got.flatMap Prod.snd)
  else n.asks.foldl (fun acc q => match acc, n.got.find? fun r => r.1 == q.addr with
    | some bs, some r => some (bs ++ r.2)
    | _, _ => none) (some [])

/-- Every request of a suspended word has been answered. -/
def Entry.complete (x : Ctx) (n : Entry) : Bool :=
  n.susp && n.gathered.isSome && n.osc.all fun id => x.stores.all fun o => o.id != id || o.done

/-- The suspended entry that an answer completes. -/
def State.resumable (s : State) (core : Nat) (data : List Byte) : Option Entry :=
  match (s.core core).ve.find? fun n => n.gathered == some data && (match s.ctx? core n.slot with | some x => n.complete x | none => false) with
  | some n => some n
  | none => (s.core core).ve.find? fun n => n.susp

/-- Every reply of a suspended word has arrived: the word completes and its entry continues when the VE is free (R296). data holds the
bytes of a load's replies in order; replies that do not fit the requests tell that a peer has refused one (R487). -/
def execVeRemoteResume (core : Nat) (data : List Byte) (s : State) : Out :=
  match s.resumable core data with
  | none => .next s
  | some n =>
    match s.ctx? core n.slot with
    | none => .next s
    | some x =>
      match planOf (s.entryWords core x .ve n) with
      | none => .next s
      | some plan =>
        let retireAll := fun (s : State) => n.osc.foldl (fun s id => s.updCtx core n.slot fun y => { y with stores := oscDone id y.stores }) s
        let back := { n with susp := false, started := false, resume := true, osc := [], asks := [], got := [], mark := none, pages := [] }
        .next (s.memWord core n x plan (some data)
          (fun s w => (retireAll s).setEntry core .ve n { back with failed := some w })
          (fun s => { s with inbox := s.inbox ++ [.veRemoteResume core data] })
          (fun s => (retireAll s).setEntry core .ve n { back with busy := true }))

/-! ## Chains (R234, R235) -/

/-- The object operand of a chain: 512 bytes of a readable object on resident leaves of class 0 to 3. -/
def State.chainObject (s : State) (x : Ctx) (obj : Nat) (tag : Fmt) : Option (VReg × List Target) :=
  let o := s.object x.part obj
  let parts := lineParts (BitVec.ofNat 64 o.2.1) 512
  let spots := parts.map fun q => (s.reachG x.part x.binding (q.1.toNat % 2 ^ 56), q.2, q.1)
  let good := fun (q : Reach) => match q.t with
    | .mem _ => q.r && q.lat ≤ 3
    | _ => false
  if (s.part x.part).otsize ≤ obj || 2 ^ 56 ≤ o.2.1 || !objV o.1 || !objR o.1 || objKind o.1 == 1 || o.2.2.1 < 512 || !spots.all (fun q => good q.1) then none
  else
    let l := spots.map fun q => (⟨q.1.t, q.2.1, q.2.2⟩ : Spot)
    some (⟨tag, fitTag tag (BitVec.ofNat 4096 (ofBytes (s.gather l []))), true, s.firstMark l⟩, l.map Spot.t)

def execVchain (m : Rnd) (obj : BitVec 16) (ws : List (Option ChainWord)) (s : State) : Out :=
  match s.wordTurn .ve with
  | none => .fault .strayTurn
  | some (c, n, x) =>
    let v := s.veEnv c x n
    let t7 := if obj = 0 then some (none, []) else (s.chainObject x obj.toNat v.tag).map fun q => (some q.1, q.2)
    match t7 with
    | none => .next (s.failEntry c .ve ⟨OBJFAULT, engineForm .ve n 0 n.pos⟩)
    | some (t7, ts) =>
      if ts.any s.bankBusy then .next s
      else
      let s := ts.foldl (fun s t => (s.stamp t).noteReader c n.slot t .read) s
      match veChain m t7 ws v with
      | .error (i, e) => .next (s.failEntry c .ve (veCause n (n.pos + i) e))
      | .ok v => .next ((s.keepEnv c x n v).wordDone c .ve)

end Sys2Proof.Machine
end

