-- ==== Sys2Proof/Machine/Me.lean ====
section
/-! DEFINITION. The ME words: weights, matrix steps, tiles, drains and status (R239 to R266, R275). -/

namespace Sys2Proof.Machine

/-! ## Shapes (R239, R255, R256) -/

def isSmall (f : Fmt) : Bool := f == .e3m2 || f == .e2m3 || f == .e2m1

/-- Kd and Nw of a sub-array: the weight tag decides the class (R255). -/
def arrayShape (m : MMode) (f : Fmt) : Option (Nat × Nat) :=
  if f = .bf16 then
    match m with
    | .full => some (128, 128)
    | .half => some (128, 64)
    | .quarter => none
  else if Fmt.isNarrow f || f == .i8 then
    let d := if isSmall f then 2 else 1
    match m with
    | .full => some (256 * d, 256)
    | .half => some (256 * d, 128)
    | .quarter => some (128 * d, 128)
  else none

def subCount : MMode → Nat
  | .full => 1
  | .half => 2
  | .quarter => 4

/-- The K span of a step. -/
def spanOf (kd sparse : Nat) : Nat := if sparse = 0 then kd else kd * 24 / sparse

def scaleCount (span nw : Nat) : Nat := span / 128 * ((nw + 127) / 128)

/-- Bytes of the elements, scales and positions of a load. -/
def weightElemBytes (f : Fmt) (kd nw : Nat) : Nat := kd * nw * Fmt.width f / 8
def weightScaleBytes (f : Fmt) (kd nw sparse : Nat) : Nat := if Fmt.isNarrow f then 4 * scaleCount (spanOf kd sparse) nw else 0
def weightBytes (f : Fmt) (kd nw sparse : Nat) : Nat :=
  weightElemBytes f kd nw + weightScaleBytes f kd nw sparse + (if sparse = 0 then 0 else kd * nw * 5 / 8)

/-- Bits [o + n − 1 : o] of a byte string. -/
def bitsOf (bs : List Byte) (o n : Nat) : Nat := ofBytes ((bs.drop (o / 8)).take ((o % 8 + n + 7) / 8)) / 2 ^ (o % 8) % 2 ^ n

/-- Weight element (k or slot row, n). -/
def Weights.elem (w : Weights) (kd nw k n : Nat) : Nat :=
  bitsOf w.bytes ((if w.transposed then n * kd + k else k * nw + n) * Fmt.width w.tag) (Fmt.width w.tag)

/-- The FP32 scale of K block b and N block j. -/
def Weights.scale (w : Weights) (kd nw b j : Nat) : Nat :=
  ofBytes ((w.bytes.drop (weightElemBytes w.tag kd nw + 4 * (b * ((nw + 127) / 128) + j))).take 4)

def Weights.position (w : Weights) (kd nw i n : Nat) : Nat :=
  bitsOf w.bytes (8 * (weightElemBytes w.tag kd nw + weightScaleBytes w.tag kd nw w.sparse) + 5 * (i * nw + n)) 5

/-- The slots of a column of sparse weights: K position and slot row of each filled slot, and whether some slot has a bad position. -/
def Weights.columnGo (w : Weights) (kd nw n span : Nat) : List Nat → Option (Nat × Nat) → List (Nat × Nat) × Bool
  | [], _ => ([], false)
  | i :: l, last =>
    let g := i / w.sparse
    let p := w.position kd nw i n
    let len := min 24 (span - 24 * g)
    let low := match last with
      | some (g', p') => if g' = g then p' + 1 else 0
      | none => 0
    if p = 31 then w.columnGo kd nw n span l last
    else if p < len && low ≤ p then
      let r := w.columnGo kd nw n span l (some (g, p))
      ((24 * g + p, i) :: r.1, r.2)
    else ((w.columnGo kd nw n span l last).1, true)

/-- The kept positions of a column in rising K, with the row of each one's weight. -/
def Weights.column (w : Weights) (kd nw n : Nat) : List (Nat × Nat) :=
  if w.sparse = 0 then (List.range kd).map fun k => (k, k)
  else (w.columnGo kd nw n (spanOf kd w.sparse) (List.range kd) none).1

def Weights.badMeta (w : Weights) (kd nw : Nat) : Bool :=
  w.sparse != 0 && (List.range nw).any fun n => (w.columnGo kd nw n (spanOf kd w.sparse) (List.range kd) none).2

/-! ## Nests (R246, R247) -/

def lcnt (act : Tab Word) (l : Nat) : Word := Tab.get 0 act (8 * l)
def levelCount (act : Tab Word) (l : Nat) : Nat := max 1 (bitsAt (lcnt act l) 0 16)
def levelMask (act : Tab Word) (l x : Nat) : Bool := (lcnt act l).getLsbD (16 + x)

/-- Stream x (0 A, 1 W, 2 C, 3 SA, 4 SW) at a nest position. -/
def streamAt (act : Tab Word) (idx : List Nat) (x : Nat) : Word :=
  (List.range 6).foldl (fun a l =>
    if levelMask act l x then a + BitVec.ofNat 64 (idx.getD l 0) * Tab.get 0 act (8 * l + 1 + x) else a) (Tab.get 0 act (0x40 + x))

/-- The next position of the nest; none after the last. -/
def nextIdx (act : Tab Word) : List Nat → Nat → Option (List Nat)
  | [], _ => none
  | i :: l, lev => if i + 1 < levelCount act lev then some ((i + 1) :: l) else (nextIdx act l (lev + 1)).map (0 :: ·)

/-- Did some level that advances W change its index on the way to this position (R257)? -/
def reloads (act : Tab Word) (idx : List Nat) : Bool := (List.range 6).any fun l =>
  levelMask act l 1 && 1 < levelCount act l && (idx.take l).all (· == 0)

def geomRows (act : Tab Word) : Nat := bitsAt (Tab.get 0 act 0x45) 0 9
def geomApitch (act : Tab Word) : Nat := bitsAt (Tab.get 0 act 0x45) 12 20
def geomSpitch (act : Tab Word) : Nat := bitsAt (Tab.get 0 act 0x45) 32 20
def fmtAtag (act : Tab Word) : Fmt := fmtOf ((Tab.get 0 act 0x46).extractLsb' 0 4)
def fmtLatch (act : Tab Word) : Bool := (Tab.get 0 act 0x46).getLsbD 4
def epi (act : Tab Word) : Word := Tab.get 0 act 0x47

/-- The numbers of the nest set and of the sampler set. -/
def nestSet : List Nat := (List.range 0x49).filter fun i => (meRegMask i).isSome
def samplerSet : List Nat := [0x80, 0x81, 0x82, 0x83] ++ (List.range 16).map (0x90 + ·)

/-! ## The scratchpad order of the words of an entry (R118, R252) -/

/-- The addresses that stream x of a nest can reach: from the first to the one after the last, rows of n bytes. -/
def streamHull (act : Tab Word) (x n : Nat) : Int × Int :=
  let d := fun l : Nat => if levelMask act l x then ((levelCount act l - 1 : Nat) : Int) * (Tab.get 0 act (8 * l + 1 + x)).toInt else 0
  let base : Int := (Tab.get 0 act (0x40 + x)).toNat
  ((List.range 6).foldl (fun a l => a + min 0 (d l)) base, (List.range 6).foldl (fun a l => a + max 0 (d l)) (base + n))

def spanFrom (a : Word) (n : Nat) : Int × Int := (a.toNat, a.toNat + n)

/-- What a step word in flight may still read in L: a nest its streams, MSGO its table, norms and operands. -/
def MeJob.reads (j : MeJob) (m : MeState) : List (Int × Int) :=
  let at' := Tab.get 0 j.act
  match j.word with
  | .msgo .. =>
    let k := bitsAt (at' 0x82) 0 16 + 1
    [spanFrom m.tabE (5 * k), spanFrom m.tabA (4 * k), spanFrom m.tabB (4 * k), spanFrom (at' 0x80) (2 * k * (bitsAt (at' 0x82) 16 8 + 1)),
      spanFrom (at' 0x81) (2 * k * (bitsAt (at' 0x82) 24 8 + 1))]
  | _ =>
    let w := Tab.get .empty m.weights j.sub
    match j.idx, arrayShape m.mode w.tag with
    | [], _ => []
    | _, none => []
    | _, some (kd, nw) =>
      let rows := geomRows j.act - 1
      let len := (max (spanOf kd w.sparse) nw * Fmt.width (fmtAtag j.act) + 7) / 8
      (if fmtLatch j.act then [] else [streamHull j.act 0 (rows * geomApitch j.act + len)]) ++
      (if Fmt.isNarrow w.tag then [streamHull j.act 3 (rows * geomSpitch j.act + 4 * (spanOf kd w.sparse / 128 + 2))] else []) ++
      (if (List.range 6).any fun l => levelMask j.act l 1 then [streamHull j.act 1 (weightBytes w.tag kd nw w.sparse)] else [])

/-- What a step word in flight will write in L: its epilogue drain, of at most 256 rows of 1 KiB. -/
def MeJob.writes (j : MeJob) : List (Int × Int) := match j.word with
  | .msgo .. => []
  | _ => if (epi j.act).getLsbD 1 then [spanFrom (Tab.get 0 j.act 0x48) 0x40000] else []

def spansMeet (a b : List (Int × Int)) : Bool := a.any fun p => b.any fun q => p.1 < q.2 && q.1 < p.2

/-- Must a word wait for an earlier step word in flight, because one writes in L what the other reads or writes? -/
def MeJob.holds (j : MeJob) (m : MeState) (reads writes : List (Word × Nat)) : Bool :=
  let r := reads.map fun q => spanFrom q.1 q.2
  let w := writes.map fun q => spanFrom q.1 q.2
  spansMeet (MeJob.writes j) (r ++ w) || spansMeet (MeJob.reads j m) w

/-! ## Operands in L (R252) -/

/-- The L offset of a range that selects L and lies in the scratchpad. -/
def lOffset (a : Word) (n : Nat) : Option Nat :=
  if bitsAt a 56 8 = 0x80 && bitsAt a 20 36 = 0 && bitsAt a 0 20 + n ≤ 0x100000 then some (bitsAt a 0 20) else none

/-- The outcome of opening the ranges of an ME word. -/
inductive MeOpen where
  | go (s : State)
  | wait (s : State)
  | bad (w : Cause)
  deriving DecidableEq, Repr

/-- Check and open the ranges that word number seq reads and writes, in program order with the earlier words of its entry; a poisoned
unit that it reads stops it. -/
def State.meOpen (s : State) (c k : Nat) (x : Ctx) (seq : Nat) (reads writes : List (Word × Nat)) : MeOpen :=
  match (reads ++ writes).find? fun q => (lOffset q.1 q.2).isNone with
  | some q => .bad ⟨OBJFAULT, q.1⟩
  | none =>
    if (s.core c).jobs.any fun j => j.slot == k && j.seq < seq && j.holds x.me reads writes then .wait s
    else match s.openAll c k x .read (reads.flatMap fun q => lineParts q.1 q.2) with
    | .deny code a => .bad ⟨code, a⟩
    | .wait s => .wait s
    | .go s spots =>
      match s.firstMark spots with
      | some a => .bad ⟨POISON, a⟩
      | none =>
        match s.openAll c k x .write (writes.flatMap fun q => lineParts q.1 q.2) with
        | .deny code a => .bad ⟨code, a⟩
        | .wait s => .wait s
        | .go s _ => .go s

/-- Bytes of an opened range. -/
def State.lRead (s : State) (c k : Nat) (a : Word) (n : Nat) : List Byte := s.readAt (.l c k (bitsAt a 0 20)) n
def State.lWrite (s : State) (c k : Nat) (a : Word) (bs : List Byte) : State := s.writeAt (.l c k (bitsAt a 0 20)) bs
def State.lWord (s : State) (c k : Nat) (a : Word) (n : Nat) : Nat := ofBytes (s.lRead c k a n)

/-! ## Tiles (R242, R245) -/

/-- The physical slice of a tile, if the context holds it as one. -/
def Ctx.tile? (x : Ctx) (t : Nat) : Option Nat := if t < x.held && !x.win.getLsbD t then x.phys[t]? else none

def Ctx.tagOf (x : Ctx) (t : Nat) : Fmt := Tab.get .empty x.tileTag t
def tileElem (sl : Slice) (row col : Nat) : Nat := sl.bytes.value (1024 * row + 4 * col) 4

/-- Write consecutive elements of a row. -/
def State.putTile (s : State) (c k t ph row col : Nat) (vals : List Nat) : State :=
  let sl := s.slice c ph
  let off := 1024 * row + 4 * col
  let whole := wholeUnits off (4 * vals.length)
  let s := s.setSlice c ph { sl with
    bytes := sl.bytes.write off (vals.flatMap (bytesOf 4)), pois := sl.pois.filter fun u => !whole.contains u }
  s.updCtx c k fun x => { x with rowDirty := Tab.upd 0 x.rowDirty t fun m => m ||| (1#256 <<< row) }

def State.setTileTag (s : State) (c k t : Nat) (f : Fmt) : State := s.updCtx c k fun x => { x with tileTag := Tab.put x.tileTag t f }

/-- The A-space address of the first poisoned unit of some rows of a tile. -/
def State.tileMark (s : State) (c ph t : Nat) (rows : List Nat) : Option Word :=
  ((s.slice c ph).pois.find? fun u => rows.contains (u / 16)).map fun u => BitVec.ofNat 64 (0x81 * 2 ^ 56 + t * 0x40000 + 64 * u)

/-- Zero a region of a tile. -/
def State.zeroTile (s : State) (c k t ph rows cols : Nat) : State :=
  (List.range rows).foldl (fun s r => s.putTile c k t ph r 0 (List.replicate cols 0)) s

/-! ## Running an ME word (R251) -/

/-- Does a job stream the operand latch? -/
def MeJob.latched (j : MeJob) : Bool := (Tab.get 0 j.act 0x46).getLsbD 4

/-- Does a job own the whole array? -/
def MeJob.whole (j : MeJob) : Bool := match j.word with
  | .msgo .. => true
  | _ => false

/-- What a word needs: a sub-array or all of the array, the latch, a tile. -/
structure Needs where
  array : Bool
  sub : Option Nat
  latch : Bool
  tile : Option Nat
  deriving DecidableEq, Repr

def Needs.nothing : Needs := ⟨false, none, false, none⟩

/-- What a nest needs: its sub-array and tile, and the latch where the FMT that it latches streams it. -/
def Needs.nest (x : Ctx) (t sub : Nat) : Needs := ⟨false, some sub, (Tab.get 0 x.me.shadow 0x46).getLsbD 4, some t⟩

def Needs.clash (w : Needs) (j : MeJob) : Bool :=
  w.array || (match w.sub with | some b => MeJob.whole j || j.sub == b | none => false) || (w.latch && MeJob.latched j) ||
  (match w.tile with | some t => j.tile == t | none => false)

/-- The common course of an ME word: it waits for the step words it conflicts with, then runs its body. -/
def meRunAs (w : Ctx → Needs) (body : Nat → Entry → Ctx → State → State) (s : State) : Out :=
  match s.wordTurn .me with
  | none => .fault .strayTurn
  | some (c, n, x) => if (s.core c).jobs.any (w x).clash then .next s else .next (body c n x s)

/-- A word whose needs its operands tell. -/
def meRun (w : Needs) (body : Nat → Entry → Ctx → State → State) (s : State) : Out := meRunAs (fun _ => w) body s

/-- Report a cause that concerns no address (R252, R455). -/
def State.meFail (s : State) (c : Nat) (n : Entry) (code idx : Nat) : State := s.failEntry c .me ⟨code, engineForm .me n idx n.pos⟩

/-- Go on with opened ranges: what waits runs again, what fails is reported. -/
def State.meWith (s : State) (c : Nat) (n : Entry) (x : Ctx) (reads writes : List (Word × Nat)) (f : State → State) : State :=
  match s.meOpen c n.slot x n.seq reads writes with
  | .bad w => s.failEntry c .me w
  | .wait s => s
  | .go s => (f s).wordDone c .me

def State.updMe (s : State) (c k : Nat) (f : MeState → MeState) : State := s.updCtx c k fun x => { x with me := f x.me }

/-! ## Weights (R255, R256) -/

/-- The weight state that a load leaves. -/
def State.loadWeights (s : State) (c k sub : Nat) (w : Weights) (kd nw : Nat) : State :=
  s.updMe c k fun m => { m with weights := Tab.put m.weights sub w, badmeta := m.badmeta || w.badMeta kd nw }

def loadBodyMe (transposed : Bool) (sub : Nat) (tag : Fmt) (a : Reg) (c : Nat) (n : Entry) (x : Ctx) (s : State) : State :=
  let m := x.me
  if subCount m.mode ≤ sub then s.meFail c n ILLOP 0
  else match arrayShape m.mode tag with
    | none => s.meFail c n FMTTAG 0
    | some (kd, nw) =>
      if m.sparse ≠ 0 && (tag = .bf16 || transposed) then s.meFail c n ILLOP 0
      else
        let len := weightBytes tag kd nw m.sparse
        s.meWith c n x [(n.reg a, len)] [] fun s =>
          s.loadWeights c n.slot sub ⟨tag, m.sparse, transposed, s.lRead c n.slot (n.reg a) len⟩ kd nw

def execMldw (sub : BitVec 2) (tag : Fmt) (a : Reg) (s : State) : Out :=
  meRun { Needs.nothing with sub := some sub.toNat } (loadBodyMe false sub.toNat tag a) s
def execMldwt (sub : BitVec 2) (tag : Fmt) (a : Reg) (s : State) : Out :=
  meRun { Needs.nothing with sub := some sub.toNat } (loadBodyMe true sub.toNat tag a) s

def execMsp (nn : BitVec 4) (s : State) : Out :=
  meRun { Needs.nothing with array := true } (fun c n _ s => (s.updMe c n.slot fun m => { m with sparse := nn.toNat }).wordDone c .me) s

def execMmode (mode : MMode) (s : State) : Out :=
  meRun { Needs.nothing with array := true } (fun c n _ s =>
    (s.updMe c n.slot fun m => { m with mode := mode, weights := [] }).wordDone c .me) s

/-- MGATH (R259). -/
def execMgath (a b : Reg) (size : BitVec 2) (nm1 : BitVec 8) (s : State) : Out :=
  meRun { Needs.nothing with latch := true } (fun c n x s =>
    let rows := nm1.toNat + 1
    let len := 256 + 128 * size.toNat
    match s.meOpen c n.slot x n.seq [(n.reg a, 4 * rows)] [] with
    | .bad w => s.failEntry c .me w
    | .wait s => s
    | .go s =>
      let at' := fun i => n.reg b + BitVec.ofNat 64 (s.lWord c n.slot (n.reg a + BitVec.ofNat 64 (4 * i)) 4)
      s.meWith c n x ((List.range rows).map fun i => (at' i, len)) [] fun s =>
        s.updMe c n.slot fun m => { m with latch := (List.range rows).foldl (fun t i =>
          let old := Tab.get (List.replicate 512 0) t i
          Tab.put t i (s.lRead c n.slot (at' i) len ++ old.drop len)) m.latch }) s

/-! ## Starting nests (R246 to R248, R257, R258) -/

def latchSet (l : List Nat) (m : MeState) : Tab Word := l.foldl (fun t i => Tab.put t i (Tab.get 0 m.shadow i)) m.active

/-- MPOS0 and MPOS1 of a position. -/
def mposWords (idx : List Nat) (steps : Nat) : Word × Word :=
  let f := fun i => idx.getD i 0 % 65536
  (BitVec.ofNat 64 (f 0 + f 1 * 2 ^ 16 + f 2 * 2 ^ 32 + f 3 * 2 ^ 48), BitVec.ofNat 64 (f 4 + f 5 * 2 ^ 16 + steps % 2 ^ 32 * 2 ^ 32))

/-- A step word starts: it is in flight, and the entry goes on with the next word (R251). -/
def State.startJob (s : State) (c : Nat) (n : Entry) (x : Ctx) (word : Instr) (tile sub : Nat) (act : Tab Word) (idx : List Nat) (steps : Nat) : State :=
  let (id, s) := s.fresh
  let s := s.updCore c fun r => { r with jobs := r.jobs ++ [⟨id, n.slot, word, n.pos, n.seq, n.kern, tile, sub, act, idx, steps⟩] }
  s.advance c .me n x

/-- Start MGO or MGOB (R257, R258). -/
def goBody (back : Bool) (word : Instr) (t sub : Nat) (c : Nat) (n : Entry) (x : Ctx) (s : State) : State :=
  let m := x.me
  let act := latchSet nestSet m
  let w := Tab.get .empty m.weights sub
  if subCount m.mode ≤ sub then s.meFail c n ILLOP 0
  else match x.tile? t, arrayShape m.mode w.tag with
    | none, _ => s.meFail c n OBJFAULT 0
    | _, none => s.meFail c n FMTTAG 0
    | some ph, some (kd, nw) =>
      match pairing (fmtAtag act) w.tag with
      | none => s.meFail c n FMTTAG 0
      | some acc =>
        if back && 256 < kd then s.meFail c n FMTTAG 0
        else if back && w.sparse ≠ 0 then s.meFail c n ILLOP 0
        else if geomRows act = 0 || 256 < geomRows act then s.meFail c n OBJFAULT 0
        else
          let s := s.updMe c n.slot fun m => { m with active := act, mpos0 := 0, mpos1 := 0 }
          let s := if (epi act).getLsbD 0 then (s.zeroTile c n.slot t ph 256 nw).setTileTag c n.slot t acc else s
          s.startJob c n x word t sub act (List.replicate 6 0) 0

def execMgo (t : BitVec 4) (sub : BitVec 2) (s : State) : Out :=
  meRunAs (fun x => Needs.nest x t.toNat sub.toNat) (goBody false (.mgo t sub) t.toNat sub.toNat) s
def execMgob (t : BitVec 4) (sub : BitVec 2) (s : State) : Out :=
  meRunAs (fun x => Needs.nest x t.toNat sub.toNat) (goBody true (.mgob t sub) t.toNat sub.toNat) s

/-! ## One step (R95 to R98, R257, R258) -/

/-- The events of one block step: INV, OVF and UNF once if some rounding raises them, SKIPNF by position (R93). -/
def Ev.blockStep (l : List Ev) : Ev :=
  let e := Ev.sum l
  ⟨0, 0, one (e.ovf != 0), one (e.unf != 0), one (e.inv != 0), e.skip⟩

/-- One block into one accumulator element. scales: the activation and weight scales of a narrow-float pairing. -/
def blockInto (acc : Fmt) (fa fw : Fmt) (ps : List (Nat × Nat)) (scales : Option (Nat × Nat)) (skip : Nat) (old : Nat) : Nat × Ev :=
  if acc = .i32 then
    let sum : Int := ps.foldl (fun t p => t + decodeInt fa p.1 * decodeInt fw p.2) 0
    let r := clampInt .i32 false (decodeInt .i32 old + sum)
    (r.1, Ev.blockStep [r.2])
  else
    let b := blockSum (ps.map fun p => (decodeVal fa p.1, decodeVal fw p.2))
    let sc := match scales with
      | none => [b]
      | some (x, y) =>
        let u := fp32Rne (vMul (decodeVal .fp32 b.1) (decodeVal .fp32 x))
        let v := fp32Rne (vMul (decodeVal .fp32 u.1) (decodeVal .fp32 y))
        [b, u, v]
    let v := (sc.getLastD b).1
    let r := fp32Rne (vAdd false (decodeVal .fp32 old) (decodeVal .fp32 v))
    (r.1, Ev.blockStep ({ Ev.zero with skip := skip } :: r.2 :: sc.map Prod.snd))

/-- The blocks of a column of a forward step: kept positions by block, with the pruned positions that meet a non-finite activation. -/
def forwardBlock (fa : Fmt) (w : Weights) (kd nw n b : Nat) (row : Nat → Nat) : List (Nat × Nat) × Nat :=
  let kept := (w.column kd nw n).filter fun p => p.1 / 128 == b
  let skip := if w.sparse = 0 then 0 else
    ((List.range 128).filter fun i => !(kept.any fun p => p.1 == 128 * b + i) && !isFiniteBits fa (row (128 * b + i))).length
  (kept.map fun p => (row p.1, w.elem kd nw p.2 n), skip)

/-- The blocks of column k of a backward step. -/
def backwardBlock (w : Weights) (kd nw k b : Nat) (row : Nat → Nat) : List (Nat × Nat) :=
  ((List.range 128).map (128 * b + ·)).filterMap fun n => if n < nw then some (row n, w.elem kd nw k n) else none

/-- What a step computes for one streamed row: the elements of the tile row's columns, and the events. -/
def stepRow (back : Bool) (acc fa : Fmt) (w : Weights) (kd nw : Nat) (row : Nat → Nat) (scale : Nat → Nat) (old : Nat → Nat) : List Nat × Ev :=
  let narrow := Fmt.isNarrow fa
  let blocks := if back then (nw + 127) / 128 else spanOf kd w.sparse / 128
  let col := fun n => (List.range blocks).foldl (fun (a : Nat × Ev) b =>
    let p := if back then (backwardBlock w kd nw n b row, 0) else forwardBlock fa w kd nw n b row
    let sc := if narrow then some (scale b, if back then w.scale kd nw (n / 128) b else w.scale kd nw b (n / 128)) else none
    let r := blockInto acc fa w.tag p.1 sc p.2 a.1
    (r.1, a.2.add r.2)) (old n, Ev.zero)
  (List.range (if back then kd else nw)).foldl (fun (a : List Nat × Ev) n => let r := col n; (a.1 ++ [r.1], a.2.add r.2)) ([], Ev.zero)

/-- Elements of a streamed row from its bytes. -/
def rowElem (f : Fmt) (bs : List Byte) (i : Nat) : Nat := bitsOf bs (i * Fmt.width f) (Fmt.width f)

/-- The entry a job belongs to. -/
def State.jobEntry (s : State) (c : Nat) (j : MeJob) : Option Entry := (s.core c).me.find? fun n => n.slot == j.slot && n.started

/-- A job fails: the word has no further effect, and later words of the entry in flight go with it (R252). -/
def State.jobFail (s : State) (c : Nat) (j : MeJob) (w : Cause) : State :=
  match s.jobEntry c j with
  | none => s
  | some n =>
    let s := s.setEntry c .me n { n with failed := some w, busy := false }
    s.updCore c fun r => { r with jobs := r.jobs.filter fun i => i.seq < j.seq }

def State.jobCause (s : State) (c : Nat) (j : MeJob) (code idx : Nat) : Cause :=
  match s.jobEntry c j with
  | some n => ⟨code, engineForm .me n idx j.pos⟩
  | none => ⟨code, 0⟩

/-- A step word completes: its token is satisfied (R123, R251). -/
def State.jobDone (s : State) (c : Nat) (j : MeJob) : State :=
  (s.updCore c fun r => { r with jobs := r.jobs.filter fun i => i.id != j.id }).settleEntry c .me j.slot

def State.updJob (s : State) (c : Nat) (j m : MeJob) : State := s.updCore c fun r => { r with jobs := r.jobs.map fun i => if i == j then m else i }

/-! ## Draining (R262 to R265) -/

/-- A region of a tile with its destination pitch. -/
structure Region4 where
  rows : Nat
  cols : Nat
  row0 : Nat
  col0 : Nat
  pitch : Nat
  deriving DecidableEq, Repr

def regionOfReg (b : Word) : Region4 := ⟨bitsAt b 0 8 + 1, bitsAt b 8 8 + 1, bitsAt b 16 8, bitsAt b 24 8, bitsAt b 32 20⟩
def Region4.fits (g : Region4) : Bool := g.row0 + g.rows ≤ 256 && g.col0 + g.cols ≤ 256

/-- Formats that a tile drains to. -/
def drainsTo (tile f : Fmt) : Bool :=
  match tile with
  | .fp32 => Fmt.isFloat f
  | .i32 => f == .i32 || f == .i16 || f == .i8 || f == .n8 || f == .fp32
  | _ => false

/-- One drained element. n: the sample count to divide by, 0 for none. -/
def drainElem (tile f : Fmt) (sat : Bool) (n : Nat) (bits : Nat) : Nat × Ev :=
  let m : Rnd := ⟨sat, .rne⟩
  if n = 0 then convert tile f m 0 bits else deliverAny f m 0 (vDiv (decodeVal tile bits) (.fin (Ex.ofInt n)))

/-- Bytes of a drained row. -/
def drainRowBytes (f : Fmt) (cols : Nat) : Nat :=
  if Fmt.width f = 6 then (cols + 3) / 4 * 3 else (cols * Fmt.width f + 7) / 8

def packRow (f : Fmt) (vals : List Nat) : List Byte :=
  let v := (vals.mapIdx fun i v => v * 2 ^ (i * Fmt.width f)).foldl (· + ·) 0
  bytesOf (drainRowBytes f vals.length) v

/-- Drain a region: the rows' bytes and the events. -/
def drainRows (sl : Slice) (tile f : Fmt) (sat : Bool) (n : Nat) (g : Region4) : List (List Byte) × Ev :=
  (List.range g.rows).foldl (fun (a : List (List Byte) × Ev) r =>
    let e := (List.range g.cols).map fun i => drainElem tile f sat n (tileElem sl (g.row0 + r) (g.col0 + i))
    (a.1 ++ [packRow f (e.map Prod.fst)], a.2.add (Ev.sum (e.map Prod.snd)))) ([], Ev.zero)

/-- The outcome of a drain into L. -/
inductive Drained where
  | done (s : State)
  | wait (s : State)
  | bad (w : Cause)
  deriving DecidableEq, Repr

/-- MDRAIN's effect (R262): shared with the epilogue of a nest. form: the cause of a check that concerns no address. -/
def State.drain (s : State) (c k : Nat) (x : Ctx) (t : Nat) (dst : Word) (g : Region4) (f : Fmt) (sn sat : Bool) (kern seq : Nat)
    (form : Nat → Cause) : Drained :=
  match x.tile? t with
  | none => .bad (form OBJFAULT)
  | some ph =>
    let tag := x.tagOf t
    if !g.fits then .bad (form OBJFAULT)
    else if !drainsTo tag f || (sn && tag != .fp32) then .bad (form FMTTAG)
    else match s.tileMark c ph t ((List.range g.rows).map (g.row0 + ·)) with
      | some a => .bad ⟨POISON, a⟩
      | none =>
        let at' := fun r => dst + BitVec.ofNat 64 (r * g.pitch)
        match s.meOpen c k x seq [] ((List.range g.rows).map fun r => (at' r, drainRowBytes f g.cols)) with
        | .bad w => .bad w
        | .wait s => .wait s
        | .go s =>
          let d := drainRows (s.slice c ph) tag f sat (if sn then x.me.mscnt.toNat else 0) g
          let s := (d.1.mapIdx fun r bs => (r, bs)).foldl (fun s (r, bs) => s.lWrite c k (at' r) bs) s
          .done (s.countEv x.part kern x.recomp f d.2)

def execMdrain (t : BitVec 4) (a b : Reg) (sn sat : Bool) (tag : Fmt) (s : State) : Out :=
  meRun { Needs.nothing with tile := some t.toNat } (fun c n x s =>
    match s.drain c n.slot x t.toNat (n.reg a) (regionOfReg (n.reg b)) tag sn sat n.kern n.seq (fun code => ⟨code, engineForm .me n 0 n.pos⟩) with
    | .bad w => s.failEntry c .me w
    | .wait s => s
    | .done s => s.wordDone c .me) s

/-- Open every place of a list for atomic use at windows: places on this device and devices of remote ones. -/
def State.windowSpots (s : State) (c k : Nat) (x : Ctx) : List (Word × Nat) → Except Cause (State × List Spot)
  | [] => .ok (s, [])
  | (a, n) :: l =>
    match s.openAt c k x a n .atomic with
    | .deny code => .error ⟨code, a⟩
    | .wait _ => .error ⟨OBJFAULT, a⟩
    | .go s t =>
      match t with
      | .win .. | .remote _ =>
        match s.windowSpots c k x l with
        | .ok (s, r) => .ok (s, ⟨t, n, a⟩ :: r)
        | .error w => .error w
      | _ => .error ⟨OBJFAULT, a⟩

/-! ## Rows that go to windows (R129, R263, R264) -/

/-- The requests of one row: its elements on another device in runs of addresses, a step apart. -/
structure RowRun where
  dev : Nat
  addr : Word
  vals : List Nat
  deriving DecidableEq, Repr

/-- Take one more element into the runs of a row. -/
def RowRun.take (step : Nat) (l : List RowRun) (q : Spot × Nat) : List RowRun :=
  match q.1.remote, l.getLast? with
  | none, _ => l
  | some dev, some r =>
    if r.dev = dev && r.addr + BitVec.ofNat 64 (step * r.vals.length) == q.1.a then l.dropLast ++ [{ r with vals := r.vals ++ [q.2] }]
    else l ++ [⟨dev, q.1.a, [q.2]⟩]
  | some dev, none => [⟨dev, q.1.a, [q.2]⟩]

def rowRuns (step : Nat) (cells : List (Spot × Nat)) : List RowRun := cells.foldl (RowRun.take step) []

/-- The device and page of all remote elements of a drain, where there is one (R118). -/
def rowsPlace (rows : List (List (Spot × Nat))) : Option (Nat × Nat) :=
  match rows.flatten with
  | [] => none
  | (q, _) :: l => if l.all fun r => placeOf r.1.t r.1.a == placeOf q.t q.a then placeOf q.t q.a else none

/-- Requests of a drain join the tile operation that it has outstanding, and open it where there is none (R263, R430). -/
def State.noteRows (s : State) (c k cls kern : Nat) (place : Option (Nat × Nat)) (reqs : List (Nat × Nat)) : State :=
  match (s.core c).current .me with
  | none => s
  | some n =>
    if n.osc.isEmpty then
      let (id, s) := s.fresh
      (s.updCtx c k fun x => { x with tiles := x.tiles ++ [⟨id, false, reqs, some cls, place, kern, true⟩] }).updCore c fun r =>
        r.updCurrent .me fun m => { m with osc := [id] }
    else s.updCtx c k fun x => { x with tiles := x.tiles.map fun o => if n.osc.contains o.id then { o with devs := o.devs ++ reqs } else o }

/-- The last row of a drain has been sent, or one is refused: its operation waits for the answers alone. -/
def State.closeRows (s : State) (c k : Nat) : State :=
  match (s.core c).current .me with
  | none => s
  | some n =>
    (s.updCtx c k fun x => { x with tiles := retire (x.tiles.map fun o =>
      if n.osc.contains o.id then { o with sending := false, done := o.devs.isEmpty } else o) }).updCore c fun r =>
        r.updCurrent .me fun m => { m with row := 0, osc := [], asks := [], got := [] }

/-- What a drain does with a row. `near`: its effect at this device's windows, none where a check refuses the row; `oparg` and `head`: how
its requests name it; `held`: the checks of another device's ports are awaited before the row takes effect here (R68). -/
structure RowPlan where
  step : Nat
  oparg : Nat
  head : List Byte
  held : Bool
  cls : Nat
  near : State → List (Spot × Nat) → Option State

/-- The cells of a row in this device go as one request to each other die that holds some of them. -/
def State.crossedRow (s : State) (c : Nat) (cells : List (Spot × Nat)) : State :=
  [0, 1, 2, 3].foldl (fun s d => match cells.find? fun q => q.1.t.die == some d with
    | some q => s.crossed c q.1.t
    | none => s) s

/-- Send the rows that are left, in increasing order; a row that must wait keeps the place reached (R263, R264). -/
def State.runRows (s : State) (c : Nat) (x : Ctx) (w : RowPlan) (place : Option (Nat × Nat)) : List (List (Spot × Nat)) → State
  | [] => match (s.core c).current .me with
    | none => s
    | some n => (s.closeRows c n.slot).wordDone c .me
  | cells :: rest =>
    match (s.core c).current .me with
    | none => s
    | some n =>
      let runs := rowRuns w.step cells
      let next := fun (s : State) =>
        (s.updCore c fun r => r.updCurrent .me fun m => { m with row := m.row + 1, asks := [], got := [] }).runRows c x w place rest
      let refuse := (s.closeRows c n.slot).meFail c n DETTRAP n.row
      let fail := fun (a : Word) => (s.closeRows c n.slot).failEntry c .me ⟨OBJFAULT, a⟩
      let send := fun (u : State) (sent : State → List Ask → State) =>
        if !s.requestRoom c runs.length then s
        else match u.sendList x.part 6 (runs.map fun r => (r.dev, r.addr, w.oparg, w.head ++ r.vals.flatMap (bytesOf 4))) with
          | .refused => fail ((runs.head?.map RowRun.addr).getD 0)
          | .wait t => { s with inbox := t.inbox }
          | .sent s ids =>
            let reqs := (runs.zip ids).map fun (r, id) => (⟨r.dev, r.addr, r.vals.length, id⟩ : Ask)
            sent (s.noteRows c n.slot w.cls n.kern place (reqs.map fun q => (q.dev, q.id))) reqs
      match w.near (s.crossedRow c cells) cells with
      | none => refuse
      | some t =>
        if runs.isEmpty then next t
        else if !w.held then send t fun s _ => next s
        else if !n.asks.isEmpty then s
        else if n.got.isEmpty then send s fun s reqs => s.updCore c fun r => r.updCurrent .me fun m => { m with asks := reqs }
        else if n.got.any fun q => q.2 == [5] then refuse
        else next t

/-- The new value of a window word under MDRAINA (R263). -/
def drainAdd (clamp : Bool) (lo hi w v : Nat) : Nat × Ev :=
  let r := fp32Rne (vAdd false (decodeVal .fp32 w) (decodeVal .fp32 v))
  if !clamp then r
  else
    let m := fp32Rne (vMax (decodeVal .fp32 r.1) (decodeVal .fp32 lo))
    let q := fp32Rne (vMin (decodeVal .fp32 m.1) (decodeVal .fp32 hi))
    (q.1, Ev.once (Ev.ofBits .fp32 q.1) (r.2.add (m.2.add q.2)))

/-- The checks that MDRAINA and MDRAINX share: the tile, the region, the tile's tag and its poison marks. -/
def State.drainSource (s : State) (c : Nat) (n : Entry) (x : Ctx) (t : Nat) (g : Region4) : Except Cause Slice :=
  let form := fun code => (⟨code, engineForm .me n 0 n.pos⟩ : Cause)
  match x.tile? t with
  | none => .error (form OBJFAULT)
  | some ph =>
    if !g.fits then .error (form OBJFAULT)
    else if x.tagOf t ≠ .fp32 then .error (form FMTTAG)
    else match s.tileMark c ph t ((List.range g.rows).map (g.row0 + ·)) with
      | some a => .error ⟨POISON, a⟩
      | none => .ok (s.slice c ph)

/-- The common course of MDRAINA and MDRAINX once their operands are good: the places of the rows that are left, their marks, the order of
their class, and the rows (R118, R263, R264). -/
def State.drainRowsTo (s : State) (c : Nat) (n : Entry) (x : Ctx) (sl : Slice) (g : Region4) (a : Word) (w : RowPlan) : State :=
  if n.row = 0 && n.osc.isEmpty && 4095 ≤ x.tiles.length then s
  else
    let left := (List.range g.rows).drop n.row
    let at' := fun (p : Nat × Nat) => a + BitVec.ofNat 64 (p.1 * g.pitch + w.step * p.2)
    let elems := left.flatMap fun r => (List.range g.cols).map fun i => (r, i)
    match s.windowSpots c n.slot x (elems.map fun p => (at' p, w.step)) with
    | .error e => (s.closeRows c n.slot).failEntry c .me e
    | .ok (s, spots) =>
      match s.firstMark spots with
      | some p => (s.closeRows c n.slot).failEntry c .me ⟨POISON, p⟩
      | none =>
        let cells := (spots.zip elems).map fun (q, p) => (p.1, q, tileElem sl (g.row0 + p.1) (g.col0 + p.2))
        let rows := left.map fun r => (cells.filter fun q => q.1 == r).map Prod.snd
        let place := rowsPlace rows
        if n.row = 0 && n.osc.isEmpty && !x.tiles.all (Osc.lets w.cls place) then s else s.runRows c x w place rows

/-- MDRAINA (R263). The spec asks no alignment of a word of the window: the four bytes at its address are the word, aligned or not (DESIGN CHOICE,
log 65). -/
def execMdraina (t : BitVec 4) (a b e0 : Reg) (clamp : Bool) (oc : OClass) (s : State) : Out :=
  meRun { Needs.nothing with tile := some t.toNat } (fun c n x s =>
    let g := regionOfReg (n.reg b)
    let lim := n.reg e0
    match s.drainSource c n x t.toNat g with
    | .error w => s.failEntry c .me w
    | .ok sl =>
      if x.det then s.meFail c n DETTRAP t.toNat
      else s.drainRowsTo c n x sl g (n.reg a) {
        step := 4, oparg := one clamp, head := detBytes none false false ++ bytesOf 8 lim.toNat, held := false, cls := oc.toNat
        near := fun s cells => some (cells.foldl (fun s (q, v) =>
          if q.remote.isSome then s
          else
            let r := drainAdd clamp (bitsAt lim 0 32) (bitsAt lim 32 32) (ofBytes (s.readAt q.t 4)) v
            (s.writeAt q.t (bytesOf 4 r.1)).countEv x.part n.kern x.recomp .fp32 r.2) s) }) s

/-- One row of XAs: every one is checked before any changes (R68, R264). -/
def State.rowAllowed (s : State) (key : Option (Nat × Nat)) (l : List (Spot × Nat)) : Bool :=
  match key with
  | none => true
  | some key => l.all fun (q, _) => match q.t with
    | .win core slice off => !((s.slice core slice).keyed off key).traps true
    | _ => true

/-- Add a row of XAs at this device's windows; none where one of them is refused. -/
def State.addRow (s : State) (key : Option (Nat × Nat)) (l : List (Spot × Nat)) : Option State :=
  if s.rowAllowed key l then
    some (l.foldl (fun s (q, v) => match q.t with
      | .win core slice off =>
        let s := (s.detCheck key core slice off true).getD s
        (s.port core slice off .xadd (BitVec.ofNat 64 v) 0).1
      | _ => s) s)
  else none

def execMdrainx (t : BitVec 4) (a b : Reg) (oc : OClass) (s : State) : Out :=
  meRun { Needs.nothing with tile := some t.toNat } (fun c n x s =>
    let g := regionOfReg (n.reg b)
    match s.drainSource c n x t.toNat g with
    | .error w => s.failEntry c .me w
    | .ok sl =>
      if (n.reg a).toNat % 64 ≠ 0 then s.failEntry c .me ⟨MISALIGN, n.reg a⟩
      else if g.pitch % 64 ≠ 0 then s.failEntry c .me ⟨MISALIGN, n.reg a + BitVec.ofNat 64 g.pitch⟩
      else s.drainRowsTo c n x sl g (n.reg a) {
        step := 64, oparg := 2, head := detBytes x.detKey true false ++ bytesOf 8 0, held := x.detKey.isSome, cls := oc.toNat
        near := fun s cells => s.addRow x.detKey cells }) s

/-- Is the context in the handler that ACCBUSY entered (R265)? -/
def Ctx.inAccBusy (x : Ctx) : Bool := x.inh && x.trapc.toNat % 65536 == 7 && x.trapc.getLsbD 30

def execMrda (t : BitVec 4) (a b : Reg) (s : State) : Out :=
  meRun Needs.nothing (fun c n x s =>
    match x.tile? t.toNat with
    | none => s.meFail c n OBJFAULT 0
    | some ph =>
      let owner := (s.core c).jobs.find? fun j => j.slot == n.slot && j.tile == t.toNat
      let busy := owner.isSome && x.me.mode != .full
      if x.inAccBusy then s
      else match owner, busy with
        | some j, true => s.failEntry c .me ⟨7, BitVec.ofNat 64 (t.toNat * 2 ^ 32 + j.seq % 2 ^ 32)⟩
        | _, _ =>
          match s.tileMark c ph t.toNat (List.range 256) with
          | some p => s.failEntry c .me ⟨POISON, p⟩
          | none =>
            let count := match owner with
              | some j => j.steps
              | none => 2 ^ 64 - 1
            s.meWith c n x [] [(n.reg a, 0x40000), (n.reg b, 8)] fun s =>
              (s.lWrite c n.slot (n.reg a) ((s.slice c ph).bytes.read 0 0x40000)).lWrite c n.slot (n.reg b) (bytesOf 8 count)) s

def execMzero (t : BitVec 4) (i32 : Bool) (s : State) : Out :=
  meRun { Needs.nothing with tile := some t.toNat } (fun c n x s =>
    match x.tile? t.toNat with
    | none => s.meFail c n OBJFAULT 0
    | some ph =>
      let s := s.setSlice c ph { s.slice c ph with bytes := [], pois := [] }
      let s := s.updCtx c n.slot fun x => { x with rowDirty := Tab.put x.rowDirty t.toNat (BitVec.allOnes 256) }
      (s.setTileTag c n.slot t.toNat (if i32 then .i32 else .fp32)).wordDone c .me) s

/-! ## Status (R266, R274) -/

def execMvar (a : Reg) (s : State) : Out :=
  meRun Needs.nothing (fun c n x s =>
    s.meWith c n x [] [(n.reg a, 136)] fun s =>
      let m := x.me
      let en := fun p => (Tab.get 0 m.active (0x90 + p)).getLsbD 31
      let one' := fun p => if en p then bytesOf 4 (Tab.get 0 m.mean p).toNat ++ bytesOf 4 (Tab.get 0 m.m2 p).toNat else List.replicate 8 0
      s.lWrite c n.slot (n.reg a) ((List.range 16).flatMap one' ++ bytesOf 4 m.mscnt.toNat ++ bytesOf 4 m.mvar.toNat)) s

/-- The 64 bytes of MSTAT (R266). -/
def statBytes (m : MeState) (jobs : List MeJob) : List Byte :=
  let owned := (List.range 16).foldl (fun a t => if jobs.any fun j => j.tile == t then a + 2 ^ t else a) 0
  let tags := (List.range 4).foldl (fun a i => a + (Tab.get Weights.empty m.weights i).tag.code.toNat * 16 ^ i) 0
  bytesOf 8 (m.flags % 65536) ++ bytesOf 8 m.mpos0.toNat ++ bytesOf 8 m.mpos1.toNat ++ bytesOf 8 (m.sctr.toNat + owned * 2 ^ 32) ++
  bytesOf 8 (m.mqsum.toNat + tags * 2 ^ 32) ++ List.replicate 24 0

def execMstat (a : Reg) (s : State) : Out :=
  meRun Needs.nothing (fun c n x s =>
    s.meWith c n x [] [(n.reg a, 64)] fun s =>
      s.lWrite c n.slot (n.reg a) (statBytes x.me ((s.core c).jobs.filter fun j => j.slot == n.slot))) s

/-! ## A step of a nest completes (R257, R258, R275) -/

/-- The ranges that a step streams: rows and activation scales. -/
def stepReads (act : Tab Word) (idx : List Nat) (back narrow : Bool) (span nw : Nat) : List (Word × Nat) :=
  let rows := List.range (geomRows act)
  let len := ((if back then nw else span) * Fmt.width (fmtAtag act) + 7) / 8
  let blocks := if back then (nw + 127) / 128 else span / 128
  (if fmtLatch act then [] else rows.map fun q => (streamAt act idx 0 + BitVec.ofNat 64 (q * geomApitch act), len)) ++
  (if narrow then rows.map fun q => (streamAt act idx 3 + BitVec.ofNat 64 (q * geomSpitch act), 4 * blocks) else [])

/-- The position after a step, with MPOS: of two step words in flight it shows the one that stepped last, and after the last step the
position of that step (R246; DESIGN CHOICE, log 63). -/
def State.afterStep (s : State) (c : Nat) (j : MeJob) : State :=
  let next := nextIdx j.act j.idx 0
  let m := mposWords (next.getD j.idx) (j.steps + 1)
  let s := s.updMe c j.slot fun y => { y with mpos0 := m.1, mpos1 := m.2 }
  let done := next.isNone && !(epi j.act).getLsbD 1
  if done then s.jobDone c j else s.updJob c j { j with idx := next.getD [], steps := j.steps + 1 }

/-- One step's updates of the tile. Elements of a span beyond the 512 bytes of a latch row read 0 (R257; DESIGN CHOICE, log 64). -/
def State.stepTile (s : State) (c : Nat) (j : MeJob) (x : Ctx) (back : Bool) (acc : Fmt) (w : Weights) (kd nw ph row0 : Nat) : State :=
  let act := j.act
  let fa := fmtAtag act
  let len := ((if back then nw else spanOf kd w.sparse) * Fmt.width fa + 7) / 8
  let a0 := streamAt act j.idx 0
  let sa := streamAt act j.idx 3
  (List.range (geomRows act)).foldl (fun s q =>
    let bs := if fmtLatch act then Tab.get (List.replicate 512 0) x.me.latch q else s.lRead c j.slot (a0 + BitVec.ofNat 64 (q * geomApitch act)) len
    let scale := fun b => s.lWord c j.slot (sa + BitVec.ofNat 64 (q * geomSpitch act + 4 * b)) 4
    let sl := s.slice c ph
    let r := stepRow back acc fa w kd nw (rowElem fa bs) scale fun n => if x.tagOf j.tile = .empty then 0 else tileElem sl (row0 + q) n
    (s.putTile c j.slot j.tile ph (row0 + q) 0 r.1).countEv x.part j.kern x.recomp acc r.2) s

/-- The tile row index of a step, if its rows lie in the tile. -/
def stepRow0 (act : Tab Word) (idx : List Nat) : Option Nat :=
  let r := (streamAt act idx 2).toNat
  if r + geomRows act ≤ 256 then some r else none

/-- The weights of a step: reloaded from W where the nest says so. -/
def State.stepWeights (s : State) (c : Nat) (j : MeJob) (w : Weights) (kd nw : Nat) : State × Weights :=
  if j.steps ≠ 0 && reloads j.act j.idx then
    let v := { w with bytes := s.lRead c j.slot (streamAt j.act j.idx 1) (weightBytes w.tag kd nw w.sparse) }
    (s.loadWeights c j.slot j.sub v kd nw, v)
  else (s, w)

/-- A step of MGO or MGOB. -/
def State.runStep (s : State) (c : Nat) (j : MeJob) (x : Ctx) (back : Bool) : State :=
  let w := Tab.get .empty x.me.weights j.sub
  let act := j.act
  match x.tile? j.tile, arrayShape x.me.mode w.tag, pairing (fmtAtag act) w.tag with
  | some ph, some (kd, nw), some acc =>
    if j.idx.isEmpty then
      let g : Region4 := ⟨256, nw, 0, 0, drainRowBytes (fmtOf ((epi act).extractLsb' 2 4)) nw⟩
      match s.drain c j.slot x j.tile (Tab.get 0 act 0x48) g (fmtOf ((epi act).extractLsb' 2 4)) false ((epi act).getLsbD 6) j.kern j.seq
          (fun code => s.jobCause c j code 0) with
      | .bad f => s.jobFail c j f
      | .wait s => s
      | .done s => s.jobDone c j
    else
      let span := spanOf kd w.sparse
      let reload := if j.steps ≠ 0 && reloads act j.idx then [(streamAt act j.idx 1, weightBytes w.tag kd nw w.sparse)] else []
      match s.meOpen c j.slot x j.seq (reload ++ stepReads act j.idx back (Fmt.isNarrow w.tag) span nw) [] with
      | .bad f => s.jobFail c j f
      | .wait s => s
      | .go s =>
        match stepRow0 act j.idx with
        | none => s.jobFail c j (s.jobCause c j OBJFAULT 0)
        | some row0 =>
          if x.tagOf j.tile ≠ .empty && x.tagOf j.tile ≠ acc then s.jobFail c j (s.jobCause c j FMTTAG 0)
          else match s.tileMark c ph j.tile ((List.range (geomRows act)).map (row0 + ·)) with
            | some p => s.jobFail c j ⟨POISON, p⟩
            | none =>
              let r := s.stepWeights c j w kd nw
              let s := (r.1.stepTile c j x back acc r.2 kd nw ph row0).setTileTag c j.slot j.tile acc
              s.afterStep c j
  | none, _, _ => s.jobFail c j (s.jobCause c j OBJFAULT 0)
  | _, _, _ => s.jobFail c j (s.jobCause c j FMTTAG 0)

/-- A step of a nest ends: its updates become visible together (R245, R257). -/
def execMeStepComplete (core job : Nat) (s : State) : Out :=
  match (s.core core).jobs.find? fun j => j.id == job with
  | none => .next s
  | some j =>
    match s.ctx? core j.slot with
    | none => .next s
    | some x =>
      match j.word with
      | .mgo .. => .next (s.runStep core j x false)
      | .mgob .. => .next (s.runStep core j x true)
      | _ => .next s

end Sys2Proof.Machine
end

