-- ==== Sys2Proof/Machine/Sampler.lean ====
section
/-! DEFINITION. The sampled product: MSAMP, MNORM, MALIAS, MSGO and its batches (R267 to R273). -/

namespace Sys2Proof.Machine

def dimK (m : MeState) : Nat := bitsAt (Tab.get 0 m.active 0x82) 0 16 + 1
def dimM (m : MeState) : Nat := bitsAt (Tab.get 0 m.active 0x82) 16 8 + 1
def dimN (m : MeState) : Nat := bitsAt (Tab.get 0 m.active 0x82) 24 8 + 1
def tagA (m : MeState) : Fmt := fmtOf ((Tab.get 0 m.active 0x83).extractLsb' 0 4)
def tagB (m : MeState) : Fmt := fmtOf ((Tab.get 0 m.active 0x83).extractLsb' 4 4)

/-- A sample count rounded up to whole batches (R268). -/
def batches (n : Nat) : Nat := (n + 255) / 256 * 256

/-- MSAMP (R268). -/
def execMsamp (a b e0 e1 : Reg) (s : State) : Out :=
  meRun { Needs.nothing with array := true } (fun c n _ s =>
    let nmin := min (2 ^ 24) (max 256 (batches (bitsAt (n.reg e0) 0 32)))
    let nmax := min (2 ^ 24) (max nmin (batches (bitsAt (n.reg e1) 0 32)))
    (s.updMe c n.slot fun m => { m with
      active := latchSet samplerSet m, seed := n.reg a, tau := (n.reg b).setWidth 32, nmin := nmin, nmax := nmax
      sctr := 0, mean := [], m2 := [], tvalid := false, inval := false, srun := false }).wordDone c .me) s

/-! ## Norms (R269) -/

/-- The norm of a list of elements: its FP32 bits and events. -/
def normOf (f : Fmt) (es : List Nat) : Nat × Ev :=
  let vs := es.map (decodeVal f)
  match vs.find? Val.isNan with
  | some v =>
    let r := fp32Rne (v.quiet, vs.any Val.isSnan)
    (r.1, Ev.once (Ev.ofBits .fp32 r.1) r.2)
  | none =>
    if vs.any fun v => !v.isFin then (0x7F800000, Ev.ofBits .fp32 0x7F800000)
    else
      let sum := vs.foldl (fun t v => match v with | .fin x => Ex.add false t (Ex.mul x x) | _ => t) (Ex.zero false)
      let q := fp32Rne (.fin sum, false)
      let r := special .sqrt q.1
      (r.1, Ev.once (Ev.ofBits .fp32 r.1) (q.2.add r.2))

def execMnorm (side : Bool) (tag : Fmt) (a b : Reg) (s : State) : Out :=
  meRun Needs.nothing (fun c n x s =>
    if !(tag == .fp32 || tag == .bf16 || tag == .e4m3 || tag == .e5m2) then s.meFail c n FMTTAG 0
    else
      let k := dimK x.me
      let other := if side then dimN x.me else dimM x.me
      let sz := Fmt.width tag / 8
      let len := k * other * sz
      s.meWith c n x [(n.reg a, len)] [(n.reg b, 4 * k)] fun s =>
        let bs := s.lRead c n.slot (n.reg a) len
        let el := fun i => ofBytes ((bs.drop (i * sz)).take sz)
        let norms := (List.range k).map fun j => normOf tag ((List.range other).map fun i => el (if side then j * other + i else i * k + j))
        (s.lWrite c n.slot (n.reg b) (norms.flatMap fun r => bytesOf 4 r.1)).countEv x.part n.kern x.recomp .fp32
          (Ev.sum (norms.map Prod.snd))) s

/-! ## The alias table (R270) -/

/-- The product of two norms, rounded. -/
def qOf (a b : Nat) : Nat := (fp32Rne (vMul (decodeVal .fp32 a) (decodeVal .fp32 b))).1

/-- A finite FP32 value in units of 2^-149. -/
def fp32Units (b : Nat) : Int := match decodeVal .fp32 b with
  | .fin x => let m : Int := shl x.num (x.exp + 149); if x.neg then -m else m
  | _ => 0

def insertSorted (i : Nat) : List Nat → List Nat
  | [] => [i]
  | j :: l => if i < j then i :: j :: l else j :: insertSorted i l

/-- The loop of R270: small and large in rising order, the masses, and the entries made. -/
def aliasGo : Nat → List Nat → List Nat → Tab Int → Tab (Nat × Nat) → Tab (Nat × Nat)
  | 0, _, _, _, out => out
  | f + 1, i :: small, l :: large, m, out =>
    let mi := Tab.get 0 m i
    let ml := Tab.get 0 m l - (2 ^ 24 - mi)
    let out := Tab.put out i ((mi % 2 ^ 24).toNat, l)
    if ml < 2 ^ 24 then aliasGo f (insertSorted l small) large (Tab.put m l ml) out
    else aliasGo f small (l :: large) (Tab.put m l ml) out
  | _, _, _, _, out => out

/-- The entries of the table and MQSUM, with INVAL. -/
def aliasTable (qs : List Nat) : List (Nat × Nat) × Nat × Bool :=
  let k := qs.length
  let own := (List.range k).map fun j => (0xFFFFFF, j)
  let finite := qs.all fun q => isFiniteBits .fp32 q
  let us := qs.map fp32Units
  let total : Int := us.foldl (· + ·) 0
  let sum := fp32Rne (.fin ⟨total < 0, total.natAbs, 1, -149⟩, false)
  if !finite || total = 0 || !isFiniteBits .fp32 sum.1 then (own, if finite && total = 0 then 0 else 0x7FC00000, true)
  else
    let m0 : List Int := us.map fun u => Int.fdiv (u * (k : Int) * 2 ^ 24) total
    let d : Int := (k : Int) * 2 ^ 24 - m0.foldl (· + ·) 0
    let ups := ((List.range k).filter fun j => 0 < us.getD j 0).take d.toNat
    let m := (List.range k).map fun j => (j, m0.getD j 0 + (if ups.contains j then 1 else 0))
    let small := (m.filter fun p => p.2 < 2 ^ 24).map Prod.fst
    let large := (m.filter fun p => 2 ^ 24 ≤ p.2).map Prod.fst
    let out := aliasGo (2 * k) small large m []
    ((List.range k).map fun j => Tab.get (0xFFFFFF, j) out j, sum.1, false)

def execMalias (a b e0 : Reg) (s : State) : Out :=
  meRun { Needs.nothing with array := true } (fun c n x s =>
    let k := dimK x.me
    s.meWith c n x [(n.reg a, 4 * k), (n.reg b, 4 * k)] [(n.reg e0, 5 * k)] fun s =>
      let qs := (List.range k).map fun j =>
        qOf (s.lWord c n.slot (n.reg a + BitVec.ofNat 64 (4 * j)) 4) (s.lWord c n.slot (n.reg b + BitVec.ofNat 64 (4 * j)) 4)
      let r := aliasTable qs
      let s := s.lWrite c n.slot (n.reg e0) (r.1.flatMap fun q => bytesOf 3 q.1 ++ bytesOf 2 q.2)
      s.updMe c n.slot fun m => { m with
        tabA := n.reg a, tabB := n.reg b, tabE := n.reg e0, tabK := k, mqsum := BitVec.ofNat 32 r.2.1, tvalid := true
        inval := r.2.2 }) s

/-! ## MSGO (R271 to R273) -/

def probe (m : MeState) (p : Nat) : Word := Tab.get 0 m.active (0x90 + p)
def probeOn (m : MeState) (p : Nat) : Bool := (probe m p).getLsbD 31
def probeRow (m : MeState) (p : Nat) : Nat := bitsAt (probe m p) 0 8
def probeCol (m : MeState) (p : Nat) : Nat := bitsAt (probe m p) 8 8

def sampleTag (f : Fmt) : Bool := f == .bf16 || f == .e4m3 || f == .e5m2

/-- Write one value to the sampled region of a tile. -/
def State.fillTile (s : State) (c k t ph rows cols v : Nat) : State :=
  (List.range rows).foldl (fun s r => s.putTile c k t ph r 0 (List.replicate cols v)) s

/-- What follows an MSGO: sub-array 0 is EMPTY. -/
def State.emptySub (s : State) (c k : Nat) : State := s.updMe c k fun m => { m with weights := Tab.del m.weights 0 }

/-- The batches that an MSGO has completed when it starts: those before its stop if it is resumed, else none (R265, R272). -/
def batchesDone (m : MeState) : Nat := if m.srun then m.sctr.toNat / 256 else 0

def execMsgo (t : BitVec 4) (s : State) : Out :=
  meRun ⟨true, none, false, some t.toNat⟩ (fun c n x s =>
    let m := x.me
    let k := n.slot
    match x.tile? t.toNat with
    | none => s.meFail c n OBJFAULT 0
    | some ph =>
      if m.mode ≠ .full || m.sparse ≠ 0 || !m.tvalid || m.tabK ≠ dimK m then s.meFail c n ILLOP 0
      else if !sampleTag (tagA m) || !sampleTag (tagB m) || !(x.tagOf t.toNat == .empty || x.tagOf t.toNat == .fp32) then s.meFail c n FMTTAG 0
      else if (List.range 16).any fun p => probeOn m p && (dimM m ≤ probeRow m p || dimN m ≤ probeCol m p) then s.meFail c n OBJFAULT 0
      else
        let s := s.updMe c k fun m => { m with mpos0 := 0, mpos1 := (mposWords [] (batchesDone m)).2 }
        let s := if m.srun then s
          else ((s.fillTile c k t.toNat ph (dimM m) (dimN m) 0).setTileTag c k t.toNat .fp32).updMe c k fun m => { m with srun := true }
        if m.inval then
          let s := (s.fillTile c k t.toNat ph (dimM m) (dimN m) 0x7FC00000).countEv x.part n.kern x.recomp .fp32 (Ev.invalid true)
          ((s.updMe c k fun m => { m with srun := false, mscnt := 0, mvar := 0x7FC00000 }).emptySub c k).wordDone c .me
        else s.startJob c n x (.msgo t) t.toNat 0 m.active [0] (batchesDone m)) s

/-- One draw: the column's table entry and what it says (R271). -/
def drawColumn (seed : Word) (k i : Nat) : Nat × Nat :=
  let z := splitmix64 seed (BitVec.ofNat 64 i)
  (z.toNat / 2 ^ 32 * k / 2 ^ 32, z.toNat % 2 ^ 24)

/-- The exact block sum of triple products, by the first rule of R95 that applies. -/
def tripleSum (ps : List (Val × Val × Val)) : Nat × Ev :=
  let nan := ps.findSome? fun p => firstNan [p.1, p.2.1, p.2.2]
  match nan with
  | some v => fp32Rne (v.quiet, ps.any fun p => anySnan [p.1, p.2.1, p.2.2])
  | none =>
    let prods := ps.map fun p => let u := vMul p.1 p.2.1; let v := vMul u.1 p.2.2; (v.1, u.2 || v.2)
    if prods.any fun p => p.2 then fp32Rne (defaultNan, true)
    else
      let pos := prods.any fun p => p.1 == .inf false
      let neg := prods.any fun p => p.1 == .inf true
      if pos && neg then fp32Rne (defaultNan, true)
      else if pos then fp32Rne (.inf false, false)
      else if neg then fp32Rne (.inf true, false)
      else
        let t := prods.foldl (fun acc p => match p.1 with | .fin x => Ex.add false acc x | _ => acc) (Ex.zero false)
        if t.num = 0 then (0, Ev.zero) else fp32Rne (.fin t, false)

/-- The exact product of three values: the first NaN of them, else the invalid or finite product (R90, R273). -/
def tripleProduct (a b c : Val) : Val × Bool :=
  match firstNan [a, b, c] with
  | some v => (v, anySnan [a, b, c])
  | none => let u := vMul a b; let v := vMul u.1 c; (v.1, u.2 || v.2)

/-- FP32 steps with their events gathered. -/
def fAdd (a b : Nat) : Nat × Ev := fp32Rne (vAdd false (decodeVal .fp32 a) (decodeVal .fp32 b))
def fSub (a b : Nat) : Nat × Ev := fp32Rne (vAdd false (decodeVal .fp32 a) (decodeVal .fp32 b).flip)
def fMul (a b : Nat) : Nat × Ev := fp32Rne (vMul (decodeVal .fp32 a) (decodeVal .fp32 b))
def fDivN (a n : Nat) : Nat × Ev := fp32Rne (vDiv (decodeVal .fp32 a) (.fin (Ex.ofInt n)))

/-- One probe update (R273): the new mean and M2. -/
def probeUpdate (mean m2 k : Nat) (x : Nat × Ev) : (Nat × Nat) × Ev :=
  let dlt := fSub x.1 mean
  let q := fDivN dlt.1 k
  let mean' := fAdd mean q.1
  let e := fSub x.1 mean'.1
  let pr := fMul dlt.1 e.1
  let m2' := fAdd m2 pr.1
  ((mean'.1, m2'.1), Ev.sum [x.2, dlt.2, q.2, mean'.2, e.2, pr.2, m2'.2])

/-- The sums V and S at a batch boundary. -/
def probeSums (m : MeState) (n : Nat) : Nat × Nat × Ev :=
  ((List.range 16).filter (probeOn m)).foldl (fun (a : Nat × Nat × Ev) p =>
    let d := fDivN (Tab.get 0 m.m2 p).toNat (n * (n - 1))
    let v := fAdd a.1 d.1
    let q := fMul (Tab.get 0 m.mean p).toNat (Tab.get 0 m.mean p).toNat
    let t := fAdd a.2.1 q.1
    (v.1, t.1, Ev.sum [a.2.2, d.2, v.2, q.2, t.2])) (0, 0, Ev.zero)

/-- a ≤ b on FP32 values; false with a NaN. -/
def fLe (a b : Nat) : Bool := condHolds .le .fp32 a b

/-- Does the run stop at n samples? The bound is computed, and its events counted, only where the test needs it (R9, R273). -/
def stopTest (m : MeState) (n v t : Nat) : Bool × Ev :=
  if m.nmax ≤ n then (true, Ev.zero)
  else if n < m.nmin then (false, Ev.zero)
  else
    let t2 := fMul m.tau.toNat m.tau.toNat
    let bound := fMul t2.1 t
    (fLe v bound.1, t2.2.add bound.2)

/-- A draw: its column and its factor. -/
structure Sample where
  j : Nat
  c : Nat
  deriving DecidableEq, Repr

/-- Element (i, j) of an operand with rows of w elements. -/
def elemAt (base : Word) (w sz i j : Nat) : Word := base + BitVec.ofNat 64 ((i * w + j) * sz)

/-- The rest of a batch, when every operand is open. -/
def State.runBatch (s : State) (c : Nat) (j : MeJob) (x : Ctx) (ph : Nat) (draws : List Sample) : State :=
  let m := x.me
  let k := j.slot
  let fa := tagA m
  let fb := tagB m
  let sa := Fmt.width fa / 8
  let sb := Fmt.width fb / 8
  let av := fun i (d : Sample) => decodeVal fa (s.lWord c k (elemAt (Tab.get 0 m.active 0x80) (dimK m) sa i d.j) sa)
  let bv := fun (d : Sample) i => decodeVal fb (s.lWord c k (elemAt (Tab.get 0 m.active 0x81) (dimN m) sb d.j i) sb)
  let cv := fun (d : Sample) => decodeVal .fp32 d.c
  let halves := [draws.take 128, draws.drop 128]
  let cell := fun old r i => halves.foldl (fun (a : Nat × Ev) h =>
    let b := tripleSum (h.map fun d => (av r d, bv d i, cv d))
    let t := fAdd a.1 b.1
    (t.1, a.2.add (Ev.blockStep [b.2, t.2]))) (old, Ev.zero)
  let s1 := (List.range (dimM m)).foldl (fun s' r =>
    let sl := s.slice c ph
    let res := (List.range (dimN m)).map fun i => cell (tileElem sl r i) r i
    (s'.putTile c k j.tile ph r 0 (res.map Prod.fst)).countEv x.part j.kern x.recomp .fp32 (Ev.sum (res.map Prod.snd))) s
  let probes := (List.range 16).filter (probeOn m)
  let step := fun (a : MeState × Ev) (q : Nat × Sample) => probes.foldl (fun (a : MeState × Ev) p =>
    let v := tripleProduct (av (probeRow m p) q.2) (bv q.2 (probeCol m p)) (cv q.2)
    let r := probeUpdate (Tab.get 0 a.1.mean p).toNat (Tab.get 0 a.1.m2 p).toNat (m.sctr.toNat + q.1 + 1) (fp32Rne v)
    ({ a.1 with mean := Tab.put a.1.mean p (BitVec.ofNat 32 r.1.1), m2 := Tab.put a.1.m2 p (BitVec.ofNat 32 r.1.2) }, a.2.add r.2)) a
  let pr := (draws.mapIdx fun i d => (i, d)).foldl step (m, Ev.zero)
  let n := m.sctr.toNat + 256
  let sums := probeSums pr.1 n
  let stop := stopTest m n sums.1 sums.2.1
  let s := s1.countEv x.part j.kern x.recomp .fp32 (Ev.sum [pr.2, sums.2.2, stop.2])
  let s := s.updMe c k fun y => { y with mpos1 := (mposWords [] (j.steps + 1)).2, sctr := BitVec.ofNat 32 n, mean := pr.1.mean, m2 := pr.1.m2 }
  if stop.1 then ((s.updMe c k fun y => { y with srun := false, mscnt := BitVec.ofNat 32 n, mvar := BitVec.ofNat 32 sums.1 }).emptySub c k).jobDone c j
  else s.updJob c j { j with steps := j.steps + 1 }

/-- A batch of an MSGO ends (R271 to R273): table entries, then the drawn norms, then the operands are read. The roundings of a draw's
probability and factor count no events (R93; DESIGN CHOICE, log 62). -/
def execMsgoBatchEnd (core : Nat) (s : State) : Out :=
  match (s.core core).jobs.find? fun j => MeJob.whole j with
  | none => .next s
  | some j =>
    match s.ctx? core j.slot with
    | none => .next s
    | some x =>
      let m := x.me
      let k := j.slot
      match x.tile? j.tile, pairing (tagA m) (tagB m) with
      | none, _ => .next (s.jobFail core j (s.jobCause core j OBJFAULT 0))
      | _, none => .next (s.jobFail core j (s.jobCause core j FMTTAG 0))
      | some ph, some _ =>
        let pick := (List.range 256).map fun i => drawColumn m.seed m.tabK (m.sctr.toNat + i)
        let ent := fun q => m.tabE + BitVec.ofNat 64 (5 * q)
        match s.meOpen core k x j.seq (pick.map fun d => (ent d.1, 5)) [] with
        | .bad w => .next (s.jobFail core j w)
        | .wait s => .next s
        | .go s =>
          let cols := pick.map fun d => if d.2 < s.lWord core k (ent d.1) 3 then d.1 else s.lWord core k (ent d.1 + 3) 2
          if cols.any fun q => m.tabK ≤ q then .next (s.jobFail core j (s.jobCause core j ILLOP 0))
          else
            let na := fun q => m.tabA + BitVec.ofNat 64 (4 * q)
            let nb := fun q => m.tabB + BitVec.ofNat 64 (4 * q)
            let sa := Fmt.width (tagA m) / 8
            let sb := Fmt.width (tagB m) / 8
            let ops := cols.flatMap fun q => [(na q, 4), (nb q, 4), (elemAt (Tab.get 0 m.active 0x81) (dimN m) sb q 0, dimN m * sb)] ++
              (List.range (dimM m)).map fun i => (elemAt (Tab.get 0 m.active 0x80) (dimK m) sa i q, sa)
            match s.meOpen core k x j.seq ops [] with
            | .bad w => .next (s.jobFail core j w)
            | .wait s => .next s
            | .go s =>
              match s.tileMark core ph j.tile (List.range (dimM m)) with
              | some p => .next (s.jobFail core j ⟨POISON, p⟩)
              | none =>
                let draws := cols.map fun q => (⟨q, (fp32Rne (vDiv (decodeVal .fp32 m.mqsum.toNat)
                  (decodeVal .fp32 (qOf (s.lWord core k (na q) 4) (s.lWord core k (nb q) 4))))).1⟩ : Sample)
                .next (s.runBatch core j x ph draws)

end Sys2Proof.Machine
end

