-- ==== Sys2Proof/Machine/Transfer.lean ====
section
/-! DEFINITION. What TU commands share: acceptance, operand checks, lines, holding for the pager, the bounce buffer, write-back of scratchpad
regions (R285, R316 to R326). -/

namespace Sys2Proof.Machine

/-! ## Commands and their contexts (R320, R326) -/

/-- Where a member of a task is resident. -/
def State.resident (s : State) (p : Nat) (tid : Word) (role : Nat) : Option (Nat × Nat × Ctx) :=
  (s.task? p tid).bind fun t => (t.members.find? fun (r, _, _) => r == role).bind fun (_, c, k) => (s.ctx? c k).map fun x => (c, k, x)

/-- Put an image into a place of its own, as a context of core 256 + n in slot 0. -/
def State.stageImage (s : State) (t : Task) (i : Image) : State :=
  let x := i.ctx
  let slices := (x.phys.mapIdx fun j ph => (ph, if s.pinned i.fromCore ph then s.slice i.fromCore ph else Tab.get Slice.zero i.slices j)).foldl
    (fun (tab : Tab Slice) (ph, v) => Tab.put tab ph v) []
  let core : Core := { Core.reset with
    ctxs := [(0, x)], slices := slices, sliceOwner := x.phys.foldl (fun tab ph => Tab.put tab ph 0) [], lineOwner := x.lines.map fun (l, _) => (l, 0) }
  (s.setCore (256 + i.fromCore) core).updTask t.part t.tid fun u => { u with
    images := u.images.filter fun j => j.role != i.role, members := u.members ++ [(i.role, 256 + i.fromCore, 0)] }

/-- Write a pinned slice back to its core and wake what waits there. -/
def State.putSlice (s : State) (core ph : Nat) (v : Slice) : State :=
  if s.slice core ph = v then s
  else ((s.core core).watches.filter fun w => w.slice == ph).foldl (fun s w => s.wake core ph w.off) (s.setSlice core ph v)

/-- Take the image back from its place; a cause that its context has met there waits in it. -/
def State.unstageImage (s : State) (t : Task) (i : Image) : State :=
  let place := 256 + i.fromCore
  let r := s.core place
  let s := { s with cores := Tab.del s.cores place, fills := s.fills.filter fun q => q.1 != place }
  match Tab.find r.ctxs 0 with
  | none => s
  | some y =>
    let (life, pend) := match y.life with
      | .aborting w => (i.ctx.life, some w)
      | l => (l, y.pend)
    let slices := (y.phys.mapIdx fun j ph => (j, ph)).filterMap fun (j, ph) =>
      if s.pinned i.fromCore ph then none else (Tab.find r.slices ph).map fun v => (j, v)
    let s := s.updTask t.part t.tid fun u => { u with
      members := u.members.filter fun m => m.2.1 != place
      images := u.images ++ [{ i with ctx := { y with life := life, pend := pend }, slices := slices }] }
    let s := y.phys.foldl (fun s ph => if s.pinned i.fromCore ph then s.putSlice i.fromCore ph (Tab.get Slice.zero r.slices ph) else s) s
    if pend.isSome then s.wakeMember t.part t.tid i.role id else s

/-- Work on the context of a member of a task, resident or in its image (R326). -/
def State.inCtx (s : State) (p : Nat) (tid : Word) (role : Nat) (f : Nat → Nat → Ctx → State → State) : State :=
  match s.resident p tid role with
  | some (c, k, x) => f c k x s
  | none =>
    match s.task? p tid with
    | none => s
    | some t => match t.images.find? fun i => i.role == role with
      | none => s
      | some i => (f (256 + i.fromCore) 0 i.ctx (s.stageImage t i)).unstageImage t i

def State.cmd? (s : State) (c id : Nat) : Option TuCmd := (s.core c).cmds.find? fun m => m.id == id
def State.updCmd (s : State) (c id : Nat) (f : TuCmd → TuCmd) : State :=
  s.updCore c fun r => { r with cmds := r.cmds.map fun m => if m.id = id then f m else m }

/-- Tag field of a TU word. -/
def Instr.tuTag : Instr → Nat
  | .cpy t .. | .cpys t .. | .cpyd t .. | .cpyt t .. | .cpyp t .. | .cpyh t .. | .chld t .. | .pfch t .. | .pfchMap t .. | .evct t ..
  | .evctUnmap t .. | .ctrb t .. | .ctrbXa t .. | .rdyw t .. => t.toNat
  | _ => 0

/-- Ordering class of a TU word. -/
def Instr.tuClass : Instr → Nat
  | .cpy _ _ _ _ _ o | .cpys _ _ _ _ _ _ _ o | .cpyd _ _ _ _ _ _ o | .cpyt _ _ _ _ _ _ _ o | .cpyp _ _ _ _ _ _ _ _ _ o | .cpyh _ _ _ _ _ o
  | .chld _ _ _ _ _ _ _ o | .pfch _ _ _ _ o | .pfchMap _ _ _ _ o | .evct _ _ _ o | .evctUnmap _ _ o | .ctrb _ _ _ _ o | .ctrbXa _ _ _ _ o
  | .rdyw _ _ _ o => o.toNat
  | _ => 0

/-- Deadline of a TU word in cc: DL of its length register, or of a CHLD's extension (R322, R327). -/
def Instr.tuDeadline (r : Reg → Word) : Instr → Nat
  | .cpy _ _ _ c _ _ | .cpyh _ _ _ c _ _ | .pfch _ _ _ c _ | .pfchMap _ _ _ c _ | .ctrb _ _ _ c _ | .ctrbXa _ _ _ c _ => 64 * bitsAt (r c) 40 24
  | .cpys _ _ _ c _ _ _ _ => 64 * bitsAt (r c) 40 24
  | .cpyd _ _ _ c _ _ _ => 64 * bitsAt (r c) 40 24
  | .cpyt _ _ _ c _ _ _ _ => 64 * bitsAt (r c) 40 24
  | .cpyp _ _ _ c _ _ _ _ _ _ => 64 * bitsAt (r c) 40 24
  | .evct _ _ c _ | .rdyw _ _ c _ => 64 * bitsAt (r c) 40 24
  | .chld _ _ _ _ _ _ dl _ => 64 * dl.toNat
  | _ => 0

def TuCmd.reg (m : TuCmd) (a : Reg) : Word := m.regs[a.toNat]

/-- An address that names the scratchpad of a core and slot itself acts as it would with selector 0x80 (R105). -/
def ownL (c slot : Nat) (a : Word) : Word :=
  if bitsAt a 48 16 = 0x8300 ∧ bitsAt a 40 8 = c ∧ bitsAt a 36 4 = slot then BitVec.ofNat 64 (0x80 * 2 ^ 56 + bitsAt a 0 36) else a

/-- An address operand of a command of a core. -/
def TuCmd.addr (m : TuCmd) (c : Nat) (a : Reg) : Word := ownL c m.slot (m.reg a)

def TuCmd.tag (m : TuCmd) : Nat := Instr.tuTag m.word

/-- Accepted, unfinished commands of a member of a task. -/
def State.cmdsOf (s : State) (p : Nat) (tid : Word) (role : Nat) : List TuCmd :=
  s.cores.flatMap fun (_, r) => r.cmds.filter fun m => m.part == p && m.tid == tid && m.role == role

/-- May the TU accept a word now (R320)? -/
def State.acceptable (s : State) (c : Nat) (x : Ctx) (w : Instr) : Bool :=
  (s.core c).cmds.length < 64 && (s.cmdsOf x.part x.tid x.role).all fun m => TuCmd.tag m != Instr.tuTag w

/-- A tag's bit and status. -/
def Ctx.setTag (x : Ctx) (tag : Nat) (set : Bool) (status : BitVec 16) : Ctx :=
  { x with
    tags := if set then x.tags ||| (1#64 <<< tag) else x.tags &&& ~~~(1#64 <<< tag)
    tagStatus := if status = 0 then Tab.del x.tagStatus tag else Tab.put x.tagStatus tag status }

/-- The status of R324. -/
def tagStatusOf (code reason step : Nat) : BitVec 16 := BitVec.ofNat 16 (reason * 256 + step % 8 * 16 + code)

/-- A command is to end with a code, a reason and a step. -/
def State.endCmd (s : State) (c id code reason : Nat) : State := s.updCmd c id fun m => { m with res := some (code, reason, 0), held := false }
def State.doneCmd (s : State) (c id : Nat) : State := s.endCmd c id 0 0
def State.faultCmd (s : State) (c id reason : Nat) : State := s.endCmd c id 1 reason

def reasonAddr : Nat := 1
def reasonAlign : Nat := 2
def reasonArgs : Nat := 3
def reasonXlate : Nat := 4
def reasonRights : Nat := 5
def reasonTable : Nat := 6
def reasonStream : Nat := 7
def reasonTier : Nat := 8
def reasonPoison : Nat := 9
def reasonNotcur : Nat := 10
def reasonReset : Nat := 11
def reasonDetchk : Nat := 12

/-- Hold a command for the pager: status PEND (R318). -/
def State.holdCmd (s : State) (c id : Nat) (addr : Word) : State :=
  match s.cmd? c id with
  | none => s
  | some m =>
    let s := s.updCmd c id fun m => { m with held := true }
    let s := s.onMember m.part m.tid m.role fun x => x.setTag (TuCmd.tag m) false 5
    { s with pager := s.pager ++ [.command c id addr] }

/-! ## Operand checks (R105, R106, R321) -/

/-- Is a range of n bytes refused before anything moves: its selector, or the end of its scratchpad or window slice? -/
def Ctx.rangeBad (x : Ctx) (a : Word) (n : Nat) : Bool :=
  let off := bitsAt a 0 56
  match bitsAt a 56 8 with
  | 0x00 => 2 ^ 56 < off + n
  | 0x80 => bitsAt a 20 36 != 0 || 0x100000 < bitsAt a 0 20 + n
  | 0x81 => bitsAt a 22 34 != 0 || (x.winSlice (off / 0x40000)).isNone || 0x40000 < off % 0x40000 + n
  | 0x83 => bitsAt a 48 8 != 0 || bitsAt a 20 16 != 0 || 0x100000 < bitsAt a 0 20 + n
  | _ => true

def selectsL (a : Word) : Bool := bitsAt a 56 8 == 0x80
def selectsG (a : Word) : Bool := bitsAt a 56 8 == 0

/-! ## The bounce buffer (R317) -/

/-- Write bytes of a non-resident page into its slot; none when no slot is free. -/
def State.bounceWrite (s : State) (die p addr : Nat) (bs : List Byte) (bad : Bool) : Option State :=
  let page := addr / 65536
  let put := fun (s : State) d => s.updBounce d p page fun b =>
    let whole := wholeUnits (addr % 65536) bs.length
    let here := someUnits (addr % 65536) bs.length
    { b with
      bytes := (bs.mapIdx fun i v => (i, v)).foldl (fun t (i, v) => Tab.put t (addr % 65536 + i) v) b.bytes
      pois := (b.pois.filter fun u => !whole.contains u) ++ (if bad then here else []) }
  match s.bounceSlot p page with
  | some (d, _) => some (put s d)
  | none =>
    if 1024 ≤ (s.die die).bounce.length then none
    else some (put (s.updDie die fun x => { x with bounce := x.bounce ++ [⟨p, page, [], []⟩] }) die)

/-- Bytes of a non-resident page that its slot holds, with the presence of a mark. -/
def State.bounceRead (s : State) (p addr n : Nat) : Option (List Byte × Bool) :=
  match s.bounceSlot p (addr / 65536) with
  | none => none
  | some (_, b) =>
    let l := (List.range n).map fun i => Tab.find b.bytes (addr % 65536 + i)
    if l.all Option.isSome then some (l.map fun v => v.getD 0, (someUnits (addr % 65536) n).any b.pois.contains) else none

/-! ## Lines (R317, R318, R325, R329) -/

/-- What reading a piece of a source gives. -/
inductive Piece where
  | bytes (s : State) (bs : List Byte) (bad : Bool)
  | hold (a : Word)
  | bad (reason : Nat)
  | wait (s : State)
  | ask (dev : Nat)
  deriving DecidableEq, Repr

/-- Does the host answer (R316, R332)? -/
def State.hostUp (s : State) : Bool := s.link == .cxl && !(s.die 0).lost

/-- Does a partition's function expose a host address (R478)? -/
def Part.hostMine (x : Part) (pa : Nat) : Bool := x.hwbase.toNat ≤ pa - hostBase && pa - hostBase < x.hwbase.toNat + x.hwsize.toNat

/-- Read at most 64 bytes of a source, within one 64-byte unit. host: host memory may be named. -/
def State.readPiece (s : State) (c k : Nat) (x : Ctx) (host : Bool) (a : Word) (n : Nat) : Piece :=
  let q := s.reach c k x true a
  let s := match q.leaf with
    | some e => s.keepEntry x.part e
    | none => s
  match q.t with
  | .hole => .hold a
  | .lost => .bad reasonTier
  | .foreign | .refused | .instr => .bad reasonAddr
  | .host pa => if !host || !(s.part x.part).hostMine pa then .bad reasonAddr else if !q.r then .bad reasonAddr
    else if s.hostUp then .bytes s (s.readAt (.host pa) n) !(s.marksAt (.host pa) n).isEmpty else .bad reasonTier
  | .away => if !q.r then .bad reasonAddr else match s.bounceRead x.part (bitsAt a 0 56) n with
    | some (bs, bad) => .bytes s bs bad
    | none => .hold a
  | .remote dev => if q.r then .ask dev else .bad reasonAddr
  | .l lc lk off =>
    if s.bankHeld lc off n then .wait s
    else match s.touch lc lk (off / 256) false with
    | .ready s => .bytes s (s.readAt q.t n) !(s.marksAt q.t n).isEmpty
    | .filling s => .wait s
    | .full => .bad reasonAddr
  | t =>
    if !q.r then .bad reasonAddr
    else if s.bankBusy t then .wait s
    else let s := ((s.settlePage x.part (bitsAt a 0 56) t).stamp t).noteReader c k t .read
      .bytes s (s.readAt t n) !(s.marksAt t n).isEmpty

/-- What writing a destination line gives. -/
inductive Put where
  | done (s : State)
  | hold (a : Word)
  | bad (reason : Nat)
  | wait (s : State)
  deriving DecidableEq, Repr

/-- Write the bytes of one destination line with its mark. ack: what notes a store sent to another device. -/
def State.writePiece (s : State) (c k : Nat) (x : Ctx) (host : Bool) (a : Word) (bs : List Byte) (bad : Bool)
    (ack : State → Nat → Nat → State) : Put :=
  let q := s.reach c k x true a
  let s := match q.leaf with
    | some e => s.keepEntry x.part e
    | none => s
  let put := fun (s : State) t => (s.crossed c t).writeMarked t bs bad
  match q.t with
  | .hole => .hold a
  | .lost => .bad reasonTier
  | .foreign | .refused | .instr => .bad reasonAddr
  | .host pa => if !host || !(s.part x.part).hostMine pa then .bad reasonAddr else if !q.w then .bad reasonRights
    else if s.hostUp then .done (put s (.host pa)) else .bad reasonTier
  | .away => if !q.w then .bad reasonRights else match s.bounceWrite (dieOf c) x.part (bitsAt a 0 56) bs bad with
    | some s => .done s
    | none => .wait s
  | .remote dev => if !q.w then .bad reasonRights
    else if !s.requestRoom c 1 then .wait s
    else match s.sendRemote x.part dev 2 (bs.length - 1 + if bad then 0x80 else 0) (bitsAt a 0 56) bs with
      | .refused => .bad reasonAddr
      | .wait s => .wait s
      | .sent s ids => .done (ack s dev (ids.headD 0))
  | .l lc lk off =>
    if s.bankHeld lc off bs.length then .wait s
    else match s.touch lc lk (off / 256) false with
    | .ready s =>
      let s := put s q.t
      .done (match s.workCmd with | some (c, id) => s.lockBanks lc (.cmd c id) off bs.length | none => s)
    | .filling s => .wait s
    | .full => .bad reasonAddr
  | t =>
    if !q.w then .bad reasonRights
    else match t with
      | .mem pa => if isSlate pa && !s.slateOpen x.part then .bad reasonRights else .done (put ((s.settlePage x.part (bitsAt a 0 56) t).stamp t) t)
      | _ => .done (put s t)

/-- One destination line: where it goes and the source pieces whose bytes fill it. -/
structure Line where
  dst : Word
  segs : List (Word × Nat)
  deriving DecidableEq, Repr

/-- Split a source piece at a 64-byte boundary. -/
def splitUnit (a : Word) (n : Nat) : List (Word × Nat) :=
  let m := min n (64 - a.toNat % 64)
  (if m = 0 then [] else [(a, m)]) ++ (if n ≤ m then [] else [(a + BitVec.ofNat 64 m, n - m)])

/-- Line i of n bytes from src to dst: destination lines are aligned; a line beyond the end is empty. -/
def copyLine (dst src : Word) (n i : Nat) : Line :=
  let first := 64 - dst.toNat % 64
  let lo := if i = 0 then 0 else first + 64 * (i - 1)
  let hi := min n (first + 64 * i)
  ⟨dst + BitVec.ofNat 64 lo, splitUnit (src + BitVec.ofNat 64 lo) (hi - lo)⟩

def copyLines (n : Nat) : Nat := n / 64 + 2

/-- The outcome of a line. -/
inductive LineOut where
  | done (s : State)
  | hold (a : Word)
  | bad (reason : Nat)
  | wait (s : State)
  /-- Some pieces were asked from other devices. The line moves when they have been answered. -/
  | asked (s : State) (l : List Ask)
  deriving DecidableEq, Repr

/-- Read all source pieces of a line: bytes, whether one is marked, and what must be asked. got: answers to earlier questions. -/
def State.readSegs (s : State) (c k : Nat) (x : Ctx) (host : Bool) (got : List (Word × List Byte × Bool)) :
    List (Word × Nat) → Except LineOut (State × List Byte × Bool × List (Nat × Word × Nat))
  | [] => .ok (s, [], false, [])
  | (a, n) :: l =>
    let more := fun (s : State) bs bad asks => match s.readSegs c k x host got l with
      | .ok (s, cs, b, r) => Except.ok (s, bs ++ cs, bad || b, asks ++ r)
      | .error e => .error e
    match got.find? fun q => q.1 == a with
    | some (_, bs, bad) => more s bs bad []
    | none =>
      match s.readPiece c k x host a n with
      | .bytes s bs bad => more s bs bad []
      | .ask dev => more s [] false [(dev, a, n)]
      | .hold a => .error (.hold a)
      | .bad r => .error (.bad r)
      | .wait s => .error (.wait s)

/-- A range as 64-byte pieces. -/
def unitPieces : Nat → Word → Nat → List (Word × Nat)
  | 0, _, _ => []
  | _ + 1, _, 0 => []
  | f + 1, a, n => let m := min n (64 - a.toNat % 64); (a, m) :: unitPieces f (a + BitVec.ofNat 64 m) (n - m)

/-- Accept a word: the tag clears, the word's token is satisfied (R320). list: what is read at acceptance (R335). The identity of the
command. -/
def State.accept (s : State) (c : Nat) (n : Entry) (x : Ctx) (w : Instr) (list : List Byte × List (Word × List Byte × Bool)) : Nat × State :=
  let (id, s) := s.fresh
  let m : TuCmd := ⟨id, n.slot, x.part, x.tid, x.role, w, n.regs, if x.det then some (recRegion x.record, x.phase) else none, n.kern, none, false,
    0, 0, 0, 0, [], list.1, engineForm .tu n 0 n.pos, [], list.2, [], [], (s.core c).cyc, Instr.tuDeadline n.reg w, n.seq, n.firstSeq, []⟩
  let s := s.updCtx c n.slot fun x => x.setTag (Instr.tuTag w) false 0
  (id, (s.updCore c fun r => { r with cmds := r.cmds ++ [m] }).wordDone c .tu)

/-- The 16-byte steps of a CHLD that its acceptance reads: none for another word, or where its operands do not name them (R335). -/
def Instr.stepList (c : Nat) (n : Entry) : Instr → Option (Word × Nat)
  | .chld _ _ _ cr nm1 k _ _ =>
    let a := ownL c n.slot (n.reg cr)
    if selectsL a && a.toNat % 16 = 0 && k.toNat ≤ nm1.toNat then some (a + BitVec.ofNat 64 (16 * k.toNat), 16 * (nm1.toNat + 1 - k.toNat)) else none
  | _ => none

/-- Accept a word when the TU can: the command's identity with the state, or the state in which it waits (R320, R335). -/
def State.tryAccept (s : State) (c : Nat) (n : Entry) (x : Ctx) (w : Instr) : Option Nat × State :=
  if !s.acceptable c x w then (none, s)
  else match Instr.stepList c n w with
    | none => let r := s.accept c n x w ([], []); (some r.1, r.2)
    | some (a, len) => match s.readSegs c n.slot x false [] (unitPieces 4 a len) with
      | .error (.wait s) => (none, s)
      | .error _ => let r := s.accept c n x w ([], []); (some r.1, r.2)
      | .ok (s, bs, bad, _) => let r := s.accept c n x w (bs, [(a, [], bad)]); (some r.1, r.2)

/-- A command leaves: its tag is set with its status; a CPYP that has not ended DONE marks its context (R324, R331). -/
def State.finishCmd (s : State) (c : Nat) (m : TuCmd) (code reason step : Nat) : State :=
  let s := (s.updCore c fun r => { r with cmds := r.cmds.filter fun q => q.id != m.id }).unlock (.cmd c m.id)
  let bad := code != 0 && (match m.word with | .cpyp .. => true | _ => false)
  s.onMember m.part m.tid m.role fun x => { x.setTag (TuCmd.tag m) true (tagStatusOf code reason step) with nocommit := x.nocommit || bad }

/-- Has a command passed its deadline (R322)? -/
def State.overdue (s : State) (c : Nat) (m : TuCmd) : Bool := m.dl != 0 && m.dl < ((s.core c).cyc - m.accepted).toNat

/-- A command ends LATE: what it has outstanding is cancelled, and the pager's answer for it is discarded (R322, R344). -/
def State.lateCmd (s : State) (c : Nat) (m : TuCmd) : State :=
  { s.finishCmd c m 4 0 0 with pager := s.pager.filter fun q => match q with
    | .command d i _ => !(d == c && i == m.id)
    | _ => true }

def TuCmd.isChain (m : TuCmd) : Bool := match m.word with
  | .chld .. => true
  | _ => false

/-- The step that a status shows: a chain's, 0 for any other command (R324). -/
def TuCmd.stepShown (m : TuCmd) : Nat := if m.isChain then m.step % 8 else 0

/-- Must a command wait for an earlier one of its context and class (R323)? -/
def State.classWaits (s : State) (m : TuCmd) : Bool := (s.cmdsOf m.part m.tid m.role).any fun q =>
  q.seq < m.seq && Instr.tuClass q.word == Instr.tuClass m.word && (q.res.isNone || !q.acks.isEmpty || !q.list.isEmpty)

/-- The common course of a TU word: at its turn it is accepted and goes on as far as it can; an accepted command goes on at its own turn,
whether its context is resident or saved (R326). -/
def tuRun (w : Instr) (body : Nat → TuCmd → Nat → Nat → Ctx → State → State) (s : State) : Out :=
  let go := fun (s : State) c id =>
    match s.cmd? c id with
    | none => s
    | some m =>
      if s.overdue c m then s.lateCmd c m
      else if m.res.isSome || m.held || !m.asks.isEmpty || s.classWaits m then s
      else s.inCtx m.part m.tid m.role fun lc lk x s => body c m lc lk x s
  match s.turn with
  | .cmd c id => match s.cmd? c id with
    | some m => if m.word = w then .next (go s c id) else .fault .strayTurn
    | none => .fault .strayTurn
  | _ =>
    match s.wordTurn .tu with
    | none => .fault .strayTurn
    | some (c, n, x) =>
      match s.tryAccept c n x w with
      | (some id, s) => .next (go s c id)
      | (none, s) => .next s

/-- The outcome of asking other devices for pieces. -/
inductive Asking where
  | sent (s : State) (l : List Ask)
  | wait (s : State)
  | refused
  deriving DecidableEq, Repr

/-- Ask other devices for pieces: device, address, bytes. -/
def State.askPieces (s : State) (c : Nat) (x : Ctx) (l : List (Nat × Word × Nat)) : Asking :=
  if !s.requestRoom c l.length then .wait s
  else match s.sendList x.part 1 (l.map fun (dev, a, n) => (dev, a, n - 1, [])) with
    | .refused => .refused
    | .wait s => .wait s
    | .sent s ids => .sent s ((l.zip ids).map fun ((dev, a, n), id) => ⟨dev, a, n, id⟩)

/-- A refusal of a destination that ends a command before a hole of its source calls the pager (R318). -/
def State.putRefused (s : State) (c k : Nat) (x : Ctx) (host : Bool) (a : Word) : Option Nat :=
  let q := s.reach c k x true a
  match q.t with
  | .hole | .l .. => none
  | .lost => some reasonTier
  | .foreign | .refused | .instr => some reasonAddr
  | .host pa => if !host || !(s.part x.part).hostMine pa then some reasonAddr else if !q.w then some reasonRights else none
  | .mem pa => if !q.w || (isSlate pa && !s.slateOpen x.part) then some reasonRights else none
  | _ => if q.w then none else some reasonRights

/-- Move one line. -/
def State.moveLine (s : State) (c k : Nat) (x : Ctx) (host : Bool) (l : Line) (got : List (Word × List Byte × Bool))
    (ack : State → Nat → Nat → State) : LineOut :=
  if l.segs.isEmpty then .done s
  else match s.readSegs c k x host got l.segs with
    | .error (.hold a) => match s.putRefused c k x host l.dst with
      | some r => .bad r
      | none => .hold a
    | .error e => e
    | .ok (s, bs, bad, asks) =>
      if asks.isEmpty then
        match s.writePiece c k x host l.dst bs bad ack with
        | .hold a => .hold a
        | .bad r => .bad r
        | .wait s => .wait s
        | .done s => .done s
      else match s.askPieces c x asks with
        | .refused => .bad reasonAddr
        | .wait s => .wait s
        | .sent s l => .asked s l

/-- How a command notes a store that it has sent. -/
def ackCmd (c id : Nat) (s : State) (dev rsn : Nat) : State := s.updCmd c id fun m => { m with acks := m.acks ++ [(dev, rsn)] }

/-- A command ends with a reason; one that the host has failed counts in item 11 (R316). -/
def State.faultLine (s : State) (c id reason : Nat) (host : Bool) : State :=
  (if host && reason = reasonTier && !s.hostUp then s.countError (dieOf c) 11 else s).faultCmd c id reason

/-- Move lines from the place reached on; fin follows the last of them. -/
def State.moveLines (s : State) (c id lc lk : Nat) (host : Bool) (line : Nat → Line) (fin : State → State) : Nat → State
  | 0 => fin s
  | n + 1 =>
    match s.cmd? c id, s.ctx? lc lk with
    | some m, some x =>
      match s.moveLine lc lk x host (line m.line) m.got (ackCmd c id) with
      | .hold a => s.holdCmd c id a
      | .bad r => s.faultLine c id r host
      | .wait s => s
      | .done s => (s.updCmd c id fun m => { m with line := m.line + 1, got := [] }).moveLines c id lc lk host line fin n
      | .asked s l => s.updCmd c id fun m => { m with asks := m.asks ++ l }
    | _, _ => s

/-- Run a copy of a number of lines. -/
def State.runLines (s : State) (c : Nat) (m : TuCmd) (lc lk : Nat) (host : Bool) (line : Nat → Line) (total : Nat) : State :=
  s.moveLines c m.id lc lk host line (fun s => s.doneCmd c m.id) (total - m.line)

/-! ## Write-back of scratchpad regions (R285) -/

/-- Does a command write data? -/
def Instr.tuWrites : Instr → Bool
  | .cpy .. | .cpys .. | .cpyd .. | .cpyt .. | .cpyp .. | .cpyh .. | .evct .. | .evctUnmap .. | .ctrb .. | .ctrbXa .. => true
  | _ => false

/-- Has a context accesses of a class that are not finished, which a fill or a write-back in that class follows: those of the SQ, drains, and
commands that write, older than before where that is a command's identity (R118, R284, R285; log 54)? -/
def State.classUnfinished (s : State) (x : Ctx) (cls : Nat) (before : Option Nat) : Bool :=
  (x.sqPending ++ x.tiles.filter fun o => !o.done).any (fun o => o.cls == some cls) ||
  (s.cmdsOf x.part x.tid x.role).any fun m => Instr.tuClass m.word == cls && Instr.tuWrites m.word && (match before with
    | some id => m.id < id
    | none => true)

/-- Write one dirty region line back as four units in the region's class; the line is then clean. What a transfer would end at calls the pager.
before: the command that names the line, if one does. -/
def State.writeBackLine (s : State) (c k line : Nat) (before : Option Nat) (ack : State → Nat → Nat → State) : LineOut :=
  match s.ctx? c k with
  | none => .done s
  | some x =>
    match x.regionOf line with
    | none => .done s
    | some g =>
      let unit := fun (o : LineOut) i => match o with
        | .done s =>
          let a := BitVec.ofNat 64 (g + 64 * i)
          (match s.moveLine c k x false ⟨a, [(BitVec.ofNat 64 (0x80 * 2 ^ 56 + 256 * line + 64 * i), 64)]⟩ [] ack with
           | .bad _ => .hold a
           | o => o)
        | o => o
      if s.classUnfinished x ((x.regionClass line).getD 0) before then .wait s
      else match [0, 1, 2, 3].foldl unit (.done s) with
      | .done s => .done (s.updCtx c k fun x => { x with lines := Tab.adjust x.lines line fun l => { l with rgd := false } })
      | o => o

/-- Dirty region lines among some lines, in rising order. -/
def Ctx.dirtyLines (x : Ctx) (lo n : Nat) : List Nat :=
  x.lines.filterMap fun (i, l) => if lo ≤ i ∧ i < lo + n ∧ l.rgd ∧ (x.regionOf i).isSome then some i else none

/-- Write lines back in order, up to the first that cannot go. -/
def State.writeBackAll (s : State) (c k : Nat) (before : Option Nat) (ack : State → Nat → Nat → State) : List Nat → LineOut
  | [] => .done s
  | i :: l => match s.writeBackLine c k i before ack with
    | .done s => s.writeBackAll c k before ack l
    | o => o

/-- A store that counts as outstanding until it is answered (R285). -/
def ackStore (c k : Nat) (s : State) (dev id : Nat) : State := s.issueOsc c k .store none none [(dev, id)]

/-- A write-back's store that a command waits for too (R285, R340). -/
def ackBoth (c id lc lk : Nat) (s : State) (dev req : Nat) : State := ackCmd c id (ackStore lc lk s dev req) dev req

end Sys2Proof.Machine
end

