-- ==== Sys2Proof/Machine/Tu.lean ====
section
/-! DEFINITION. The TU words and the events of their commands (R320 to R343). -/

namespace Sys2Proof.Machine

/-! ## Length registers (R322) -/

def lenOf (v : Word) : Nat := bitsAt v 0 32
def lenBad (v : Word) : Bool := bitsAt v 32 8 != 0

/-! ## Plain copies (R328, R329) -/

/-- Bytes of a list of 8-byte words of a directory entry as another device sends it. -/
def entryWord (bs : List Byte) (i : Nat) : Word := BitVec.ofNat 64 (ofBytes ((bs.drop (8 * i)).take 8))

/-- Look the source version up at its home: its base is kept in the command (R328). -/
def State.lookUp (s : State) (c : Nat) (m : TuCmd) (x : Ctx) (nv : Word) (len : Nat) : State :=
  let take := fun (s : State) (current : Bool) (base : Word) (size : Nat) =>
    if !current then s.faultCmd c m.id reasonNotcur
    else if size < len then s.faultCmd c m.id reasonArgs
    else s.updCmd c m.id fun m => { m with step := 1, ptr := base, got := [] }
  if s.homeLocal x.part nv then
    match s.version? x.part nv with
    | some e => if e.taking then s else take s (e.st == .current) e.base e.size
    | none => take s false 0 0
  else
    match m.got.find? fun q => q.1 == nv with
    | some (_, bs, _) => take s (entryWord bs 0 == nv && bitsAt (entryWord bs 1) 61 3 == 2) (entryWord bs 2) (bitsAt (entryWord bs 3) 0 32)
    | none =>
      let dev := (s.home x.part nv).1
      if !s.requestRoom c 1 then s
      else match s.sendRemote x.part dev 3 HomeOp.look.code (bitsAt nv 0 56) (homeBytes nv []) with
        | .refused => s.faultCmd c m.id reasonNotcur
        | .wait s => s
        | .sent s ids => s.updCmd c m.id fun m => { m with asks := ids.map fun id => ⟨dev, nv, 64, id⟩ }

/-- Copy n bytes as lines. -/
def copyBody (a src : Word) (n : Nat) (host : Bool) (c : Nat) (m : TuCmd) (lc lk : Nat) (x : Ctx) (s : State) : State :=
  if n = 0 then s.doneCmd c m.id
  else if x.rangeBad a n || x.rangeBad src n then s.faultCmd c m.id reasonAddr
  else s.runLines c m lc lk host (copyLine a src n) (copyLines n)

def execCpy (tag : BitVec 6) (a b cr : Reg) (tv : Bool) (oc : OClass) (s : State) : Out :=
  tuRun (.cpy tag a b cr tv oc) (fun c m lc lk x s =>
    let n := lenOf (m.reg cr)
    if lenBad (m.reg cr) then s.faultCmd c m.id reasonArgs
    else if n = 0 then s.doneCmd c m.id
    else if !tv then copyBody (m.addr c a) (m.addr c b) n false c m lc lk x s
    else
      let s := if m.step = 0 then s.lookUp c m x (m.reg b) n else s
      match s.cmd? c m.id with
      | none => s
      | some m => if m.step = 0 || m.res.isSome then s else copyBody (m.addr c a) m.ptr n false c m lc lk x s) s

/-- Line i of a copy of rows: each row takes as many lines as its length can touch. -/
def rowLine (dst src : Word) (n : Nat) (dp sp : Word) (i : Nat) : Line :=
  let r := BitVec.ofNat 64 (i / copyLines n)
  copyLine (dst + r * dp) (src + r * sp) n (i % copyLines n)

def execCpys (tag : BitVec 6) (a b cr e0 e1 e2 : Reg) (oc : OClass) (s : State) : Out :=
  tuRun (.cpys tag a b cr e0 e1 e2 oc) (fun c m lc lk x s =>
    let n := lenOf (m.reg cr)
    let rows := (m.reg e2).toNat
    if lenBad (m.reg cr) || rows = 0 || 2 ^ 20 < rows then s.faultCmd c m.id reasonArgs
    else if n = 0 then s.doneCmd c m.id
    else if (List.range rows).any fun r =>
        x.rangeBad (m.addr c a + BitVec.ofNat 64 r * m.reg e1) n || x.rangeBad (m.addr c b + BitVec.ofNat 64 r * m.reg e0) n then
      s.faultCmd c m.id reasonAddr
    else s.runLines c m lc lk false (rowLine (m.addr c a) (m.addr c b) n (m.reg e1) (m.reg e0)) (rows * copyLines n)) s

/-! ## Transposes (R330, R331) -/

def esBytes (es : BitVec 2) : Nat := 2 ^ es.toNat

/-- Rows and columns of a dimension register. -/
def dimRows (v : Word) : Nat := bitsAt v 0 16
def dimCols (v : Word) : Nat := bitsAt v 16 16

def dimsBad (es : BitVec 2) (v : Word) : Bool :=
  es == 3 || lenBad v || dimRows v == 0 || 4096 < dimRows v || dimCols v == 0 || 4096 < dimCols v ||
  dimRows v * esBytes es % 64 != 0 || dimCols v * esBytes es % 64 != 0

def aligned64 (l : List Word) : Bool := l.all fun w => w.toNat % 64 == 0

/-- Line i of a transpose of rows by cols elements of es bytes. -/
def transLine (dst src : Word) (dp sp : Word) (rows es i : Nat) : Line :=
  let per := rows * es / 64
  let col := i / max 1 per
  let blk := i % max 1 per
  let n := 64 / es
  ⟨dst + BitVec.ofNat 64 col * dp + BitVec.ofNat 64 (64 * blk),
   (List.range n).map fun j => (src + BitVec.ofNat 64 (blk * n + j) * sp + BitVec.ofNat 64 (col * es), es)⟩

def transLines (rows cols es : Nat) : Nat := cols * (rows * es / 64)

/-- Does some row of a matrix leave its space? -/
def Ctx.matrixBad (x : Ctx) (a p : Word) (rows n : Nat) : Bool := (List.range rows).any fun r => x.rangeBad (a + BitVec.ofNat 64 r * p) n

def execCpyt (tag : BitVec 6) (a b cr e0 e1 : Reg) (es : BitVec 2) (oc : OClass) (s : State) : Out :=
  tuRun (.cpyt tag a b cr e0 e1 es oc) (fun c m lc lk x s =>
    let v := m.reg cr
    let sz := esBytes es
    if !aligned64 [m.addr c a, m.addr c b, m.reg e0, m.reg e1] then s.faultCmd c m.id reasonAlign
    else if dimsBad es v then s.faultCmd c m.id reasonArgs
    else if x.matrixBad (m.addr c b) (m.reg e0) (dimRows v) (dimCols v * sz) || x.matrixBad (m.addr c a) (m.reg e1) (dimCols v) (dimRows v * sz) then
      s.faultCmd c m.id reasonAddr
    else s.runLines c m lc lk false (transLine (m.addr c a) (m.addr c b) (m.reg e1) (m.reg e0) (dimRows v) sz) (transLines (dimRows v) (dimCols v) sz)) s

def execCpyp (tag : BitVec 6) (a b cr e0 e1 e2 : Reg) (q : BitVec 15) (es : BitVec 2) (oc : OClass) (s : State) : Out :=
  tuRun (.cpyp tag a b cr e0 e1 e2 q es oc) (fun c m lc lk x s =>
    let v := m.reg cr
    let sz := esBytes es
    let tp := BitVec.ofNat 64 (64 * q.toNat)
    let rows := dimRows v
    let cols := dimCols v
    if !aligned64 [m.addr c a, m.addr c b, m.addr c e0, m.reg e1, m.reg e2] then s.faultCmd c m.id reasonAlign
    else if dimsBad es v || q = 0 then s.faultCmd c m.id reasonArgs
    else if !selectsL (m.addr c b) || x.matrixBad (m.addr c b) (m.reg e1) rows (cols * sz) || x.matrixBad (m.addr c a) (m.reg e2) rows (cols * sz) ||
        x.matrixBad (m.addr c e0) tp cols (rows * sz) then s.faultCmd c m.id reasonAddr
    else
      let plain := rows * copyLines (cols * sz)
      let line := fun i =>
        if i < plain then rowLine (m.addr c a) (m.addr c b) (cols * sz) (m.reg e2) (m.reg e1) i
        else transLine (m.addr c e0) (m.addr c b) tp (m.reg e1) rows sz (i - plain)
      if m.line < plain then s.moveLines c m.id lc lk false line id (plain - m.line)
      else if m.line = plain && !m.acks.isEmpty then s
      else s.runLines c m lc lk false line (plain + transLines rows cols sz)) s

/-! ## Host copies (R332) -/

def Target.isHostT : Target → Bool
  | .host _ => true
  | _ => false

/-- Is exactly one side host memory on every page of the range? A page with no leaf is for the pager first. -/
def State.oneHostSide (s : State) (c k : Nat) (x : Ctx) (a b : Word) (n : Nat) : Bool :=
  (List.range (n / 65536 + 2)).all fun i =>
    let o := BitVec.ofNat 64 (min (n - 1) (65536 * i))
    let p := (s.reach c k x true (a + o)).t
    let q := (s.reach c k x true (b + o)).t
    p == .hole || q == .hole || q == .away || Target.isHostT p != Target.isHostT q

def execCpyh (tag : BitVec 6) (a b cr : Reg) (ord : Bool) (oc : OClass) (s : State) : Out :=
  tuRun (.cpyh tag a b cr ord oc) (fun c m lc lk x s =>
    let n := lenOf (m.reg cr)
    let earlier := (s.cmdsOf m.part m.tid m.role).any fun q => q.seq < m.seq && (match q.word with | .cpyh .. => true | _ => false)
    if lenBad (m.reg cr) then s.faultCmd c m.id reasonArgs
    else if n = 0 then s.doneCmd c m.id
    else if ord && earlier then s
    else if x.rangeBad (m.addr c a) n || x.rangeBad (m.addr c b) n then s.faultCmd c m.id reasonAddr
    else if !s.oneHostSide lc lk x (m.addr c a) (m.addr c b) n then s.faultCmd c m.id reasonArgs
    else s.runLines c m lc lk true (copyLine (m.addr c a) (m.addr c b) n) (copyLines n)) s

/-! ## Decompression (R333, R334) -/

/-- The code words of a table of 256 lengths; none for an invalid table. -/
def codeWords (lens : List Nat) : Option (List (Nat × Nat)) :=
  let sum := (lens.map fun l => 2 ^ (15 - l)).foldl (· + ·) 0
  if lens.any (fun l => l == 0 || 15 < l) || 2 ^ 15 < sum then none
  else
    let cnt := fun l => if l = 0 then 0 else (lens.filter (· == l)).length
    let first := fun l => (List.range l).foldl (fun c i => (c + cnt i) * 2) 0
    some (lens.mapIdx fun s l => (l, first l + ((lens.take s).filter (· == l)).length))

/-- Decode one symbol from a bit position: the symbol and the position after it. -/
def decodeSymbol (cws : List (Nat × Nat)) (bs : List Byte) (bits : Nat) : Nat → Nat → Nat → Nat → Option (Nat × Nat)
  | 0, _, _, _ => none
  | f + 1, pos, v, l =>
    if pos = bits || l = 15 then none
    else
      let v := 2 * v + (if (bs.getD (pos / 8) 0).getLsbD (pos % 8) then 1 else 0)
      match cws.findIdx? fun q => q.1 == l + 1 && q.2 == v with
      | some sym => some (sym, pos + 1)
      | none => decodeSymbol cws bs bits f (pos + 1) v (l + 1)

/-- The output bytes up to LEN or the first failing symbol. -/
def decodeStreamBytes (cws : List (Nat × Nat)) (bs : List Byte) (bits : Nat) : Nat → Nat → List Byte
  | 0, _ => []
  | n + 1, pos =>
    match decodeSymbol cws bs bits 16 pos 0 0 with
    | some (sym, pos) => BitVec.ofNat 8 sym :: decodeStreamBytes cws bs bits n pos
    | none => []

/-- Write computed bytes to a command's destination from the line reached on, then end it. -/
def State.putBytes (s : State) (c id lc lk : Nat) (a : Word) (bs : List Byte) (bad : Bool) (fin : State → State) : Nat → State
  | 0 => fin s
  | f + 1 =>
    match s.cmd? c id, s.ctx? lc lk with
    | some m, some x =>
      let l := copyLine a 0 bs.length m.line
      let n := (l.segs.map Prod.snd).foldl (· + ·) 0
      let off := (l.dst - a).toNat
      if n = 0 then (s.updCmd c id fun m => { m with line := m.line + 1 }).putBytes c id lc lk a bs bad fin f
      else match s.writePiece lc lk x false l.dst ((bs.drop off).take n) bad (ackCmd c id) with
        | .hold a => s.holdCmd c id a
        | .bad r => s.faultCmd c id r
        | .wait s => s
        | .done s => (s.updCmd c id fun m => { m with line := m.line + 1 }).putBytes c id lc lk a bs bad fin f
    | _, _ => s

/-- Mark every destination line of a range that has not been written. -/
def State.poisonLines (s : State) (lc lk : Nat) (a : Word) (n from' : Nat) : State :=
  ((List.range (copyLines n)).drop from').foldl (fun s i =>
    let l := copyLine a 0 n i
    match s.ctx? lc lk with
    | some x => if l.segs.isEmpty then s else s.poisonAt (s.reach lc lk x true l.dst).t
    | none => s) s

def execCpyd (tag : BitVec 6) (a b cr e0 e1 : Reg) (oc : OClass) (s : State) : Out :=
  tuRun (.cpyd tag a b cr e0 e1 oc) (fun c m lc lk x s =>
    let n := lenOf (m.reg cr)
    let len := (m.reg e1).toNat
    if lenBad (m.reg cr) || 2 ^ 20 < n then s.faultCmd c m.id reasonArgs
    else if n = 0 then s.doneCmd c m.id
    else if !selectsL (m.addr c a) || x.rangeBad (m.addr c a) n || x.rangeBad (m.addr c b) len || x.rangeBad (m.addr c e0) 256 then s.faultCmd c m.id reasonAddr
    else
      let segs := unitPieces 6 (m.addr c e0) 256 ++ unitPieces (len / 64 + 2) (m.addr c b) len
      match s.readSegs lc lk x false m.got segs with
      | .error (.hold a) => s.holdCmd c m.id a
      | .error (.bad r) => s.faultCmd c m.id r
      | .error (.wait s) => s
      | .error _ => s
      | .ok (s, bs, bad, asks) =>
        if !asks.isEmpty then
          match s.askPieces c x asks with
          | .refused => s.faultCmd c m.id reasonAddr
          | .wait s => s
          | .sent s l => s.updCmd c m.id fun m => { m with asks := l }
        else if bad then (s.poisonLines lc lk (m.addr c a) n m.line).faultCmd c m.id reasonPoison
        else match codeWords ((bs.take 256).map BitVec.toNat) with
          | none => s.faultCmd c m.id reasonTable
          | some cws =>
            let out := decodeStreamBytes cws (bs.drop 256) (8 * len) n 0
            let fin := fun (s : State) => if out.length = n then s.doneCmd c m.id else s.faultCmd c m.id reasonStream
            s.putBytes c m.id lc lk (m.addr c a) out false fin (copyLines n + 1 - m.line)) s

/-! ## Chained loads (R335 to R338) -/

/-- The steps of a list in L, or a reason to end. Each is mask, offset and width code. -/
def stepsOf (bs : List Byte) : Nat → Nat → Except Nat (List (Word × Word × Nat))
  | 0, _ => .ok []
  | f + 1, i =>
    let e := (bs.drop (16 * i)).take 16
    if e.length < 16 then .ok []
    else
      let w := (e.getD 12 0).toNat
      if 4 ≤ w || (e.drop 13).any (· != 0) then .error reasonArgs
      else
        let off : Word := (BitVec.ofNat 32 (ofBytes ((e.drop 8).take 4))).signExtend 64
        match stepsOf bs f (i + 1) with
        | .ok l => .ok ((BitVec.ofNat 64 (ofBytes (e.take 8)), off, w) :: l)
        | .error r => .error r

def execChld (tag : BitVec 6) (a b cr : Reg) (nm1 k : BitVec 3) (dl : BitVec 11) (oc : OClass) (s : State) : Out :=
  tuRun (.chld tag a b cr nm1 k dl oc) (fun c m _ _ x s =>
    if !m.list.isEmpty then s
    else
      let n := nm1.toNat + 1
      let la := m.addr c cr
      if !selectsL la || !selectsL (m.addr c a) || x.rangeBad la (16 * n) || x.rangeBad (m.addr c a) 128 then s.faultCmd c m.id reasonAddr
      else if la.toNat % 16 ≠ 0 || (m.addr c a).toNat % 64 ≠ 0 then s.faultCmd c m.id reasonAlign
      else if n ≤ k.toNat then s.faultCmd c m.id reasonArgs
      else
        if m.got.any fun q => q.2.2 then s.faultCmd c m.id reasonPoison
        else match stepsOf m.out 8 0 with
          | .error r => s.faultCmd c m.id r
          | .ok [] => s.faultCmd c m.id reasonAddr
          | .ok l => s.updCmd c m.id fun m => { m with list := l, ptr := m.reg b, step := k.toNat, out := [], got := [] }) s

/-- A chain ends: code, reason and its present step; the reply is on its way (R337). -/
def State.endChain (s : State) (c id code reason : Nat) : State := s.updCmd c id fun m => { m with res := some (code, reason, m.step) }

/-- The steps left, as a packet carries them. -/
def stepBytes (l : List (Word × Word × Nat)) : List Byte := l.flatMap fun (mask, off, w) =>
  bytesOf 8 mask.toNat ++ bytesOf 4 (off.toNat % 2 ^ 32) ++ [BitVec.ofNat 8 w, 0, 0, 0]

/-- What a chain's packet carries before its steps: the hops made, the issuing device, the number of its request and the address that its
record answers (log 21). -/
def chainHead (hops origin rsn : Nat) (a : Word) : List Byte :=
  [BitVec.ofNat 8 hops] ++ bytesOf 2 origin ++ bytesOf 2 rsn ++ List.replicate 3 0 ++ bytesOf 8 a.toNat

/-- A chain step at the holder of the packet on this device (R336). -/
def State.chainStep (s : State) (core cmd : Nat) (m : TuCmd) (mask off : Word) (w : Nat) (rest : List (Word × Word × Nat)) (lc lk : Nat) (x : Ctx) : State :=
  let p := m.ptr
  let q := s.reach lc lk x false p
  let fault := fun r => s.endChain core cmd 1 r
  let called := fun r => { s.endChain core cmd 1 r with pager := s.pager ++ [.chain core p] }
  if !selectsG p then called reasonAddr
  else match q.t with
    | .lost => fault reasonTier
    | .hole | .away => called reasonXlate
    | .remote dev =>
      if !q.r then fault reasonAddr
      else match s.wayTo x.part dev with
      | .none => fault reasonAddr
      | .down => if s.inbox.contains (.peerLoss x.part dev) then s else { s with inbox := s.inbox ++ [.peerLoss x.part dev] }
      | .via _ h =>
        if 24 < m.hops + h then s.endChain core cmd 2 0
        else if !s.requestRoom core 1 then s
        else match s.sendRemote x.part dev 4 m.step (bitsAt p 0 56)
            (chainHead (m.hops + h) (s.part x.part).devnum (s.nextRsn x.part dev).toNat p ++ stepBytes m.list) with
          | .refused => fault reasonAddr
          | .wait s => s
          | .sent s ids => s.updCmd core cmd fun m => { m with asks := ids.map fun id => ⟨dev, p, 128, id⟩ }
    | .mem _ | .win .. =>
      if !q.r then fault reasonAddr
      else if s.bankBusy q.t then s
      else
        let s := (((s.settlePage x.part (bitsAt p 0 56) q.t).stamp q.t).noteReader lc lk q.t .read).crossed core q.t
        if rest.isEmpty then
          let wb := 8 * 2 ^ w
          if p.toNat % wb ≠ 0 then s.endChain core cmd 1 reasonAlign
          else
            let bs := s.readAt q.t wb
            let bad := !(s.marksAt q.t wb).isEmpty
            (s.updCmd core cmd fun m => { m with out := bs, got := [(p, [], bad)] }).endChain core cmd 0 0
        else if p.toNat % 8 ≠ 0 then s.endChain core cmd 1 reasonAlign
        else if !(s.marksAt q.t 8).isEmpty then s.endChain core cmd 1 reasonPoison
        else
          let v := BitVec.ofNat 64 (ofBytes (s.readAt q.t 8))
          s.updCmd core cmd fun m => { m with ptr := (v &&& mask) + off, step := m.step + 1, list := rest }
    | _ => called reasonAddr

def execChainStep (core cmd : Nat) (s : State) : Out :=
  match s.cmd? core cmd with
  | none => .next s
  | some m =>
    match m.list with
    | (mask, off, w) :: rest =>
      if s.overdue core m then .next (s.lateCmd core m)
      else if m.res.isSome || !m.asks.isEmpty then .next s
      else .next (s.inCtx m.part m.tid m.role fun lc lk x s => s.chainStep core cmd m mask off w rest lc lk x)
    | [] => .next s

/-- The reply record of a chain (R337). -/
def chainBytes (data : List Byte) (hops step reason code : Nat) (ptr : Word) : List Byte :=
  let data := if code = 0 then data else []
  data ++ List.replicate (64 - data.length) 0 ++ bytesOf 8 (hops % 32 * 2 ^ 24 + step % 8 * 2 ^ 16 + reason * 2 ^ 8 + code) ++
  bytesOf 8 ptr.toNat ++ bytesOf 8 (if code = 1 then ptr.toNat else 0) ++ List.replicate 40 0

def chainRecord (m : TuCmd) (code reason step : Nat) : List Byte := chainBytes m.out m.hops step reason code m.ptr

/-- The first register of a CHLD: where its record goes. -/
def TuCmd.record (m : TuCmd) (c : Nat) : Word := match m.word with
  | .chld _ a .. => m.addr c a
  | _ => 0

/-- A chain's reply is written; its tag is set when the writes have completed (R337). -/
def State.chainReply (s : State) (core cmd : Nat) (m : TuCmd) (step lc lk : Nat) (x : Ctx) : State :=
  let rec' := if m.out.length = 128 then m.out else match m.res with
    | some (code, reason, step) => chainRecord m code reason step
    | none => []
  let bad := m.got.any fun q => q.2.2
  let bad' := fun r => s.updCmd core cmd fun m => { m with list := [], res := some (1, r, step) }
  match s.writePiece lc lk x false (m.record core) (rec'.take 64) bad (ackCmd core cmd) with
  | .done s =>
    match s.writePiece lc lk x false (m.record core + 64) (rec'.drop 64) false (ackCmd core cmd) with
    | .done s => s.updCmd core cmd fun m => { m with list := [] }
    | .wait s => s
    | .hold a => s.holdCmd core cmd a
    | .bad r => bad' r
  | .wait s => s
  | .hold a => s.holdCmd core cmd a
  | .bad r => bad' r

def execChainReply (core cmd : Nat) (s : State) : Out :=
  match s.cmd? core cmd with
  | none => .next s
  | some m =>
    match m.res with
    | some (_, _, step) =>
      if s.overdue core m then .next (s.lateCmd core m)
      else if m.list.isEmpty || m.held then .next s
      else .next (s.inCtx m.part m.tid m.role fun lc lk x s => s.chainReply core cmd m step lc lk x)
    | none => .next s

/-! ## Prefetch and eviction (R339, R340) -/

/-- The leaves of a range, page by page: none where one is missing. -/
def State.pagesOf (s : State) (p lo n : Nat) : List (Nat × Option Cached) := (List.range (n / 65536 + 2)).filterMap fun i =>
  let a := (lo / 65536 + i) * 65536
  if a < lo + n then some (a, s.translate p (a % 2 ^ 56)) else none

def execPfch (tag : BitVec 6) (a b cr : Reg) (oc : OClass) (s : State) : Out :=
  tuRun (.pfch tag a b cr oc) (fun c m _ _ x s =>
    let n := lenOf (m.reg cr)
    let cls := (m.reg b).toNat
    if lenBad (m.reg cr) || cls = 0 || 3 < cls then s.faultCmd c m.id reasonArgs
    else if n = 0 then s.doneCmd c m.id
    else if !selectsG (m.addr c a) || x.rangeBad (m.addr c a) n then s.faultCmd c m.id reasonAddr
    else
      let pages := s.pagesOf x.part (bitsAt (m.addr c a) 0 56) n
      let kind := fun (q : Nat × Option Cached) => match q.2 with | some e => entryKind e.entry | none => 0
      if pages.any fun q => kind q == 3 || kind q == 4 then s.faultCmd c m.id reasonArgs
      else match pages.find? fun q => kind q != 1 with
        | some q => s.holdCmd c m.id (BitVec.ofNat 64 q.1)
        | none =>
          let slow := pages.filter fun q => match q.2 with
            | some e => cls < tierClass (entryBody e.entry + q.1 % 2 ^ e.size) (dieOf c)
            | none => false
          let busy := fun (q : Nat × Option Cached) => s.promoting.any fun r => r.part == x.part && r.page == q.1 / 65536
          if slow.isEmpty then (if pages.any busy then s else s.doneCmd c m.id)
          else { s with promoting := s.promoting ++ (slow.filter fun q => !busy q).map fun q => ⟨x.part, q.1 / 65536, cls, dieOf c⟩ }) s

/-- Two scratchpad regions share a line. -/
def srmOverlaps (a b n m : Nat) : Bool := a < b + m && b < a + n

def execPfchMap (tag : BitVec 6) (a b cr : Reg) (oc : OClass) (s : State) : Out :=
  tuRun (.pfchMap tag a b cr oc) (fun c m lc lk x s =>
    let v := m.reg cr
    let i := bitsAt v 16 4
    let n := bitsAt v 0 13
    let base := bitsAt (m.addr c a) 8 12
    let fill := v.getLsbD 20
    if m.step = 0 then
      if !selectsL (m.addr c a) || !selectsG (m.reg b) || bitsAt (m.addr c a) 20 36 ≠ 0 then s.faultCmd c m.id reasonAddr
      else if (m.addr c a).toNat % 256 ≠ 0 || (m.reg b).toNat % 256 ≠ 0 then s.faultCmd c m.id reasonAlign
      else if bitsAt v 13 3 ≠ 0 || bitsAt v 21 19 ≠ 0 || n = 0 || 4096 < n || 4096 < base + n ||
          x.srm.any (fun (j, e) => srmValid e && (j == i || srmOverlaps base (srmFirst e) n (srmLines e))) then s.faultCmd c m.id reasonArgs
      else
        let w0 := BitVec.ofNat 64 (2 ^ 63 + oc.toNat * 2 ^ 56 + bitsAt (m.reg b) 8 48 * 256)
        let w1 := BitVec.ofNat 64 (n * 2 ^ 20 + base * 256)
        let s := s.updCtx lc lk fun x => { x with srm := Tab.put x.srm i (w0, w1) }
        if fill then s.updCmd c m.id fun m => { m with step := 1 } else s.doneCmd c m.id
    else
      let lines := (List.range n).map (base + ·)
      match lines.find? fun l => !(x.line l).rgf with
      | none => s.doneCmd c m.id
      | some l => match s.touch lc lk l false with
        | .full => s.faultCmd c m.id reasonAddr
        | .ready s => s
        | .filling s => s) s

def execEvct (tag : BitVec 6) (a cr : Reg) (oc : OClass) (s : State) : Out :=
  tuRun (.evct tag a cr oc) (fun c m lc lk x s =>
    let n := lenOf (m.reg cr)
    let addr := m.addr c a
    if lenBad (m.reg cr) then s.faultCmd c m.id reasonArgs
    else if n = 0 then s.doneCmd c m.id
    else if (!selectsL addr && !selectsG addr) || x.rangeBad addr n then s.faultCmd c m.id reasonAddr
    else if selectsG addr then
      let hit := (s.pagesOf x.part (bitsAt addr 0 56) n).filterMap fun q => q.2.bind fun e =>
        if entryKind e.entry = 1 then some (pageOf (entryBody e.entry), 2 ^ e.size / 65536) else none
      ({ s with stamps := s.stamps.filter fun q => !hit.any fun (p, k) => p ≤ q.1 && q.1 < p + k }).doneCmd c m.id
    else
      let lo := bitsAt addr 0 20 / 256
      match s.writeBackAll lc lk (some m.id) (ackBoth c m.id lc lk) (x.dirtyLines lo ((bitsAt addr 0 20 + n - 1) / 256 + 1 - lo)) with
      | .done s => s.doneCmd c m.id
      | .hold p => s.holdCmd c m.id p
      | .bad r => s.faultCmd c m.id r
      | .wait s => s
      | .asked s _ => s) s

def execEvctUnmap (tag : BitVec 6) (a : Reg) (oc : OClass) (s : State) : Out :=
  tuRun (.evctUnmap tag a oc) (fun c m lc lk x s =>
    let i := bitsAt (m.reg a) 0 4
    match Tab.find x.srm i with
    | none => s.faultCmd c m.id reasonArgs
    | some e =>
      if bitsAt (m.reg a) 4 60 ≠ 0 || !srmValid e then s.faultCmd c m.id reasonArgs
      else match s.writeBackAll lc lk (some m.id) (ackBoth c m.id lc lk) (x.dirtyLines (srmFirst e) (srmLines e)) with
        | .done s =>
          let s := s.updCtx lc lk fun x => { x with
            srm := Tab.put x.srm i (e.1 &&& ~~~(1#64 <<< 63), e.2)
            lines := x.lines.map fun (j, l) => (j, if srmFirst e ≤ j ∧ j < srmFirst e + srmLines e then { l with rgf := false, rgd := false } else l) }
          s.doneCmd c m.id
        | .hold p => s.holdCmd c m.id p
        | .bad r => s.faultCmd c m.id r
        | .wait s => s
        | .asked s _ => s) s

/-! ## Contributions and ready flags (R341, R342, R439) -/

def redRdy (w : Word) : Bool := w.getLsbD 63
def redArmed (w : Word) : Bool := w.getLsbD 62

/-- One more contribution lands on a line. -/
def landed (w : Word) : Word :=
  let cnt := min 65535 (bitsAt w 0 16 + 1)
  let v := putBits w 0 16 cnt
  if redRdy w then v ||| (1#64 <<< 61)
  else if redArmed w && cnt = bitsAt w 32 16 then v ||| (1#64 <<< 63)
  else v

def State.landLine (s : State) (core slice off : Nat) : State :=
  let sl := s.slice core slice
  s.setSlice core slice { sl with red := Tab.upd 0 sl.red (off / 64) landed }

/-- The write-port add of 16 FP32 words to a window line (R286, R341). -/
def State.portAdd (s : State) (core slice off : Nat) (src : List Byte) : State × Ev :=
  let old := s.readAt (.win core slice off) 64
  let r := (List.range 16).map fun i =>
    fp32Rne (vAdd false (decodeVal .fp32 (ofBytes ((old.drop (4 * i)).take 4))) (decodeVal .fp32 (ofBytes ((src.drop (4 * i)).take 4))))
  (s.writeAt (.win core slice off) (r.flatMap fun q => bytesOf 4 q.1), Ev.sum (r.map Prod.snd))

/-- One CTRB line at its window: the add, or a mark in its place; the contribution is counted either way. -/
def State.contribute (s : State) (core slice off : Nat) (xa : Bool) (src : List Byte) (bad : Bool) : State × Ev :=
  let t := Target.win core slice off
  let r := if bad then (s.poisonAt t, Ev.zero)
    else if !(s.marksAt t 64).isEmpty then (s, Ev.zero)
    else if xa then ((s.port core slice off .xadd (BitVec.ofNat 64 (ofBytes (src.take 4))) 0).1, Ev.zero)
    else s.portAdd core slice off src
  (r.1.landLine core slice off, r.2)

/-- A TU command is refused by the determinism check: the cause goes to the SQ with the word's place (R341). -/
def State.reportDet (s : State) (c : Nat) (m : TuCmd) (lc lk idx : Nat) : State :=
  let w : Cause := ⟨DETTRAP, m.form + BitVec.ofNat 64 (idx % 2 ^ 18 * 4096)⟩
  let s := s.faultCmd c m.id reasonDetchk
  match (s.core lc).tu.find? fun n => n.slot == lk && n.firstSeq == m.entry with
  | some n => s.setEntry lc .tu n { n with failed := some w, busy := false }
  | none => s.abort lc lk w

/-- The lines of a CTRB from the place reached on. -/
def State.ctrbLines (s : State) (c id lc lk : Nat) (xa : Bool) (a b : Word) : Nat → State
  | 0 => s.doneCmd c id
  | f + 1 =>
    match s.cmd? c id, s.ctx? lc lk with
    | some m, some x =>
      let dst := a + BitVec.ofNat 64 (64 * m.line)
      let n := if xa then 4 else 64
      let next := fun (s : State) => (s.updCmd c id fun m => { m with line := m.line + 1 }).ctrbLines c id lc lk xa a b f
      match s.readPiece lc lk x false (b + BitVec.ofNat 64 (n * m.line)) n with
      | .wait s => s
      | .bad r => s.faultCmd c id r
      | .hold p => s.holdCmd c id p
      | .ask _ => s.faultCmd c id reasonAddr
      | .bytes s bs bad =>
        let q := s.reach lc lk x true dst
        match q.t with
        | .hole => s.holdCmd c id dst
        | .lost => s.faultCmd c id reasonTier
        | .remote dev =>
          if !q.w then s.faultCmd c id reasonRights
          else if !q.r then s.faultCmd c id reasonAddr
          else if !s.requestRoom c 1 then s
          else match s.sendRemote x.part dev 5 ((if xa then 1 else 0) + (if bad then 0x80 else 0)) (bitsAt dst 0 56)
              (bs ++ detBytes (if xa then x.detKey else none) true false) with
            | .refused => s.faultCmd c id reasonAddr
            | .wait s => s
            | .sent s ids =>
              let s := ackCmd c id s dev (ids.headD 0)
              if xa && x.detKey.isSome then s.updCmd c id fun m => { m with line := m.line + 1, asks := ids.map fun id => ⟨dev, dst, n, id⟩ }
              else next s
        | .win core slice off =>
          if !q.w then s.faultCmd c id reasonRights
          else if !q.r then s.faultCmd c id reasonAddr
          else match s.detCheck (if xa then x.detKey else none) core slice off true with
            | none => s.reportDet c m lc lk m.line
            | some s =>
              let r := (s.crossed c q.t).contribute core slice off xa bs bad
              next (r.1.countEv x.part m.kern x.recomp .fp32 r.2)
        | _ => s.faultCmd c id reasonAddr
    | _, _ => s

def ctrbBody (xa : Bool) (a b cr : Reg) (c : Nat) (m : TuCmd) (lc lk : Nat) (x : Ctx) (s : State) : State :=
  let n := lenOf (m.reg cr)
  let lines := if xa then n / 4 else n / 64
  if lenBad (m.reg cr) then s.faultCmd c m.id reasonArgs
  else if n = 0 then s.doneCmd c m.id
  else if !selectsL (m.addr c b) || x.rangeBad (m.addr c b) n || x.rangeBad (m.addr c a) (64 * lines) then s.faultCmd c m.id reasonAddr
  else if !aligned64 [m.addr c a] || (!xa && !aligned64 [m.addr c b]) then s.faultCmd c m.id reasonAlign
  else if (if xa then n % 4 ≠ 0 else n % 64 ≠ 0) then s.faultCmd c m.id reasonArgs
  else if !xa && x.det then s.reportDet c m lc lk 0
  else s.ctrbLines c m.id lc lk xa (m.addr c a) (m.addr c b) (lines - m.line)

def execCtrb (tag : BitVec 6) (a b cr : Reg) (oc : OClass) (s : State) : Out := tuRun (.ctrb tag a b cr oc) (ctrbBody false a b cr) s
def execCtrbXa (tag : BitVec 6) (a b cr : Reg) (oc : OClass) (s : State) : Out := tuRun (.ctrbXa tag a b cr oc) (ctrbBody true a b cr) s

def execRdyw (tag : BitVec 6) (a cr : Reg) (oc : OClass) (s : State) : Out :=
  tuRun (.rdyw tag a cr oc) (fun c m lc lk x s =>
    if bitsAt (m.reg cr) 0 40 ≠ 0 then s.faultCmd c m.id reasonArgs
    else if x.rangeBad (m.addr c a) 64 then s.faultCmd c m.id reasonAddr
    else if !aligned64 [m.addr c a] then s.faultCmd c m.id reasonAlign
    else
      let q := s.reach lc lk x true (m.addr c a)
      match q.t with
      | .hole => s.holdCmd c m.id (m.addr c a)
      | .lost => s.faultCmd c m.id reasonTier
      | .win core slice off =>
        if !q.r then s.faultCmd c m.id reasonAddr
        else if redRdy (Tab.get 0 (s.slice core slice).red (off / 64)) then s.doneCmd c m.id else s
      | _ => s.faultCmd c m.id reasonAddr) s

/-! ## The events of commands (R320, R322, R323) -/

/-- The TU accepts the word at its place; the command goes on at its own turns. -/
def execTuAccept (core : Nat) (s : State) : Out :=
  match (s.core core).current .tu with
  | none => .next s
  | some n =>
    match s.ctx? core n.slot with
    | none => .next s
    | some x =>
      match s.entryWords core x .tu n with
      | [] => .next s
      | w :: rest =>
        if n.busy || isDep w then .next s
        else match decodeTu w rest with
          | .bad o => .next (s.failEntry core .tu ⟨ENGILL, engineForm .tu n 0 (n.pos + o)⟩)
          | .ok i _ => .next (s.tryAccept core n x i).2

/-- A command that has ended and whose stores have been answered sets its tag (R323, R324). -/
def execTuCommandFinish (core cmd : Nat) (s : State) : Out :=
  match s.cmd? core cmd with
  | none => .next s
  | some m =>
    match m.res with
    | some (code, reason, step) =>
      if s.overdue core m then .next (s.lateCmd core m)
      else if m.list.isEmpty && m.acks.isEmpty then .next (s.finishCmd core m code reason step) else .next s
    | none => .next s

/-- A deadline: a command whose tag is not set by then ends LATE; one that is done ends as it is (R322, R344). -/
def execCopyDeadline (core cmd : Nat) (s : State) : Out :=
  match s.cmd? core cmd with
  | none => .next s
  | some m =>
    if m.dl = 0 || ((s.core core).cyc - m.accepted).toNat < m.dl || (m.res.isSome && m.list.isEmpty && m.acks.isEmpty) then .next s
    else .next (s.lateCmd core m)

end Sys2Proof.Machine
end

