-- ==== Sys2Proof/Machine/Rings.lean ====
section
/-! DEFINITION. Scratchpad rings and the memory-side streams that fill and drain them (R352 to R360). -/

namespace Sys2Proof.Machine

/-! ## Descriptors and status (R353, R354) -/

def Ring.slots (r : Ring) : Nat := r.nslot + 1
def Ring.lines (r : Ring) : Nat := r.slines + 1

/-- Differences of the free-running counts, modulo 2^16 (R352). -/
def Ring.filled (r : Ring) : Nat := (r.tail - r.claim).toNat
def Ring.inUse (r : Ring) : Nat := (r.tail - r.head).toNat
def Ring.claimed (r : Ring) : Nat := (r.claim - r.head).toNat

def Ring.status (r : Ring) : Word :=
  BitVec.ofNat 64 (one r.fault * 2 ^ 51 + one r.done * 2 ^ 50 + one r.bound * 2 ^ 49 + one r.valid * 2 ^ 48 +
    r.tail.toNat * 2 ^ 32 + r.claim.toNat * 2 ^ 16 + r.head.toNat)

def noStream : Word := 1#64 <<< 52

def Ring.ended (r : Ring) : Bool := r.done || r.fault

/-- Has a stream begun a tile and not completed it? -/
def Ring.begun (q : Ring) : Bool := q.line != 0 || (q.kind == 2 && q.claimed == 1)

/-- Are transfers of a stream in flight: a tile that it goes on with, a read or a store that is not answered (R359, R360)? -/
def Ring.inFlight (q : Ring) : Bool := !q.acks.isEmpty || !q.asks.isEmpty || (q.kind != 0 && q.begun && !q.ended && !q.held)

/-- The ring that a descriptor defines. -/
def ringOf (w0 w1 w2 w3 : Word) : Ring :=
  let kind := bitsAt w0 62 2
  { Ring.empty with
    valid := true, bound := kind != 0, kind := kind, ocls := bitsAt w0 56 4, nslot := bitsAt w0 44 12, slines := bitsAt w0 32 12
    lbase := bitsAt w0 8 12, gbase := w1, gstride := w2, count := bitsAt w3 0 32 }

/-- Does a descriptor break R353 or R359? -/
def Ctx.ringBad (x : Ctx) (n : Nat) (w0 w1 w2 w3 : Word) : Bool :=
  let r := ringOf w0 w1 w2 w3
  let size := r.slots * r.lines
  bitsAt w0 60 2 != 0 || bitsAt w0 20 12 != 0 || bitsAt w0 0 8 != 0 || bitsAt w3 32 32 != 0 || r.kind == 3 ||
  4096 < r.lbase + size ||
  x.srm.any (fun (_, e) => srmValid e && srmOverlaps r.lbase (srmFirst e) size (srmLines e)) ||
  x.rings.any (fun (i, q) => i != n && q.valid && srmOverlaps r.lbase q.lbase size (q.slots * q.lines)) ||
  (r.kind != 0 && (w1.toNat % 64 != 0 || w2.toNat % 64 != 0 || r.count == 0))

def Ctx.ring (x : Ctx) (r : BitVec 3) : Ring := Tab.get Ring.empty x.rings r.toNat
def Ctx.setRing (x : Ctx) (n : Nat) (r : Ring) : Ctx := { x with rings := Tab.put x.rings n r }

/-- Streams bound on a die, in slots and in images. -/
def State.boundStreams (s : State) (die : Nat) : Nat :=
  let count := fun (x : Ctx) => (x.rings.filter fun (_, r) => r.bound).length
  ((s.cores.filter fun (c, _) => dieOf c == die).flatMap fun (_, r) => r.ctxs.map fun (_, x) => count x).foldl (· + ·) 0 +
  (s.tasks.flatMap fun t => (t.images.filter fun i => dieOf i.fromCore == die).map fun i => count i.ctx).foldl (· + ·) 0

/-! ## The ring instructions (R357 to R359) -/

def ringVal (r : BitVec 3) : Word := zext r

/-- Every entry that the context appended has ended, and every SQ access has completed (R350, R358). -/
def State.quiet (s : State) (c k : Nat) (x : Ctx) : Bool := s.accIdle c k x && x.tiles.isEmpty

def execRpush (d a : Reg) (r : BitVec 3) (g : Pred) (s : State) : Out :=
  sqRun g [a] s fun c k x =>
    let q := x.ring r
    let n := (x.reg a).toNat
    if !q.valid || q.kind = 1 then s.trap c k ILLOP (ringVal r)
    else if q.slots < q.inUse + n then s.trap c k ILLOP (x.reg a)
    else if n ≠ 0 && !s.quiet c k x then s
    else
      let q := { q with tail := q.tail + BitVec.ofNat 16 n }
      s.setCtx c k ((x.step.setRing r.toNat q).setReg d q.status)

def execRpop (d a : Reg) (r : BitVec 3) (g : Pred) (s : State) : Out :=
  sqRun g [a] s fun c k x =>
    let q := x.ring r
    let n := (x.reg a).toNat
    if !q.valid || q.kind = 2 then s.trap c k ILLOP (ringVal r)
    else if q.claimed < n then s.trap c k ILLOP (x.reg a)
    else if n ≠ 0 && !s.quiet c k x then s
    else
      let q := { q with head := q.head + BitVec.ofNat 16 n }
      s.setCtx c k ((x.step.setRing r.toNat q).setReg d q.status)

def execWfill (d a : Reg) (r : BitVec 3) (g : Pred) (s : State) : Out :=
  sqRun g [a] s fun c k x =>
    let q := x.ring r
    let n := (x.reg a).toNat
    if !q.valid || q.kind = 2 then s.trap c k ILLOP (ringVal r)
    else if q.slots < n then s.trap c k ILLOP (x.reg a)
    else if n ≤ q.filled then
      s.setCtx c k ((x.step.setRing r.toNat { q with claim := q.claim + BitVec.ofNat 16 n }).setReg d (BitVec.ofNat 64 (q.claim.toNat % q.slots)))
    else if q.ended then s.setCtx c k (x.step.setReg d (BitVec.allOnes 64))
    else s

def execWfree (d a : Reg) (r : BitVec 3) (g : Pred) (s : State) : Out :=
  sqRun g [a] s fun c k x =>
    let q := x.ring r
    let n := (x.reg a).toNat
    if !q.valid || q.kind = 1 then s.trap c k ILLOP (ringVal r)
    else if q.slots < n then s.trap c k ILLOP (x.reg a)
    else if n = 0 || q.inUse + n ≤ q.slots then s.setCtx c k (x.step.setReg d (BitVec.ofNat 64 (q.tail.toNat % q.slots)))
    else s

def execSubscr (d a : Reg) (r : BitVec 3) (g : Pred) (s : State) : Out :=
  sqRun g [a] s fun c k x =>
    let addr := x.reg a
    let q := x.ring r
    if addr = 0 then
      if q.inFlight then s.setCtx c k (x.setRing r.toNat { q with bound := false })
      else (s.setCtx c k ((x.step.setRing r.toNat Ring.empty).setReg d 0)).unlock (.stream x.part x.tid x.role r.toNat)
    else if addr.toNat % 32 ≠ 0 then s.trap c k MISALIGN addr
    else s.devRead c k x addr 32 addr fun s bs =>
      let w := fun i => BitVec.ofNat 64 (ofBytes ((bs.drop (8 * i)).take 8))
      if q.valid then s.trap c k ILLOP (ringVal r)
      else if x.ringBad r.toNat (w 0) (w 1) (w 2) (w 3) then s.trap c k ILLOP addr
      else
        let n := ringOf (w 0) (w 1) (w 2) (w 3)
        if n.bound && 512 ≤ s.boundStreams (dieOf c) then s.updCtx c k fun x => x.step.setReg d noStream
        else s.updCtx c k fun x => (x.step.setRing r.toNat n).setReg d n.status

/-! ## Streams (R355, R360) -/

/-- The context of a member of a task with the core that it is on, or was saved from. -/
def State.memberCtx (s : State) (p : Nat) (tid : Word) (role : Nat) : Option (Nat × Ctx) :=
  match s.resident p tid role with
  | some (c, _, x) => some (c, x)
  | none => (s.task? p tid).bind fun t => (t.images.find? fun i => i.role == role).map fun i => (i.fromCore, i.ctx)

def State.updStream (s : State) (x : Ctx) (ring : Nat) (f : Ring → Ring) : State :=
  s.onMember x.part x.tid x.role fun y => y.setRing ring (f (Tab.get Ring.empty y.rings ring))

/-- What storing a unit into a slot gives. -/
inductive SlotPut where
  | done (s : State)
  | wait (s : State)
  | full

/-- Store one 64-byte unit into a slot, whose banks the stream then holds locked (R131). -/
def State.slotWrite (s : State) (core slot ring : Nat) (x : Ctx) (off : Nat) (bs : List Byte) (bad : Bool) : SlotPut :=
  match s.touch core slot (off / 256) false with
  | .full => .full
  | .filling s => .wait s
  | .ready s => .done ((s.writeMarked (.l core slot off) bs bad).lockBanks core (.stream x.part x.tid x.role ring) off bs.length)

/-- One 64-byte unit of a slot with its mark. -/
def Ctx.slotRead (x : Ctx) (off : Nat) : List Byte × Bool := (x.l.read off 64, (x.line (off / 256)).pois.getLsbD (off / 64 % 4))

/-- May a stream take a tile now? -/
def Ring.live (q : Ring) : Bool := q.valid && q.bound && !q.ended && !q.held && q.asks.isEmpty && q.pos < q.count

def Ctx.aborting (x : Ctx) : Bool := match x.life with
  | .aborting _ => true
  | _ => false

/-- Does a stream move: it takes a tile, or goes on with the one it has begun, which it completes when its context ends or SUBSCR stops it
(R359, R360)? -/
def Ring.takes (q : Ring) (x : Ctx) : Bool :=
  (q.live && !x.aborting) || (q.kind != 0 && q.begun && !q.ended && !q.held && q.asks.isEmpty)

def Ring.tile (q : Ring) : Word := q.gbase + BitVec.ofNat 64 q.pos * q.gstride

/-- The stream stops at this tile for the pager (R355). -/
def State.holdStream (s : State) (ring : Nat) (x : Ctx) (addr : Word) : State :=
  { s.updStream x ring fun q => { q with held := true } with pager := s.pager ++ [.stream x.part x.tid x.role ring addr] }

def State.faultStream (s : State) (x : Ctx) (ring : Nat) : State :=
  (s.updStream x ring fun q => { q with fault := true }).unlock (.stream x.part x.tid x.role ring)

/-- A tile has moved: its locks go. -/
def State.tileDone (s : State) (x : Ctx) (ring : Nat) (f : Ring → Ring) : State :=
  (s.updStream x ring fun q => f { q with pos := q.pos + 1, line := 0, done := q.pos + 1 == q.count }).unlock (.stream x.part x.tid x.role ring)

/-- Fill a slot from its tile, unit by unit; TAIL counts when all of it is there. -/
def State.fillSlot (s : State) (core slot ring : Nat) : Nat → State
  | 0 => s
  | n + 1 =>
    match s.ctx? core slot with
    | none => s
    | some x =>
      let q := Tab.get Ring.empty x.rings ring
      if 4 * q.lines ≤ q.line then s.tileDone x ring fun q => { q with tail := q.tail + 1 }
      else
        let a := q.tile + BitVec.ofNat 64 (64 * q.line)
        let off := 256 * (q.lbase + q.tail.toNat % q.slots * q.lines) + 64 * q.line
        let next := fun (s : State) bs bad => match s.slotWrite core slot ring x off bs bad with
          | .full => s.faultStream x ring
          | .wait s => s.updStream x ring fun q => { q with got := [(a, bs, bad)] }
          | .done s => (s.updStream x ring fun q => { q with line := q.line + 1, got := [] }).fillSlot core slot ring n
        match q.got.find? fun w => w.1 == a with
        | some (_, bs, bad) => next s bs bad
        | none =>
          if !selectsG a then s.faultStream x ring
          else match s.readPiece core slot x false a 64 with
            | .bytes s bs bad => next s bs bad
            | .hold p => s.holdStream ring x p
            | .bad _ => s.faultStream x ring
            | .wait s => s
            | .ask dev => match s.askPieces core x [(dev, a, 64)] with
              | .refused => s.faultStream x ring
              | .wait s => s
              | .sent s l => s.updStream x ring fun q => { q with asks := l }

/-- How a stream notes a store to another device. -/
def ackRing (x : Ctx) (ring : Nat) (s : State) (dev rsn : Nat) : State := s.updStream x ring fun q => { q with acks := q.acks ++ [(dev, rsn)] }

/-- Does an address lie in a Slate page? Only TU commands write there (R308, R310). -/
def State.inSlate (s : State) (core slot : Nat) (x : Ctx) (a : Word) : Bool := match (s.reach core slot x false a).t with
  | .mem pa => isSlate pa
  | _ => false

/-- Drain a slot into its tile; HEAD counts when every write has completed. -/
def State.drainSlot (s : State) (core slot ring : Nat) : Nat → State
  | 0 => s
  | n + 1 =>
    match s.ctx? core slot with
    | none => s
    | some x =>
      let q := Tab.get Ring.empty x.rings ring
      if 4 * q.lines ≤ q.line then
        if q.acks.isEmpty then s.tileDone x ring fun q => { q with head := q.head + 1 } else s
      else
        let a := q.tile + BitVec.ofNat 64 (64 * q.line)
        let off := 256 * (q.lbase + (q.claim - 1).toNat % q.slots * q.lines) + 64 * q.line
        let d := x.slotRead off
        if !selectsG a || s.inSlate core slot x a then s.faultStream x ring
        else match s.writePiece core slot x false a d.1 d.2 (ackRing x ring) with
          | .hold p => s.holdStream ring x p
          | .bad _ => s.faultStream x ring
          | .wait s => s
          | .done s => (s.updStream x ring fun q => { q with line := q.line + 1 }).drainSlot core slot ring n

/-- An IN stream moves its next tile, into its context or its image (R355, R360). -/
def execStreamInTile (part : Nat) (member : Member) (ring : Nat) (s : State) : Out :=
  match s.memberCtx part member.tid member.role with
  | none => .next s
  | some (_, x) =>
    let q := Tab.get Ring.empty x.rings ring
    if q.kind ≠ 1 || !q.takes x || (!q.begun && q.slots ≤ q.inUse) then .next s
    else .next (s.inCtx part member.tid member.role fun c k _ s => s.fillSlot c k ring (4 * q.lines + 1))

/-- An OUT stream moves its next tile; CLAIM counts before the first write (R355, R360). -/
def execStreamOutTile (part : Nat) (member : Member) (ring : Nat) (s : State) : Out :=
  match s.memberCtx part member.tid member.role with
  | none => .next s
  | some (_, x) =>
    let q := Tab.get Ring.empty x.rings ring
    if q.kind ≠ 2 || !q.takes x || (!q.begun && q.filled = 0) then .next s
    else
      let s := if q.begun then s else s.updStream x ring fun q => { q with claim := q.claim + 1 }
      .next (s.inCtx part member.tid member.role fun c k _ s => s.drainSlot c k ring (4 * q.lines + 1))

end Sys2Proof.Machine
end

