-- ==== Sys2Proof/Machine/Naming.lean ====
section
/-! DEFINITION. The naming-table instructions: OTW, GBIND, PTINV, RLAUNCH and ROUTW (R376 to R402). -/

namespace Sys2Proof.Machine

/-- Word i of bytes. -/
def wordAt (bs : List Byte) (i : Nat) : Word := BitVec.ofNat 64 (ofBytes ((bs.drop (8 * i)).take 8))

/-- Write bytes of G memory as the device itself does; a byte whose leaf is not resident goes nowhere. -/
def State.writeG (s : State) (p addr : Nat) (bs : List Byte) : State :=
  (bs.mapIdx fun i v => (i, v)).foldl (fun s (i, v) => match s.translate p ((addr + i) % 2 ^ 56) with
    | some e => if entryKind e.entry = 1 then { s with mem := s.mem.set (entryBody e.entry + (addr + i) % 2 ^ e.size) v } else s
    | none => s) s

/-- A poisoned unit of a range on resident leaves. -/
def State.poisonG (s : State) (p addr n : Nat) : Option Word :=
  (devPieces (BitVec.ofNat 64 addr) n).findSome? fun (a, _) => match s.translate p (bitsAt a 0 56) with
    | some e => if entryKind e.entry = 1 && s.memPois.contains ((entryBody e.entry + bitsAt a 0 56 % 2 ^ e.size) / 64) then some (unitOf a) else none
    | none => none

def Ctx.accessesDone (x : Ctx) : Bool := x.stores.isEmpty && x.loads.isEmpty

/-! ## OTW (R377 to R379) -/

/-- The malformed entries of status 2. -/
def objBad (w0 w1 w2 : Word) : Bool :=
  bitsAt w0 48 9 != 0 || bitsAt w0 0 32 != 0 || bitsAt w2 40 24 != 0 || objKind w0 == 0 || 5 < objKind w0 ||
  (objX w0 && objKind w0 != 1) || w1.toNat % 64 != 0 || w2 == 0

/-- The kind's check of R378 that the entry alone decides; one of contents has their length and the check of their bytes. -/
def kindCheck (w0 w1 w2 ks : Word) : Bool × Option (Nat × (List Byte → Bool)) :=
  let contents := fun (n : Nat) (f : List Byte → Bool) => (ks == 0 && w2.toNat == n && selectsG w1, some (n, f))
  match objKind w0 with
  | 3 => (bitsAt ks 0 4 != 0 && bitsAt ks 4 4 == 0 && bitsAt ks 40 24 == 0, none)
  | 4 => contents 32 fun bs =>
    let w := wordAt bs
    let r := ringOf (w 0) (w 1) (w 2) (w 3)
    !(bitsAt (w 0) 60 2 != 0 || bitsAt (w 0) 20 12 != 0 || bitsAt (w 0) 0 8 != 0 || bitsAt (w 3) 32 32 != 0 || r.kind == 3 ||
      4096 < r.lbase + r.slots * r.lines ||
      (r.kind != 0 && ((w 1).toNat % 64 != 0 || (w 2).toNat % 64 != 0 || r.count == 0)))
  | 5 => contents 256 fun bs => (codeWords (bs.map BitVec.toNat)).isSome
  | _ => (ks == 0, none)

/-- Does a resident context of a partition run from a copy of an image? -/
def State.runsFrom (s : State) (key : ImgKey) : Bool := s.cores.any fun (_, r) => r.ctxs.any fun (_, x) => x.life != .free && x.image == key

def execOtw (d a b : Reg) (g : Pred) (s : State) : Out :=
  sqRun g [a, b] s fun c k x =>
    let addr := x.reg a
    let i := (x.reg b).toNat
    let p := x.part
    let fin := fun (s : State) v => s.updCtx c k fun x => x.step.setReg d v
    if !x.sys then s.trap c k PRIV (x.reg b)
    else if i = 0 || (s.part p).otsize ≤ i then s.trap c k ILLOP (x.reg b)
    else if addr.toNat % 32 ≠ 0 then s.trap c k MISALIGN addr
    else s.devRead c k x addr 32 addr fun s bs =>
      let w := wordAt bs
      let gen := (objGen (s.object p i).1 + 1) % 65536
      let go := fun (s : State) =>
        if s.runsFrom ⟨p, i, gen⟩ then fin s 4
        else if !x.accessesDone then s
        else fin (s.writeG p ((s.part p).otbase.toNat + 32 * i) (bytesOf 8 (putBits (w 0) 32 16 gen).toNat ++ bs.drop 8)) 0
      if !objV (w 0) then go s
      else if objBad (w 0) (w 1) (w 2) then fin s 2
      else match kindCheck (w 0) (w 1) (w 2) (w 3) with
        | (false, _) => fin s 3
        | (true, none) => go s
        | (true, some (n, f)) =>
          if !s.residentG p (bitsAt (w 1) 0 56) n then fin s 3
          else s.devRead c k x (w 1) n (w 1) fun s cs => if f cs then go s else fin s 3

/-! ## GBIND (R381, R382) -/

/-- The cores of a well-formed binding table. -/
def State.bindingOf (s : State) (p : Nat) (bs : List Byte) : Option (List Nat) :=
  let n := (bs.getD 16 0).toNat
  let cores := (bs.take n).map BitVec.toNat
  let die := dieOf (cores.getD 0 0)
  if n = 0 || 16 < n || (bs.drop 17).any (· != 0) || ((bs.take 16).drop n).any (· != 0) || cores.eraseDups.length ≠ n ||
    cores.any (fun c => !(s.part p).ownsCore c || dieOf c != die) then none
  else some cores

def execGbind (d a b : Reg) (g : Pred) (s : State) : Out :=
  sqRun g [a, b] s fun c k x =>
    let addr := x.reg a
    let v := x.reg b
    let p := x.part
    let r := bitsAt v 20 12
    let h := bitsAt v 0 20
    let fin := fun (s : State) v => s.updCtx c k fun x => x.step.setReg d v
    let mine := fun (e : Nat × Nat × List Nat) => e.1 == r && e.2.1 == h
    if !x.sys then s.trap c k PRIV v
    else if bitsAt v 32 32 ≠ 0 then s.trap c k ILLOP v
    else if !s.running p r then s.trap c k PRIV v
    else if !s.isImage p h then s.trap c k OBJFAULT v
    else if addr = 0 then fin (s.updPart p fun q => { q with bindings := q.bindings.filter fun e => !mine e }) 0
    else if addr.toNat % 32 ≠ 0 then s.trap c k MISALIGN addr
    else s.devRead c k x addr 32 addr fun s bs =>
      match s.bindingOf p bs with
      | none => fin s 2
      | some cores =>
        let q := s.part p
        if q.bindings.any mine then fin (s.updPart p fun q => { q with bindings := q.bindings.map fun e => if mine e then (r, h, cores) else e }) 0
        else if 256 ≤ q.bindings.length then fin s 1
        else fin (s.updPart p fun q => { q with bindings := q.bindings ++ [(r, h, cores)] }) 0

/-! ## PTINV (R391) -/

/-- What is asked of another device at an address of a range. -/
def askedIn (lo len : Nat) (l : List Ask) : Bool := l.any fun q => lo ≤ bitsAt q.addr 0 56 && bitsAt q.addr 0 56 < lo + len

/-- Has a context, resident or saved, accesses in a range outstanding at other devices? -/
def Ctx.busyIn (x : Ctx) (lo len : Nat) : Bool :=
  askedIn lo len x.asks || (x.rings.any fun (_, q) => askedIn lo len q.asks) || (x.savedEntries.any fun (_, n) => askedIn lo len n.asks) ||
  match x.life with
  | .parked (.remote w) _ => w.delta.isNone && askedIn lo len [⟨w.dev, w.addr, 0, w.id⟩]
  | _ => false

/-- Has a partition accesses in a range outstanding, that may have used an old entry? Those of this device are one step each; of those at
other devices the numbered requests are kept by their streams (R445). -/
def State.partBusy (s : State) (p lo len : Nat) : Bool :=
  (s.streams.any fun x => x.part == p && (x.unanswered ++ x.moved).any fun (_, q) =>
    !(Packet.typ q == 3 && 0x60 ≤ Packet.oparg q) && lo ≤ Packet.addr q && Packet.addr q < lo + len) ||
  (s.cores.any fun (_, r) =>
    (r.ctxs.any fun (k, x) => x.part == p && (x.busyIn lo len || (r.ve ++ r.me).any fun n => n.slot == k && askedIn lo len n.asks)) ||
    r.cmds.any fun m => m.part == p && askedIn lo len m.asks) ||
  s.tasks.any fun t => t.part == p && t.images.any fun i => i.ctx.busyIn lo len

def execPtinv (a b : Reg) (g : Pred) (s : State) : Out :=
  sqRun g [a, b] s fun c k x =>
    let v := x.reg a
    let n := (x.reg b).toNat
    if !x.sys then s.trap c k PRIV (x.reg b)
    else if !selectsG v then s.trap c k ILLOP v
    else if v.toNat % 65536 ≠ 0 then s.trap c k MISALIGN v
    else if n ≠ 0 && 2 ^ 56 < v.toNat + n * 65536 then s.trap c k ILLOP (x.reg b)
    else if !x.accessesDone then s
    else
      let len := if n = 0 then 2 ^ 56 else n * 65536
      let lo := if n = 0 then 0 else v.toNat
      let s := s.dropEntries x.part lo len
      let s := s.updPart x.part fun q => { q with lostPages := q.lostPages.filter fun b => !(n = 0 || (v.toNat ≤ b && b < v.toNat + len)) }
      if s.partBusy x.part lo len then s else s.updCtx c k Ctx.step

/-! ## RLAUNCH (R392 to R397) -/

/-- Reserved fields of an RCB, its 32 words given. -/
def rcbReserved (w : List Word) : Bool :=
  let f := fun i lo n => bitsAt (w.getD i 0) lo n != 0
  f 0 48 16 || f 0 0 22 || f 1 42 22 || f 1 10 22 || f 2 21 43 || f 2 9 7 || f 5 32 32 ||
  (List.range 16).any (fun i => bitsAt (rcbStage w i) 18 2 != 0) || (w.drop 16).any (· != 0)

/-- Is an RCB well formed under the RCBs of its ancestors, nearest first (R393)? -/
def rcbOk (w : List Word) (up : List (List Word)) : Bool :=
  let e := fun i => effField i (w :: up)
  let pipe := pipeRcb (w :: up)
  let n := bitsAt (pipe.getD 0 0) 22 4 + 1
  let stages := (List.range n).map (rcbStage pipe)
  !rcbReserved w && e 0 ≤ 256 && e 2 ≤ 16 && e 1 % 256 == 0 && e 3 % 65536 == 0 && e 8 != 0 &&
  (stages.all fun v => stageMin v ≤ stageMax v && stageMax v ≤ 256) &&
  ((List.range 16).all fun i => i < n || rcbStage pipe i == 0) &&
  (stages.map stageMin).foldl (· + ·) 0 ≤ e 0 &&
  (w.getD 6 0).toNat % 128 == 0 && (w.getD 7 0).toNat % 128 == 0

/-- The regions directly below a region. -/
def State.children (s : State) (p r : Nat) : List Nat :=
  (s.part p).regions.filterMap fun (i, x) => if i ≠ 0 ∧ x.st ≠ .free ∧ rcbParent x.rcb = r then some i else none

/-- Do the sums of R36 hold for the children of a region? -/
def State.sumsHold (s : State) (p r : Nat) : Bool :=
  let ch := s.children p r
  ([0, 1, 3, 4].all fun f => (ch.map fun i => s.eff p i f).foldl (· + ·) 0 ≤ s.eff p r f) && ch.all fun i => s.eff p i 2 ≤ s.eff p r 2

/-- Stage of the i-th core given to a region: the minima in order, then stage 0 (R39). -/
def stageOfCore (mins : List Nat) (i : Nat) : Nat :=
  let l := mins.mapIdx fun st n => List.replicate n st
  l.flatten.getD i 0

/-- Install an RCB in a region that starts; its cores come from its parent's assignment (R39). -/
def State.startRegion (s : State) (p r : Nat) (w : List Word) : State :=
  let up := rcbParent w
  let s := s.updPart p fun q => { q with regions := Tab.put q.regions r ⟨.running, w, 0, 0, []⟩ }
  let mins := (List.range (s.stageCount p r)).map fun i => stageMin (s.stageWord p r i)
  let have' := (s.region p up).assign
  let cores := ((have'.map Prod.fst).mergeSort (· ≤ ·)).take (s.eff p r 0)
  s.updPart p fun q =>
    let t := Tab.adjust q.regions up fun y => { y with assign := y.assign.filter fun (c, _) => !cores.contains c }
    { q with regions := Tab.adjust t r fun y => { y with assign := cores.mapIdx fun i c => (c, stageOfCore mins i) } }

/-- Insert a START's entry record into stage 0. -/
def State.insertEntry (s : State) (c : Nat) (x : Ctx) (r : Nat) (e : Rec) : Except Word State :=
  match s.insertTask x.part e ⟨c, dieOf c, .stage (dieOf c) r 0, s.stampFor x.part e (some (recRegion x.record, x.phase)), none, false, none, none, 0⟩ with
  | .ok (_, s) => .ok s
  | .error n => .error n

def startBody (d : Reg) (c k : Nat) (x : Ctx) (r : Nat) (w : List Word) (s : State) : State :=
  let p := x.part
  let up := rcbParent w
  let fin := fun (s : State) v => s.updCtx c k fun x => x.step.setReg d v
  let entry := w.getD 6 0
  if (s.region p r).st ≠ .free then fin s 3
  else if !s.running p up then fin s 4
  else if !rcbOk w (s.rcbChain p 4096 up) then fin s 2
  else
    let s1 := s.startRegion p r w
    if entry = 0 then if s1.sumsHold p up then fin s1 0 else fin s 1
    else s.devKeep c k x entry 128 entry fun s bs =>
      let e := recOf bs
      let bad := if recRegionField e ≠ r || recStage e ≠ 0 then some (0, ILLOP)
        else (s.startRegion p r w).recordCheck ⟨p, x.sys, recRegion x.record, true⟩ e
      match s.enterRecord c k x e bad with
      | .refused s _ => fin s 2
      | .wait s => s
      | .same s =>
        let s1 := s.startRegion p r w
        if !s1.sumsHold p up then fin s 1 else fin s1 0
      | .fresh s =>
        let s1 := s.startRegion p r w
        if !s1.sumsHold p up then fin (s.retract p e (recResults e)) 1
        else match s1.insertEntry c x r e with
          | .ok s => fin s 0
          | .error n => (s.retract p e (recResults e)).trap c k OBJFAULT n

def updateBody (d : Reg) (c k : Nat) (x : Ctx) (r : Nat) (w : List Word) (s : State) : State :=
  let p := x.part
  let old := s.region p r
  let up := rcbParent old.rcb
  let fin := fun (s : State) v => s.updCtx c k fun x => x.step.setReg d v
  let put := s.updPart p fun q => { q with regions := Tab.adjust q.regions r fun y => { y with rcb := w } }
  let was := s.stageCount p r
  let now := put.stageCount p r
  if old.st ≠ .running then fin s 3
  else if rcbParent w ≠ up || !rcbOk w (if r = 0 then [] else s.rcbChain p 4096 up) then fin s 2
  else if (was ≠ now && (List.range was).any fun i => s.stageFill p r i != 0) ||
      (List.range now).any (fun i => stageCap (put.stageWord p r i) < s.stageFill p r i) then fin s 3
  else if (r ≠ 0 && !put.sumsHold p up) || !put.sumsHold p r then fin s 1
  else fin (put.updPart p fun q => { q with regions := Tab.adjust q.regions r fun y =>
    { y with assign := y.assign.map fun (cc, st) => (cc, if st < now then st else 0) } }) 0

def stopBody (d : Reg) (c k : Nat) (x : Ctx) (r : Nat) (s : State) : State :=
  let p := x.part
  let fin := fun (s : State) v => s.updCtx c k fun x => x.step.setReg d v
  if (s.region p r).st = .free then fin s 0
  else
    let sub := s.subtree p r
    let s := s.stopRegion p r
    fin s (if s.tasks.any fun t => t.part == p && sub.contains (recRegion t.record) then 5 else 0)

/-- RLAUNCH: the operation is in b (R396). -/
def rlaunchBody (d a b : Reg) (g : Pred) (s : State) : Out :=
  sqRun g [a, b] s fun c k x =>
    let v := x.reg b
    let addr := x.reg a
    let r := bitsAt v 0 12
    let op := bitsAt v 12 2
    let old := s.region x.part r
    let allowed := fun (up : Option Nat) => x.sys || (match up with | some p => s.inSubtree x.part (recRegion x.record) p | none => false)
    let parent := if old.st = .free then none else some (rcbParent old.rcb)
    if bitsAt v 14 50 ≠ 0 || op = 3 then s.trap c k ILLOP v
    else if r = 0 && (op ≠ 1 || !x.sys) then s.trap c k PRIV v
    else if op = 2 then
      if addr ≠ 0 then s.trap c k ILLOP addr
      else if !allowed parent then s.trap c k PRIV v
      else stopBody d c k x r s
    else if addr.toNat % 256 ≠ 0 then s.trap c k MISALIGN addr
    else s.devRead c k x addr 256 addr fun s bs =>
      let w := (List.range 32).map (wordAt bs)
      if !allowed (if op = 0 then some (rcbParent w) else parent) then s.trap c k PRIV v
      else if op = 0 then startBody d c k x r w s
      else updateBody d c k x r w s

def execRlaunchStart (d a b : Reg) (g : Pred) (s : State) : Out := rlaunchBody d a b g s
def execRlaunchUpdate (d a b : Reg) (g : Pred) (s : State) : Out := rlaunchBody d a b g s
def execRlaunchStop (d a b : Reg) (g : Pred) (s : State) : Out := rlaunchBody d a b g s

/-! ## ROUTW (R402) -/

def routeBad (w : Word) : Bool :=
  let hops := bitsAt w 27 3
  let ahops := bitsAt w 24 3
  bitsAt w 32 32 != 0 || bitsAt w 13 3 != 0 || bitsAt w 0 8 != 0 || bitsAt w 21 3 != 0 ||
  (w.getLsbD 31 && !(1 ≤ hops && hops ≤ 5)) || (w.getLsbD 30 && (!w.getLsbD 31 || !(1 ≤ ahops && ahops ≤ 5))) ||
  (!w.getLsbD 30 && (ahops != 0 || bitsAt w 8 5 != 0))

def execRoutw (d a b : Reg) (g : Pred) (s : State) : Out :=
  sqRun g [a, b] s fun c k x =>
    let w := x.reg a
    let dev := (x.reg b).toNat
    let old := Tab.get 0 s.routes dev
    if !x.sys then s.trap c k PRIV (x.reg b)
    else if 4096 ≤ dev || dev = (s.part x.part).devnum then s.trap c k ILLOP (x.reg b)
    else if routeBad w then s.trap c k ILLOP w
    else if routeV old && routePart old ≠ x.part then s.trap c k PRIV (x.reg b)
    else
      let new : Half := (putBits w 21 3 (if w.getLsbD 31 then x.part else 0)).setWidth 32
      let s := { s with routes := if new = 0 then Tab.del s.routes dev else Tab.put s.routes dev new }
      let open' := fun (s : State) port => if (s.tunar port).trained then s.updTunar port fun t => { t with up := true } else s
      let s := if !routeV new then s else if routeAV new then open' (open' s (routePort new)) (routeAPort new) else open' s (routePort new)
      s.updCtx c k fun x => x.step.setReg d (zext old)

end Sys2Proof.Machine
end

