-- ==== Sys2Proof/Machine/LineageWords.lean ====
section
/-! DEFINITION. The lineage instructions: PUBL, TVQ, RETAIN, REPL, RCVR and TRIM (R410, R412, R414, R416, R421 to R427). -/

namespace Sys2Proof.Machine

/-- Ask a version's home: on this device at once, elsewhere by a message and a park until the answer (R421). delta: what a RETAIN marks. -/
def State.atHome (s : State) (c k : Nat) (x : Ctx) (nv : Word) (d : Reg) (op : HomeOp) (data : List Byte) (delta : Int)
    (here : State → State) : State :=
  if !nameOk nv then s.trap c k ILLOP nv
  else if s.homeLocal x.part nv then
    if (s.homeDie x.part nv).isNone then s.trap c k OBJFAULT nv else here s
  else
    s.askAndPark c k x 3 op.code (homeBytes nv data) none ⟨(s.home x.part nv).1, nv, d, 64, false, x.hlc, OBJFAULT, 0, some delta⟩ id

/-- Word 1 of a version's entry, 0 where none exists. -/
def State.versionWord (s : State) (p : Nat) (nv : Word) : Word :=
  match s.version? p nv with
  | some e => e.word1
  | none => 0

/-! ## PUBL (R410, R422) -/

/-- The storage range of a mark. -/
def PubMark.len (m : PubMark) : Nat := if m.norm then rangeLen m.size m.ncol m.nrow else m.size

/-- Does a mark's range overlap another version's range or mark on the same die (R410)? -/
def State.pubOverlaps (s : State) (p : Nat) (nv : Word) (m : PubMark) : Bool :=
  let die := ((s.version? p nv).map DirEntry.die).getD ((s.homeDie p nv).getD 0)
  s.versions.any fun e => e.part == p && e.nv != nv && e.die == die && s.homeLocal p e.nv &&
    (overlaps m.base.toNat m.len e.base.toNat e.rangeLen ||
     (match e.mark with | some q => overlaps m.base.toNat m.len q.base.toNat q.len | none => false))

/-- A home's answer to a lineage word: a value, or a cause with its value. -/
inductive HomeAnswer where
  | value (s : State) (v : Word)
  | cause (code : Nat) (v : Word)
  | wait

def HomeAnswer.finish (s : State) (c k : Nat) (d : Reg) : HomeAnswer → State
  | .value s v => s.updCtx c k fun x => x.step.setReg d v
  | .cause code v => s.trap c k code v
  | .wait => s

/-- A mark at its home. -/
def State.publAt (s : State) (p : Nat) (nv : Word) (m : PubMark) : HomeAnswer :=
  let mark := (s.version? p nv).bind DirEntry.mark
  if mark = some m then .value s 0
  else if mark.isSome then .cause ILLOP nv
  else if s.pubOverlaps p nv m then .cause OBJFAULT m.base
  else match s.ensureVersion p nv with
    | none => .cause OBJFAULT nv
    | some s => .value (s.updVersion p nv fun e => { e with mark := some m }) 0

/-- The mark that PUBL's operands and its task give. -/
def pubMark (tid dv bv : Word) : PubMark :=
  ⟨tid, dv &&& ~~~63#64, bitsAt bv 0 32, bitsAt bv 32 16, bitsAt bv 48 16, dv.getLsbD 1, dv.getLsbD 2⟩

def execPubl (d a b : Reg) (g : Pred) (s : State) : Out :=
  sqRun g [d, a, b] s fun c k x =>
    let nv := x.reg a
    let dv := x.reg d
    let bv := x.reg b
    let m := pubMark x.tid dv bv
    if !(recResults x.record).contains nv then s.trap c k ILLOP nv
    else if bitsAt dv 3 3 ≠ 0 || bitsAt dv 56 8 ≠ 0 || dv.getLsbD 0 then s.trap c k ILLOP dv
    else if m.size = 0 || (!m.norm && bitsAt bv 32 32 ≠ 0) then s.trap c k ILLOP bv
    else s.atHome c k x nv 0 .publ (bytesOf 8 x.tid.toNat ++ bytesOf 8 dv.toNat ++ bytesOf 8 bv.toNat) 0 fun s =>
      (s.publAt x.part nv m).finish s c k 0

/-! ## TVQ and RETAIN (R423, R424) -/

/-- A word of a version's entry; a version that a commit holds is not told of (R415). -/
def State.tvqAt (s : State) (p : Nat) (nv b : Word) : HomeAnswer :=
  match s.version? p nv with
  | none => .value s 0
  | some e => if e.taking then .wait else .value s (if b = 0 then e.word1 else if b = 1 then e.base else if b = 2 then e.word3 else e.word4)

def execTvq (d a b : Reg) (g : Pred) (s : State) : Out :=
  sqRun g [a, b] s fun c k x =>
    let nv := x.reg a
    let bv := x.reg b
    if !nameOk nv then s.trap c k ILLOP nv
    else if 3 < bv.toNat then s.trap c k ILLOP bv
    else s.atHome c k x nv d .tvq (bytesOf 8 bv.toNat) 0 fun s => (s.tvqAt x.part nv bv).finish s c k d

/-- The deltas that a task has marked for a version. -/
def Task.marked (t : Task) (nv : Word) : Int := (t.deltas.filter fun q => q.1 == nv).foldl (fun n q => n + q.2) 0

def holdOut (h : Int) : Bool := h < 0 || 65535 < h

/-- May a delta be marked for a version in this state (R424)? -/
def VState.retains : VState → Bool
  | .unprod => false
  | .pending => false
  | _ => true

/-- The delta in RETAIN's operand. -/
def retainDelta (b : Word) : Int := (b.extractLsb' 0 16).toInt

/-- RETAIN at its home: marked is the sum of what the task has marked for the version. -/
def State.retainAt (s : State) (p : Nat) (nv b : Word) (marked : Int) : HomeAnswer :=
  let now := b.getLsbD 16
  let delta := retainDelta b
  match s.version? p nv with
  | none => .value s 0
  | some e =>
    if e.taking then .wait
    else if !e.st.retains then .value s e.word1
    else if holdOut (e.hold + marked + delta) || (now && holdOut (e.hold + delta)) then .cause ILLOP b
    else
      let s := if now then (s.updVersion p nv fun e => { e with hold := (e.hold + delta).toNat }).sweep else s
      .value s (s.versionWord p nv)

def execRetain (d a b : Reg) (g : Pred) (s : State) : Out :=
  sqRun g [a, b] s fun c k x =>
    let nv := x.reg a
    let bv := x.reg b
    let now := bv.getLsbD 16
    let marked := ((s.task? x.part x.tid).map fun t => t.marked nv).getD 0
    if !nameOk nv then s.trap c k ILLOP nv
    else if bitsAt bv 17 47 ≠ 0 then s.trap c k ILLOP bv
    else if now && !x.sys then s.trap c k PRIV bv
    else s.atHome c k x nv d .retain (bytesOf 8 bv.toNat ++ bytesOf 8 (BitVec.ofInt 64 marked).toNat) (if now then 0 else retainDelta bv) fun s =>
      match s.retainAt x.part nv bv marked with
      | .value t v =>
        let marks := !now && ((s.version? x.part nv).map fun e => e.st.retains).getD false
        let t := if marks then t.updTask x.part x.tid fun q => { q with deltas := q.deltas ++ [(nv, retainDelta bv)] } else t
        (HomeAnswer.value t v).finish s c k d
      | o => o.finish s c k d

/-! ## REPL (R414, R425) -/

/-- A version has its replica: records that wait for no other one are released, and other devices whose records wait are told (R414). -/
def State.replicated (s : State) (p : Nat) (nv : Word) : State :=
  let due := s.tasks.filter fun t => t.part == p && t.replWaits.contains nv
  let s := due.foldl (fun s t =>
    let s := s.updTask p t.tid fun t => { t with replWaits := t.replWaits.filter (· != nv) }
    if t.replWaits.all (· == nv) && t.st == .waiting then s.release p t.tid else s) s
  let far := (((s.version? p nv).map DirEntry.far).getD []).filter fun u => u.repl.isSome
  far.foldl (fun s u => (s.updVersion p nv fun e => e.updFar u.dev fun u => { u with repl := none }).tellDev p u.dev nv .replicated []) s

/-- May a replica of a version whose storage lies on a die be placed at a device and die? -/
def State.replicaTarget (s : State) (p : Nat) (e : DirEntry) (dev die : Nat) : Bool :=
  if dev = (s.part p).devnum then s.dieHolding p e.base.toNat != some die && !(s.die die).lost && (s.part p).hbmOnDie die
  else match s.wayTo p dev with
    | .via .. => true
    | _ => false

/-- Has the target of a replica room for it (R36, R414)? What a pool on another device holds is not seen from here. -/
def State.replicaFits (s : State) (p : Nat) (e : DirEntry) (dev die : Nat) : Bool :=
  dev != (s.part p).devnum || s.hbmRoom p die e.rangeLen (e.lin.map fun l => recRegion l.record)

/-- REPL at its home; die: that of the issuing core. -/
def State.replAt (s : State) (p : Nat) (nv b : Word) (die : Nat) : HomeAnswer :=
  match s.version? p nv with
  | none => .value s 1
  | some e =>
    let target := if b.getLsbD 14 then (s.nextDie p die).map fun die => ((s.part p).devnum, die) else some (bitsAt b 0 12, bitsAt b 12 2)
    if e.repl then .value s 0
    else if e.st ≠ .current then .value s 1
    else match target with
      | none => .value s 3
      | some (dev, die) =>
        if !s.replicaTarget p e dev die then .value s 3
        else if !s.replicaFits p e dev die then .value s 2
        else .value ((s.makeReplica p nv dev die).replicated p nv) 0

def execRepl (d a b : Reg) (g : Pred) (s : State) : Out :=
  sqRun g [a, b] s fun c k x =>
    let nv := x.reg a
    let bv := x.reg b
    if !nameOk nv then s.trap c k ILLOP nv
    else if bitsAt bv 15 49 ≠ 0 || (bv.getLsbD 14 && bitsAt bv 0 14 ≠ 0) then s.trap c k ILLOP bv
    else s.atHome c k x nv d .repl (bytesOf 8 bv.toNat ++ [BitVec.ofNat 8 (dieOf c)]) 0 fun s => (s.replAt x.part nv bv (dieOf c)).finish s c k d

/-! ## RCVR and TRIM (R426, R427) -/

/-- RCVR.ver at its home. -/
def State.rcvrAt (s : State) (p : Nat) (nv : Word) : HomeAnswer :=
  match s.version? p nv with
  | none => .value s 1
  | some e => match e.st with
    | .current => .value (s.loseVersion p nv OBJFAULT) 0
    | .unprod => .value s 1
    | .pending => .value s 1
    | _ => .value s 0

/-- RCVR: the operation is in b. -/
def rcvrBody (d a b : Reg) (g : Pred) (s : State) : Out :=
  sqRun g [a, b] s fun c k x =>
    let nv := x.reg a
    let bv := x.reg b
    if bv = 1 then
      match (s.part x.part).quiesce with
      | some why => if a = 0 && x.inh && x.chkpt then s.abort c k ⟨12, why⟩ else s.trap c k ILLOP bv
      | none => s.trap c k ILLOP bv
    else if bv ≠ 0 then s.trap c k ILLOP bv
    else s.atHome c k x nv d .rcvr [] 0 fun s => (s.rcvrAt x.part nv).finish s c k d

def execRcvrVer (d a b : Reg) (g : Pred) (s : State) : Out := rcvrBody d a b g s
def execRcvrHand (d b : Reg) (g : Pred) (s : State) : Out := rcvrBody d 0 b g s

/-- Remove a version's lineage entry (R411, R412). -/
def State.trimEntry (s : State) (p : Nat) (nv : Word) : State :=
  match s.version? p nv with
  | none => s
  | some e =>
    let s := s.updVersion p nv fun e => { e with lin := none }
    match e.lin with
    | some l => (s.dropDref p l).sweep
    | none => s

/-- TRIM at its home. -/
def State.trimAt (s : State) (p : Nat) (nv : Word) (force : Bool) : HomeAnswer :=
  let has := ((s.version? p nv).map DirEntry.linked).getD false
  .value (if force then s.trimEntry p nv else s) (if has == force then 1 else 0)

/-- TRIM: the operation is in b. -/
def trimBody (d a b : Reg) (g : Pred) (s : State) : Out :=
  sqRun g [a, b] s fun c k x =>
    let nv := x.reg a
    let bv := x.reg b
    if !nameOk nv then s.trap c k ILLOP nv
    else if bv ≠ 0 && bv ≠ 2 then s.trap c k ILLOP bv
    else if bv = 2 && !x.sys then s.trap c k PRIV bv
    else s.atHome c k x nv d .trim (bytesOf 8 bv.toNat) 0 fun s => (s.trimAt x.part nv (bv == 2)).finish s c k d

def execTrimSync (d a b : Reg) (g : Pred) (s : State) : Out := trimBody d a b g s
def execTrimForce (d a b : Reg) (g : Pred) (s : State) : Out := trimBody d a b g s

end Sys2Proof.Machine
end

