-- ==== Sys2Proof/Machine/Counters.lean ====
section
/-! DEFINITION. Counters: the counter space, thresholds and the events they release, tag words, WAITC, CNTRD, CNTSET and PHASE
(R429 to R435, R439, R441 to R444, R446 to R450). -/

namespace Sys2Proof.Machine

/-! ## The counter space (R429) -/

/-- A counter by its group and the fields of its index. -/
inductive Counter where
  | tag (i : Nat)
  | exc (i : Nat)
  | perf (core item : Nat)
  | error (die item : Nat)
  | monitor (die item : Nat)
  | threshold (die k word : Nat)
  | ucie (side : UcieSide) (item : Nat)
  | tunar (port item : Nat)
  deriving DecidableEq, Repr

/-- The counter that a number names: none outside the layouts of R429. -/
def counterOf (a : Word) : Option Counter :=
  let f := bitsAt a
  match f 24 8 with
  | 0x01 => if f 6 18 = 0 then some (.tag (f 0 6)) else none
  | 0x02 => if f 14 10 = 0 && f 3 1 = 0 && f 0 3 ≤ 5 && f 4 4 ≠ 0 then some (.exc (f 8 6 * 256 + f 4 4 * 16 + f 0 3)) else none
  | 0x03 => if f 16 8 = 0 && f 4 4 = 0 && f 0 4 ≤ 8 then some (.perf (f 8 8) (f 0 4)) else none
  | 0x04 => if f 10 14 = 0 && f 5 3 = 0 && f 0 5 ≤ 20 then some (.error (f 8 2) (f 0 5)) else none
  | 0x05 => if f 10 14 = 0 && f 4 4 = 0 && f 0 4 ≤ 10 then some (.monitor (f 8 2) (f 0 4)) else none
  | 0x06 => if f 10 14 = 0 && f 7 1 = 0 then some (.threshold (f 8 2) (f 1 6) (f 0 1)) else none
  | 0x08 => if f 12 12 = 0 && f 4 2 = 0 && f 0 4 ≤ 8 && f 10 2 ≠ f 8 2 then some (.ucie ⟨f 10 2, f 8 2, f 6 2⟩ (f 0 4)) else none
  | 0x09 => if f 10 14 = 0 && f 5 3 = 0 then some (.tunar (f 8 2 * 8 + f 2 3) (f 0 2)) else none
  | _ => none

/-- Does a partition own a core on a die? -/
def Part.onDie (x : Part) (d : Nat) : Bool := (List.range 64).any fun i => x.ownsCore (64 * d + i)

/-- Is the counter's core or die of the partition (R32)? -/
def State.counterMine (s : State) (p : Nat) : Counter → Bool
  | .perf core _ => (s.part p).ownsCore core
  | .error die _ => (s.part p).onDie die
  | .monitor die _ => (s.part p).onDie die
  | .threshold die _ _ => (s.part p).onDie die
  | .ucie side _ => (s.part p).onDie side.die
  | .tunar port _ => (s.part p).onDie (port / 8)
  | _ => true

/-- Counters that only system level reads. -/
def Counter.system : Counter → Bool
  | .error .. => true
  | .ucie .. => true
  | .tunar .. => true
  | _ => false

/-- A UCIe module; one that has not trained stands at its reset values (R446). -/
def State.ucie (s : State) (side : UcieSide) : Ucie :=
  match s.ucies.find? fun u => u.side == side with
  | some u => u
  | none => ⟨side, false, false, [], 64, 0, 0, []⟩

def Ucie.fth (u : Ucie) : Half := Tab.get 8 u.items 4

/-- What a module's item reads (R446). -/
def State.ucieItem (s : State) (side : UcieSide) (item : Nat) : Word :=
  let u := s.ucie side
  match item with
  | 3 => BitVec.ofNat 64 u.width
  | 4 => zext u.fth
  | 5 => BitVec.ofNat 64 u.replay.length
  | 7 => zext u.nextSeq
  | 8 => match s.streams.find? fun x => x.toDev.isNone && x.fromDie == side.die && x.toDie == side.peer with
    | some x => zext x.rsn
    | none => 0
  | _ => zext (Tab.get 0 u.items item)

def threshIndex (die k word : Nat) : Nat := die * 128 + 2 * k + word

/-- The value of a counter for a partition; tags are the context's own. -/
def State.counterValue (s : State) (p : Nat) (tags : Tab (BitVec 16)) : Counter → Word
  | .tag i => zext (Tab.get 0 tags i)
  | .exc i => zext (Tab.get 0 (s.part p).exc i)
  | .perf core i => Tab.get 0 (s.core core).perf i
  | .error die i => zext (Tab.get 0 (s.die die).errors i)
  | .monitor die i => sext (Tab.get 0 (s.die die).monitors i)
  | .threshold die k w => Tab.get 0 (s.part p).thresholds (threshIndex die k w)
  | .ucie side i => s.ucieItem side i
  | .tunar port i => zext (Tab.get 0 (s.tunar port).items i)

/-! ## Thresholds and their events (R369, R443, R444) -/

def State.setThreshold (s : State) (p i : Nat) (v : Word) : State := s.updPart p fun q => { q with thresholds := Tab.put q.thresholds i v }

/-- A die inserts the record that was registered for an event before this step, ready, into the root region's queue of its stage (R369,
R374). -/
def State.releaseEvent (s old : State) (p die k : Nat) : State :=
  match (old.die die).events.find? fun e => e.part == p && e.event == k with
  | none => s
  | some e =>
    let s := if e.oneShot then s.updDie die fun q => { q with events := q.events.filter fun o => o != e } else s
    if (s.recordCheck ⟨p, true, 0, true⟩ e.record).isSome || s.adopts p e.record then s
    else match (s.announce p e.record).insertTask p e.record ⟨0, die, .stage die (recRegion e.record) (recStage e.record), s.stampFor p e.record none, none, false, none, none, 0⟩ with
      | .ok (tid, s) => s.makeReady p tid
      | .error _ => s

/-- Evaluate one threshold: it fires when its condition becomes true and clears when it becomes false. -/
def State.evalThreshold (s old : State) (p die k : Nat) : State :=
  let i := threshIndex die k 0
  let w := Tab.get 0 (s.part p).thresholds i
  let t := Tab.get 0 (s.part p).thresholds (i + 1)
  if !w.getLsbD 63 then s
  else match counterOf (w &&& 0xFFFFFFFF) with
    | none => s
    | some n =>
      let v := s.counterValue p [] n
      let holds : Bool := if w.getLsbD 61 then v.toInt ≤ t.toInt else t.toInt ≤ v.toInt
      if holds && !w.getLsbD 60 then
        let s := (s.setThreshold p i (w ||| 1#64 <<< 60)).releaseEvent old p die k
        if w.getLsbD 62 then s.interrupt (p + 1) (64 * die + k) else s
      else if holds then s
      else s.setThreshold p i (w &&& ~~~(1#64 <<< 60))

/-- Evaluate every threshold whose counter has another value than before. -/
def State.evalChanged (s old : State) : State :=
  partNums.foldl (fun s p => (s.part p).thresholds.foldl (fun s (i, w) =>
    if i % 2 = 1 || !w.getLsbD 63 then s
    else match counterOf (w &&& 0xFFFFFFFF) with
      | some n => if s.counterValue p [] n = old.counterValue p [] n then s else s.evalThreshold old p (i / 128) (i % 128 / 2)
      | none => s) s) s

/-- May a threshold watch a counter (R443)? -/
def State.watchable (s : State) (p : Nat) (cnum : Word) : Bool :=
  match counterOf cnum with
  | some (.tag _) => false
  | some (.threshold ..) => false
  | some n => s.counterMine p n
  | none => false

/-! ## CNTRD and CNTSET (R449, R450) -/

def lineForm (a : Word) : Bool := bitsAt a 56 8 == 0 || bitsAt a 56 8 == 0x81
def numberForm (a : Word) : Bool := bitsAt a 56 8 == 0xC0 && bitsAt a 32 24 == 0

/-- The line that holds a byte of a window, in class OCLS (R171). -/
def onLine (a : Word) (u : Use) (s : State) (c k : Nat) (x : Ctx) (far : State → Nat → State) (f : State → Nat → Nat → Nat → State) : State :=
  match s.openSq c k x x.ocls.toNat (unitOf a) 64 u with
  | .deny code => s.trap c k code a
  | .wait s => s
  | .go s (.remote dev) => far s dev
  | .go s (.win core slice off) => f s core slice off
  | .go _ _ => s.trap c k OBJFAULT a

def Slice.meta' (x : Slice) (off : Nat) : Word := Tab.get 0 x.red (off / 64)

def execCntrd (d a : Reg) (g : Pred) (s : State) : Out :=
  sqRun g [a] s fun c k x =>
    let v := x.reg a
    if lineForm v then
      onLine v .read s c k x (fun s dev => s.askAndPark c k x 3 (waitOparg 16) [] none ⟨dev, v, d, 64, false, x.hlc, OBJFAULT, 0, none⟩ id)
        fun s core slice off => s.updCtx c k fun x => x.step.setReg d (Slice.meta' (s.slice core slice) off)
    else match if numberForm v then counterOf v else none with
      | none => s.trap c k ILLOP v
      | some n =>
        if (n.system && !x.sys) || !s.counterMine x.part n then s.trap c k PRIV v
        else s.setCtx c k (x.step.setReg d (s.counterValue x.part x.tagStatus n))

/-- Set a counter; the word is one that CNTSET accepts. -/
def State.setCounter (s : State) (p : Nat) (v : Word) : Counter → State
  | .exc i => s.updPart p fun q => { q with exc := Tab.put q.exc i (v.setWidth 32) }
  | .perf core i => s.updCore core fun r => { r with perf := Tab.put r.perf i v }
  | .error die i => s.updDie die fun q => { q with errors := Tab.put q.errors i (v.setWidth 32) }
  | .threshold die k w =>
    if w = 0 then (s.setThreshold p (threshIndex die k 0) (v &&& 0xE0000000FFFFFFFF)).evalThreshold s p die k
    else s.setThreshold p (threshIndex die k 1) v
  | .ucie side _ =>
    let u := s.ucie side
    let u := { u with items := Tab.put u.items 4 (v.setWidth 32) }
    { s with ucies := if s.ucies.any fun w => w.side == side then s.ucies.map fun w => if w.side = side then u else w else s.ucies ++ [u] }
  | _ => s

/-- Why CNTSET refuses a counter or its value. -/
def State.setRefused (s : State) (p : Nat) (a v : Word) : Counter → Option Word
  | .tag _ => some a
  | .monitor .. => some a
  | .tunar .. => some a
  | .ucie _ item => if item ≠ 4 then some a else if v.toNat % 2 ^ 32 = 0 || 255 < v.toNat % 2 ^ 32 then some v else none
  | .threshold _ _ w => if w = 0 && !s.watchable p (v &&& 0xFFFFFFFF) then some v else none
  | _ => none

def execCntset (d a b : Reg) (g : Pred) (s : State) : Out :=
  sqRun g [a, b] s fun c k x =>
    let v := x.reg a
    let w := x.reg b
    if lineForm v then
      onLine v .write s c k x (fun s dev =>
          if bitsAt w 16 48 ≠ 0 then s.trap c k ILLOP w
          else s.askAndPark c k x 3 (waitOparg 17) (wordData w 0 x.detKey false true) none ⟨dev, v, d, 64, false, x.hlc, OBJFAULT, 0, none⟩ id)
        fun s core slice off =>
          if bitsAt w 16 48 ≠ 0 then s.trap c k ILLOP w
          else match s.detCheck x.detKey core slice off false with
            | none => s.trap c k DETTRAP v
            | some s =>
              let sl := s.slice core slice
              let new : Word := if w = 0 then 0 else BitVec.ofNat 64 (2 ^ 62 + bitsAt w 0 16 * 2 ^ 32)
              let s := s.setSlice core slice { sl with red := if new = 0 then Tab.del sl.red (off / 64) else Tab.put sl.red (off / 64) new }
              s.updCtx c k fun x => x.step.setReg d (Slice.meta' sl off)
    else match if numberForm v then counterOf v else none with
      | none => s.trap c k ILLOP v
      | some n =>
        match n with
        | .tag _ => s.trap c k ILLOP v
        | .monitor .. => s.trap c k ILLOP v
        | .tunar .. => s.trap c k ILLOP v
        | _ =>
          if !x.sys || !s.counterMine x.part n then s.trap c k PRIV v
          else match s.setRefused x.part v w n with
            | some u => s.trap c k ILLOP u
            | none =>
              let old := s.counterValue x.part x.tagStatus n
              (s.setCounter x.part w n).updCtx c k fun x => x.step.setReg d old

/-! ## Tags (R433 to R435) -/

def execTwaitAny (d a : Reg) (g : Pred) (s : State) : Out :=
  sqRun g [a] s fun c k x =>
    let v := x.tags &&& x.reg a
    if x.reg a = 0 || v ≠ 0 then s.setCtx c k (x.step.setReg d v) else s

def execTwaitAll (d a : Reg) (g : Pred) (s : State) : Out :=
  sqRun g [a] s fun c k x =>
    let v := x.tags &&& x.reg a
    if v = x.reg a then s.setCtx c k (x.step.setReg d v) else s

/-- The lowest set bit of a word among the n bits from 64 − n up, or 64. -/
def lowestTag (v : Word) : Nat → Nat
  | 0 => 64
  | n + 1 => if v.getLsbD (63 - n) then 63 - n else lowestTag v n

def execTffr (d a : Reg) (g : Pred) (s : State) : Out :=
  sqValue g [a] d (fun x => BitVec.ofNat 64 (lowestTag (x.tags &&& x.reg a) 64)) s

/-- The tags of a context's accepted, unfinished commands. -/
def State.busyTags (s : State) (x : Ctx) : Word :=
  (s.cmdsOf x.part x.tid x.role).foldl (fun m q => m ||| 1#64 <<< TuCmd.tag q) 0

def execTclr (d a : Reg) (g : Pred) (s : State) : Out :=
  sqRun g [a] s fun c k x =>
    let skip := x.reg a &&& s.busyTags x
    let clear := x.reg a &&& ~~~skip
    s.setCtx c k ({ x.step with tags := x.tags &&& ~~~clear, tagStatus := x.tagStatus.filter fun (i, _) => !clear.getLsbD i }.setReg d skip)

/-! ## WAITC and PHASE (R432, R448) -/

def execWaitc (tl : BitVec 5) (ld st cp : BitVec 6) (g : Pred) (s : State) : Out :=
  sqRun g [] s fun c k x =>
    if x.loads.length ≤ ld.toNat && x.stores.length ≤ st.toNat && s.copies x ≤ cp.toNat && x.tiles.length ≤ tl.toNat then s.setCtx c k x.step else s

def execPhase (g : Pred) (s : State) : Out :=
  sqRun g [] s fun c k x =>
    let r := if x.ctl then x.creg else recRegion x.record
    let q := s.region x.part r
    if x.recomp then s.trap c k ILLOP (BitVec.ofNat 64 r)
    else if !s.running x.part r || !s.det x.part r then s.trap c k ILLOP (BitVec.ofNat 64 r)
    else if !x.ctl && x.phase ≠ q.openPhase then s.trap c k ILLOP (zext q.openPhase)
    else if q.begun ≠ q.openPhase then s
    else (s.updPart x.part fun y => { y with regions := Tab.adjust y.regions r fun z => { z with openPhase := z.openPhase + 1 } }).updCtx c k Ctx.step

/-- Phase p + 1 of a region begins when p is closed and its last task has ended; the bits keyed to it are cleared (R66, R448). -/
def execPhaseBegin (part region : Nat) (s : State) : Out :=
  let q := s.region part region
  let left := s.tasks.any fun t => t.part == part && recRegion t.record == region && t.phase == q.begun && !t.recomp
  if q.st ≠ .running || !s.det part region || q.begun = q.openPhase || left then .next s
  else
    let n := q.begun + 1
    let s := s.updPart part fun y => { y with regions := Tab.adjust y.regions region fun z => { z with begun := n } }
    .next { s with cores := s.cores.map fun (c, r) =>
      if (s.part part).ownsCore c then
        (c, { r with slices := r.slices.map fun (i, sl) => (i, { sl with bits := sl.bits.filter fun (_, b) => !(b.region == region && b.phase == n.toNat % 256) }) })
      else (c, r) }

end Sys2Proof.Machine
end

