-- ==== Sys2Proof/Machine/Images.lean ====
section
/-! DEFINITION. Flat context images and poison queries: CTXS, CTXR and POISQ (R467 to R471). -/

namespace Sys2Proof.Machine

/-- Bytes padded with zeros to a multiple of 256. -/
def padTo256 (bs : List Byte) : List Byte := bs ++ List.replicate ((256 - bs.length % 256) % 256) 0

/-- One section: its descriptor and its contents, whose inner layout the spec leaves open (R468; log 13). -/
def flatSection (tick item : Nat) : List Byte :=
  let c := (Config.imageItem item tick).take (2 ^ 20)
  bytesOf 16 (item + c.length * 2 ^ 32) ++ c

def flatBody (tick : Nat) : List Byte := padTo256 ((List.range 7).flatMap fun i => flatSection tick (i + 1))

/-- The header of a flat image. -/
def flatHeader (body : List Byte) (r : Rec) : List Byte :=
  [0x43, 0x54, 0x58, 0x31] ++ bytesOf 2 1 ++ bytesOf 2 0 ++ bytesOf 8 (256 + body.length) ++ bytesOf 48 (Config.sha384 body).toNat ++
  List.replicate 64 0 ++ bytesOf 128 r.toNat

/-- The image that a save of a context would make. -/
def State.imageOf (s : State) (c k : Nat) (x : Ctx) : Option Image :=
  ((s.saveCtx c k .ready).task? x.part x.tid).bind fun t => t.images.find? fun i => i.role == x.role

/-- A flat image to write: its bytes, kept with what they stand for. -/
def State.makeFlat (s : State) (r : Rec) (i : Image) : List Byte × State :=
  let r := recSet r 0 (recHeader r ||| 1#64 <<< 52)
  let body := flatBody s.tick
  let bs := flatHeader body r ++ body
  (bs, { s with flats := s.flats ++ [⟨bs, r, i⟩] })

/-- Write units of a flat image from the place reached on. -/
def State.writeFlat (s : State) (c k : Nat) (a : Word) : Nat → State
  | 0 => s
  | f + 1 =>
    match s.ctx? c k with
    | none => s
    | some x =>
      match x.writing with
      | none => s
      | some (bs, n, _) =>
        if bs.length ≤ 64 * n then s
        else
          let at' := a + BitVec.ofNat 64 (64 * n)
          let data := (bs.drop (64 * n)).take 64
          let next := fun (s : State) => (s.updCtx c k fun x => { x with writing := some (bs, n + 1, false) }).writeFlat c k a f
          let fail := s.updCtx c k fun x => { x with writing := some (bs, bs.length, true) }
          match s.openSq c k x x.ocls.toNat at' 64 .write with
          | .deny code => if n = 0 then (s.updCtx c k fun x => { x with writing := none }).trap c k code at' else fail
          | .wait s => s
          | .go s (.remote dev) =>
            if !s.requestRoom c 1 then s
            else match s.sendRemote x.part dev 2 63 (bitsAt at' 0 56) data with
            | .refused => fail
            | .wait s => s
            | .sent s ids => next (s.issueOsc c k .store (some x.ocls.toNat) (placeOf (.remote dev) at') (ids.map fun id => (dev, id)))
          | .go s t => next ((s.crossed c t).writeAt t data)

/-- Go on with a CTXS that has its bytes. -/
def State.goFlat (s : State) (c k : Nat) (d : Reg) (a : Word) : State :=
  match (s.ctx? c k).bind Ctx.writing with
  | none => s
  | some (bs, _, _) =>
    let s := s.writeFlat c k a (bs.length / 64 + 1)
    match s.ctx? c k with
    | none => s
    | some x => match x.writing with
      | none => s
      | some (_, n, bad) =>
        if n * 64 < bs.length || !x.stores.isEmpty then s
        else s.setCtx c k { x.step.setReg d (if bad then 3 else 0) with writing := none }

/-- Begin writing a flat image. -/
def State.beginFlat (s : State) (c k : Nat) (d : Reg) (a : Word) (r : Rec) (i : Image) : State :=
  let (bs, s) := s.makeFlat r i
  (s.updCtx c k fun x => { x with writing := some (bs, 0, false) }).goFlat c k d a

/-- The task that a CTXID of the partition names (R168, R469). -/
def State.ctxTask (s : State) (p : Nat) (v : Word) : Option Task :=
  if bitsAt v 15 49 ≠ 0 || bitsAt v 12 3 ≠ p then none else (s.taskAt p (bitsAt v 4 8) (bitsAt v 0 4)).bind (s.task? p)

/-- CTXS with a target other than the caller. -/
def State.saveOther (s : State) (c k : Nat) (x : Ctx) (d : Reg) (a v : Word) (t : Task) : State :=
  let tc := bitsAt v 4 8
  let tk := bitsAt v 0 4
  let four := s.setCtx c k (x.step.setReg d 4)
  match s.ctx? tc tk with
  | none => match t.images.find? fun i => i.fromCore == tc && i.fromSlot == tk with
    | some i => if x.accessesDone then s.beginFlat c k d a t.record i else s
    | none => four
  | some y => match y.life with
    | .running =>
      if s.canSave tc tk then s.preempt tc tk else s
    | .parked .. => match s.imageOf tc tk y with
      | some i => if x.accessesDone && s.canSave tc tk then s.beginFlat c k d a t.record i else s
      | none => four
    | _ => four

def execCtxs (d a b : Reg) (g : Pred) (s : State) : Out :=
  sqRun g [a, b] s fun c k x =>
    let addr := x.reg a
    let v := x.reg b
    if x.writing.isSome then s.goFlat c k d addr
    else if v ≠ 0 && !x.sys then s.trap c k PRIV v
    else match if v = 0 then s.task? x.part x.tid else s.ctxTask x.part v with
      | none => s.trap c k PRIV v
      | some t =>
        if addr.toNat % 256 ≠ 0 then s.trap c k MISALIGN addr
        else if recGang t.record ≠ 0 || (v ≠ 0 && v.toNat = ctxid x.part c k) then s.setCtx c k (x.step.setReg d 4)
        else if v ≠ 0 then s.saveOther c k x d addr v t
        else if !x.accessesDone || !s.canSave c k then s
        else match (s.setCtx c k (x.step.setReg d 1)).imageOf c k x with
          | some i => s.beginFlat c k d addr t.record i
          | none => s.setCtx c k (x.step.setReg d 4)

/-! ## CTXR (R470) -/

/-- Is a header wrong in magic, version, flags or size? -/
def flatBad (h : List Byte) : Bool :=
  let size := ofBytes ((h.drop 8).take 8)
  h.take 4 != [0x43, 0x54, 0x58, 0x31] || ofBytes ((h.drop 4).take 4) != 1 || size % 256 != 0 || size < 256 || 2 ^ 23 < size

/-- The image that the sections of a flat image hold: what CTXS wrote, or free values for bytes from elsewhere (log 13). -/
def State.flatImage (s : State) (bs : List Byte) (t : Task) (core slot : Nat) : Image :=
  match s.flats.find? fun f => f.bytes == bs with
  | some f => { f.image with ctx := { f.image.ctx with tid := t.tid, part := t.part } }
  | none =>
    let free := fun i => Config.freeWord (s.tick + i)
    let x := s.newCtx t 0 0 (List.replicate (s.budgetSlices t) 0) ⟨[core], [slot]⟩ 0 (s.imageKey t.part (recCode t.record))
    ⟨0, { x with life := .running, a := Vector.ofFn fun i => if i.val = 0 then 0 else free i.val, p := (free 32).setWidth 8, pc := (free 33).setWidth 32 },
      [], [], core, slot⟩

def execCtxr (d a : Reg) (g : Pred) (s : State) : Out :=
  sqRun g [a] s fun c k x =>
    let addr := x.reg a
    let p := x.part
    let fin := fun (s : State) v => s.updCtx c k fun x => { x.step.setReg d v with asks := [], got := [] }
    if !x.sys then s.trap c k PRIV addr
    else if addr.toNat % 256 ≠ 0 then s.trap c k MISALIGN addr
    else match s.readPieces c k x (devPieces addr 256) with
      | .deny code => s.trap c k code addr
      | .wait s => s
      | .poison u => s.abort c k ⟨POISON, u⟩
      | .bytes s h =>
        if flatBad h then fin s 1
        else
          let size := ofBytes ((h.drop 8).take 8)
          s.devKeep c k x addr size addr fun s bs =>
            let r := recOf ((bs.drop 128).take 128)
            let locked := match s.flats.find? fun f => f.bytes == bs with
              | some f => f.image.ctx.hlc != 0
              | none => false
            let bad := if locked then some (0, ILLOP) else s.recordCheck ⟨p, x.sys, recRegion x.record, false⟩ r
            if Config.sha384 (bs.drop 256) ≠ BitVec.ofNat 384 (ofBytes ((bs.drop 16).take 48)) then fin s 2
            else match s.enterRecord c k x r bad with
              | .refused s _ => fin s 3
              | .same s => fin s 3
              | .wait s => s
              | .fresh s =>
                let r := recSet r 0 (recHeader r ||| 1#64 <<< 52)
                let no := fun (s : State) => s.retract p r (recResults r)
                if !s.hbmRoom p (dieOf c) areaSize (some (recRegion r)) then fin (no s) 4
                else match s.insertTask p r ⟨c, dieOf c, s.spillOr p (dieOf c), s.stampFor p r none, none, false, none, none, 0⟩ with
                  | .error name => (no s).trap c k OBJFAULT name
                  | .ok (tid, s) =>
                    match s.task? p tid with
                    | none => fin s 0
                    | some t =>
                      let i := s.flatImage bs t c k
                      fin ((s.updTask p tid fun t =>
                        { t with images := [i], areas := [(0, dieOf c)], depth := s.depthOf p r }).makeReady p tid) 0

def execPoisq (d a : Reg) (g : Pred) (s : State) : Out :=
  sqRun g [a] s fun c k x =>
    let addr := x.reg a
    match s.openSq c k x x.ocls.toNat (unitOf addr) 64 .read with
    | .deny code => s.trap c k code addr
    | .wait s => s
    | .go s (.remote dev) =>
      s.askAndPark c k x 3 (waitOparg 18) [] (some x.ocls.toNat) ⟨dev, addr, d, 1, false, x.hlc, OBJFAULT, 0, none⟩ id
    | .go s t => s.updCtx c k fun x => x.step.setReg d (if (s.marksAt t 64).isEmpty then 0 else 1)

end Sys2Proof.Machine
end

