-- ==== Sys2Proof/Machine/Sched.lean ====
section
/-! DEFINITION. The scheduler: pops, dispatch, gangs, restoring contexts, overlay loads, pre-emption, aging, the stage balancer and boot
tasks (R40, R45 to R49, R57 to R64, R136, R289, R290, R371, R384, R464 to R466). -/

namespace Sys2Proof.Machine

/-! ## Pops and dispatch (R45, R47, R57) -/

/-- The task that has reserved a core. -/
def State.reservedFor (s : State) (c : Nat) : Option Task := s.tasks.find? fun t => match t.st with
  | .reserved l => l.contains c
  | _ => false

/-- An idle core takes work, runs no context and is not reserved. -/
def State.idle (s : State) (c : Nat) : Bool :=
  (match s.coreOwner c with | some p => s.coreOk p c | none => false) && (s.core c).active.isNone &&
  ((s.core c).ctxs.all fun (_, x) => !Life.busy x.life) && (s.reservedFor c).isNone

/-- An idle core takes the first record of its die's queue that it may take; a gang that is gathering reserves it (R47, R57). -/
def State.pop (s : State) (core : Nat) : State :=
  if !s.idle core then s
  else match s.nextFor core with
    | none => s
    | some t => s.updTask t.part t.tid fun t => { t with st := .reserved (t.reservedCores ++ [core]) }

/-- The cores of a die, in ascending order. -/
def dieCores (die : Nat) : List Nat := (List.range 64).map fun i => 64 * die + i

/-- An idle core pops. Every idle core of its die pops in the same cycle, and they are served in ascending core number (R57). -/
def execDieQueuePop (core : Nat) (s : State) : Out :=
  if !s.idle core then .next s else .next ((dieCores (dieOf core)).foldl State.pop s)

/-- A record starts: it leaves its queue, its members run. -/
def State.started (s : State) (t : Task) (members : List (Nat × Nat × Nat)) : State :=
  s.updTask t.part t.tid fun t => { t with
    st := .running, members := members, halted := [], ranOn := (members.head?.map fun m => m.2.1).or t.ranOn
    place := match t.place with
      | .inline p => .inline p
      | _ => .none }

/-- Records whose budgets have been lowered since their cores were reserved give them back (R36, R396). -/
def State.giveBack (s : State) (t : Task) : State := s.updTask t.part t.tid fun t => { t with st := .ready }

/-- A core dispatches the single-core record that it has taken (R45). -/
def execTaskDispatch (core : Nat) (s : State) : Out :=
  match s.reservedFor core with
  | none => .next s
  | some t =>
    if recGang t.record ≠ 0 || !t.images.isEmpty || !t.members.isEmpty then .next s
    else if !s.withinBudget t.part (recRegion t.record) then .next (s.giveBack t)
    else match s.startMember t 0 core with
      | none => .next s
      | some (k, s) => .next (s.started t [(0, core, k)])

/-! ## Restoring contexts (R466) -/

/-- A restored or woken context goes on; one whose condition is still awaited stays parked. -/
def State.resume (s : State) (c k : Nat) : State :=
  match s.ctx? c k with
  | none => s
  | some x => match x.life with
    | .parked _ false => s
    | _ => (s.setCtx c k { x with life := .running }).updCore c fun r => { r with active := some k }

/-- Restore an image into a core, in the slot it must have or in any. -/
def State.restoreOn (s : State) (t : Task) (i : Image) (c : Nat) : Option (Nat × State) :=
  match s.roomAt c (if i.ctx.hlc ≠ 0 then some i.fromSlot else none) with
  | none => none
  | some (k, s) => (s.restoreImage t i c k).map fun s => (k, s)

/-- A gang member that was saved at its inline child and whose child has ended otherwise than by its commit: it returns to its core (R55). -/
def State.wokenImage (s : State) (c : Nat) : Option (Task × Image) := s.tasks.findSome? fun t =>
  if recGang t.record = 0 || t.members.isEmpty then none
  else (t.images.find? fun i => i.fromCore == c && (match i.ctx.life with | .parked (.child ..) true => true | _ => false)).map fun i => (t, i)

/-- Woken members of gangs that are resident on a core. -/
def State.wokenMember (s : State) (c : Nat) : Option Nat :=
  (s.core c).ctxs.findSome? fun (k, x) => match x.life with
    | .parked _ true => if recGang x.record = 0 then none else some k
    | _ => none

/-- A core restores the single-core record that it has taken, or goes on with a woken member of a gang (R53, R466). -/
def execContextRestore (core : Nat) (s : State) : Out :=
  match s.reservedFor core with
  | some t =>
    if recGang t.record ≠ 0 then .next s
    else if !s.withinBudget t.part (recRegion t.record) then .next (s.giveBack t)
    else match t.members, t.images with
      | (_, c, k) :: _, _ => .next (if c = core then (s.started t t.members).resume core k else s)
      | [], i :: _ => match s.restoreOn t i core with
        | none => .next s
        | some (k, s) => .next ((s.started t [(0, core, k)]).resume core k)
      | [], [] => .next s
  | none =>
    if !s.idle core then .next s
    else match s.wokenMember core with
      | some k => .next (s.resume core k)
      | none => match s.wokenImage core with
        | some (t, i) => .next (match (s.roomAt core (some i.fromSlot)).bind fun (k, s) => s.restoreImage t i core k with
          | some u => u.resume core i.fromSlot
          | none => s)
        | none => .next s

/-! ## Gangs (R46, R47, R384) -/

/-- Give the open roles of a gang the cores left, in order. -/
def fillRoles : List (Option Nat) → List Nat → List Nat
  | [], _ => []
  | some c :: l, rest => c :: fillRoles l rest
  | none :: l, c :: rest => c :: fillRoles l rest
  | none :: l, [] => 0 :: fillRoles l []

/-- The binding of a gang that has all its cores: role 0 goes to the core that popped it where it is open (R46). -/
def gangBinding (roles : List (Option Nat)) (cores : List Nat) : List Nat :=
  let need := roles.filterMap id
  let rest := (cores.filter fun c => !need.contains c).mergeSort (· ≤ ·)
  let head := cores.head?.getD 0
  fillRoles roles (if roles.head? = some none ∧ rest.contains head then head :: rest.erase head else rest)

/-- Start or restore the members, role by role. -/
def State.startRoles (s : State) (t : Task) : List (Nat × Nat) → List (Nat × Nat × Nat) → Option (List (Nat × Nat × Nat) × State)
  | [], done => some (done, s)
  | (role, c) :: l, done =>
    let step := match t.images.find? fun i => i.role == role with
      | some i => s.restoreOn t i c
      | none => s.startMember t role c
    match step with
    | none => none
    | some (k, s) => s.startRoles t l (done ++ [(role, c, k)])

/-- A new member runs, or waits for its overlay load; a restored one goes on. -/
def State.resumeGang (s : State) (c k : Nat) : State :=
  match s.ctx? c k with
  | some x => if x.life = .loading then s else s.resume c k
  | none => s

/-- A gang whose cores are all reserved starts, every member in one step, with one binding (R46, R47, R383). -/
def State.startGang (s : State) (t : Task) (cores : List Nat) : Option State :=
  let b := gangBinding (s.gangRoles t) cores
  match s.startRoles t (b.mapIdx fun i c => (i, c)) [] with
  | none => none
  | some (ms, s) =>
    let s := s.started t ms
    let bind : Binding := ⟨b, ms.map fun m => m.2.2⟩
    some (ms.foldl (fun s (_, c, k) => (s.updCtx c k fun x => { x with binding := bind }).resumeGang c k) s)

/-- A gang that has reserved all its cores starts (R47). -/
def State.gatherGang (s : State) (t : Task) (cs : List Nat) : State :=
  if recGang t.record = 0 || cs.length ≠ recGang t.record + 1 then s
  else if !s.withinBudget t.part (recRegion t.record) then s.giveBack t
  else (s.startGang t cs).getD s

/-! ## Overlay loads (R135, R136, R289, R290) -/

/-- Descriptor i of an image header: offset and size. -/
def sectionOf (h : List Byte) (i : Nat) : Nat × Nat := (ofBytes ((h.drop (0x10 + 8 * i)).take 4), ofBytes ((h.drop (0x14 + 8 * i)).take 4))

/-- Does descriptor i break a rule? -/
def sectionBad (h : List Byte) (i : Nat) : Bool :=
  let (off, size) := sectionOf h i
  let total := ofBytes ((h.drop 0xC).take 4)
  let earlier := (List.range i).map (sectionOf h)
  off % 64 != 0 || (i < 4 && size % 4 != 0) || (i == 0 && size < 4) || (size == 0 && off != 0) || total < off + size ||
  (size != 0 && (off < 64 || earlier.any fun (o, n) => overlaps off size o n)) ||
  (i == 3 && 0x80000 < (((List.range 4).map fun j => (sectionOf h j).2).foldl (· + ·) 0))

/-- The header offset of the first failing field, the object's size given (R136). -/
def headerBad (h : List Byte) (objSize : Nat) : Option Nat :=
  let f := fun o n => ofBytes ((h.drop o).take n)
  if h.take 4 != [0x55, 0x53, 0x49, 0x4C] then some 0
  else if f 4 2 ≠ 1 then some 4
  else if f 6 2 ≠ 0 then some 6
  else if (sectionOf h 0).2 ≤ 4 * f 8 4 then some 8
  else if f 0xC 4 < 64 || objSize < f 0xC 4 then some 0xC
  else match lowest 5 (sectionBad h) with
    | some i => some (0x10 + 8 * i)
    | none => if f 0x38 8 ≠ 0 then some 0x38 else none

/-- Little-endian words of bytes. -/
def wordsOf (bs : List Byte) : List Half := (List.range (bs.length / 4)).map fun i => BitVec.ofNat 32 (ofBytes ((bs.drop (4 * i)).take 4))

def Loaded.size (l : Loaded) : Nat := ([l.sq, l.ve, l.me, l.tu].map fun w => (w.length + 15) / 16 * 64).foldl (· + ·) 0
def Core.imemUsed (r : Core) : Nat := (r.imem.map Loaded.size).foldl (· + ·) 0

/-- Does a resident context use an image? -/
def Core.uses (r : Core) (key : ImgKey) : Bool := r.ctxs.any fun (_, x) => x.image == key

/-- Does a saved context run from an image of an earlier generation, which cannot be loaded again (R289, R379)? -/
def State.keptOld (s : State) (key : ImgKey) : Bool :=
  objGen (s.object key.part key.handle).1 != key.gen && s.tasks.any fun t => t.part == key.part && t.images.any fun i => i.ctx.image == key

/-- Free room for n bytes: unused images, the least recently dispatched first, then parked contexts, the oldest first (R290). A copy that a
saved context cannot do without stays (R379). -/
def State.imemRoom (s : State) (c n : Nat) : Nat → Option State
  | 0 => none
  | fuel + 1 =>
    let r := s.core c
    if r.imemUsed + n ≤ 0x80000 then some s
    else
      let old := ((r.imem.filter fun l => !r.uses l.key && !s.keptOld l.key).mergeSort fun a b => a.age ≤ b.age).head?
      match old with
      | some l => (s.updCore c fun r => { r with imem := r.imem.filter fun q => q.key != l.key }).imemRoom c n fuel
      | none => match s.savable c with
        | k :: _ => (s.saveCtx c k (match (s.ctx? c k).map Ctx.life with | some (.parked _ true) => .ready | _ => .parked)).imemRoom c n fuel
        | [] => none

/-- The first page of a range that is not on a resident leaf, with whether its leaf is a valid one of the non-resident kind. -/
def State.firstAway (s : State) (p addr n : Nat) : Option (Nat × Bool) :=
  (List.range (n / 65536 + 2)).findSome? fun i =>
    let a := (addr / 65536 + i) * 65536
    if addr + n ≤ a then none
    else match s.translate p (a % 2 ^ 56) with
      | some e => if entryKind e.entry = 1 then none else some (a, entryKind e.entry == 2)
      | none => some (a, false)

/-- Call the pager for a page once (R290). -/
def State.callImage (s : State) (c k : Nat) (a : Word) : State :=
  if s.pager.contains (.image c k a) then s else { s with pager := s.pager ++ [.image c k a] }

/-- The image that a context waits for. -/
def State.wantedImage (s : State) (c : Nat) (x : Ctx) : Option ImgKey :=
  let key := if x.life = .loading then s.imageKey x.part (recCode x.record) else x.image
  if (x.life = .loading || x.life = .running) && ((s.core c).loaded key).isNone then some key else none

/-- A checked image as it is loaded (R108). -/
def loadedOf (key : ImgKey) (img : List Byte) : Loaded :=
  let h := img.take 64
  let sec := fun i => wordsOf ((img.drop (sectionOf h i).1).take (sectionOf h i).2)
  ⟨key, ofBytes ((h.drop 8).take 4), sec 0, sec 1, sec 2, sec 3, 0⟩

/-- The copy of an image that another core holds: a context restored there from an earlier generation takes it (R289, R379). -/
def State.copyOf (s : State) (key : ImgKey) : Option Loaded := s.cores.findSome? fun (_, r) => r.loaded key

/-- Place a checked image and let its context start (R108, R290). -/
def State.placeImage (s : State) (c k : Nat) (x : Ctx) (key : ImgKey) (image : Loaded) : State :=
  let (n, s) := s.fresh
  let l : Loaded := { image with age := n }
  let s := s.setCtx c k { x with image := key }
  match s.imemRoom c l.size 64 with
  | none => s
  | some s =>
    let s := (s.updCore c fun r => { r with imem := r.imem ++ [l] }).countPerf c 8
    s.updCtx c k fun x => if x.life = .loading then { x with life := .running, pc := BitVec.ofNat 32 l.entry } else x

/-- The overlay loader loads the image that a context waits for: what is not resident calls the pager, a bad header aborts (R136, R290). -/
def execOverlayLoadComplete (core slot : Nat) (s : State) : Out :=
  match s.ctx? core slot with
  | none => .next s
  | some x => match s.wantedImage core x with
    | none => if x.life = .loading then match (s.core core).loaded (s.imageKey x.part (recCode x.record)) with
        | some l => .next (s.setCtx core slot { x with life := .running, image := l.key, pc := BitVec.ofNat 32 l.entry })
        | none => .next s
      else .next s
    | some key =>
      let o := s.object x.part key.handle
      let base := bitsAt o.2.1 0 56
      let bad : Nat → Out := fun v => .next (s.abort core slot ⟨OBJFAULT, BitVec.ofNat 64 v⟩)
      let check := fun (n : Nat) (f : List Byte → Out) =>
        match s.firstAway x.part base n with
        | some (a, _) => .next (s.callImage core slot (BitVec.ofNat 64 a))
        | none => match s.poisonG x.part base n with
          | some u => .next (s.abort core slot ⟨if x.life = .loading then POISON else OBJFAULT, u⟩)
          | none => f (s.readG x.part base n)
      let old := if x.life = .loading || objGen o.1 = key.gen then none else s.copyOf key
      if let some l := old then .next (s.placeImage core slot x key l)
      else if !s.isImage x.part key.handle || objGen o.1 ≠ key.gen || !selectsG o.2.1 then bad key.handle
      else check 64 fun h => match headerBad h o.2.2.1 with
        | some off => bad off
        | none => check (ofBytes ((h.drop 0xC).take 4)) fun img => .next (s.placeImage core slot x key (loadedOf key img))

/-! ## Pre-emption (R63, R384) -/

/-- May a task be pre-empted now: every member is resident and can be saved, and each runs or is parked? A gang's accepted commands, which
can go through role windows, have ended first (R384). -/
def State.canPreempt (s : State) (t : Task) : Bool :=
  t.st == .running && t.members.length == recGang t.record + 1 && t.members.all fun (_, c, k) => s.canSave c k && (match s.ctx? c k with
    | some x => x.asks.isEmpty && x.writing.isNone && (recGang t.record == 0 || s.copies x == 0) &&
      (match x.life with | .running => true | .parked .. => true | _ => false)
    | none => false)

/-- Is a running task one that a save can find room for (R465)? -/
def State.takeable (s : State) (t : Task) : Bool := t.members.all fun (_, c, k) => match s.ctx? c k with
  | some x => s.areaRoom c x
  | none => false

/-- Save every member of a running task; its record is ready (R63). -/
def State.preemptTask (s : State) (t : Task) : State :=
  t.members.foldl (fun s (_, c, k) => (s.saveCtx c k .ready).countPerf c 7) s

/-- The task whose context a core runs. -/
def State.runningOn (s : State) (c : Nat) : Option Task := (s.core c).active.bind fun k => (s.ctx? c k).bind fun x => s.task? x.part x.tid

/-- The core of the lowest effective priority among some that run tasks which can be saved; ties go to the highest core number. -/
def State.victim (s : State) (cores : List Nat) : Option (Nat × Nat) :=
  cores.foldl (fun (m : Option (Nat × Nat)) c => match (s.runningOn c).filter s.takeable with
    | none => m
    | some t => let p := s.effPri t; match m with
      | none => some (p, c)
      | some (q, d) => if p ≤ q then some (p, c) else some (q, d)) none

/-- The victim that a ready record asks for: every core eligible for it runs a task of strictly lower priority (R63). -/
def State.wants (s : State) (t : Task) : Option Nat :=
  let cores := coreNums.filter fun c => s.mayTake c t
  let pri := s.effPri t
  if cores.all fun c => match s.runningOn c with | some u => s.effPri u < pri | none => false then (s.victim cores).map Prod.snd else none

/-- The victim that a gathering gang asks for: the gang has the highest priority of the records ready for those cores (R47). -/
def State.gangWants (s : State) (t : Task) (cs : List Nat) : Option Nat :=
  let pri := s.effPri t
  let cores := (s.gangCores t).filter fun c => !cs.contains c
  let rival := s.tasks.any fun u => u.st == .ready && s.dispatchable u && pri < s.effPri u && cores.any fun c => s.eligible c u
  if recGang t.record = 0 || rival || cores.any s.idle then none
  else match s.victim cores with
    | some (p, c) => if p < pri then some c else none
    | none => none

/-- The scheduler pre-empts what a core runs, for a ready record or a gathering gang (R47, R63). -/
def execPreemption (core : Nat) (s : State) : Out :=
  let asked := s.tasks.any fun t => match t.st with
    | .ready => s.queueDie t == dieOf core && s.dispatchable t && s.wants t == some core
    | .reserved cs => s.gangWants t cs == some core
    | _ => false
  match s.runningOn core with
  | some t => .next (if asked && s.canPreempt t then s.preemptTask t else s)
  | none => .next s

/-- The oldest save in the shadow store drains into its image area (R465). -/
def execShadowStoreDrain (core : Nat) (s : State) : Out := .next (s.updCore core fun r => { r with shadow := r.shadow.drop 1 })

/-! ## Aging and the stage balancer (R40, R60) -/

/-- A record that has been ready for 2^20 cc of its die's queue clock rises by one level (R60). -/
def execAgingTick (part : Nat) (tid : Word) (s : State) : Out :=
  match s.task? part tid with
  | none => .next s
  | some t =>
    let clock := (s.die t.die).qclk.toNat
    let top := min 15 (s.eff part (recRegion t.record) 5 + 2)
    if !(t.st == .ready || t.gathering) || recMgmt t.record || clock < t.since + 2 ^ 20 then .next s
    else .next (s.updTask part tid fun t => { t with since := t.since + 2 ^ 20, aged := if t.aged < top then t.aged + 1 else t.aged })

/-- A stage's score (R40). -/
def State.stageScore (s : State) (p r n st : Nat) : Nat :=
  if st + 1 < n && s.stageFull p r (st + 1) then 0 else s.stageFill p r st * 4096 / stageCap (s.stageWord p r st)

/-- The best stage of some by a score; ties go to the lower number. -/
def bestStage (better : Nat → Nat → Bool) (score : Nat → Nat) (l : List Nat) : Option Nat :=
  l.foldl (fun (m : Option Nat) st => match m with
    | none => some st
    | some b => if better (score st) (score b) then some st else some b) none

/-- One region's move on a die: the lowest-numbered core of the donor moves. -/
def State.balanceRegion (s : State) (die p r : Nat) : State :=
  let n := s.stageCount p r
  let score := s.stageScore p r n
  let have' := fun st => s.stageCores p r st die
  let stages := List.range n
  let donor := bestStage (· < ·) score (stages.filter fun st => stageMin (s.stageWord p r st) < have' st)
  let receiver := bestStage (fun a b => b < a) score (stages.filter fun st =>
    have' st < stageMax (s.stageWord p r st) && !(st + 1 < n && s.stageFull p r (st + 1)))
  match donor, receiver with
  | some d, some q =>
    if score q < score d + 512 then s
    else
      let cores := ((s.region p r).assign.filter fun (c, st) => dieOf c == die && st == d).map Prod.fst
      match (cores.mergeSort (· ≤ ·)).head? with
      | none => s
      | some c => s.updPart p fun x => { x with regions := Tab.adjust x.regions r fun y =>
          { y with assign := y.assign.map fun (i, st) => if i = c then (i, q) else (i, st) } }
  | _, _ => s

/-- The stage balancer of a die acts once every 4,096 cc of its queue clock (R40). -/
def execStageBalancer (die : Nat) (s : State) : Out :=
  let now := (s.die die).qclk.toNat / 4096
  if now = (s.die die).balanced then .next s
  else
    let s := s.updDie die fun d => { d with balanced := now }
    let regions := partNums.flatMap fun p => ((s.part p).regions.filter fun (_, x) => x.st == .running).map fun (r, _) => (p, r)
    .next (regions.foldl (fun s (p, r) => s.balanceRegion die p r) s)

/-! ## Boot tasks (R49, R370, R371) -/

/-- The boot record of a mailbox. -/
def State.bootRecord (s : State) (p : Nat) (m : Mailbox) : Rec :=
  let h := m.handle.toNat + s.eff p 0 5 * 2 ^ 36 + 2 ^ 50
  recSet (recSet 0 0 (BitVec.ofNat 64 h)) 11 m.arg

/-- A launch is checked: the boot record is inserted, or CHECK names why not (R371). -/
def execBootGo (part core : Nat) (s : State) : Out :=
  let m := (s.core core).mbox
  let set := fun (s : State) f => s.updCore core fun r => { r with mbox := f r.mbox }
  if !m.busy then .next s
  else if s.coreOwner core ≠ some part || !s.coreOk part core then .next (set s fun m => { m with busy := false, check := 0xFF })
  else
    let r := s.bootRecord part m
    match s.recordCheck ⟨part, true, 0, true⟩ r with
    | some (row, _) => .next (set s fun m => { m with busy := false, check := BitVec.ofNat 8 row })
    | none => match s.insertTask part r ⟨core, dieOf core, .boot core, s.stampFor part r none, none, false, some core, none, 0⟩ with
      | .ok (_, s) => .next (set s fun m => { m with busy := false, launches := m.launches + 1 })
      | .error _ => .next (set s fun m => { m with busy := false, check := 6 })

end Sys2Proof.Machine
end

