-- ==== Sys2Proof/Machine/Ending.lean ====
section
/-! DEFINITION. Ends of tasks and what follows from them: release, replication, recovery walks, commit, abort, the end of a quiesce
(R48, R51, R52, R62, R384, R409 to R420, R454 to R458, R462, R472, R473). -/

namespace Sys2Proof.Machine

/-! ## Release and replication (R409, R414) -/

/-- A version is current: every record that waits for it is told; one that waits for nothing more is released (R409). -/
def State.notify (s : State) (p : Nat) (nv : Word) : State :=
  let due := s.tasks.filter fun t => t.part == p && t.st == .waiting && t.waits.contains nv
  due.foldl (fun s t =>
    let s := s.updTask p t.tid fun t => { t with waits := t.waits.filter (· != nv) }
    if t.waits.all (· == nv) then s.release p t.tid else s) s

/-- The home of a current version tells the other devices that wait for it. -/
def State.notifyFar (s : State) (p : Nat) (e : DirEntry) : State :=
  (e.far.filter FarUse.waits).foldl (fun s u =>
    (s.updVersion p e.nv fun e => e.updFar u.dev fun u => { u with waits := false }).tellDev p u.dev e.nv .current e.told) s

/-- The DMU takes the notice of a version's home, which sends it when the version is current. -/
def execDmuRelease (part : Nat) (nv : Word) (s : State) : Out :=
  match s.version? part nv with
  | some e => .next (if e.st = .current then (s.notify part nv).notifyFar part e else s)
  | none => .next s

/-- The target of an automatic replica for a releasing record, which prefers the home of its first result (R414 step 2). -/
def State.autoTarget (s : State) (p : Nat) (want : Option (Nat × Nat)) (e : DirEntry) : Option (Nat × Nat) :=
  let dev := (s.part p).devnum
  let here := s.dieHolding p e.base.toNat
  let next := (here.bind fun d => s.nextDie p d).map fun d => (dev, d)
  match want with
  | none => next
  | some (hdev, hdie) =>
    if hdev ≠ dev then match s.wayTo p hdev with
      | .via .. => some (hdev, hdie)
      | _ => next
    else if here ≠ some hdie ∧ !(s.die hdie).lost ∧ (s.part p).hbmOnDie hdie then some (dev, hdie)
    else next

/-- What the first record, here or on another device, that waits for a version's replica prefers. -/
def State.replWanted (s : State) (p : Nat) (e : DirEntry) : Option (Option (Nat × Nat)) :=
  match s.tasks.find? fun t => t.part == p && t.replWaits.contains e.nv with
  | some t => some (s.wantHome p t.record)
  | none => e.far.findSome? FarUse.repl

/-- A replica that a record waits for is made; where no target is to be had it waits (R414). -/
def execReplicationComplete (part : Nat) (nv : Word) (s : State) : Out :=
  match (s.version? part nv).bind fun e => (s.replWanted part e).map fun w => (e, w) with
  | some (e, want) =>
    if e.repl then .next (s.replicated part nv)
    else if e.st ≠ .current || !s.homeLocal part nv then .next s
    else match s.autoTarget part want e with
      | some (dev, die) => .next (if s.replicaFits part e dev die then (s.makeReplica part nv dev die).replicated part nv else s)
      | none => .next s
  | none => .next s

/-! ## Ends without a commit (R416, R419, R457) -/

/-- What a chain of ends has still to do: a version is unrecoverable, or a task aborts. final: with no re-run. -/
inductive EndWork where
  | version (part : Nat) (nv : Word)
  | task (part : Nat) (tid : Word) (w : Cause) (final : Bool)
  deriving DecidableEq, Repr

/-- The cause of a refused commit: reported as OBJFAULT, it re-runs under the count (R458). -/
def commitRefused : Nat := 259

def Cause.reported (w : Cause) : Cause := ⟨w.code % 256, w.value⟩

/-- The parent that is parked at an inline child, with its role and POPT's destination (R55, R363, R364). -/
def State.inlineParent (s : State) (p : Nat) (tid : Word) : Option (Task × Nat × Option Reg) :=
  let waits := fun (x : Ctx) => match x.life with
    | .parked (.child c pop) _ => if c = tid then some pop else none
    | _ => none
  s.tasks.findSome? fun u =>
    if u.part ≠ p then none
    else match u.images.findSome? fun i => (waits i.ctx).map fun pop => (u, i.role, pop) with
      | some q => some q
      | none => u.members.findSome? fun (role, c, k) => ((s.ctx? c k).bind waits).map fun pop => (u, role, pop)

/-- Remove a task's watches and lock-queue places. -/
def State.dropWaits (s : State) (p : Nat) (tid : Word) : State :=
  { s with cores := s.cores.map fun (c, r) => (c, { r with
      watches := r.watches.filter fun w => !(w.part == p && w.tid == tid)
      lockq := r.lockq.filter fun w => !(w.part == p && w.tid == tid) }) }

/-- A POISON abort loses the operand version that holds the address (R416, R457). -/
def State.losePoisoned (s : State) (p : Nat) (r : Rec) (w : Cause) : State :=
  if w.code ≠ POISON || bitsAt w.value 56 8 ≠ 0 then s
  else match (recOperands r).find? fun nv => match s.version? p nv with
      | some e => e.st == .current && e.holds w.value.toNat
      | none => false with
    | some nv => if s.homeLocal p nv then s.loseVersion p nv POISON else s.tellHome p nv .lose []
    | none => s

/-- May the task run again (R457)? -/
def Task.again (t : Task) (w : Cause) (final : Bool) : Bool :=
  !final && (w.code == 12 || ((w.code == 10 || w.code == 11 || w.code == commitRefused) && t.reruns + 1 < 4))

/-- Where an inline child that runs again waits (R363, R364). -/
def State.childPlace (s : State) (p : Nat) (t : Task) (up : Word) (popped : Bool) : Place :=
  match s.spawnPlace p t.core t.record up with
  | .inline q => if popped then s.spillOr p t.die else .inline q
  | q => q

/-- End the contexts of a task that are saved and take its record back: it runs again, or it is out and its fault domain stops. -/
def State.endAll : Nat → List EndWork → State → State
  | 0, _, s => s
  | _, [], s => s
  | n + 1, .version p nv :: l, s =>
    let cause := ((s.version? p nv).map DirEntry.lossCause).getD OBJFAULT
    let s := s.updVersion p nv fun e => { e with st := .lost, unrc := true }
    let far := (((s.version? p nv).map DirEntry.far).getD []).filter FarUse.waits
    let s := far.foldl (fun s u =>
      (s.updVersion p nv fun e => e.updFar u.dev fun u => { u with waits := false }).tellDev p u.dev nv .dead [BitVec.ofNat 8 cause]) s
    let due := s.tasks.filter fun t => t.part == p && t.waits.contains nv
    State.endAll n (due.map (fun t => EndWork.task p t.tid ⟨cause, nv⟩ true) ++ l) s.sweep
  | n + 1, .task p tid w final :: l, s =>
    match s.task? p tid with
    | none => State.endAll n l s
    | some t =>
      let up := s.inlineParent p tid
      let s := ((((s.dropWaits p tid).losePoisoned p t.record w).unmark p tid).withdrawChildren p tid).returnTaken p tid
      if t.again w final then
        let s := s.updTask p tid fun t => { t with reruns := if w.code = 12 then t.reruns else t.reruns + 1 }
        let s := match up with
          | none => s
          | some (u, role, pop) =>
            let s := s.updTask p tid fun t => { t with place := s.childPlace p t u.tid pop.isSome }
            match pop with
            | some d => s.wakeMember p u.tid role fun x => x.setReg d 0
            | none => s
        State.endAll n l (s.requeue p tid true)
      else
        let s := s.endAborted p t w.reported
        let gone := if t.recomp then (recResults t.record).filter fun nv => match s.version? p nv with
            | some e => e.st == .recomp && e.ptid == tid
            | none => false
          else []
        let s := gone.foldl (fun s nv => s.updVersion p nv fun e => { e with lossCause := if w.code = OBJFAULT then OBJFAULT else e.lossCause }) s
        match up with
        | some (u, _, _) => match u.members with
          | (_, c, k) :: _ => State.endAll n (gone.map (EndWork.version p) ++ l) (s.abort c k w)
          | [] => State.endAll n (gone.map (EndWork.version p) ++ .task p u.tid w false :: l) s
        | none => State.endAll n (gone.map (EndWork.version p) ++ l) s

/-- Each work item ends a task, requeues one, or marks a version. -/
def State.endFuel (s : State) : Nat := 4 * (s.tasks.length + 2) * (s.versions.length + 2)

/-! ## The end of a quiesce (R472, R473) -/

/-- Names that records wait for and that are homed on some lost device. -/
def State.lostWaits (s : State) (p : Nat) (devs : List Nat) : List Word :=
  ((s.tasks.filter fun t => t.part == p).flatMap Task.waits).eraseDups.filter fun nv => devs.contains (s.home p nv).1

/-- Every context has handed over or ended: the partition runs again (R420, R472, R473). -/
def State.endQuiesce (s : State) (p : Nat) : State :=
  let q := s.part p
  if q.quiesce.isNone || s.tasks.any fun t => t.part == p && !(t.images.isEmpty && t.members.isEmpty) then s
  else
    let s := s.updPart p fun q => { q with quiesce := none, lostDevs := [] }
    let s := if q.lostDevs.isEmpty then s
      else { s with versions := s.versions.map fun e =>
          let gone := match e.maker with
            | some (dev, _) => q.lostDevs.contains dev
            | none => false
          if e.part == p && e.st == .pending && gone then { e with st := .unprod, mark := none, maker := none, taking := false } else e }
    let names := s.lostWaits p q.lostDevs
    let s := names.foldl (fun s nv => s.updVersion p nv fun e => { e with lossCause := 12 }) s
    (State.endAll s.endFuel (names.map (EndWork.version p)) s).interrupt (p + 1) 258

/-- End a task that has no resident context. -/
def State.endTask (s : State) (p : Nat) (tid : Word) (w : Cause) (final : Bool) : State :=
  (State.endAll s.endFuel [.task p tid w final] s).endQuiesce p

def State.unrecoverable (s : State) (p : Nat) (nv : Word) : State := State.endAll s.endFuel [.version p nv] s

/-! ## Gangs that wait for an isolated core (R384) -/

/-- A gang starts when it has reserved all its cores; a member that must return to an isolated core aborts it. -/
def execGangStart (part : Nat) (tid : Word) (s : State) : Out :=
  match s.task? part tid with
  | none => .next s
  | some t =>
    let stuck := recGang t.record != 0 && t.images.any fun i => i.bound && (s.core i.fromCore).isolated
    let ends : Out := .next (s.endTask part tid ⟨11, Config.freeWord s.tick &&& 3⟩ false)
    match t.st with
    | .ready => if stuck then ends else .next s
    | .reserved cs => if stuck then ends else .next (s.gatherGang t cs)
    | _ => .next s

/-! ## Recovery walks (R417 to R419) -/

/-- Is a storage range mapped, so that the pager has not to be waited for (R416)? -/
def State.storageMapped (s : State) (p : Nat) (e : DirEntry) : Bool :=
  (s.pagesOf p e.base.toNat e.rangeLen).all fun q => match q.2 with
    | some l => entryKind l.entry == 1 || entryKind l.entry == 2
    | none => false

/-- The largest effective priority among the records that wait for a record's results, on other devices too (R62). -/
def State.waitersPri (s : State) (p : Nat) (r : Rec) : Nat :=
  let far := (recResults r).flatMap fun nv => (((s.version? p nv).map DirEntry.far).getD []).filterMap fun u => if u.waits then some u.pri else none
  (s.tasks.filter fun t => t.part == p && t.waits.any (recResults r).contains).foldl (fun m t => max m (s.effPri t)) (far.foldl max 0)

/-- Re-enqueue the producer of a lost version. -/
def State.recompute (s : State) (p : Nat) (e : DirEntry) (l : Lineage) : State :=
  let r := recSet l.record 0 ((recHeader l.record ||| 1#64 <<< 51) &&& ~~~(1#64 <<< 52))
  let reg := recRegion r
  let die := (s.homeDie p e.nv).getD 0
  let tid := taskId 0 r
  let pri := s.waitersPri p r
  let mark := fun (s : State) => ((s.updVersion p e.nv fun e => { e with st := .recomp, ptid := tid }).updTask p tid fun t =>
    { t with waitPri := max t.waitPri pri }).raiseProducers p pri (s.tasks.length + 1) (recOperands r)
  if (s.task? p tid).isSome then mark s
  else if !s.running p reg then s.unrecoverable p e.nv
  else match (s.updVersion p e.nv fun e => { e with st := .recomp }).insertTask p r
      ⟨0, die, .stage die reg (recStage r), s.stampFor p r none, none, false, none, none, 0⟩ with
    | .ok (_, s) => mark s
    | .error _ => s.unrecoverable p e.nv

/-- One step of a walk: from a replica, from the lineage entry, or not at all (R417). -/
def execRecoveryWalk (part : Nat) (nv : Word) (s : State) : Out :=
  match s.version? part nv with
  | none => .next s
  | some e =>
    if e.st ≠ .lost || e.unrc || e.need = 0 || (s.part part).quiesce.isSome || !s.homeLocal part nv then .next s
    else if !s.storageMapped part e && (e.repl || (e.linked && !e.ext)) then .next s
    else if e.repl then .next (s.updVersion part nv fun e => { e with st := .restore })
    else match e.lin with
      | some l => if e.ext then .next (s.unrecoverable part nv) else .next (s.recompute part e l)
      | none => .next (s.unrecoverable part nv)

/-- A replica has been copied into its version's storage: the version is current, and its home notifies its waits next (R407). -/
def execVersionRestoreComplete (part : Nat) (nv : Word) (s : State) : Out :=
  match s.version? part nv with
  | none => .next s
  | some e =>
    let n := e.rangeLen
    if e.st ≠ .restore || !s.residentG part e.base.toNat n then .next s
    else
      let here := e.rdev == (s.part part).devnum
      let bs := if here then s.mem.read e.rpa n else e.rbytes
      let pois := if here then (unitsOf e.rpa n).filterMap fun (i, a, _) => if s.memPois.contains (a / 64) then some i else none else e.rpois
      let s := (unitsOf e.base.toNat n).foldl (fun s (i, a, m) => match s.residentPa part a with
        | some pa => s.putUnits pa ((bs.drop (64 * i)).take m) (if pois.contains i then [0] else [])
        | none => s) s
      .next (s.updVersion part nv fun e => { e with st := .current })

/-! ## Commit (R48, R51, R407, R411 to R415, R458) -/

/-- Has a context nothing outstanding (R51, R360)? -/
def State.settled (s : State) (c k : Nat) (x : Ctx) : Bool :=
  s.quiet c k x && x.savedEntries.isEmpty && x.savedJobs.isEmpty && x.rings.all fun (_, q) => !q.inFlight

/-- The lowest tag that has ended with a code, or 64 for the no-commit mark (R458). -/
def Ctx.commitFault (x : Ctx) : Option Nat :=
  match lowest 64 fun i => (Tab.get 0 x.tagStatus i).toNat % 16 != 0 with
  | some i => some i
  | none => if x.nocommit then some 64 else none

/-- Why a halted context's task does not commit: a cause that no program is left to take (R192), or a tag or mark (R51). -/
def Ctx.refusedBy (x : Ctx) : Option Cause :=
  match x.pend with
  | some w => some ⟨w.code % 512, w.value⟩
  | none => (Ctx.commitFault x).map fun v => ⟨commitRefused, BitVec.ofNat 64 v⟩

/-- The lineage entry of a result slot (R411): it counts every operand slot in use. -/
def lineageOf (r : Rec) (slot : Nat) : Lineage :=
  ⟨recSet r 0 (recHeader r &&& ~~~(3#64 <<< 51)), slot, List.range (min 6 (recNops r)), true⟩

/-- Lineage entries on a die. -/
def State.lineagesOn (s : State) (die : Nat) : Nat := (s.versions.filter fun e => e.die == die && e.linked).length

/-- What a home needs to know of the task that commits: its ID, its record and the depth of its results. -/
structure Publisher where
  tid : Word
  record : Rec
  depth : Nat

/-- A marked result becomes current for the first time (R413, R415); a full lineage shard forces a replica (R411). -/
def State.publishOne (s : State) (p : Nat) (t : Publisher) (slot : Nat) (e : DirEntry) (m : PubMark) : State :=
  let full := !m.ext && 262144 ≤ s.lineagesOn e.die
  let l := lineageOf t.record slot
  let keep := !m.ext && !full
  let s := s.updVersion p e.nv fun e => { e with
    st := .current, base := m.base, size := m.size, ncol := m.ncol, nrow := m.nrow, norm := m.norm, ext := m.ext, hold := 1, mark := none
    maker := none, taking := false
    depth := if m.ext || recNops t.record = 0 then 0 else t.depth, lin := if keep then some l else none }
  if keep then s.addDref p l
  else if full then
    let target := (s.autoTarget p (s.wantHome p t.record) { e with base := m.base }).getD ((s.part p).devnum, e.die)
    (s.makeReplica p e.nv target.1 target.2).countError e.die 14
  else s

/-- Are the values of a recomputed publication those recorded (R415)? -/
def DirEntry.sameAs (e : DirEntry) (m : PubMark) : Bool :=
  e.base == m.base && e.size == m.size && e.ncol == m.ncol && e.nrow == m.nrow && e.norm == m.norm && e.ext == m.ext

/-- The mark that a task has made on an entry. -/
def DirEntry.markOf (e : DirEntry) (tid : Word) : Option PubMark := e.mark.bind fun m => if m.tid = tid then some m else none

/-- Does a recomputed result differ at its home from what is recorded, or has it no mark (R415)? -/
def DirEntry.differs (e : DirEntry) (tid : Word) : Bool :=
  (e.st == .lost || e.st == .restore || e.st == .recomp) && (match e.markOf tid with | some m => !e.sameAs m | none => true)

/-- The first result of a task that differs, in slot order: at homes here if it recomputes, or as homes elsewhere have answered. -/
def State.differs (s : State) (p : Nat) (t : Task) (said : List (Word × Nat)) : Option Word := (recResults t.record).find? fun nv =>
  (t.recomp && s.homeLocal p nv && ((s.version? p nv).map fun e => e.differs t.tid).getD false) || said.any fun q => q.1 == nv && q.2 != 1

/-- One result at its home at commit. -/
def State.settleHere (s : State) (p : Nat) (t : Publisher) (slot : Nat) (nv : Word) : State :=
  match s.version? p nv with
  | none => s
  | some e => match e.st, e.markOf t.tid with
    | .pending, some m => s.publishOne p t slot e m
    | .pending, none => if e.ptid = t.tid then s.updVersion p nv fun e => { e with st := .unprod, maker := none, taking := false } else s
    | .unprod, some m => s.publishOne p t slot e m
    | .current, _ => s.updVersion p nv fun e => { e with mark := none, maker := none, taking := false }
    | _, some _ => s.updVersion p nv fun e => { e with st := .current, mark := none, maker := none, taking := false }
    | _, none => s

/-- A publisher as a message carries it, with the result slot. -/
def Publisher.bytes (t : Publisher) (slot : Nat) : List Byte :=
  bytesOf 8 t.tid.toNat ++ [BitVec.ofNat 8 slot, BitVec.ofNat 8 t.depth] ++ bytesOf 128 t.record.toNat

/-- One result at commit: at its home, or by a message to it. -/
def State.settleResult (s : State) (p : Nat) (t : Publisher) (slot : Nat) (nv : Word) : State :=
  if s.homeLocal p nv then s.settleHere p t slot nv
  else (s.updVersion p nv fun e => if e.ptid = t.tid ∧ e.st = .pending then { e with st := .unprod } else e).tellHome p nv .publish (t.bytes slot)

/-- A marked RETAIN delta applies, clamped (R424). -/
def State.applyDelta (s : State) (p : Nat) (nv : Word) (d : Int) : State :=
  if !s.homeLocal p nv then s.tellHome p nv .delta (bytesOf 8 (BitVec.ofInt 64 d).toNat)
  else match s.version? p nv with
    | none => s
    | some e =>
      let h : Int := e.hold + d
      let s := s.updVersion p nv fun e => { e with hold := (min (max h 0) 65535).toNat }
      if holdOut h then s.countError e.die 15 else s

/-- The record of a task that commits leaves: its own count on its operands goes, and entries with no need are freed. -/
def State.commitTask (s : State) (p core slot : Nat) (x : Ctx) (t : Task) : State :=
  let up := s.inlineParent p t.tid
  let s := (recResults t.record).zipIdx.foldl (fun s (nv, i) => s.settleResult p ⟨t.tid, t.record, t.depth⟩ i nv) s
  let s := if t.recomp then s else t.deltas.foldl (fun s (nv, d) => s.applyDelta p nv d) s
  let s := s.joinDec x (dieOf core) (recJoin t.record)
  let s := (s.takenBy p t.tid).foldl (fun s (u, _) => (s.joinDec x (dieOf core) (recJoin u.record)).dropTask p u.tid) s
  let s := t.members.foldl (fun s (_, c, k) => s.dropCtx c k false) s
  let s := ((s.dropTask p t.tid).unmark p t.tid).dropCons p t.record
  let s := match t.boot with
    | some c => s.mailbox p c fun m => { m with done := true }
    | none => s
  let s := match up with
    | none => s
    | some (u, role, pop) =>
      let s := s.wakeMember p u.tid role fun x => match pop with
        | some d => x.setReg d 1
        | none => x
      match t.place, s.task? p u.tid with
      | .inline _, some u => match u.images.find? fun i => Image.role i == role with
        | some i => match s.restoreImage u i core slot with
          | some s => (s.started u (u.members ++ [(i.role, core, slot)])).resume core slot
          | none => s
        | none => s
      | _, _ => s
  ((s.evictOld p).freeRegions p).endQuiesce p

/-- Write back the dirty region lines of every member (R113, R285). -/
def State.writeBackMembers (s : State) : List (Nat × Nat × Nat) → Except (Nat × Nat × LineOut) State
  | [] => .ok s
  | (_, c, k) :: l =>
    let lines := ((s.ctx? c k).map fun x => x.dirtyLines 0 4096).getD []
    match s.writeBackAll c k none (ackStore c k) lines with
    | .done s => s.writeBackMembers l
    | o => .error (c, k, o)

/-- The G image of a context's first dirty line: the address of a failed write-back. -/
def Ctx.dirtyAddr (x : Ctx) : Word :=
  BitVec.ofNat 64 (((x.dirtyLines 0 4096).head?.bind x.regionOf).getD 0)

/-- A halted task whose work has completed commits; a gang commits as one (R48, R51). -/
def execTaskCommit (core slot : Nat) (s : State) : Out :=
  match s.ctx? core slot with
  | none => .next s
  | some x => match s.task? x.part x.tid with
    | none => .next s
    | some t =>
      let p := x.part
      let ctxs := t.members.filterMap fun (_, c, k) => (s.ctx? c k).map fun y => (c, k, y)
      let whole := ctxs.length == recGang t.record + 1 && ctxs.all fun (c, k, y) => y.life == .halted && s.settled c k y
      if !whole then .next s
      else match ctxs.findSome? fun (c, k, y) => (Ctx.refusedBy y).map fun w => (c, k, w) with
        | some (c, k, w) => .next (s.abort c k w)
        | none => match s.writeBackMembers t.members with
          | .error (c, k, .hold a) =>
            .next (if s.pager.contains (.fill c k a) then s else { s with pager := s.pager ++ [.fill c k a] })
          | .error (c, k, .bad _) => .next (s.abort c k ⟨OBJFAULT, ((s.ctx? c k).map Ctx.dirtyAddr).getD 0⟩)
          | .error (_, _, .wait s) => .next s
          | .error (_, _, .asked s _) => .next s
          | .error (_, _, .done s) => .next s
          | .ok s =>
            let late := t.members.any fun (_, c, k) => match s.ctx? c k with
              | some y => !y.stores.isEmpty
              | none => false
            if late then .next s
            else
              let far := (recResults t.record).filter fun nv => !s.homeLocal p nv
              let data := fun (nv : Word) =>
                (⟨t.tid, t.record, t.depth⟩ : Publisher).bytes ((recResults t.record).findIdx (· == nv)) ++ [if t.recomp then 1 else 0]
              match s.askHomes core slot x .hold data far with
              | .error (some s) => .next s
              | .error none => .next s
              | .ok l => match s.differs p t l with
                | some nv => .next (s.abort core slot ⟨OBJFAULT, nv⟩)
                | none => .next (s.commitTask p core slot x t)

/-! ## Abort (R52, R454, R456, R462) -/

/-- The cause that a gang or task aborts with: the highest-ranked of its members' (R454, R462). -/
def worstCause (l : List Cause) : Option Cause := l.foldl (fun (m : Option Cause) w => match m with
  | none => some w
  | some o => if causeRank w.code < causeRank o.code then some w else some o) none

/-- An entry of an aborting context that waits at a token can wait for a word that was removed: it is given up. -/
def State.dropStuck (s : State) (c k : Nat) (x : Ctx) : State :=
  [Eng.ve, .me, .tu].foldl (fun s e => s.updCore c fun r => r.setChain e ((r.chain e).filter fun n =>
    n.slot != k || n.busy || !(match s.entryWords c x e n with | w :: _ => isDep w | [] => true))) s

/-- Have the outstanding requests of an aborting context drained (R52)? A hand-over gives up what was sent to other devices (R472). -/
def State.drained (s : State) (c k : Nat) (x : Ctx) (w : Cause) : Bool :=
  let r := s.core c
  let gone := w.code == 12
  ((r.entriesOf .ve k).all fun n => gone && n.susp) && (r.entriesOf .me k).isEmpty && (r.entriesOf .tu k).isEmpty &&
  (r.jobs.all fun j => j.slot != k) && s.copies x == 0 &&
  (gone || (x.stores.isEmpty && x.loads.isEmpty && x.tiles.isEmpty && x.rings.all fun (_, q) => !q.inFlight))

/-- A task that does not commit ends when its requests have drained; a gang aborts as one (R52, R462). -/
def execTaskAbort (core slot : Nat) (s : State) : Out :=
  match s.ctx? core slot with
  | none => .next s
  | some x => match x.life, s.task? x.part x.tid with
    | .aborting _, some t =>
      let ctxs := t.members.filterMap fun (_, c, k) => (s.ctx? c k).map fun y => (c, k, y)
      match worstCause (ctxs.filterMap fun (_, _, y) => match y.life with | .aborting w => some w | _ => none) with
      | none => .next s
      | some w =>
        let s := ctxs.foldl (fun s (c, k, y) => (s.abort c k w).dropStuck c k y) s
        if ctxs.all fun (c, k, y) => s.drained c k y w then
          let bad := (ctxs.filter fun (c, _, _) => (s.core c).isolated).map fun q => q.1
          let s := s.updTask x.part x.tid fun t => { t with excl := ((t.excl ++ bad).eraseDups).take 16 }
          let s := ctxs.foldl (fun s (c, k, _) => s.dropCtx c k false) s
          let s := s.updTask x.part x.tid fun t => { t with members := [] }
          .next ((s.endTask x.part x.tid w false).evictOld x.part)
        else .next s
    | _, _ => .next s

end Sys2Proof.Machine
end

