-- ==== Sys2Proof/Machine/Quiesce.lean ====
section
/-! DEFINITION. Quiesce: entering it, delivering CHKPT, the loss of a peer, the time-out of a handover, and the answers that parked
contexts get from other devices (R53, R133, R400, R420, R472, R485, R487). -/

namespace Sys2Proof.Machine

/-! ## Answers to parked contexts (R53, R487) -/

/-- The member of a task whose context is in a slot, or was saved from there. -/
def State.memberAt (s : State) (core slot : Nat) : Option Ctx :=
  match s.ctx? core slot with
  | some x => some x
  | none => (s.tasks.findSome? fun t => t.images.find? fun i => i.fromCore == core && i.fromSlot == slot).map Image.ctx

/-- The outstanding load of a request has been answered. -/
def Ctx.loadDone (x : Ctx) (w : FarWait) : Ctx :=
  match x.loads.find? fun o => o.devs.contains (w.dev, w.id) with
  | some o => { x with loads := oscDone o.id x.loads }
  | none => x

/-- A parked word is answered: its value is written, or its refusal is delivered when the context runs again. deny: 0 stands for the
cause that the word's refusal raises. -/
def Ctx.answered (x : Ctx) (value : Word) (deny : Option Nat) (mark : Option Word) : Ctx :=
  match x.life with
  | .parked (.remote w) _ =>
    let y := x.loadDone w
    match deny with
    | some code => { y with pc := y.pc - 1, hlc := w.was, pend := match y.pend with | some o => some o | none => some ⟨if code = 0 then w.code else code, value⟩ }
    | none =>
      let z := y.setReg w.d (extendTo w.bits w.signed (value.toNat % 2 ^ w.bits))
      match mark with
      | some a => z.markReg w.d a
      | none => z
  | _ => x

/-- Does a context wait for another device's answer? -/
def Ctx.awaits (x : Ctx) : Bool := match x.life with
  | .parked (.remote ..) false => true
  | _ => false

/-- The delta that an answered RETAIN marks: its home has allowed it for a version in a state that retains (R424). -/
def Ctx.retained (x : Ctx) (value : Word) (deny : Option Nat) : List (Word × Int) :=
  match x.life, deny with
  | .parked (.remote w) _, none => match w.delta with
    | some d => if d ≠ 0 && 2 ≤ bitsAt value 61 3 then [(w.addr, d)] else []
    | none => []
  | _, _ => []

def State.answer (s : State) (x : Ctx) (value : Word) (deny : Option Nat) (mark : Option Word) : State :=
  if x.awaits then
    (s.updTask x.part x.tid fun t => { t with deltas := t.deltas ++ x.retained value deny }).wakeMember x.part x.tid x.role fun y => y.answered value deny mark
  else s

/-- A parked load was answered MOVED, or its port is lost: it is issued again (R133, R401). -/
def Ctx.reissue (x : Ctx) : Ctx :=
  match x.life with
  | .parked (.remote w) _ => { x.loadDone w with pc := x.pc - 1, hlc := w.was }
  | _ => x

/-- A suspended VE entry that will run its word again. -/
def Entry.again (n : Entry) : Entry := { n with susp := false, started := false, resume := true, osc := [], asks := [], got := [], mark := none, pages := [] }

/-- The stores of a suspended word are no longer outstanding. -/
def State.dropStores (s : State) (c : Nat) (n : Entry) : State :=
  n.osc.foldl (fun s id => s.updCtx c n.slot fun y => { y with stores := oscDone id y.stores }) s

/-! ## Entering a quiesce (R472) -/

/-- Reasons of CHKPT (R455). -/
def reasonDie (die : Nat) : Word := BitVec.ofNat 64 (1 + die % 4 * 2 ^ 8)
def reasonPeer (dev : Nat) : Word := BitVec.ofNat 64 (2 + dev % 4096 * 2 ^ 12)
def reasonManagement : Word := 3

/-- A partition is in QUIESCE; the reason of the first loss stays. -/
def State.enterQuiesce (s : State) (p : Nat) (reason : Word) (dev : Option Nat) : State :=
  let first := (s.part p).quiesce.isNone
  let s := s.updPart p fun q => { q with
    quiesce := match q.quiesce with | some r => some r | none => some reason
    lostDevs := match dev with | some d => if q.lostDevs.contains d then q.lostDevs else q.lostDevs ++ [d] | none => q.lostDevs }
  if first then s.interrupt (p + 1) 257 else s

/-- No handler can take CHKPT in this context: it has none, is in one already, has not begun, or is a parent at its inline child. -/
def Ctx.noHandler (x : Ctx) : Bool :=
  match x.life with
  | .halted => false
  | .aborting _ => false
  | .loading => true
  | .parked (.child ..) _ => true
  | _ => !x.tvec.getLsbD 63 || x.inh

/-- A context is to take CHKPT when it runs next. A wait on this device is given up; an answer from another one is still awaited. -/
def Ctx.recall (w : Cause) (x : Ctx) : Ctx :=
  let x := match x.life with
    | .halted => x
    | .aborting _ => x
    | _ => { x with pend := some w }
  match x.life with
  | .parked (.remote ..) false => x
  | .parked p false => { x with life := .parked p true, pc := if p.stays then x.pc else x.pc - 1 }
  | _ => x

def Ctx.woken (x : Ctx) : Bool := match x.life with
  | .parked _ true => true
  | _ => false

/-- CHKPT reaches the contexts of a task; a task with a context that no handler can take it in is handed over at once. -/
def State.recallTask (s : State) (p : Nat) (w : Cause) (t : Task) : State :=
  let ctxs := (t.members.filterMap fun (_, c, k) => s.ctx? c k) ++ t.images.map Image.ctx
  if ctxs.any Ctx.noHandler then
    match t.members with
    | (_, c, k) :: _ => s.abort c k w
    | [] => State.endAll s.endFuel [.task p t.tid w false] s
  else
    let s := (t.members.foldl (fun s (_, c, k) => s.updCtx c k (Ctx.recall w)) s).dropWaits p t.tid
    let (n, s) := s.fresh
    s.updTask p t.tid fun t =>
      let t := { t with images := t.images.map fun i => { i with ctx := Ctx.recall w i.ctx } }
      if t.st = .parked && ctxs.any fun x => (Ctx.recall w x).woken then { t with st := .ready, readyAt := n } else t

/-- Every context of a partition in quiesce receives CHKPT. -/
def State.deliver (s : State) (p : Nat) : State :=
  match (s.part p).quiesce with
  | none => s
  | some r =>
    let due := s.tasks.filter fun t => t.part == p && !(t.images.isEmpty && t.members.isEmpty)
    (due.foldl (fun s t => s.recallTask p ⟨12, r⟩ t) s).endQuiesce p

/-- Start a quiesce: contexts receive CHKPT once. -/
def State.startQuiesce (s : State) (p : Nat) (reason : Word) (dev : Option Nat) : State :=
  let first := (s.part p).quiesce.isNone
  let s := s.enterQuiesce p reason dev
  if first then s.deliver p else s.endQuiesce p

/-- The management interface asks for a quiesce (R490, R491). -/
def State.requestQuiesce (s : State) (p : Nat) : State := s.startQuiesce p reasonManagement none

/-- A handler that has not handed over within 2^20 cc of its entry is handed over by the device (R472). -/
def execHandoverTimeout (core slot : Nat) (s : State) : Out :=
  match s.ctx? core slot with
  | none => .next s
  | some x => match (s.part x.part).quiesce with
    | some r => .next (if x.chkpt && 2 ^ 20 ≤ ((s.core core).cyc - x.entered).toNat then s.abort core slot ⟨12, r⟩ else s)
    | none => .next s

/-! ## The loss of a peer (R400, R472, R473, R485) -/

/-- What a context has outstanding at a lost device is over; a word that waits there for a port's answer is behind it. -/
def Ctx.cutOff (dev : Nat) (x : Ctx) : Ctx :=
  let live := fun (l : List Osc) => l.filter fun o => !o.devs.any fun q => q.1 == dev
  let cut := x.asks.any fun q => q.dev == dev
  { (if x.asks.any (fun q => q.dev == dev && 65536 ≤ q.id && q.n == 0) then x.step else x) with
    loads := live x.loads, stores := live x.stores, tiles := live x.tiles
    asks := if cut then [] else x.asks, got := if cut then [] else x.got
    writing := x.writing.map fun (bs, n, bad) => (bs, n, bad || (live x.stores).length != x.stores.length)
    rings := x.rings.map fun (i, q) => (i,
      if q.asks.any (fun a => a.dev == dev) || q.acks.any fun a => a.1 == dev then
        { q with fault := true, asks := [], acks := q.acks.filter fun a => a.1 != dev } else q) }

/-- A command with requests at a lost device ends with reason TIER. -/
def TuCmd.cutOff (dev : Nat) (m : TuCmd) : TuCmd :=
  if m.asks.any (fun q => q.dev == dev) || m.acks.any fun q => q.1 == dev then
    { m with res := some (1, reasonTier, m.stepShown), held := false, asks := [], acks := m.acks.filter fun q => q.1 != dev }
  else m

/-- A VE word of a context that is suspended at a lost device has no further effect: its entry goes on behind it. -/
def Entry.cutOff (dev : Nat) (x : Ctx) (n : Entry) : Entry :=
  if n.susp && (n.asks.any (fun q => q.dev == dev) || x.stores.any fun o => n.osc.contains o.id && o.devs.any fun q => q.1 == dev) then
    { n.again with busy := true }
  else n

/-- A row that waits there for the answer to its check is behind its drain. -/
def Entry.cutRow (dev : Nat) (n : Entry) : Entry :=
  if n.asks.any fun q => q.dev == dev then { n with asks := [], got := [], row := n.row + 1 } else n

/-- Requests of a partition to a lost device end at once. -/
def State.cutOff (s : State) (p dev : Nat) : State :=
  let mine := fun (x : Ctx) => if x.part = p then Ctx.cutOff dev x else x
  { s with
    cores := s.cores.map fun (c, r) => (c, { r with
      ctxs := r.ctxs.map fun (k, x) => (k, mine x)
      cmds := r.cmds.map fun m => if m.part = p then TuCmd.cutOff dev m else m
      ve := r.ve.map fun n => match Tab.find r.ctxs n.slot with
        | some x => if x.part = p then Entry.cutOff dev x n else n
        | none => n
      me := r.me.map fun n => match Tab.find r.ctxs n.slot with
        | some x => if x.part = p then Entry.cutRow dev n else n
        | none => n })
    tasks := s.tasks.map fun t => { t with images := t.images.map fun i => { i with ctx := mine i.ctx } }
    streams := s.streams.filter fun x => !(x.part == p && x.toDev == some dev)
    responders := s.responders.filter fun x => !(x.part == p && x.dev == dev)
    versions := s.versions.map fun e =>
      if e.part = p && e.repl && e.rdev == dev then { e with repl := false, st := if e.st = .restore then .lost else e.st } else e }

/-- A word that waits for a lost device's answer has no further effect: its context goes on behind it. A lineage instruction is handed over
at its word (R421). -/
def State.freeParked (s : State) (p dev : Nat) : State :=
  let stuck := fun (x : Ctx) => match x.life with
    | .parked (.remote w) false => w.dev == dev
    | _ => false
  let due := s.tasks.flatMap fun t => if t.part ≠ p then [] else
    (t.members.filterMap fun (r, c, k) => (s.ctx? c k).bind fun x => if stuck x then some (t.tid, r) else none) ++
    t.images.filterMap fun i => if stuck i.ctx then some (t.tid, i.role) else none
  due.foldl (fun s (tid, role) => s.wakeMember p tid role fun y => match y.life with
    | .parked (.remote w) _ => { y with hlc := w.was, pc := if w.delta.isSome then y.pc - 1 else y.pc }
    | _ => y) s

/-- The bases of a partition's pages on another device. -/
def State.pagesAt (s : State) (p dev : Nat) : List Nat := (s.leaves p).filterMap fun (_, x) =>
  if entryKind x.entry = 4 ∧ entryBody x.entry % 4096 = dev then some x.base else none

/-- What a lost device had of the versions homed here goes: its records and lineage entries are lost with it, and so is what it stored of
a version (R416, R473). -/
def State.loseFar (s : State) (p dev : Nat) : State :=
  let stored := s.versions.filter fun e => e.part == p && s.homeLocal p e.nv && (s.pagesOf p e.base.toNat e.rangeLen).any fun q => match q.2 with
    | some l => entryKind l.entry == 4 && entryBody l.entry % 4096 == dev
    | none => false
  let s := stored.foldl (fun s e => s.loseVersion p e.nv 12) s
  ({ s with
    homeMsgs := s.homeMsgs.filter fun m => !(m.part == p && m.dev == dev)
    versions := s.versions.map fun e => match e.far.find? fun u => u.dev == dev with
      | some u => if e.part = p then { e with cons := e.cons - u.cons, dref := e.dref - u.dref, far := e.far.filter fun u => u.dev != dev } else e
      | none => e } : State).sweep

/-- A partition loses a peer: a reset notice, or a destination that is valid and unreachable. -/
def execPeerLoss (part dev : Nat) (s : State) : Out :=
  if !(s.part part).exists_ || dev = (s.part part).devnum then .next s
  else
    let pages := s.pagesAt part dev
    let s := (((s.cutOff part dev).loseFar part dev).freeParked part dev).updPart part fun q => { q with lostPages := (q.lostPages ++ pages).eraseDups }
    .next (s.startQuiesce part (reasonPeer dev) (some dev))

end Sys2Proof.Machine
end

