-- ==== Sys2Proof/Machine/Links.lean ====
section
/-! DEFINITION. The links: UCIe modules, Tunar ports, packets that are forwarded, and requests and replies of other devices (R131, R336,
R337, R372, R373, R399 to R401, R430, R431, R445, R446, R484 to R487, R508). -/

namespace Sys2Proof.Machine

/-- An event that this step brings about. -/
def State.post (s : State) (e : Event) : State := { s with inbox := s.inbox ++ [e] }

/-! ## UCIe modules (R372, R446, R508) -/

def State.updUcie (s : State) (side : UcieSide) (f : Ucie → Ucie) : State :=
  let u := f (s.ucie side)
  { s with ucies := if s.ucies.any fun w => w.side == side then s.ucies.map fun w => if w.side = side then u else w else s.ucies ++ [u] }

def Ucie.bump (u : Ucie) (i n : Nat) : Ucie := { u with items := Tab.put u.items i (Tab.get 0 u.items i + BitVec.ofNat 32 n) }

/-- The other end of a module. -/
def UcieSide.far (x : UcieSide) : UcieSide := ⟨x.peer, x.die, x.mod⟩

/-- The 256-byte flits that a packet takes. -/
def ucieFlits (p : Packet) : Nat := (18 + p.data.length + 255) / 256

/-- A packet goes from one die to another by a module that is up and has room for its flits in its replay buffer; none where no module
has. -/
def State.ucieSend (s : State) (from' to' : Nat) (p : Packet) : Option State :=
  let n := ucieFlits p
  let open' := fun (m : Nat) => let u := s.ucie ⟨from', to', m⟩; u.up && !u.retraining && u.replay.length + n ≤ 64
  (lowest 4 open').map fun m =>
    let side : UcieSide := ⟨from', to', m⟩
    let seq := (s.ucie side).nextSeq
    let flits := (List.range n).map fun i => (seq + BitVec.ofNat 8 i, if i + 1 = n then some p else none)
    flits.foldl (fun s q => s.post (.ucieFlitReceive (UcieSide.far side) q.1 true q.2))
      (s.updUcie side fun u => ({ u with nextSeq := seq + BitVec.ofNat 8 n, replay := u.replay ++ flits }).bump 2 n)

/-- The flits of a replay buffer from a number on arrive again, in order. -/
def State.ucieReplay (s : State) (side : UcieSide) (seq : BitVec 8) : State :=
  let l := (s.ucie side).replay.filter fun q => (q.1 - seq).toNat < 128
  l.foldl (fun s q => s.post (.ucieFlitReceive (UcieSide.far side) q.1 true q.2)) (s.updUcie side fun u => u.bump 1 l.length)

/-- Requests that wait go, in order, where there is room again. -/
def State.ucieFlush (s : State) : State :=
  s.ucieHeld.foldl (fun s (from', to', p) =>
    let keep := fun (s : State) => { s with ucieHeld := s.ucieHeld ++ [(from', to', p)] }
    if s.ucieHeld.any fun q => q.1 == from' && q.2.1 == to' then keep s else (s.ucieSend from' to' p).getD (keep s)) { s with ucieHeld := [] }

/-- Unanswered requests of a module go again by the die pair's others. -/
def State.ucieMove (s : State) (side : UcieSide) (l : List (BitVec 8 × Option Packet)) : State :=
  let due := l.filterMap fun q => q.2.bind fun p => if Packet.cls p = 0 then some (side.die, side.peer, p) else none
  ({ s with ucieHeld := s.ucieHeld ++ due } : State).ucieFlush

/-- A link reset: item 6 counts it and stays, everything else of the module is at its reset values until it has trained. -/
def State.ucieReset (s : State) (side : UcieSide) : State :=
  let l := (s.ucie (UcieSide.far side)).replay
  let clear := fun (u : Ucie) => { u with
    up := false, retraining := false, items := Tab.put [] 6 (Tab.get 0 u.items 6 + 1), width := 64, nextSeq := 0, expect := 0, replay := [] }
  (((s.updUcie side clear).updUcie (UcieSide.far side) clear).ucieMove (UcieSide.far side) l).countError side.die 18

/-- A CRC failure: counted, replayed, and at FTH the fallback to x32 or the reset of the module (R446, R508). -/
def State.ucieBad (s : State) (side : UcieSide) (seq : BitVec 8) : State :=
  let s := (s.updUcie side fun u => u.bump 0 1).countError side.die 16
  let u := s.ucie side
  if Ucie.fth u ≤ Tab.get 0 u.items 0 then
    if u.width = 64 then
      let slow := fun (u : Ucie) => { u with width := 32, retraining := true }
      let s := (s.updUcie side fun u => { slow u with items := Tab.put u.items 0 0 }).updUcie (UcieSide.far side) slow
      (s.countError side.die 17).ucieMove (UcieSide.far side) (s.ucie (UcieSide.far side)).replay
    else s.ucieReset side
  else s.ucieReplay (UcieSide.far side) seq

/-- A packet has arrived on this device: it is for a partition here, or it is passed on. -/
def State.arrived (s : State) (p : Packet) : State :=
  if Packet.dst p = (s.part (Packet.part p)).devnum then s.post (.remoteRequest p) else s.post (.packetForward p)

/-- A flit arrives at a module's receiving side (R372). -/
def execUcieFlitReceive (side : UcieSide) (seq : BitVec 8) (crcOk : Bool) (p : Option Packet) (s : State) : Out :=
  let u := s.ucie side
  if !u.up || u.retraining then .next s
  else if !crcOk then .next (s.ucieBad side seq)
  else if seq ≠ u.expect then .next s
  else
    let s := (s.updUcie side fun u => { u with expect := u.expect + 1 }).post (.ucieFlitAck (UcieSide.far side) seq)
    match p with
    | some p => .next (s.arrived p)
    | none => .next s

/-- A module has retrained at x32: its transmitters replay what has not been acknowledged (R508). -/
def execUcieRetrainComplete (side : UcieSide) (s : State) : Out :=
  let again := fun (s : State) (x : UcieSide) => match (s.ucie x).replay with
    | q :: _ => s.ucieReplay x q.1
    | [] => s
  if !(s.ucie side).retraining then .next s
  else
    let s := (s.updUcie side fun u => { u with retraining := false }).updUcie (UcieSide.far side) fun u => { u with retraining := false }
    .next (again (again s side) (UcieSide.far side))

/-- An acknowledgement frees the flits up to its number (R372). -/
def execUcieFlitAck (side : UcieSide) (seq : BitVec 8) (s : State) : Out :=
  .next (s.updUcie side fun u => { u with replay := u.replay.filter fun q => 128 ≤ (seq - q.1).toNat })

/-! ## Tunar ports (R373, R484, R485) -/

def Tunar.acked (t : Tunar) (ack : BitVec 8) : Tunar :=
  let left := t.replay.filter fun q => 128 ≤ (ack - q.1).toNat
  { t with replay := left, replays := if left.length < t.replay.length then 0 else t.replays }

def Tunar.credited (t : Tunar) (i n : Nat) : Tunar := { t with credits := Tab.put t.credits i (Tab.get 0 t.credits i - n) }

/-- The packet that the flits of a channel have brought, when all of it is there. -/
def packetOf (l : List (BitVec 512)) : Option Packet :=
  let bs := l.flatMap fun f => ((flitBytes f).drop 4).take 56
  let n := ofBytes ((bs.drop 16).take 2)
  if bs.length < 18 + n then none else some ⟨BitVec.ofNat 128 (ofBytes (bs.take 16)), (bs.drop 18).take n⟩

/-- Send a flit that needs no credit. -/
def State.sendFlit (s : State) (port kind : Nat) (cls : Nat) (seq ret : BitVec 8) : State :=
  s.emit (.flit port (mkFlit cls 0 kind seq ((s.tunar port).expect - 1) ret []))

/-- A packet that has come in by a port leaves it: a malformed one is discarded and counted, one for this device is served, one for
another goes on when its next channel or the package has room; none while it must stay. -/
def State.packetIn (s : State) (port : Nat) (p : Packet) : Option State :=
  if !Packet.ok p then some (s.updTunar port fun t => { t with items := bumpTab t.items 2 1 })
  else if Packet.dst p = (s.part (Packet.part p)).devnum then some (s.arrived p)
  else match s.wayTo (Packet.part p) (Packet.dst p) with
    | .via out _ =>
      if out / 8 ≠ port / 8 then s.ucieSend (port / 8) (out / 8) p
      else if s.portOpen out (Packet.cls p) (Packet.hops p + 1) then some (s.arrived p)
      else none
    | _ => some (s.arrived p)

/-- Flits leave a receive buffer for the packet at its head until that is whole; how many have. -/
def takeFlits : List (BitVec 512) → List (BitVec 512) → Nat → List (BitVec 512) × List (BitVec 512) × Nat
  | [], a, n => ([], a, n)
  | f :: l, a, n =>
    if (packetOf a).isSome then (f :: l, a, n)
    else takeFlits l (if (f.extractLsb' 0 4).toNat = 1 then [f] else a ++ [f]) (n + 1)

/-- Empty a channel's receive buffer as far as its packets can go on; a credit goes back for each flit that has left (R373). -/
def State.drainChannel (s : State) (port cls vc : Nat) : Nat → State
  | 0 => s
  | k + 1 =>
    let i := 5 * cls + vc
    let t := s.tunar port
    let (rx, asm, n) := takeFlits (Tab.get [] t.rx i) (Tab.get [] t.asm i) 0
    let s := s.updTunar port fun t => { t with rx := if rx.isEmpty then Tab.del t.rx i else Tab.put t.rx i rx, asm := Tab.put t.asm i asm }
    let s := ([min n 31, n - 31].filter (· != 0)).foldl (fun s m => s.sendFlit port 0 cls 0 (BitVec.ofNat 8 (vc * 32 + m))) s
    match packetOf asm with
    | none => s
    | some p => match s.packetIn port p with
      | none => s
      | some s => (s.updTunar port fun t => { t with asm := Tab.del t.asm i }).drainChannel port cls vc k

/-- Every channel that holds a packet, at every port. -/
def State.drainPorts (s : State) : State :=
  s.tunars.foldl (fun s (port, t) => ((t.asm.map Prod.fst ++ t.rx.map Prod.fst).eraseDups).foldl (fun s i => s.drainChannel port (i / 5) (i % 5) 32) s) s

/-- A packet flit in order enters its channel's buffer. -/
def State.packetFlit (s : State) (port cls vc : Nat) (f : BitVec 512) : State :=
  let i := 5 * cls + vc
  (s.updTunar port fun t => { t with expect := t.expect + 1, rx := Tab.put t.rx i (Tab.get [] t.rx i ++ [f]) }).drainChannel port cls vc 2

/-- A flit arrives at a port and is checked (R484). -/
def execTunarFlitReceive (port : Nat) (flit : BitVec 512) (s : State) : Out :=
  let t := s.tunar port
  let bs := flitBytes flit
  let b := fun i => bs.getD i 0
  let cls := (b 0).toNat / 128
  let vc := (b 0).toNat / 16 % 8
  let kind := (b 0).toNat % 16
  if !t.up then .next s
  else if !flitGood flit then .next ((s.updTunar port fun t => { t with items := bumpTab t.items 1 1 }).sendFlit port 3 0 t.expect 0)
  else if 4 < kind then .next (s.updTunar port fun t => { t with items := bumpTab t.items 2 1 })
  else
    let s := (s.updTunar port fun t => (t.acked (b 2)).credited (5 * cls + (b 3).toNat / 32) ((b 3).toNat % 32)).pump port
    match kind with
    | 0 => .next s
    | 3 => .next (s.post (.tunarReplayRequest port (b 1)))
    | 4 => .next (s.post (.tunarResetNotice port))
    | _ => .next (if b 1 = t.expect && vc < 5 then s.packetFlit port cls vc flit else s)

/-- A replay request: the flits from its number on go again, in order; the sixteenth in succession takes the port down (R484). -/
def execTunarReplayRequest (port : Nat) (seq : BitVec 8) (s : State) : Out :=
  let t := s.tunar port
  if !t.up then .next s
  else
    let s := s.updTunar port fun t => { t with replays := t.replays + 1, items := bumpTab t.items 3 1 }
    if 16 ≤ t.replays + 1 then .next (s.post (.tunarPortDown port))
    else .next ((t.replay.filter fun q => (q.1 - seq).toNat < 128).foldl (fun s q => s.emit (.flit port q.2)) s)

/-- Credits come back and let waiting flits go (R373). -/
def execTunarCreditReturn (port cls vc n : Nat) (s : State) : Out :=
  .next ((s.updTunar port fun t => t.credited (5 * cls + vc) n).pump port)

/-! ## A port that is lost (R400, R401, R445, R485) -/

/-- A load: a request that R445 does not number. -/
def Ask.isLoad (q : Ask) : Bool := q.id < 65536

/-- Loads do not survive their port: whoever waits for one from a device asks again. -/
def Ctx.askAgain (dev : Nat) (x : Ctx) : Ctx :=
  { x with
    asks := x.asks.filter fun q => !(q.isLoad && q.dev == dev)
    rings := x.rings.map fun (i, q) => (i, { q with asks := q.asks.filter fun a => a.dev != dev }) }

def Entry.askAgain (dev : Nat) (n : Entry) : Entry := if n.susp && n.asks.any fun q => q.dev == dev then n.again else n

def State.askAgain (s : State) (p dev : Nat) : State :=
  let mine := fun (x : Ctx) => if x.part = p then Ctx.askAgain dev x else x
  let s : State := { s with
    cores := s.cores.map fun (c, r) => (c, { r with
      ctxs := r.ctxs.map fun (k, x) => (k, mine x)
      cmds := r.cmds.map fun m => if m.part = p && !m.isChain then { m with asks := m.asks.filter fun q => !(q.isLoad && q.dev == dev) } else m
      ve := r.ve.map fun n => match Tab.find r.ctxs n.slot with
        | some x => if x.part = p then Entry.askAgain dev n else n
        | none => n })
    tasks := s.tasks.map fun t => { t with images := t.images.map fun i => { i with ctx := mine i.ctx } } }
  let stuck := fun (x : Ctx) => match x.life with
    | .parked (.remote w) false => x.part == p && w.dev == dev && w.id < 65536
    | _ => false
  let due := (s.cores.flatMap fun (_, r) => r.ctxs.map Prod.snd) ++ s.tasks.flatMap fun t => t.images.map Image.ctx
  (due.filter stuck).foldl (fun s x => s.wakeMember x.part x.tid x.role Ctx.reissue) s

/-- What a stream has unanswered goes again by another port, in order. -/
def State.moveStream (s : State) (p dev port : Nat) : State :=
  let old := match s.stream? p dev with
    | some x => x.unanswered
    | none => []
  let s : State := { s with streams := s.streams.map fun x => if x.part == p && x.toDev == some dev then { x with port := port, loads := [] } else x }
  (old.foldl (fun s q => s.transmit port 0 q.2) s).askAgain p dev

/-- The destinations that packets reach by a port: device and route entry. -/
def State.routesBy (s : State) (port : Nat) : List (Nat × Half) := s.routes.filter fun (dev, e) =>
  match s.wayTo (routePart e) dev with
  | .via q _ => q == port
  | _ => false

/-- A port goes out of service: its destinations are reached by their alternates or are lost. -/
def State.closePort (s : State) (port : Nat) (lost : Half → Bool) : State :=
  let hit := s.routesBy port
  let s := s.updTunar port fun t => { Tunar.reset with items := t.items }
  hit.foldl (fun s (dev, e) =>
    if lost e then s.post (.peerLoss (routePart e) dev)
    else match s.wayTo (routePart e) dev with
      | .via q _ => s.moveStream (routePart e) dev q
      | _ => s.post (.peerLoss (routePart e) dev)) s

/-- A lane fails, or sixteen replays in succession have failed (R484). -/
def execTunarPortDown (port : Nat) (s : State) : Out := .next (s.closePort port fun _ => false)

/-- The peer at the other end resets this port or itself: the neighbour is lost, what lies behind it may have another way (R485). -/
def execTunarResetNotice (port : Nat) (s : State) : Out :=
  .next (s.closePort port fun e => (routePort e == port && routeHops e == 1) || (routeAV e && routeAPort e == port && routeAHops e == 1))

/-! ## Forwarding (R400) -/

/-- A discarded packet, counted in its port and in the die of the port. -/
def State.discard (s : State) (port : Nat) : State :=
  (s.updTunar port fun t => { t with items := bumpTab t.items 2 1 }).countError (port / 8) 12

/-- A packet with one more hop, by another hop count's channel. -/
def Packet.hop (p : Packet) : Packet := { p with hdr := p.hdr + BitVec.ofNat 128 (2 ^ 9) }

/-- A packet for another device goes on, or is discarded (R400, R486). -/
def execPacketForward (p : Packet) (s : State) : Out :=
  let e := Tab.get 0 s.routes (Packet.dst p)
  if !Packet.ok p then .next (s.discard (routePort e))
  else if Packet.dst p = (s.part (Packet.part p)).devnum then .next (s.arrived p)
  else if 4 ≤ Packet.hops p then .next (s.discard (routePort e))
  else match s.wayTo (Packet.part p) (Packet.dst p) with
    | .none => .next (s.discard (routePort e))
    | .down => .next ((s.discard (routePort e)).post (.peerLoss (Packet.part p) (Packet.dst p)))
    | .via port _ => .next (if s.portOpen port (Packet.cls p) (Packet.hops p + 1) then s.transmit port (Packet.hops p + 1) (Packet.hop p)
        else s.post (.packetForward p))

/-! ## Replies (R133, R431, R445, R487) -/

/-- A request is answered: the operations that wait for it. -/
def ackOsc (dev id : Nat) (l : List Osc) : List Osc := retire (l.map fun o =>
  if o.devs.contains (dev, id) then
    let d := o.devs.filter fun q => q != (dev, id)
    { o with devs := d, done := o.done || (d.isEmpty && !o.sending) }
  else o)

/-- The operations and streams of a context that wait for a request have its answer. -/
def Ctx.ack (dev id : Nat) (x : Ctx) : Ctx :=
  { x with
    loads := ackOsc dev id x.loads, stores := ackOsc dev id x.stores, tiles := ackOsc dev id x.tiles
    rings := x.rings.map fun (i, q) => (i, { q with acks := q.acks.filter fun a => a != (dev, id) }) }

/-- Change every context of a partition, resident or saved, and every command of it. -/
def State.everyCtx (s : State) (p : Nat) (f : Ctx → Ctx) (g : TuCmd → TuCmd) : State :=
  { s with
    cores := s.cores.map fun (c, r) => (c, { r with
      ctxs := r.ctxs.map fun (k, x) => (k, if x.part = p then f x else x)
      cmds := r.cmds.map fun m => if m.part = p then g m else m })
    tasks := s.tasks.map fun t => if t.part = p then { t with images := t.images.map fun i => { i with ctx := f i.ctx } } else t }

/-- Change the entries of a partition that an ME runs. -/
def State.everyRow (s : State) (p : Nat) (f : Entry → Entry) : State :=
  { s with cores := s.cores.map fun (c, r) => (c, { r with
      me := r.me.map fun n => match Tab.find r.ctxs n.slot with
        | some x => if x.part = p then f n else n
        | none => n }) }

/-- The contexts of a partition, resident and saved. -/
def State.ctxsOf (s : State) (p : Nat) : List Ctx :=
  ((s.cores.flatMap fun (_, r) => r.ctxs.map Prod.snd) ++ s.tasks.flatMap fun t => t.images.map Image.ctx).filter fun x => x.part == p

/-- Suspended words of which every request is answered go on (R296). -/
def State.resumeVe (s : State) : State :=
  (s.cores.flatMap fun (c, r) => r.ve.filterMap fun n => match Tab.find r.ctxs n.slot with
    | some x => if n.complete x then n.gathered.map fun bs => Event.veRemoteResume c bs else none
    | none => none).foldl (fun s e => if s.inbox.contains e then s else s.post e) s

/-- How the answer to a request ends: the low bits of OPARG (log 21). -/
def answerRefused : Nat := 1
def answerMoved : Nat := 2
def answerIllop : Nat := 3
def answerPoison : Nat := 4
def answerDet : Nat := 5

/-- The identity of a numbered request. -/
def rsnId (rsn : Nat) : Nat := 65536 + rsn

def State.updStreamTo (s : State) (p dev : Nat) (f : Stream → Stream) : State :=
  { s with streams := s.streams.map fun x => if x.part == p && x.toDev == some dev then f x else x }

def State.dropRequest (s : State) (p dev rsn : Nat) : State :=
  s.updStreamTo p dev fun x => { x with unanswered := x.unanswered.filter fun q => q.1.toNat != rsn }

/-- Does a context wait for the answer to a request? -/
def Ctx.owns (x : Ctx) (dev id : Nat) : Bool := (x.stores ++ x.tiles).any fun o => o.devs.contains (dev, id)

/-- An atomic that returns nothing waits for the answer in a deterministic region (R68). -/
def Ctx.portAsk (x : Ctx) (dev id : Nat) : Bool := x.asks.any fun q => q.dev == dev && q.id == id

def Ctx.denied (x : Ctx) (w : Cause) : Ctx := { x with pend := some (x.pend.getD w) }

/-- A request that was sent and goes unrewarded: its context takes a cause or aborts, its stream faults, its command ends with ADDR (R298,
R487). -/
def State.refusedStore (s : State) (p dev id code : Nat) (addr : Word) (atomic : Bool) : State :=
  let s := s.everyCtx p (fun x => { x with rings := x.rings.map fun (i, q) => (i, { q with fault := q.fault || q.acks.contains (dev, id) }) })
    fun m => if m.acks.contains (dev, id) then { m with res := some (1, reasonAddr, 0), held := false, asks := [] } else m
  let why : Cause := ⟨if atomic then aborts code else code, addr⟩
  let owners := (s.cores.flatMap fun (c, r) => r.ctxs.map fun (k, x) => (c, k, x)).filter fun (_, _, x) => x.part == p && x.owns dev id
  let s := owners.foldl (fun s (c, k, x) =>
    let mine := fun (n : Entry) => n.slot == k && n.osc.any fun i => x.stores.any fun o => o.id == i && o.devs.contains (dev, id)
    if x.tiles.any fun o => o.devs.contains (dev, id) then s.abort c k ⟨code, addr⟩
    else if (s.core c).ve.any mine then
      s.updCore c fun r => { r with ve := r.ve.map fun n => if mine n then { n with got := [(addr, [0])] } else n }
    else s.updCtx c k fun x => { x.denied why with asks := if x.portAsk dev id then [] else x.asks }) s
  let saved := fun (i : Image) =>
    if i.ctx.owns dev id then { i with ctx := { i.ctx.denied why with asks := if i.ctx.portAsk dev id then [] else i.ctx.asks } } else i
  { s with tasks := s.tasks.map fun t => if t.part = p then { t with images := t.images.map saved } else t }

/-- The check of R68 has answered a word, a row or a contribution: the word is behind it, or takes DETTRAP. -/
def Ctx.checked (dev id : Nat) (bad : Bool) (x : Ctx) : Ctx :=
  match x.asks.find? fun q => q.dev == dev && q.id == id with
  | some q => if bad then { x.denied ⟨DETTRAP, q.addr⟩ with asks := [] } else { x.step with asks := [] }
  | none => x

def Entry.checked (dev id code : Nat) (n : Entry) : Entry :=
  match n.asks.find? fun q => q.dev == dev && q.id == id with
  | some q => { n with asks := n.asks.erase q, got := n.got ++ [(q.addr, [BitVec.ofNat 8 code])] }
  | none => n

/-- A contribution that its port refuses ends its command (R341). -/
def State.detAnswers (s : State) (p dev id : Nat) (bad : Bool) : State :=
  let due := s.cores.flatMap fun (c, r) => (r.cmds.filter fun m => m.part == p && m.asks.any fun q => q.dev == dev && q.id == id).map fun m => (c, m)
  due.foldl (fun s (c, m) =>
    let s := s.updCmd c m.id fun m => { m with asks := [] }
    if bad then s.inCtx m.part m.tid m.role fun lc lk _ s => s.reportDet c m lc lk (m.line - 1) else s) s

/-- Events that ports of other devices have counted, as an answer carries them (log 21). -/
def Ev.bytes (e : Ev) : List Byte := if e.isZero then [] else (List.range 6).flatMap fun i => bytesOf 2 (min 65535 (e.get i))

def evOf (bs : List Byte) : Ev :=
  let w := fun i => ofBytes ((bs.drop (2 * i)).take 2)
  ⟨w 0, w 1, w 2, w 3, w 4, w 5⟩

/-- Count the events of an answer against the task whose request it is (R93, R101, R299). -/
def State.countAnswer (s : State) (p dev id : Nat) (e : Ev) : State :=
  let sent := fun (x : Ctx) => ((x.loads ++ x.stores ++ x.tiles).find? fun o => o.devs.contains (dev, id)).map fun o => (o.kern, x.recomp)
  let cmd := s.cores.findSome? fun (_, r) => (r.cmds.find? fun m => m.part == p && m.acks.contains (dev, id)).map fun m => (m.kern, m.part, m.tid, m.role)
  match (s.ctxsOf p).findSome? sent, cmd with
  | some (kern, recomp), _ => s.countEv p kern recomp .fp32 e
  | none, some (kern, q, tid, role) => s.countEv p kern (((s.ctxsOf q).find? fun x => x.tid == tid && x.role == role).any Ctx.recomp) .fp32 e
  | none, none => s

/-! ## MOVED (R133, R319) -/

/-- An identity changes: the request has been sent again. -/
def renumber (dev old new : Nat) (l : List (Nat × Nat)) : List (Nat × Nat) := l.map fun q => if q = (dev, old) then (dev, new) else q

def renumberAsks (dev old new : Nat) (l : List Ask) : List Ask := l.map fun q => if q.dev = dev ∧ q.id = old then { q with id := new } else q

def Ctx.renumber (dev old new : Nat) (x : Ctx) : Ctx :=
  let osc := fun (l : List Osc) => l.map fun o => { o with devs := Sys2Proof.Machine.renumber dev old new o.devs }
  { x with
    loads := osc x.loads, stores := osc x.stores, tiles := osc x.tiles, asks := renumberAsks dev old new x.asks
    rings := x.rings.map fun (i, q) => (i, { q with acks := Sys2Proof.Machine.renumber dev old new q.acks })
    life := match x.life with
      | .parked (.remote w) b => .parked (.remote (if w.dev = dev ∧ w.id = old then { w with id := new } else w)) b
      | l => l }

def State.renumber (s : State) (p dev old new : Nat) : State :=
  (s.everyCtx p (Ctx.renumber dev old new) fun m => { m with
    acks := Sys2Proof.Machine.renumber dev old new m.acks, asks := renumberAsks dev old new m.asks }).everyRow p fun n =>
      { n with asks := renumberAsks dev old new n.asks }

/-- One more MOVED answer for an address of a command: the eighth in succession ends it with MOVED. -/
def TuCmd.movedAt (m : TuCmd) (addr step : Nat) : TuCmd :=
  let n := Tab.get 0 m.moved addr + 1
  { m with moved := Tab.put m.moved addr n, res := if 8 ≤ n then some (3, 0, step) else m.res }

/-- A word wait or a lock: its answer may stay away for as long as the word does not change. -/
def Packet.mayStay (q : Packet) : Bool := Packet.typ q == 3 && 0x40 ≤ Packet.oparg q && Packet.oparg q ≤ 0x44

/-- One request that MOVED has answered goes again; none where it must wait. -/
def State.reissueOne (s : State) (p dev : Nat) (rsn : BitVec 16) (q : Packet) : Option State :=
  let gone := fun (s : State) => s.updStreamTo p dev fun x => { x with moved := x.moved.filter fun r => r.1 != rsn }
  match s.wayTo p dev with
  | .down => none
  | .none => some (((gone s).refusedStore p dev (rsnId rsn.toNat) OBJFAULT (BitVec.ofNat 64 (Packet.addr q)) (Packet.typ q == 3)).everyCtx p
      (Ctx.ack dev (rsnId rsn.toNat)) fun m => { m with acks := m.acks.filter fun a => a != (dev, rsnId rsn.toNat) })
  | .via port _ =>
    if 1024 ≤ s.unanswered p dev || s.portWaits p dev port || !s.portOpen port 0 0 then none
    else
      let r := (gone s).request p dev port (Packet.typ q) (Packet.oparg q) (Packet.addr q) q.data
      some (r.2.renumber p dev (rsnId rsn.toNat) r.1)

/-- Send moved requests again in their original order: those to a page wait until no earlier answer for that page is open (R133). -/
def State.reissueGo (s : State) (p dev : Nat) : List (BitVec 16 × Packet) → State
  | [] => s
  | (rsn, q) :: l => match s.reissueOne p dev rsn q with
    | some t => t.reissueGo p dev l
    | none => s

def State.reissueMoved (s : State) (p dev : Nat) : State :=
  match s.stream? p dev with
  | none => s
  | some x =>
    let open' := (x.unanswered.filter fun q => !Packet.mayStay q.2).map fun q => Packet.addr q.2 / 65536
    s.reissueGo p dev (x.moved.filter fun q => !open'.contains (Packet.addr q.2 / 65536))

/-- A request is put among the moved ones of its stream in the order of their numbers. -/
def insertMoved (q : BitVec 16 × Packet) : List (BitVec 16 × Packet) → List (BitVec 16 × Packet)
  | [] => [q]
  | r :: l => if (r.1 - q.1).toNat < 0x8000 then q :: r :: l else r :: insertMoved q l

/-- MOVED answers a numbered request: it is to be sent again, unless its command has had eight for its address (R133, R319). -/
def State.takeMoved (s : State) (p dev : Nat) (rsn : BitVec 16) (q : Packet) : State :=
  let id := rsnId rsn.toNat
  let s := s.everyCtx p (fun x => x) fun m => if m.acks.contains (dev, id) then m.movedAt (Packet.addr q) 0 else m
  let spent := s.cores.any fun (_, r) => r.cmds.any fun m => m.part == p && m.acks.contains (dev, id) && 8 ≤ Tab.get 0 m.moved (Packet.addr q)
  if spent then s.everyCtx p (fun x => x) fun m => { m with acks := m.acks.filter fun a => a != (dev, id), asks := m.asks.filter fun a => !(a.dev == dev && a.id == id) }
  else s.updStreamTo p dev fun x => { x with moved := insertMoved (rsn, q) x.moved }

/-- A numbered request is answered. -/
def State.takeAck (s : State) (p dev rsn oparg : Nat) (data : List Byte) : State :=
  match (s.stream? p dev).bind fun x => x.unanswered.find? fun q => q.1.toNat == rsn with
  | none => s
  | some (n, q) =>
    let s := s.dropRequest p dev rsn
    let code := oparg % 64
    let id := rsnId rsn
    let a := BitVec.ofNat 64 (Packet.addr q)
    if code = answerMoved && Packet.typ q ≠ 4 then (s.takeMoved p dev n q).reissueMoved p dev
    else
      let bad := code = answerPoison || 128 ≤ oparg
      let s := if code = answerDet then ((s.everyCtx p (Ctx.checked dev id true) fun m => m).everyRow p (Entry.checked dev id code)).detAnswers p dev id true
        else if code = answerRefused then s.refusedStore p dev id OBJFAULT a (Packet.typ q == 3)
        else if bad then s.refusedStore p dev id POISON (if data.length = 8 then BitVec.ofNat 64 (ofBytes data) else unitOf a) (Packet.typ q == 3)
        else
          (((s.countAnswer p dev id (evOf data)).everyCtx p (Ctx.checked dev id false) fun m => m).everyRow p (Entry.checked dev id 0)).detAnswers p dev id false
      let s := s.everyCtx p (Ctx.ack dev id) fun m =>
        if m.acks.contains (dev, id) then { m with acks := m.acks.filter fun q => q != (dev, id), moved := Tab.del m.moved (Packet.addr q) } else m
      (s.resumeVe).reissueMoved p dev

/-- A command gets an answer. -/
def TuCmd.answered (m : TuCmd) (q : Ask) (code : Nat) (bs : List Byte) (bad : Bool) : TuCmd :=
  let left := m.asks.erase q
  if m.isChain then
    if code = answerMoved then { m.movedAt q.addr.toNat m.step with asks := [] }
    else if bs.length ≠ 128 then { m with asks := [], res := some (1, reasonAddr, m.step) }
    else
      let w := BitVec.ofNat 64 (ofBytes ((bs.drop 64).take 8))
      { m with asks := [], out := bs, got := [(m.ptr, [], bad)], res := some (bitsAt w 0 4, bitsAt w 8 8, bitsAt w 16 3) }
  else if code = 0 then { m with asks := left, got := m.got ++ [(q.addr, bs, bad)], moved := Tab.del m.moved q.addr.toNat }
  else if code = answerMoved then { m.movedAt q.addr.toNat 0 with asks := left }
  else { m with asks := [], res := some (1, reasonAddr, 0) }

/-- A stream of a context gets an answer. -/
def Ring.answered (r : Ring) (q : Ask) (code : Nat) (bs : List Byte) (bad : Bool) : Ring :=
  if code = 0 then { r with asks := [], got := [(q.addr, bs, bad)] }
  else if code = answerMoved then { r with asks := [] }
  else { r with asks := [], fault := true }

/-- A word that reads for the device's own use gets an answer; what does not fit tells a refusal (R513). -/
def Ctx.gotPiece (x : Ctx) (q : Ask) (code : Nat) (bs : List Byte) (bad : Bool) : Ctx :=
  { x with asks := x.asks.erase q, got := if code = answerMoved then x.got else x.got ++ [(q.addr, if code = 0 then bs else [], bad)] }

/-- A suspended word gets an answer. -/
def Entry.answered (n : Entry) (q : Ask) (code : Nat) (bs : List Byte) (bad : Bool) : Entry :=
  if code = answerMoved then n.again
  else { n with
    got := n.got ++ [(q.addr, if code = 0 then bs else [])]
    mark := match n.mark with | some a => some a | none => if bad then some q.addr else none }

/-- Who has asked for an answer. -/
inductive Asker where
  | cmd (core id : Nat) (q : Ask)
  | ring (x : Ctx) (i : Nat) (q : Ask)
  | word (x : Ctx) (q : Ask)
  | entry (core : Nat) (n : Entry) (q : Ask)
  | parked (x : Ctx) (w : FarWait)

/-- The asked piece of a list that an answer names: by the device, the address and the identity of its request. -/
def asked (dev addr id : Nat) (l : List Ask) : Option Ask := l.find? fun q => q.dev == dev && q.id == id && bitsAt q.addr 0 56 == addr

/-- A chain's reply may come from any device of its path: it names the first request's address and number (R337). -/
def TuCmd.asksFor (m : TuCmd) (dev addr id : Nat) : Option Ask :=
  if m.isChain then m.asks.find? fun q => bitsAt q.addr 0 56 == addr && q.id % 65536 == id % 65536 else asked dev addr id m.asks

def State.asker (s : State) (p dev addr id : Nat) : Option Asker :=
  let mine := s.ctxsOf p
  let cmds := s.cores.findSome? fun (c, r) => r.cmds.findSome? fun m =>
    if m.part ≠ p then none else (m.asksFor dev addr id).map fun q => Asker.cmd c m.id q
  let ents := fun (_ : Unit) => s.cores.findSome? fun (c, r) => r.ve.findSome? fun n => match Tab.find r.ctxs n.slot with
    | some x => if n.susp && x.part == p then
        (asked dev addr id (n.asks.filter fun q => !n.got.any fun g => g.1 == q.addr)).map fun q => Asker.entry c n q
      else none
    | none => none
  let parked := fun (x : Ctx) => match x.life with
    | .parked (.remote w) false => if w.dev = dev ∧ w.id = id ∧ bitsAt w.addr 0 56 = addr then some (Asker.parked x w) else none
    | _ => none
  cmds.orElse fun _ => (mine.findSome? fun x => x.rings.findSome? fun (i, r) => (asked dev addr id r.asks).map fun q => Asker.ring x i q).orElse fun _ =>
    (mine.findSome? fun x => (asked dev addr id x.asks).map fun q => Asker.word x q).orElse fun _ => (ents ()).orElse fun _ => mine.findSome? parked

/-- How the answer to a parked word refuses it, if it does: 0 stands for the cause that the word names. -/
def denial (code : Nat) : Option Nat :=
  if code = answerRefused then some 0
  else if code = answerIllop then some ILLOP
  else if code = answerPoison then some (aborts POISON)
  else if code = answerDet then some DETTRAP
  else none

/-- The data of a reply reaches who has asked for it. -/
def State.takeData (s : State) (p dev addr id oparg : Nat) (bs : List Byte) : State :=
  let code := oparg % 64
  let bad := 128 ≤ oparg
  match s.asker p dev addr id with
  | none => s
  | some (.cmd c id q) => s.updCmd c id fun m => m.answered q code bs bad
  | some (.ring x i q) => s.updStream x i fun r => r.answered q code bs bad
  | some (.word x q) => s.onMember x.part x.tid x.role fun y => y.gotPiece q code bs bad
  | some (.entry c n q) => (s.setEntry c .ve n (n.answered q code bs bad)).resumeVe
  | some (.parked x w) =>
    if code = answerMoved then s.wakeMember x.part x.tid x.role Ctx.reissue
    else s.answer x (if (code = answerRefused && bs.isEmpty) || code = answerDet then w.addr else BitVec.ofNat 64 (ofBytes (bs.take 8))) (denial code)
      (if bad then some w.addr else none)

/-- A load's answer has come. -/
def State.dropLoad (s : State) (p dev tag : Nat) : State := s.updStreamTo p dev fun x => { x with loads := x.loads.filter fun q => q != tag }

/-- A response arrives: an acknowledgement, or a reply with data. An answer to a load carries bit 6 of OPARG (log 21). -/
def State.takeReply (s : State) (p : Packet) : State :=
  let part := Packet.part p
  let dev := Packet.src p
  let rsn := (Packet.rsn p).toNat
  let o := Packet.oparg p
  if Packet.typ p = 0x81 then s.takeAck part dev rsn o p.data
  else if o / 64 % 2 = 1 then (s.dropLoad part dev rsn).takeData part dev (Packet.addr p) rsn (o % 64 + o / 128 * 128) p.data
  else match ((s.stream? part dev).bind fun x => x.unanswered.find? fun q => q.1.toNat == rsn).map Prod.snd with
    | none => s
    | some q =>
      if Packet.addr q ≠ Packet.addr p then s
      else if o % 64 = answerMoved && Packet.typ q ≠ 4 then s.takeAck part dev rsn o []
      else
        let s := s.countAnswer part dev (rsnId rsn) (evOf (p.data.drop 8))
        let s := (s.dropRequest part dev rsn).takeData part dev (Packet.addr p) (rsnId rsn) o p.data
        s.reissueMoved part dev

/-- A reply for a parked word arrives and its context becomes ready (R53, R421, R487). -/
def execRemoteReply (core slot : Nat) (value : Word) (refused : Bool) (s : State) : Out :=
  match s.memberAt core slot with
  | none => .next s
  | some x =>
    let s := match x.life with
      | .parked (.remote w) false => if 65536 ≤ w.id then s.dropRequest x.part w.dev (w.id - 65536) else s.dropLoad x.part w.dev w.id
      | _ => s
    .next (s.answer x value (if refused then some 0 else none) none)

/-- MOVED answers a request that is kept for reissue. -/
def State.movedId (s : State) (p dev id : Nat) : State := if id < 65536 then s else s.takeAck p dev (id - 65536) answerMoved []

/-- MOVED answers what a context waits for: a load is issued again, a numbered request is sent again in its order (R133). -/
def execMovedReply (core slot : Nat) (s : State) : Out :=
  match s.memberAt core slot with
  | none => .next s
  | some x =>
    match x.life with
    | .parked (.remote w) false =>
      if w.id < 65536 then .next (s.wakeMember x.part x.tid x.role Ctx.reissue) else .next (s.movedId x.part w.dev w.id)
    | _ => match (s.core core).ve.find? fun n => n.susp && n.slot == slot with
      | none => .next s
      | some n =>
        if n.osc.isEmpty then .next (s.setEntry core .ve n n.again)
        else .next ((x.stores.filter fun o => n.osc.contains o.id).foldl (fun s o => o.devs.foldl (fun s q => s.movedId x.part q.1 q.2) s) s)

/-! ## Requests (R298 to R305, R336, R387, R445, R487) -/

/-- What serving a request comes to. -/
inductive Served where
  /-- Answered at once: kind, OPARG and data of the reply. -/
  | now (s : State) (typ oparg : Nat) (data : List Byte)
  /-- A waiter: the word's watch or lock queue answers it. -/
  | later (s : State)
  /-- The device cannot serve it yet. -/
  | retry (s : State)

/-- The operation of an atomic code. -/
def aopOf (n : Nat) : Option AOp := [AOp.add, .addf, .xchg, .cas, .max, .min, .maxf, .clrmax, .incb, .incw, .decz, .addl, .xadd][n]?

def State.reachFor (s : State) (p : Nat) (addr : Nat) : Reach := s.reachG p ⟨[], []⟩ addr

/-- A load or a store of another device; it reaches what an SQ access would. -/
def State.serveAccess (s : State) (p : Nat) (q : Packet) : Served :=
  let addr := Packet.addr q
  let r := s.reachFor p addr
  if Packet.typ q = 1 then
    let n := Packet.oparg q % 64 + 1
    match refusal r .read, r.t with
    | some _, _ => .now s 0x80 (64 + answerRefused) []
    | none, .remote _ => .now s 0x80 (64 + answerRefused) []
    | none, t =>
      if s.bankBusy t then .retry s
      else .now (s.stamp t) 0x80 (64 + if (s.marksAt t n).isEmpty then 0 else 128) (s.readAt t n)
  else
    let bad := 128 ≤ Packet.oparg q
    match refusal r .write, r.t with
    | some _, _ => .now s 0x81 answerRefused []
    | none, .remote _ => .now s 0x81 answerRefused []
    | none, t =>
      .now ((s.stamp t).writeMarked t q.data bad) 0x81 0 []

/-- The check of R68 that a request asks for: its key, whether it commutes, and whether a value comes back (log 21). -/
structure FarCheck where
  key : Option (Nat × Nat)
  commutes : Bool
  returning : Bool

def farCheck (bs : List Byte) : FarCheck :=
  let f := (bs.getD 0 0).toNat
  ⟨if f % 2 = 1 then some (ofBytes ((bs.drop 1).take 2), (bs.getD 3 0).toNat) else none, f / 2 % 2 == 1, f / 4 % 2 == 1⟩

/-- Serve an atomic or an AXRD at a window word. -/
def State.serveAtomic (s : State) (q : Packet) (c sl off : Nat) (op : AOp) (x cmp : Word) (d : FarCheck) : Served :=
  let typ := if d.returning then 0x80 else 0x81
  let n := min 8 (aopWidth op)
  let back := fun (s : State) (w : Word) (e : Ev) => Served.now s typ 0 ((if d.returning then bytesOf 8 w.toNat else []) ++ e.bytes)
  match s.detCheck d.key c sl off d.commutes with
  | none => .now s typ answerDet []
  | some s' =>
    if op = .xadd && d.returning then
      let v := xaValue (BitVec.ofNat 512 (ofBytes (s.readAt (.win c sl off) 64)))
      if (s.marksAt (.win c sl off) 64).isEmpty then back s' (BitVec.ofNat 64 v.1) v.2
      else .now s typ 128 (bytesOf 8 v.1)
    else if (s.marksAt (.win c sl off) (min 64 (aopWidth op))).isEmpty then
      let t := s'.port c sl off op x cmp
      back t.1 t.2.1 t.2.2
    else if d.returning then .now s typ 128 (bytesOf 8 (ofBytes (s.readAt (.win c sl off) n)))
    else .now s typ answerPoison (bytesOf 8 (unitOf (BitVec.ofNat 64 (Packet.addr q))).toNat)

/-- An atomic, a word wait, a lock, line metadata or a poison query of another device at one of this device's windows. -/
def State.serveWord (s : State) (p : Nat) (q : Packet) : Served :=
  let o := Packet.oparg q
  let addr := if waitOparg 16 ≤ o then Packet.addr q / 64 * 64 else Packet.addr q
  let r := s.reachFor p addr
  let x := BitVec.ofNat 64 (ofBytes (q.data.take 8))
  let cmp := BitVec.ofNat 64 (ofBytes ((q.data.drop 8).take 8))
  let d := farCheck (q.data.drop 16)
  let back : FarReply := ⟨Packet.src q, p, addr, (Packet.rsn q).toNat, x⟩
  let value := fun (s : State) (w : Word) (code : Nat) => Served.now s 0x80 code (bytesOf 8 w.toNat)
  let no := Served.now s (if o < 16 && !d.returning then 0x81 else 0x80) answerRefused []
  if o = waitOparg 18 then
    match refusal r .read, r.t with
    | none, .mem pa => value s (if (s.marksAt (.mem pa) 64).isEmpty then 0 else 1) 0
    | none, .win c sl off => value s (if (s.marksAt (.win c sl off) 64).isEmpty then 0 else 1) 0
    | _, _ => no
  else match refusal r (if o = waitOparg 16 then .read else if o = waitOparg 17 then .write else .atomic), r.t with
    | none, .win c sl off =>
      let w := (s.slice c sl).word off
      let bad := !(s.marksAt (.win c sl off) 8).isEmpty
      let checked := fun (f : State → Served) => match s.detCheck d.key c sl off d.commutes with
        | none => value s 0 answerDet
        | some s => f s
      if o = waitOparg 16 then value s (Slice.meta' (s.slice c sl) off) 0
      else if o = waitOparg 17 then
        let new : Word := if x = 0 then 0 else BitVec.ofNat 64 (2 ^ 62 + bitsAt x 0 16 * 2 ^ 32)
        checked fun s =>
          let v := s.slice c sl
          value (s.setSlice c sl { v with red := if new = 0 then Tab.del v.red (off / 64) else Tab.put v.red (off / 64) new }) (Slice.meta' v off) 0
      else if o = waitOparg 4 then
        checked fun s' =>
          if bad then value s (unitOf (BitVec.ofNat 64 addr)) answerPoison
          else if w = 0 then value (s'.writeAt (.win c sl off) (bytesOf 8 x.toNat)) x 0
          else if w = x then value s w answerIllop
          else .later (s'.updCore c fun r => { r with lockq := r.lockq ++ [⟨p, 0, 0, sl, off, some back⟩] })
      else if o = waitOparg 5 then
        checked fun s' =>
          if bad then value s (unitOf (BitVec.ofNat 64 addr)) answerPoison
          else if w = x then value (s'.handOver c sl off) w 0
          else value s w answerIllop
      else if 0x40 ≤ o then
        match [WCond.eq, .ne, .ge, .lt][o - 0x40]? with
        | none => no
        | some cond =>
          checked fun s' =>
            if bad then value s w 128
            else if condMet cond w x then value s' w 0
            else .later (s'.addWatch c ⟨p, 0, 0, sl, off, cond, x, some back, false⟩)
      else match aopOf o with
        | none => no
        | some op => s.serveAtomic q c sl off op x cmp d
    | _, _ => no

/-- The window places of a drain row's elements, from an address on; none where one is refused. -/
def State.rowPlaces (s : State) (p step : Nat) (a : Nat) (n : Nat) : Option (List (Nat × Nat × Nat)) :=
  (List.range n).foldr (fun i acc =>
    let r := s.reachFor p ((a + step * i) % 2 ^ 56)
    match refusal r .atomic, r.t, acc with
    | none, .win c sl off, some l => some ((c, sl, off) :: l)
    | _, _, _ => none) (some [])

/-- A drain row of another device: every element is checked before any changes (R129, R263, R264). -/
def State.serveRow (s : State) (p : Nat) (q : Packet) : Served :=
  let d := farCheck q.data
  let lim := q.data.drop 4
  let vals := chop 4 q.data.length (lim.drop 8)
  let xa := Packet.oparg q % 128 = 2
  let step := if xa then 64 else 4
  match s.rowPlaces p step (Packet.addr q) vals.length with
  | none => .now s 0x81 answerRefused []
  | some l =>
    match l.zipIdx.find? fun ((c, sl, off), _) => !(s.marksAt (.win c sl off) step).isEmpty with
    | some (_, i) => .now s 0x81 answerPoison (bytesOf 8 (unitOf (BitVec.ofNat 64 (Packet.addr q + step * i))).toNat)
    | none =>
      let cells := l.zip (vals.map ofBytes)
      if xa then
        match s.addRow d.key (cells.map fun ((c, sl, off), v) => (⟨.win c sl off, 64, 0⟩, v)) with
        | some s => .now s 0x81 0 []
        | none => .now s 0x81 answerDet []
      else
        let r := cells.foldl (fun (r : State × Ev) ((c, sl, off), v) =>
          let t := Target.win c sl off
          let w := drainAdd (Packet.oparg q % 128 == 1) (ofBytes (lim.take 4)) (ofBytes ((lim.drop 4).take 4)) (ofBytes (r.1.readAt t 4)) v
          (r.1.writeAt t (bytesOf 4 w.1), r.2.add w.2)) (s, Ev.zero)
        .now r.1 0x81 0 r.2.bytes

/-- A CTRB line of another device (R341). -/
def State.serveLine (s : State) (p : Nat) (q : Packet) : Served :=
  let r := s.reachFor p (Packet.addr q)
  let o := Packet.oparg q
  let n := q.data.length - 4
  match refusal r .atomic, r.t with
  | none, .win c sl off => match s.detCheck (farCheck (q.data.drop n)).key c sl off true with
    | none => .now s 0x81 answerDet []
    | some s =>
      let t := s.contribute c sl off (o % 2 == 1) (q.data.take n) (128 ≤ o)
      .now t.1 0x81 0 t.2.bytes
  | _, _ => .now s 0x81 answerRefused []

/-- A chain's end at this holder: the reply goes to the issuing device, an acknowledgement to the party before (R337). -/
def State.chainEnd (s : State) (p : Nat) (q : Packet) (data : List Byte) (bad : Bool) (hops step reason code : Nat) (ptr : Word) : Served :=
  let origin := ofBytes ((q.data.drop 1).take 2)
  let rsn := ofBytes ((q.data.drop 3).take 2)
  let bs := chainBytes data hops step reason code ptr
  let o := if bad then 128 else 0
  if origin = Packet.src q then .now s 0x80 o bs
  else
    let own := (s.part p).devnum
    let h := packetHeader (ofBytes ((q.data.drop 8).take 7)) (64 + o) rsn origin own p 0 1 0x80
    .now { s with answers := s.answers ++ [⟨h, bs⟩] } 0x81 0 []

/-- A chain's steps at this holder (R336). -/
def State.chainAt (s : State) (p : Nat) (q : Packet) : Nat → Nat → Nat → Word → List Byte → Served
  | 0, _, _, _, _ => .retry s
  | f + 1, step, hops, ptr, l =>
    let fin := fun (s : State) code reason => s.chainEnd p q [] false hops step reason code ptr
    let mask := BitVec.ofNat 64 (ofBytes (l.take 8))
    let off : Word := (BitVec.ofNat 32 (ofBytes ((l.drop 8).take 4))).signExtend 64
    let wb := 8 * 2 ^ (l.getD 12 0).toNat
    let r := s.reachFor p (bitsAt ptr 0 56)
    if !selectsG ptr then fin { s with pager := s.pager ++ [.chain 0 ptr] } 1 reasonAddr
    else match r.t with
      | .lost => fin s 1 reasonTier
      | .hole | .away => fin { s with pager := s.pager ++ [.chain 0 ptr] } 1 reasonXlate
      | .remote dev => if !r.r then fin s 1 reasonAddr else match s.wayTo p dev with
        | .none => fin s 1 reasonAddr
        | .down => .retry (if s.inbox.contains (.peerLoss p dev) then s else s.post (.peerLoss p dev))
        | .via _ h =>
          if 24 < hops + h then fin s 2 0
          else match s.sendRemote p dev 4 step (bitsAt ptr 0 56) ([BitVec.ofNat 8 (hops + h)] ++ (q.data.drop 1).take 15 ++ l) with
            | .refused => fin s 1 reasonAddr
            | .wait s => .retry s
            | .sent s _ => .now s 0x81 0 []
      | .mem _ | .win .. =>
        if !r.r then fin s 1 reasonAddr
        else if s.bankBusy r.t then .retry s
        else
          let s := s.stamp r.t
          if l.length ≤ 16 then
            if ptr.toNat % wb ≠ 0 then fin s 1 reasonAlign
            else s.chainEnd p q (s.readAt r.t wb) (!(s.marksAt r.t wb).isEmpty) hops step 0 0 ptr
          else if ptr.toNat % 8 ≠ 0 then fin s 1 reasonAlign
          else if !(s.marksAt r.t 8).isEmpty then fin s 1 reasonPoison
          else s.chainAt p q f (step + 1) hops ((BitVec.ofNat 64 (ofBytes (s.readAt r.t 8)) &&& mask) + off) (l.drop 16)
      | _ => fin { s with pager := s.pager ++ [.chain 0 ptr] } 1 reasonAddr

/-! ## Versions homed here or told of from their homes (R404, R409 to R427; log 35) -/

/-- A lineage word's answer as a reply. -/
def HomeAnswer.serve (s : State) : HomeAnswer → Served
  | .value s v => .now s 0x80 0 (bytesOf 8 v.toNat)
  | .cause code v => .now s 0x80 (if code = ILLOP then answerIllop else answerRefused) (bytesOf 8 v.toNat)
  | .wait => .retry s

/-- A record on another device names a version homed here (R409, R412). -/
def State.useFar (s : State) (p dev : Nat) (nv : Word) : State :=
  ((s.ensureVersion p nv).getD s).updVersion p nv fun e =>
    { e with cons := e.cons + 1 }.updFar dev fun u => { u with cons := u.cons + 1, waits := true }

/-- A home tells of a version (R409): its entry here holds what is told, and the records that wait are released. -/
def State.takeTold (s : State) (p : Nat) (nv : Word) (bs : List Byte) : State :=
  let w := fun i => BitVec.ofNat 64 (ofBytes ((bs.drop (8 * i)).take 8))
  (s.updVersion p nv fun e =>
    { e with st := if e.st = .pending then .pending else .current, depth := bitsAt (w 1) 57 4, repl := (w 1).getLsbD 55, norm := (w 1).getLsbD 53, rdev := 4096
             base := w 2, nrow := bitsAt (w 3) 48 16, ncol := bitsAt (w 3) 32 16, size := bitsAt (w 3) 0 32 }).notify p nv

/-- A record of another device asks for a replica, which its first result's home is preferred for (R414). -/
def State.wantFar (s : State) (p dev : Nat) (nv : Word) (bs : List Byte) : State :=
  let want := if bs.getD 0 0 = 0 then none else some (ofBytes ((bs.drop 1).take 2), (bs.getD 3 0).toNat % 4)
  s.updVersion p nv fun e => e.updFar dev fun u => { u with repl := some want }

/-- The home of a result admits a record of another device as its producer (R43 row 9, R44). A record that the same device has asked for
before is admitted again. -/
def State.makeFar (s : State) (p dev : Nat) (nv : Word) (r : Rec) : State × Nat :=
  let again := match (s.version? p nv).bind DirEntry.maker with
    | some (d, q) => d == dev && sameRecord q r
    | none => false
  if again then (s, makerFresh)
  else match s.producer? p nv with
    | some (some q) => (s, if sameRecord q r then makerSame else makerOther)
    | some none => (s, makerOther)
    | none => match s.ensureVersion p nv with
      | some s => (s.updVersion p nv fun e => { e with st := .pending, ptid := recResult r 0, maker := some (dev, r) }, makerFresh)
      | none => (s, makerOther)

/-- A task on another device publishes nothing of a version (R407, R412). -/
def State.unmakeFar (s : State) (p : Nat) (nv tid : Word) : State :=
  (s.updVersion p nv fun e =>
    let e := if e.ptid = tid ∧ e.st = .pending then { e with st := .unprod, maker := none } else e
    { e with taking := false, mark := if (e.markOf tid).isSome then none else e.mark }).sweep

/-- A commit on another device asks whether its result may be published, and holds the version until it tells (R415). -/
def State.holdFar (s : State) (p : Nat) (nv : Word) (tid : Word) (recomp : Bool) : State × Nat :=
  match s.version? p nv with
  | some e => if recomp && e.differs tid then (s, 2) else (s.updVersion p nv fun e => { e with taking := true }, 1)
  | none => (s, 1)

/-- A message about a version: from its user to its home here, or from its home to its user here. -/
def State.serveHome (s : State) (p : Nat) (q : Packet) (op : HomeOp) : Served :=
  let dev := Packet.src q
  let word := fun i => BitVec.ofNat 64 (ofBytes ((q.data.drop (8 * i)).take 8))
  let nv := word 0
  let bs := q.data.drop 8
  let done := fun (s : State) => Served.now s 0x81 0 []
  let upd := fun f => s.updVersion p nv f
  let code := fun (r : State × Nat) => Served.now r.1 0x80 0 [BitVec.ofNat 8 r.2]
  let publ : Publisher := ⟨word 1, recOf ((bs.drop 10).take 128), (bs.getD 9 0).toNat⟩
  match op with
  | .current => done (s.takeTold p nv bs)
  | .lost => done ({ upd fun e => { e with st := if e.st = .pending then .pending else .unprod } with tasks := s.tasks.map (Task.rewait p nv) })
  | .dead => done ((upd fun e => { e with lossCause := (bs.getD 0 0).toNat }).unrecoverable p nv)
  | .replicated => done ((upd fun e => { e with repl := true, rdev := 4096, depth := 0 }).replicated p nv)
  | _ =>
    if !s.homeLocal p nv || (s.homeDie p nv).isNone then .now s 0x80 answerRefused []
    else match op with
    | .look => match s.version? p nv with
      | some e => if e.taking then .retry s else .now s 0x80 0 e.told
      | none => .now s 0x80 0 []
    | .tvq => (s.tvqAt p nv (word 1)).serve s
    | .publ => (s.publAt p nv (pubMark (word 1) (word 2) (word 3))).serve s
    | .retain => (s.retainAt p nv (word 1) (word 2).toInt).serve s
    | .repl => (s.replAt p nv (word 1) ((bs.getD 8 0).toNat % 4)).serve s
    | .rcvr => (s.rcvrAt p nv).serve s
    | .trim => (s.trimAt p nv (word 1 == 2)).serve s
    | .hold => code (s.holdFar p nv (word 1) (bs.getD 138 0 != 0))
    | .produce => code (s.makeFar p dev nv (recOf (bs.take 128)))
    | .publish => done (s.settleHere p publ ((bs.getD 8 0).toNat % 3) nv).sweep
    | .unproduce => done (s.unmakeFar p nv (word 1))
    | .delta => done ((s.applyDelta p nv (word 1).toInt).sweep)
    | .use => done (s.useFar p dev nv)
    | .again => done (upd fun e => e.updFar dev fun u => { u with waits := true })
    | .unuse => done (upd fun e => { e with cons := e.cons - 1 }.updFar dev fun u => { u with cons := u.cons - 1, waits := u.waits && u.cons != 1 }).sweep
    | .drefUp => done (((s.ensureVersion p nv).getD s).updVersion p nv fun e =>
        { e with dref := e.dref + 1 }.updFar dev fun u => { u with dref := u.dref + 1 })
    | .drefDown => done (upd fun e => { e with dref := e.dref - 1 }.updFar dev fun u => { u with dref := u.dref - 1 }).sweep
    | .lose => done (s.loseVersion p nv POISON)
    | .replicate => done (s.wantFar p dev nv bs)
    | _ => done ((upd fun e => e.updFar dev fun u => { u with pri := max u.pri (bs.getD 0 0).toNat }).raiseProducers p (bs.getD 0 0).toNat
        (s.tasks.length + 1) [nv])

/-- Serve a request for a partition of this device. -/
def State.serve (s : State) (p : Nat) (q : Packet) : Served :=
  if !(s.part p).exists_ then .now s (if Packet.typ q = 2 || 5 ≤ Packet.typ q then 0x81 else 0x80) (if Packet.typ q = 1 then 64 + answerRefused else answerRefused) []
  else match Packet.typ q with
    | 1 => s.serveAccess p q
    | 2 => s.serveAccess p q
    | 3 => match homeOp (Packet.oparg q) with
      | some op => s.serveHome p q op
      | none => s.serveWord p q
    | 4 => s.chainAt p q 8 (Packet.oparg q) ((q.data.getD 0 0).toNat) (BitVec.ofNat 64 (Packet.addr q)) (q.data.drop 16)
    | 5 => s.serveLine p q
    | _ => s.serveRow p q

/-! ## The duplicate filter (R445) -/

def State.responder (s : State) (dev p : Nat) : Responder :=
  match s.responders.find? fun r => r.dev == dev && r.part == p with
  | some r => r
  | none => ⟨dev, p, 0, [], []⟩

def State.updResponder (s : State) (dev p : Nat) (f : Responder → Responder) : State :=
  let r := f (s.responder dev p)
  { s with responders := (s.responders.filter fun q => !(q.dev == dev && q.part == p)) ++ [r] }

def Responder.duplicate (r : Responder) (rsn : BitVec 16) : Bool := r.seen.contains rsn || 0x8000 ≤ (rsn - r.base).toNat

/-- A request is marked seen. The requester holds at most 1,024 unanswered requests, so the replies of all earlier ones have reached it. -/
def Responder.note (r : Responder) (rsn : BitVec 16) : Responder :=
  let base := if (rsn - r.base).toNat < 1024 then r.base else rsn - 1023
  let inside := fun (n : BitVec 16) => (n - base).toNat < 1024
  { r with base := base, seen := (r.seen ++ [rsn]).filter inside, cache := r.cache.filter fun q => inside q.1 }

def Responder.remember (r : Responder) (p : Packet) : Responder :=
  if r.seen.contains (Packet.rsn p) then { r with cache := (r.cache.filter fun q => q.1 != Packet.rsn p) ++ [(Packet.rsn p, p)] } else r

/-- A request of another device is executed once, or answered again from the cache (R445). -/
def State.takeRequest (s : State) (q : Packet) : State :=
  let p := Packet.part q
  let dev := Packet.src q
  let numbered := Packet.typ q != 1
  let r := s.responder dev p
  if numbered && r.duplicate (Packet.rsn q) then
    let s := s.countError 0 19
    match r.cache.find? fun c => c.1 == Packet.rsn q with
    | some (_, back) => { s with answers := s.answers ++ [back] }
    | none => s
  else
    let note := fun (s : State) => if numbered then s.updResponder dev p fun r => r.note (Packet.rsn q) else s
    match s.serve p q with
    | .retry s => s.post (.remoteRequest q)
    | .later s => note s
    | .now s typ oparg data =>
      let h := packetHeader (Packet.addr q) oparg (Packet.rsn q).toNat dev (s.part p).devnum p 0 1 typ
      let s := note s
      { s with answers := s.answers ++ [⟨h, data⟩] }

/-- A packet for this device arrives (R445, R487). -/
def execRemoteRequest (p : Packet) (s : State) : Out :=
  if !Packet.ok p then .next (s.countError 0 12)
  else if Packet.cls p = 1 then .next (s.takeReply p)
  else if 0x80 ≤ Packet.typ p then .next (s.countError 0 12)
  else .next (s.takeRequest p)

/-- Send what answers are ready: they take the routes of their partitions and stay in the cache (R337, R445). -/
def State.sendAnswer (s : State) (p : Packet) : State :=
  let part := Packet.part p
  let dev := Packet.dst p
  let s := if Packet.oparg p / 64 % 2 = 0 then s.updResponder dev part fun r => r.remember p else s
  if dev = (s.part part).devnum then s.post (.remoteRequest p)
  else match s.wayTo part dev with
    | .via port _ => if s.portOpen port 1 0 then s.transmit port 0 p else { s with answers := s.answers ++ [p] }
    | .down => if s.inbox.contains (.peerLoss part dev) then s else s.post (.peerLoss part dev)
    | .none => s

def State.flushAnswers (s : State) : State := s.answers.foldl State.sendAnswer { s with answers := [] }

/-- An outstanding operation of a context completes (R430, R431). -/
def execAccessCompletion (core slot : Nat) (k : OscKind) (id : Nat) (s : State) : Out :=
  .next (s.updCtx core slot fun x => x.setOsc k (oscDone id (x.oscList k))).resumeVe

end Sys2Proof.Machine
end

