-- ==== Sys2Proof/Machine/Faults.lean ====
section
/-! DEFINITION. Engine faults, ECC errors, resets of cores and of the device, the loss of a die, heartbeats, and the monitors with their
limits (R25 to R31, R208, R282, R291, R309, R326, R405, R442, R460 to R463, R472, R473, R483, R485, R496). -/

namespace Sys2Proof.Machine

/-! ## Engine faults (R460 to R463) -/

def unitCode : Unit4 → Nat
  | .ve => 0
  | .me => 1
  | .tu => 2
  | .sq => 3

/-- The task whose work an engine does: partition, ID and member. -/
def State.workOf (s : State) (core : Nat) (u : Unit4) : Option (Nat × Word × Nat) :=
  let r := s.core core
  let slot := fun (k : Nat) => (s.ctx? core k).map fun x => (x.part, x.tid, x.role)
  let current := fun (e : Eng) => (r.current e).bind fun n => slot n.slot
  match u with
  | .ve => current .ve
  | .me => (current .me).orElse fun _ => r.jobs.head?.bind fun j => slot j.slot
  | .tu => ((r.cmds.find? fun m => m.res.isNone).map fun m => (m.part, m.tid, m.role)).orElse fun _ => current .tu
  | .sq => r.active.bind slot

/-- A task aborts, wherever its members are. -/
def State.abortTask (s : State) (p : Nat) (tid : Word) (w : Cause) : State :=
  match s.task? p tid with
  | none => s
  | some t => match t.members with
    | [] => s.endTask p tid w false
    | ms => ms.foldl (fun s (_, c, k) => s.abort c k w) s

/-- Remove a task's entries from a failed engine's chain, and its step words from a failed ME. -/
def State.clearEngine (s : State) (core : Nat) (u : Unit4) (p : Nat) (tid : Word) : State :=
  let mine := fun (k : Nat) => match s.ctx? core k with
    | some x => x.part == p && x.tid == tid
    | none => false
  let drop := fun (e : Eng) => s.updCore core fun r => r.setChain e ((r.chain e).filter fun n => !mine n.slot)
  match u with
  | .ve => drop .ve
  | .me => (drop .me).updCore core fun r => { r with jobs := r.jobs.filter fun j => !mine j.slot }
  | .tu => drop .tu
  | .sq => s

/-- A context's ME state after a reset of the ME: the weights, the mode, the latch and the sampler's items of R267 are at their reset
values; the configuration registers are kept (R240, R241, R247, R259, R267). -/
def MeState.engineReset (m : MeState) : MeState := { m with
  mode := .full, weights := [], latch := [], active := m.active.filter fun (i, _) => i < 0x80, seed := 0, tau := 0, nmin := 0, nmax := 0
  tabA := 0, tabB := 0, tabE := 0, tabK := 0, mqsum := 0, tvalid := false, inval := false, srun := false, sctr := 0, mean := [], m2 := []
  mscnt := 0, mvar := 0 }

/-- What a reset of an engine does to other contexts: the ME loses its state; the TU ends its accepted commands (R326, R463). -/
def State.resetEngine (s : State) (core : Nat) (u : Unit4) (p : Nat) (tid : Word) : State :=
  match u with
  | .me => (s.core core).ctxs.foldl (fun s (k, _) => s.updCtx core k fun x => { x with me := x.me.engineReset }) s
  | .tu => (s.core core).cmds.foldl (fun s m =>
      if m.part = p ∧ m.tid = tid then s.updCore core fun r => { r with cmds := r.cmds.filter fun q => q.id != m.id }
      else s.finishCmd core m 1 reasonReset 0) s
  | _ => s

/-- Can the other task of a context be saved as on pre-emption? A gang is saved whole. -/
def State.movable (s : State) (t : Task) : Bool := t.members.all fun (_, c, k) => s.canSave c k && (match s.ctx? c k with
  | some x => x.asks.isEmpty && x.writing.isNone && (match x.life with | .running => true | .parked .. => true | _ => false)
  | none => false)

/-- The other contexts of an isolated core leave it (R461). One that has halted commits. -/
def State.evacuate (s : State) (core : Nat) (w : Cause) : State :=
  (s.core core).ctxs.foldl (fun s (k, _) => match s.ctx? core k with
    | none => s
    | some x => match x.life, s.task? x.part x.tid with
      | .halted, _ => s
      | .aborting _, _ => s
      | _, none => s
      | _, some t =>
        if s.movable t then
          let parked := t.members.all fun (_, c, i) => match s.ctx? c i with
            | some y => (match y.life with | .parked _ false => true | _ => false)
            | none => false
          t.members.foldl (fun s (_, c, i) => s.saveCtx c i (if parked then .parked else .ready)) s
        else s.abortTask x.part x.tid w) s

/-- An engine of a core fails: it is reset, its task aborts, and the third fault in 2^30 cc isolates the core. -/
def execEngineFault (core : Nat) (e : Unit4) (s : State) : Out :=
  let r := s.core core
  let w : Cause := ⟨11, BitVec.ofNat 64 (unitCode e)⟩
  let third := match r.faults with
    | [a, _] => (r.cyc - a).toNat < 2 ^ 30
    | _ => false
  let s := (s.updCore core fun r => { r with faults := (r.faults ++ [r.cyc]).drop (r.faults.length - 1) }).countError (dieOf core) 9
  let s := match s.workOf core e with
    | none => s.resetEngine core e 8 0
    | some (p, tid, _) =>
      let s := (s.clearEngine core e p tid).resetEngine core e p tid
      let s := s.updTask p tid fun t => { t with excl := ((t.excl ++ [core]).eraseDups).take 16 }
      s.abortTask p tid w
  if third && !r.isolated then
    .next (((s.updCore core fun r => { r with isolated := true }).countError (dieOf core) 10 |>.evacuate core w).interrupt 0 2)
  else .next s

/-! ## ECC (R208, R282, R291, R309) -/

/-- The pair of error counters of a memory: SRAM 0, Quartz 2, Slate 4, HBM 6. -/
def eccItem (w : EccSite) : Nat := match w with
  | .device u => if isHbm (64 * u) then 6 else if isSlate (64 * u) then 4 else 2
  | _ => 0

def eccDie (w : EccSite) : Nat := match w with
  | .scratch c _ _ => dieOf c
  | .accum c _ => dieOf c
  | .vreg c _ => dieOf c
  | .imem c _ _ => dieOf c
  | .device u => dieOfPa (64 * u)

/-- Does a site exist? -/
def eccValid (w : EccSite) : Bool := match w with
  | .scratch c k u => c < 256 && k < 16 && u < 16384
  | .accum c u => c < 256 && u < 65536
  | .vreg c r => c < 256 && r < 4096
  | .imem c _ _ => c < 256
  | .device u => onDevice (64 * u)

/-- A corrected error is counted. -/
def execEccCorrectable (w : EccSite) (s : State) : Out := .next (if eccValid w then s.countError (eccDie w) (eccItem w) else s)

/-- An uncorrectable error marks its unit, its tile row or its register; an image is loaded again. -/
def State.eccMark (s : State) (w : EccSite) : State :=
  match w with
  | .scratch c k u => if Tab.find (s.core c).lineOwner (u / 4) = some k then s.updCtx c k fun x => x.poisonL u else s
  | .accum c u =>
    let slice := u / 4096
    let off := u % 4096 * 64
    (List.range 8).foldl (fun s i => s.wake c slice (off + 8 * i)) (s.poisonAt (.win c slice off))
  | .vreg c r => s.updCore c fun q => { q with vrf := Tab.upd .empty q.vrf r fun v => { v with poison := some (Config.freeWord s.tick) } }
  | .imem c p h => (s.updCore c fun q => { q with imem := q.imem.filter fun l => !(l.key.part == p && l.key.handle == h) }).countError (dieOf c) 8
  | .device u => s.poisonAt (.mem (64 * u))

def execEccUncorrectable (w : EccSite) (s : State) : Out :=
  .next (if eccValid w then (s.eccMark w).countError (eccDie w) (eccItem w + 1) else s)

/-! ## Resets of cores and of the device (R463, R485) -/

/-- A core after its reset; its mailbox is kept (R370). -/
def Core.afterReset (r : Core) (held : Bool) : Core := { Core.reset with heldReset := held, mbox := r.mbox }

/-- A wait on a word that is cleared runs again. -/
def State.wakeAll (s : State) (core : Nat) : State :=
  let r := s.core core
  let again := fun (s : State) (p : Nat) (tid : Word) (role : Nat) => s.wakeMember p tid role fun y => match y.life with
    | .parked q _ => if q.stays then y else { y with pc := y.pc - 1 }
    | _ => y
  let s := r.watches.foldl (fun s w => match w.far with
    | some q => s.reply q 0 (bytesOf 8 0)
    | none => again s w.part w.tid w.role) s
  r.lockq.foldl (fun s w => match w.far with
    | some q => s.reply q answerRefused []
    | none => again s w.part w.tid w.role) s

/-- The tasks that run on a core end with a hand-over (log 40). -/
def State.endResident (s : State) (core : Nat) (w : Cause) : State :=
  let due := s.tasks.filter fun t => t.members.any fun (_, c, _) => c == core
  due.foldl (fun s t =>
    let s := t.members.foldl (fun s (_, c, k) => s.dropCtx c k false) s
    (s.updTask t.part t.tid fun t => { t with members := [] }).endTask t.part t.tid w false) s

/-- Records leave their queues for a die's spill region, in their queue order (R361). -/
def State.spillAll (s : State) (die : Nat) (leave : Task → Bool) : State :=
  (s.tasks.filter leave).foldl (fun s t => s.updTask t.part t.tid fun u => { u with place := s.spillOr t.part die }) s

/-- Reset one core: its local queue goes to its die's spill region, everything it holds is cleared (R361, R463). -/
def State.resetCore (s : State) (core : Nat) (held : Bool) : State :=
  let s := s.endResident core ⟨12, 0⟩
  let s := (s.core core).cmds.foldl (fun s m => s.finishCmd core m 1 reasonReset 0) s
  let s := s.spillAll (dieOf core) fun t => t.place == .local core
  let s : State := { s with
    fills := s.fills.filter fun q => q.1 != core }
  let s := s.wakeAll core
  s.setCore core ((s.core core).afterReset held)

/-- Has an isolated core been emptied, so that it can be held in reset (R461)? -/
def State.emptied (s : State) (core : Nat) : Bool :=
  let r := s.core core
  r.ctxs.isEmpty && r.cmds.isEmpty && (List.range 16).all fun i => !s.pinned core i

/-- The last step of an isolation, or the reset that privileged code asks for, which returns an isolated core. -/
def execCoreReset (core : Nat) (s : State) : Out :=
  let r := s.core core
  if 256 ≤ core || (s.die (dieOf core)).lost then .next s
  else if r.isolated && !r.heldReset && s.emptied core then .next ((s.resetCore core true).updCore core fun r => { r with isolated := true })
  else .next (s.resetCore core (s.coreOwner core).isNone)

/-- What lies in host memory, with its marks, is not the device's. -/
def hostOnly (m : Memory) : Memory := m.filter fun c => isHost c.1

/-- The device after power-on reset: the fuses keep their values, and what has left the device has left it. -/
def State.powerOn (s : State) : State := { State.reset with
  tick := s.tick, turn := s.turn, outbox := s.outbox, mem := hostOnly s.mem, fuses := s.fuses, serial := s.serial
  memPois := s.memPois.filter fun u => isHost (64 * u)
  mgmt := { State.reset.mgmt with fsvn := s.fuses.svn } }

/-- Power-on reset by the management interface: a notice leaves by each port in service first (R485). -/
def execPowerOnReset (s : State) : Out :=
  let up := s.tunars.filterMap fun (i, t) => if t.up then some i else none
  .next (up.foldl (fun s i => s.emit (.notice i)) s).powerOn

/-- At 120 °C the module's controller removes power (R496). -/
def execModuleOvertemp (s : State) : Out := .next s.powerOn

/-! ## The loss of a die (R28, R29, R405, R472, R473, R483) -/

/-- Does a partition own a core, a memory slice or a lineage shard on a die (R29)? -/
def Part.touches (x : Part) (die : Nat) : Bool :=
  x.exists_ && (x.onDie die || x.hbmOnDie die || (List.range 32).any (x.ownsQuartz die) || (List.range 16).any (x.ownsSlate die) ||
    (List.range 64).any fun i => x.home i == (x.devnum, die))

/-- Where what a lost die held goes on: its mirror die, none where that is lost too (R405). -/
def State.mirror (s : State) (die : Nat) : Option Nat := if (s.die ((die + 1) % 4)).lost then none else some ((die + 1) % 4)

/-- Does a record stand in a local queue, mailbox or spill region of a die? -/
def Task.queuedOn (t : Task) (die : Nat) : Bool := match t.place with
  | .local c => dieOf c == die
  | .boot c => dieOf c == die
  | .spill d => d == die
  | _ => false

/-- A record of a lost die stands on its mirror; those of its local queues, mailboxes and spill regions go to the mirror's spill region. -/
def Task.moved (die to' : Nat) (t : Task) : Task :=
  let place := match t.place with
    | .stage d r st => if d = die then .stage to' r st else t.place
    | p => p
  { t with place := place, die := if t.die = die then to' else t.die, core := if dieOf t.core = die then (64 * to' + t.core % 64) else t.core }

/-- The tasks that ran on a lost die's cores, or whose images lay there, are handed over. -/
def State.endOnDie (s : State) (die : Nat) : State :=
  let due := s.tasks.filter fun t => t.members.any (fun (_, c, _) => dieOf c == die) || t.images.any fun i => dieOf i.fromCore == die
  due.foldl (fun s t =>
    let s := t.members.foldl (fun s (_, c, k) => s.dropCtx c k false) s
    let s := s.updTask t.part t.tid fun t => { t with members := [], images := [] }
    State.endAll s.endFuel [.task t.part t.tid ⟨12, reasonDie die⟩ false] s) s

/-- Commands that lost cores carry for contexts elsewhere end (R472). -/
def State.endCmdsOn (s : State) (die : Nat) : State :=
  (s.cores.filter fun (c, _) => dieOf c == die).foldl (fun s (c, r) => r.cmds.foldl (fun s m => s.finishCmd c m 1 reasonTier 0) s) s

/-- Records that were inserted on a lost die are those of its mirror. -/
def State.moveRecords (s : State) (die : Nat) : State :=
  match s.mirror die with
  | some m => let s := s.spillAll m fun t => t.queuedOn die; { s with tasks := s.tasks.map (Task.moved die m) }
  | none =>
    let gone := s.tasks.filter fun t => t.die == die && t.undispatched
    let any := (dieNums.find? fun d => !(s.die d).lost).getD 0
    let s := (gone.foldl (fun s t => s.removeRecord t.part t.tid) s).spillAll any fun t => t.queuedOn die
    { s with tasks := s.tasks.map (Task.moved die any) }

/-- Versions with storage on a lost die are lost, replicas there are gone, and its directory is its mirror's (R405, R416). -/
def State.loseVersions (s : State) (die : Nat) (stored : List (Nat × Word)) : State :=
  let s := stored.foldl (fun s q => s.loseVersion q.1 q.2 12) s
  let s : State := { s with versions := s.versions.map fun e =>
    if e.repl && e.rdev == (s.part e.part).devnum && e.rdie == die then { e with repl := false, st := if e.st = .restore then .lost else e.st } else e }
  match s.mirror die with
  | some m => { s with versions := s.versions.map fun e => if e.die = die then { e with die := m } else e }
  | none =>
    let gone := (s.versions.filter fun e => e.die == die).map fun e => (e.part, e.nv)
    let s : State := { s with versions := s.versions.map fun e => if e.die = die then { e with lossCause := 12 } else e }
    State.endAll s.endFuel (gone.map fun q => .version q.1 q.2) s

/-- Versions of a partition with an uncorrectable error that is reported together with the loss of a die: they are recovered with it
(R29). -/
def State.struck (s : State) (p : Nat) : List (Nat × Word) :=
  let units := s.inbox.filterMap fun e => match e with
    | .eccUncorrectable (.device u) => some u
    | _ => none
  let addrs := (s.ctxsOf p).filterMap fun x => x.pend.bind fun w => if w.code % 512 = POISON then some w.value.toNat else none
  (s.versions.filter fun e => e.part == p && s.homeLocal p e.nv && e.st == .current &&
    (addrs.any e.holds || (!units.isEmpty && (unitsOf e.base.toNat e.rangeLen).any fun (_, a, _) =>
      ((s.residentPa p a).map fun pa => units.contains (pa / 64)).getD false))).map fun e => (p, e.nv)

/-- Everything that a die held is gone. -/
def State.clearDie (s : State) (die : Nat) : State :=
  let there := fun (pa : Nat) => onDevice pa && dieOfPa pa == die
  { s with
    mem := s.mem.filter fun c => !there c.1
    memPois := s.memPois.filter fun u => !there (64 * u)
    stamps := s.stamps.filter fun q => !there (65536 * q.1)
    cores := s.cores.filter fun (c, _) => dieOf c != die
    dies := Tab.put s.dies die { Die.reset with lost := true }
    fills := s.fills.filter fun q => dieOf q.1 != die
    hbmUp := s.hbmUp.filter fun st => st / 2 != die
    ucieHeld := s.ucieHeld.filter fun q => q.1 != die && q.2.1 != die
    pager := s.pager.filter fun q => match q with
      | .command c _ _ => dieOf c != die
      | .fill c _ _ => dieOf c != die
      | .image c _ _ => dieOf c != die
      | .stream p tid role _ _ => match s.resident p tid role with
        | some (c, _, _) => dieOf c != die
        | none => true
      | .chain .. => true
    ucies := s.ucies.map fun u => if u.side.die = die ∨ u.side.peer = die then { u with up := false, retraining := false, replay := [] } else u }

/-- The owner's path is lost: its ownership goes as by RELEASE (R489). -/
def State.releaseOwner (s : State) (master : Nat) : State :=
  if s.mown.owner = master then ({ s with mown := { s.mown with owner := 0, htgt := 0 } }).interrupt 0 0 else s

/-- What hangs on die 0 goes with it: the host port, its masters' paths, the NVMe controllers. -/
def State.loseHostPort (s : State) (die : Nat) : State :=
  if die ≠ 0 then s.interrupt 0 2
  else
    let s := s.releaseOwner 1
    { s with link := .none, nvmeReqs := [], mgmt := { s.mgmt with nvme := s.mgmt.nvme.map fun (j, w) => (j, w &&& ~~~(3#64 <<< 62)) } }

/-- A die is lost. -/
def execDieLoss (die : Nat) (s : State) : Out :=
  if 4 ≤ die || (s.die die).lost then .next s
  else
    let hit := partNums.filter fun p => (s.part p).touches die
    let agent := dieNums.find? fun d => !(s.die d).lost
    let stored := s.versions.filterMap fun e => if s.dieHolding e.part e.base.toNat = some die then some (e.part, e.nv) else none
    let stored := stored ++ hit.flatMap s.struck
    let s := s.updDie die fun d => { d with lost := true }
    let s := s.loseHostPort die
    let s := if agent = some die then s.releaseOwner 3 else s
    let s := hit.foldl (fun s p => s.enterQuiesce p (reasonDie die) none) s
    let s := (s.endCmdsOn die).endOnDie die
    let s := (s.moveRecords die).loseVersions die stored
    let s := (List.range 8).foldl (fun s i => if (s.tunar (8 * die + i)).up then s.closePort (8 * die + i) fun _ => false else s) s
    let s := s.clearDie die
    .next (hit.foldl (fun s p => s.deliver p) s)

/-- A management core sends a heartbeat every 2^16 cc (R483). -/
def execHeartbeatSend (die : Nat) (s : State) : Out :=
  let now := (s.die die).qclk.toNat / 2 ^ 16
  if (s.die die).lost || now = (s.die die).heartbeat then .next s
  else .next ((s.updDie die fun d => { d with heartbeat := now }).emit (.heartbeat die))

/-! ## Monitors and limits (R26, R442, R496) -/

/-- The monitors of a die are sampled every 4,096 cc; a sensor above 105 °C withholds issue slots until all read 100 °C or less. -/
def execMonitorSample (die : Nat) (values : List Half) (s : State) : Out :=
  let now := (s.die die).qclk.toNat / 4096
  if (s.die die).lost || now = (s.die die).sampled then .next s
  else
    let v := values.take 11
    let temps : List Int := (v.take 8).map fun t => t.toInt
    .next (s.updDie die fun d => { d with
      sampled := now
      monitors := (v.mapIdx fun i t => (i, t)).foldl (fun m (i, t) => Tab.put m i t) d.monitors
      withheld := temps.any (fun t => (1680 : Int) < t) || (d.withheld && temps.any fun t => (1600 : Int) < t) })

/-- Over each millisecond the withholding of issue slots keeps the mean power within PLIM. -/
def execPowerLimitWindow (meanWatts : Nat) (s : State) : Out :=
  .next (dieNums.foldl (fun s d => s.updDie d fun x => { x with capped := !x.lost && s.mgmt.plim < meanWatts }) s)

end Sys2Proof.Machine
end

