-- ==== Sys2Proof/Machine/Mgmt.lean ====
section
/-! DEFINITION. The management space, the partitions' control registers, boot, the host port and its functions, HDM decoders and NVMe slots
(R3, R31, R33, R370, R371, R404, R463, R475 to R481, R488 to R497). -/

namespace Sys2Proof.Machine

/-! ## Ownership (R488, R489) -/

/-- MOWN as it reads. -/
def Mown.word (m : Mown) : Word := BitVec.ofNat 64 (m.deny * 2 ^ 32 + m.htgt * 2 ^ 16 + m.owner)

/-- Change MOWN: a change interrupts PF0 (R477). -/
def State.setMown (s : State) (m : Mown) : State := if m = s.mown then s else ({ s with mown := m }).interrupt 0 0

/-- The three masters of R488, by whose paths accesses reach the space; PF0's goes with die 0 until the next power-on (R16). -/
def State.isMaster (s : State) (n : Nat) : Bool := 1 ≤ n && n ≤ 3 && !(n == 1 && (s.die 0).lost)

/-- A read returns DENY and clears it (R3). -/
def execMownRead (master : Nat) (s : State) : Out :=
  if !s.isMaster master then .next s else .next { s.emit (.mown s.mown.word) with mown := { s.mown with deny := 0 } }

/-- A write of a master: one of another than the owner is discarded and counted. -/
def State.owned (s : State) (master : Nat) (f : State → State) : State :=
  if !s.isMaster master then s
  else if master = s.mown.owner then f s
  else s.setMown { s.mown with deny := min 255 (s.mown.deny + 1) }

def execHtgtWrite (master : Nat) (v : BitVec 4) (s : State) : Out :=
  .next (s.owned master fun s => if v.toNat = master || 3 < v.toNat then s else s.setMown { s.mown with htgt := v.toNat })

def State.claim (s : State) (master : Nat) : State :=
  if s.isMaster master && s.mown.owner = 0 then s.setMown { s.mown with owner := master } else s

def State.accept' (s : State) (master : Nat) : State :=
  if s.isMaster master && s.mown.htgt = master then s.setMown { s.mown with owner := master, htgt := 0 } else s

def execMclmClaim (master : Nat) (s : State) : Out := .next (s.claim master)
def execMclmRelease (master : Nat) (s : State) : Out := .next (if s.isMaster master then s.releaseOwner master else s)
def execMclmAccept (master : Nat) (s : State) : Out := .next (s.accept' master)
def execManagementInterfaceReset (s : State) : Out := .next (s.releaseOwner 2)

/-! ## Partition reset (R463) -/

/-- The task, core or context that a pager's call is of. -/
def State.callPart (s : State) (q : PagerCall) : Option Nat := match q with
  | .command c _ _ => s.coreOwner c
  | .fill c _ _ => s.coreOwner c
  | .image c _ _ => s.coreOwner c
  | .stream p _ _ _ _ => some p
  | .chain c _ => s.coreOwner c

/-- Every core, queue, table entry and counter that a partition owns is reset; its cores stay in reset. Memory keeps what it holds. -/
def State.partReset (s : State) (p : Nat) : State :=
  let x := s.part p
  { s with
    pager := s.pager.filter fun q => s.callPart q != some p
    fills := s.fills.filter fun q => !x.ownsCore q.1
    cores := (s.cores.filter fun (c, _) => !x.ownsCore c || (s.core c).isolated).map fun (c, r) =>
      if x.ownsCore c then (c, { Core.reset with isolated := true }) else (c, r)
    tasks := s.tasks.filter fun t => t.part != p
    versions := s.versions.filter fun e => e.part != p
    routes := s.routes.filter fun (_, e) => !(routeV e && routePart e == p)
    streams := s.streams.filter fun t => t.part != p
    responders := s.responders.filter fun t => t.part != p
    nvmeReqs := s.nvmeReqs.filter fun t => t.part != p
    promoting := s.promoting.filter fun t => t.part != p
    answers := s.answers.filter fun q => Packet.part q != p
    homeMsgs := s.homeMsgs.filter fun m => m.part != p
    ucieHeld := s.ucieHeld.filter fun q => Packet.part q.2.2 != p
    dies := s.dies.map fun (d, y) => (d, { y with events := y.events.filter fun e => e.part != p, bounce := y.bounce.filter fun b => b.part != p })
    parts := Tab.put s.parts p { Part.reset with
      exists_ := x.exists_, inReset := true, busy := x.busy, stat := x.stat, result := x.result, desc := x.desc
      hwbase := x.hwbase, hwsize := x.hwsize, msix := x.msix, msixOpen := x.msixOpen, msixPending := x.msixPending } }

/-! ## The descriptor (R404, R490, R491) -/

def Part.ownedCores (x : Part) : List Nat := coreNums.filter x.ownsCore
def Part.ownedHbm (x : Part) : List Nat := (List.range 384).filter fun i => x.ownsHbm (i / 48) (i % 48)
def Part.ownedQuartz (x : Part) : List Nat := (List.range 128).filter fun i => x.ownsQuartz (i / 32) (i % 32)
def Part.ownedSlate (x : Part) : List Nat := (List.range 64).filter fun i => x.ownsSlate (i / 16) (i % 16)

/-- The root region's RCB: the budgets equal the partition's resources, the rest comes from the descriptor (R33, R490). -/
def Part.rootRcb (x : Part) : List Word :=
  let n := x.ownedCores.length
  [x.desc64 0x20 ||| 1#64 <<< 31, 0, BitVec.ofNat 64 (n + 16 * 2 ^ 16), BitVec.ofNat 64 (n * 2 ^ 20), BitVec.ofNat 64 (x.ownedHbm.length * 2 ^ 30),
    0xFFFFFFFF, x.desc64 0x30, x.desc64 0x28] ++ ((List.range 8).map fun i => x.desc64 (0x40 + 8 * i)) ++ List.replicate 16 0

/-- Does the home map name devices with dies as R404 and R491 ask? -/
def Part.homesOk (x : Part) : Bool := (List.range 64).all fun i =>
  x.desc.value (0x100 + 2 * i) 2 < 2 ^ 14 && ((x.home i).1 != x.devnum || x.onDie (x.home i).2)

/-- Is a descriptor well formed (R393, R404, R490, R491)? -/
def Part.wellFormed (x : Part) : Bool :=
  let zero := fun o n => (x.desc.read o n).all (· == 0)
  let w := x.desc64 0
  w.getLsbD 63 && bitsAt w 22 41 == 0 && bitsAt w 12 4 == 0 && x.hshift ≤ 42 &&
  bitsAt x.otbase 56 8 == 0 && x.otbase.toNat % 4096 == 0 && bitsAt (x.desc64 0x10) 32 32 == 0 && 1 ≤ x.otsize && x.otsize ≤ 2 ^ 20 &&
  x.ptroot % 4096 == 0 && (isHbm x.ptroot || isQuartz x.ptroot) && x.ownsPa x.ptroot &&
  bitsAt (x.desc64 0x20) 36 28 == 0 && bitsAt (x.desc64 0x20) 31 1 == 0 && bitsAt (x.desc64 0x20) 0 22 == 0 && zero 0x3C 4 &&
  ((List.range 4).all fun d => bitsAt (BitVec.ofNat 64 (x.desc.value (0xD0 + 4 * d) 4)) 0 4 == 0 && bitsAt (BitVec.ofNat 64 (x.desc.value (0xD0 + 4 * d) 4)) 24 8 == 0) &&
  zero 0xE8 24 && zero 0x180 128 && rcbOk x.rootRcb [] && x.homesOk

/-- Is a resource of a partition owned by another one (R31)? -/
def State.taken (s : State) (p : Nat) (x : Part) : Bool := partNums.any fun q => q != p && (s.part q).exists_ &&
  (x.ownedCores.any (s.part q).ownsCore || x.ownedHbm.any (fun i => (s.part q).ownsHbm (i / 48) (i % 48)) ||
   x.ownedQuartz.any (fun i => (s.part q).ownsQuartz (i / 32) (i % 32)) || x.ownedSlate.any fun i => (s.part q).ownsSlate (i / 16) (i % 16))

/-- Is a resource of a partition absent or isolated (R491, R493)? -/
def State.absent (s : State) (x : Part) : Bool :=
  (x.ownedCores.any fun c => (s.die (dieOf c)).lost || (s.core c).isolated) ||
  (x.ownedHbm.any fun i => !s.hbmUp.contains (i / 48) || (s.die (i / 96)).lost) ||
  (x.ownedQuartz.any fun i => (s.die (i / 32)).lost) || x.ownedSlate.any fun i => (s.die (i / 16)).lost

/-! ## PCTL (R490, R491) -/

/-- Begin an operation: it is in progress until the firmware reports its result. -/
def State.beginOp (s : State) (p stat : Nat) : State := s.updPart p fun x => { x with busy := true, result := stat }

/-- An operation of the owner, while the firmware runs and none is in progress; outside recovery (R495). -/
def State.pctl (s : State) (master p : Nat) (f : State → State) : State :=
  s.owned master fun s => if 8 ≤ p || !s.fwReady || s.mgmt.recov || (s.part p).busy then s else f s

/-- Create a partition from its descriptor: the page-table root is cleared, the root region starts, the cores leave reset. -/
def State.create (s : State) (p : Nat) : State :=
  let x := s.part p
  let s := (s.partReset p).updPart p fun x => { x with exists_ := true, inReset := false, stat := 0 }
  let s : State := { s with mem := s.mem.filter fun c => !(x.ptroot ≤ c.1 && c.1 < x.ptroot + 4096) }
  let root := x.rootRcb
  let cores := x.ownedCores
  let s := s.updPart p fun y => { y with regions := [(0, ⟨.running, root, 0, 0, []⟩)] }
  let mins := (List.range (s.stageCount p 0)).map fun i => stageMin (s.stageWord p 0 i)
  let s := s.updPart p fun y => { y with regions := [(0, ⟨.running, root, 0, 0, cores.mapIdx fun i c => (c, stageOfCore mins i)⟩)] }
  (cores.foldl (fun s c => s.updCore c fun r => { r with heldReset := false }) s).emit (.ready (p + 1))

def execPctlCreate (master part : Nat) (s : State) : Out :=
  .next (s.pctl master part fun s =>
    let x := s.part part
    if x.exists_ && !x.inReset then s.beginOp part 3
    else if !x.wellFormed then s.beginOp part 1
    else if s.taken part x then s.beginOp part 2
    else if s.absent x then s.beginOp part 4
    else (s.create part).beginOp part 0)

def execPctlDestroy (master part : Nat) (s : State) : Out :=
  .next (s.pctl master part fun s =>
    if !(s.part part).exists_ then s.beginOp part 3
    else ((s.partReset part).updPart part fun x => { x with exists_ := false, inReset := false }).beginOp part 0)

def execPctlReset (master part : Nat) (s : State) : Out :=
  .next (s.pctl master part fun s => if !(s.part part).exists_ then s.beginOp part 3 else (s.partReset part).beginOp part 0)

def execPctlQuiesce (master part : Nat) (s : State) : Out :=
  .next (s.pctl master part fun s =>
    if !(s.part part).exists_ || (s.part part).inReset then s.beginOp part 3 else (s.requestQuiesce part).beginOp part 0)

/-- The firmware reports the result of an operation. -/
def execPctlOperationEnd (part : Nat) (s : State) : Out :=
  if !(s.part part).busy then .next s
  else .next ((s.updPart part fun x => { x with busy := false, stat := BitVec.ofNat 8 x.result }).interrupt 0 1)

/-! ## Fuses, boot and identity (R492 to R495) -/

def State.raiseSvn (s : State) : State :=
  if !s.mgmt.recov && s.mgmt.fsvn < s.mgmt.rsvn then { s with mgmt := { s.mgmt with raising := true } } else s

def execSvnrRaise (master : Nat) (s : State) : Out := .next (s.owned master State.raiseSvn)

def execFuseRaiseComplete (s : State) : Out :=
  if !s.mgmt.raising then .next s
  else .next { s with
    mgmt := { s.mgmt with raising := false, fsvn := max s.mgmt.fsvn s.mgmt.rsvn }, fuses := { s.fuses with svn := max s.fuses.svn s.mgmt.rsvn } }

/-- The number of the first check of R495 that an image fails, 0 where it passes. -/
def bootCheck (f : Fuses) (img : List Byte) : Nat :=
  let at' := fun o n => (img.drop o).take n
  let num := fun o n => ofBytes (at' o n)
  let len := num 0xC 4
  let digest := fun o n => Config.sha384 (at' o n)
  if at' 0 4 ≠ [0x59, 0x46, 0x57, 0x31] || num 4 2 ≠ 1 || num 6 2 ≠ 0 || 64 < num 8 4 || len = 0 || 2 ^ 26 < len || img.length ≠ 0x4300 + len ||
      (at' 0x1F0 16).any (· != 0) || (at' 0x42E0 32).any (· != 0) then 1
  else if digest 0x40 0x180 ≠ f.rsa || digest 0x1C0 48 ≠ f.slh then 2
  else if num 8 4 < f.svn then 3
  else if !Config.rsaVerify (at' 0x40 0x180) (img.take 0x200) (at' 0x200 0x180) then 4
  else if !Config.slhVerify (at' 0x1C0 48) (img.take 0x200) (at' 0x380 16224) then 5
  else if digest 0x4300 len ≠ BitVec.ofNat 384 (num 0x10 48) then 6
  else 0

/-- The boot ROM checks a firmware image: the firmware runs, or the device stays in recovery. PF0 is ready either way. -/
def execBootRomStart (image : List Byte) (s : State) : Out :=
  if s.fwReady then .next s
  else
    let n := bootCheck s.fuses image
    let svn := ofBytes ((image.drop 8).take 4)
    .next (({ s with
      fwReady := n == 0
      mgmt := { s.mgmt with fsvn := s.fuses.svn, rsvn := if n = 0 then svn else s.mgmt.rsvn, recov := n != 0, step := n } } : State).emit (.ready 0))

/-- A resource has finished training, or is absent; a Tunar port comes into service with the next route over it (R484, R493). -/
def execResourceTraining (r : Resource) (ok : Bool) (s : State) : Out :=
  match r with
  | .ucie side =>
    let up := ok && !(s.die side.die).lost && !(s.die side.peer).lost && side.die != side.peer
    .next ((s.updUcie side fun u => { u with up := up }).updUcie (UcieSide.far side) fun u => { u with up := up })
  | .hbm st => .next { s with hbmUp := (s.hbmUp.filter (· != st)) ++ (if ok && st < 8 && !(s.die (st / 2)).lost then [st] else []) }
  | .tunar port => .next (s.updTunar port fun t => { t with trained := ok && port < 32 && !(s.die (port / 8)).lost })

def execIdentityChallenge (challenge : Word) (s : State) : Out := .next (s.emit (.identity (Config.identityReport challenge)))

/-! ## HDM decoders (R479, R492) -/

def State.setHdm (s : State) (j : Nat) (w : Word) : State := { s with mgmt := { s.mgmt with hdm0 := Tab.put s.mgmt.hdm0 j w } }

/-- The fields of word 0 that software writes, with EN and ERR clear. -/
def hdmFields (w : Word) : Word := BitVec.ofNat 64 (hdmPart w * 2 ^ 56 + hdmBase w)

/-- Do the checks of an enable hold? -/
def State.hdmOk (s : State) (j : Nat) (w0 w1 : Word) : Bool :=
  let n := hdmCount w1
  let p := hdmPart w0
  let others := s.hdmLive.filter (· != j)
  (s.part p).exists_ && 1 ≤ n && hdmFirst w1 + n ≤ 384 &&
  ((List.range n).all fun i => (s.part p).ownsHbm ((hdmFirst w1 + i) / 48) ((hdmFirst w1 + i) % 48)) &&
  others.all fun k =>
    let o := s.hdm k
    !overlaps (hdmFirst w1) n (hdmFirst o.2) (hdmCount o.2) && !overlaps (hdmBase w0) (n * 2 ^ 30) (hdmBase o.1) (hdmCount o.2 * 2 ^ 30)

/-- Enable a decoder: what is checked and passes has its slices emptied first. -/
def State.enableHdm (s : State) (j : Nat) (w0 : Word) : State :=
  if 8 ≤ j || s.mgmt.recov || s.hdmLive.contains j then s
  else if s.hdmOk j w0 (s.hdm j).2 then
    let s := s.setHdm j (hdmFields w0)
    { s with mgmt := { s.mgmt with emptying := s.mgmt.emptying ++ [j] } }
  else s.setHdm j (hdmFields w0 ||| 1#64 <<< 62)

def State.disableHdm (s : State) (j : Nat) : State :=
  let w := (s.hdm j).1
  let s := s.setHdm j (w &&& ~~~(1#64 <<< 63))
  { s with mgmt := { s.mgmt with emptying := s.mgmt.emptying.filter (· != j) } }

def execHdmEnable (master j : Nat) (w0 : Word) (s : State) : Out := .next (s.owned master fun s => s.enableHdm j w0)
def execHdmDisable (master j : Nat) (s : State) : Out := .next (s.owned master fun s => if 8 ≤ j || s.mgmt.recov then s else s.disableHdm j)

/-- Does a resident page of the decoder's partition still lie in its slices? -/
def State.hdmBusy (s : State) (j : Nat) : Bool := (s.leaves (hdmPart (s.hdm j).1)).any fun (_, x) =>
  entryKind x.entry == 1 && s.inDecoder j (entryBody x.entry)

/-- Move the replicas that the device keeps in a decoder's slices. -/
def State.moveReplicas (s : State) (j : Nat) : State :=
  let due := s.versions.filter fun e => e.repl && e.rdev == (s.part e.part).devnum && s.inDecoder j e.rpa
  due.foldl (fun s e =>
    let pa := s.placeReplica e.part e.rdie
    let pois := (unitsOf e.rpa e.rangeLen).filterMap fun (i, a, _) => if s.memPois.contains (a / 64) then some i else none
    (s.putUnits pa (s.mem.read e.rpa e.rangeLen) pois).updVersion e.part e.nv fun e => { e with rpa := pa }) s

/-- The slices are empty: the decoder is enabled and they have left the pool. -/
def execHdmSlicesEmptied (j : Nat) (s : State) : Out :=
  if !s.mgmt.emptying.contains j || s.hdmBusy j then .next s
  else
    let s := (s.moveReplicas j).setHdm j ((s.hdm j).1 ||| 1#64 <<< 63)
    .next { s with mgmt := { s.mgmt with emptying := s.mgmt.emptying.filter (· != j) } }

/-- Where a host physical address leads, by the enabled decoders. -/
def State.hdmPa (s : State) (addr : Nat) : Option Nat := (List.range 8).findSome? fun j =>
  let (w0, w1) := s.hdm j
  if hdmEn w0 && hdmBase w0 ≤ addr && addr < hdmBase w0 + hdmCount w1 * 2 ^ 30 then
    let i := hdmFirst w1 + (addr - hdmBase w0) / 2 ^ 30
    some (i / 48 * 0xC00000000 + i % 48 * 2 ^ 30 + (addr - hdmBase w0) % 2 ^ 30)
  else none

/-- A host read of a 64-byte line, or a host write, performs at the HBM; it never crosses its line. -/
def execHostCxlMemAccess (addr : Nat) (data : Option (List Byte)) (s : State) : Out :=
  match if s.link = .cxl then s.hdmPa addr else none with
  | none => .next (s.emit .cxlError)
  | some pa =>
    if !s.present pa then .next (s.emit .cxlError)
    else match data with
      | some bs => .next ((s.stamp (.mem pa)).writeAt (.mem pa) (bs.take (64 - pa % 64)))
      | none =>
        let line := pa / 64 * 64
        .next ((s.stamp (.mem pa)).emit (.cxlData (s.mem.read line 64) (s.memPois.contains (pa / 64))))

/-! ## NVMe peer slots (R481, R492) -/

def State.setNvme (s : State) (j : Nat) (f : Word → Word) : State :=
  { s with mgmt := { s.mgmt with nvme := Tab.upd 0 s.mgmt.nvme j f } }
def nvmeBar (w : Word) : Word := BitVec.ofNat 64 (bitsAt w 14 34 * 2 ^ 14)

def execNvmeSlotEnable (master j : Nat) (w : Word) (s : State) : Out :=
  .next (s.owned master fun s =>
    if 8 ≤ j || s.mgmt.recov || (Tab.get 0 s.mgmt.nvme j).getLsbD 63 then s
    else s.setNvme j fun _ => nvmeBar w ||| (if nvmeBar w = 0 then 0#64 else 1#64 <<< 63))

/-- A request of the tier manager ends as a tier failure (R316). -/
def State.failNvme (s : State) (q : NvmeReq) : State :=
  { s with nvmeReqs := s.nvmeReqs.filter (· != q), promoting := s.promoting.filter fun r => !(r.part == q.part && r.page == q.page) }.countError 0 11

def execNvmeSlotDisable (master j : Nat) (s : State) : Out :=
  .next (s.owned master fun s =>
    if 8 ≤ j || s.mgmt.recov then s
    else ((s.nvmeReqs.filter fun q => q.slot == j).foldl State.failNvme s).setNvme j fun w => w &&& ~~~(3#64 <<< 62))

/-- The management core of die 0 has initialised a controller, or could not; without die 0 it cannot (R16). -/
def execNvmeInitialisationEnd (j : Nat) (ok : Bool) (s : State) : Out :=
  let w := Tab.get 0 s.mgmt.nvme j
  if 8 ≤ j || !w.getLsbD 63 || w.getLsbD 62 then .next s
  else .next (s.setNvme j fun w => if ok && !(s.die 0).lost then w ||| 1#64 <<< 62 else (w &&& ~~~(1#64 <<< 63)) ||| 1#64 <<< 61)

def execControllerFatalStatus (j : Nat) (s : State) : Out :=
  if (Tab.get 0 s.mgmt.nvme j).getLsbD 63 then .next (s.setNvme j fun w => w ||| 1#64 <<< 61) else .next s

/-- A completion: with an error status the request ends as a tier failure. -/
def execNvmeCompletion (req : Nat) (ok : Bool) (s : State) : Out :=
  match s.nvmeReqs.find? fun q => q.id == req with
  | none => .next s
  | some q => .next (if ok then { s with nvmeReqs := s.nvmeReqs.filter (· != q) } else s.failNvme q)

/-- No completion within 2^26 cc. -/
def execNvmeTimeout (req : Nat) (s : State) : Out :=
  match s.nvmeReqs.find? fun q => q.id == req with
  | none => .next s
  | some q => .next (s.failNvme q)

/-! ## The host port (R475, R480) -/

def execLinkTraining (l : HostLink) (s : State) : Out := .next (if (s.die 0).lost then s else { s with link := l })

/-- The CPYH commands end with reason TIER. -/
def State.endHostCopies (s : State) : State :=
  let ended := s.cores.flatMap fun (c, r) => (r.cmds.filter fun m => m.res.isNone && (match m.word with | .cpyh .. => true | _ => false)).map fun _ => c
  let s := ended.foldl (fun s c => s.countError (dieOf c) 11) s
  { s with cores := s.cores.map fun (c, r) => (c, { r with cmds := r.cmds.map fun m => match m.word with
      | .cpyh .. => if m.res.isNone then { m with res := some (1, reasonTier, 0), held := false, asks := [] } else m
      | _ => m }) }

def execHostLinkLoss (s : State) : Out := .next { (s.endHostCopies).releaseOwner 1 with link := .none }

/-- A function reset: its BARs read their reset values, and what PF0 owned is released. -/
def execHostFunctionReset (pf : Nat) (s : State) : Out :=
  if (s.die 0).lost then .next s
  else
  let s := s.endHostCopies
  if pf = 0 then .next (s.releaseOwner 1)
  else if 8 < pf then .next s
  else .next (s.updPart (pf - 1) fun x => { x with hwbase := 0, hwsize := 0, msix := [], msixOpen := [], msixPending := [] })

/-! ## Writes to registers (R3, R370, R371, R476, R478, R490, R492) -/

/-- Bytes of a descriptor: writable while the partition does not exist or is in reset (R490). -/
def State.writeDesc (s : State) (p o : Nat) (v : Word) : State :=
  let x := s.part p
  if x.exists_ && !x.inReset then s else s.updPart p fun x => { x with desc := x.desc.write o (bytesOf 8 v.toNat) }

/-- A write of word 0 of a decoder with EN = 0: its fields are those of a decoder that is not enabled. -/
def State.writeHdm0 (s : State) (j : Nat) (v : Word) : State :=
  if hdmEn v then s.enableHdm j v
  else if s.hdmLive.contains j then s.disableHdm j
  else s.setHdm j (hdmFields v ||| ((s.hdm j).1 &&& 1#64 <<< 62))

def State.writeNvme (s : State) (j : Nat) (v : Word) : State :=
  let w := Tab.get 0 s.mgmt.nvme j
  if v.getLsbD 63 then
    if w.getLsbD 63 then s else s.setNvme j fun _ => nvmeBar v ||| (if nvmeBar v = 0 then 0#64 else 1#64 <<< 63)
  else if w.getLsbD 63 then ((s.nvmeReqs.filter fun q => q.slot == j).foldl State.failNvme s).setNvme j fun w => w &&& ~~~(3#64 <<< 62)
  else s.setNvme j fun w => nvmeBar v ||| (w &&& 1#64 <<< 61)

/-- What a write of the owner does to a register of the management space. -/
def State.writeMgmt (s : State) (off : Nat) (v : Word) : State :=
  if s.mgmt.recov then s
  else if off = 0x18 then (if v.getLsbD 0 then s.raiseSvn else s)
  else if off = 0x20 then
    let n := bitsAt v 0 12
    if 1000 ≤ n && n ≤ 3200 then { s with mgmt := { s.mgmt with plim := n } } else s
  else if 0x400 ≤ off && off < 0x480 then
    let j := (off - 0x400) / 16
    if off % 16 = 0 then s.writeHdm0 j v
    else if s.hdmLive.contains j then s
    else { s with mgmt := { s.mgmt with hdm1 := Tab.put s.mgmt.hdm1 j (BitVec.ofNat 64 (hdmFirst v * 2 ^ 32 + hdmCount v)) } }
  else if 0x500 ≤ off && off < 0x540 then s.writeNvme ((off - 0x500) / 8) v
  else if 0x2000 ≤ off && off < 0x3000 then s.writeDesc ((off - 0x2000) / 0x200) (off % 0x200 / 8 * 8) v
  else s

/-- Offsets of the management space that R492 lists; a write to another is discarded and not counted. -/
def mgmtListed (off : Nat) : Bool :=
  off % 8 == 0 && (off ≤ 0x20 || (0x400 ≤ off && off < 0x480) || (0x500 ≤ off && off < 0x540) || (0x1000 ≤ off && off < 0x1040) ||
    (0x2000 ≤ off && off < 0x3000) || (0x4000 ≤ off && off < 0x4400 && off % 0x100 < 168))

/-- A write to a descriptor that is closed is discarded without counting (R490). -/
def State.descClosed (s : State) (off : Nat) : Bool :=
  0x2000 ≤ off && off < 0x3000 && (s.part ((off - 0x2000) / 0x200)).exists_ && !(s.part ((off - 0x2000) / 0x200)).inReset

/-- The outcome's state: every meaning here goes on. -/
def Out.orElse' (o : Out) (s : State) : State := match o with
  | .next t => t
  | _ => s

/-- An operation by its code in PCTL. -/
def State.pctlOp (s : State) (master p op : Nat) : State :=
  let go := fun (o : Out) => Out.orElse' o s
  match op with
  | 1 => go (execPctlCreate master p s)
  | 2 => go (execPctlDestroy master p s)
  | 3 => go (execPctlReset master p s)
  | 4 => go (execPctlQuiesce master p s)
  | _ => s.owned master id

/-- A master writes a register of the management space. One write of MCLM with several bits set takes them in the order CLAIM, RELEASE,
ACCEPT (DESIGN CHOICE, log 28). -/
def State.mgmtWrite (s : State) (master off : Nat) (v : Word) : State :=
  if !s.isMaster master then s
  else if off = 0 then Out.orElse' (execHtgtWrite master (v.extractLsb' 16 4) s) s
  else if off = 8 then
    let s := if v.getLsbD 0 then s.claim master else s
    let s := if v.getLsbD 1 && s.isMaster master then s.releaseOwner master else s
    if v.getLsbD 2 then s.accept' master else s
  else if !mgmtListed off || s.descClosed off then s
  else if 0x1000 ≤ off && off < 0x1040 then s.pctlOp master ((off - 0x1000) / 8) (bitsAt v 0 3)
  else s.owned master fun s => s.writeMgmt off v

/-- A write to a boot mailbox through its partition's function; GO starts the check of R371. -/
def State.mailboxWrite (s : State) (p core off : Nat) (v : Word) : State :=
  if !((s.part p).exists_ && (s.part p).ownsCore core) then s
  else s.updCore core fun r =>
    let m := r.mbox
    { r with mbox :=
      match off with
      | 0x00 => if m.busy then m else { m with handle := v.setWidth 20 }
      | 0x08 => if m.busy then m else { m with arg := v }
      | 0x10 => if v.getLsbD 0 && !m.busy then { m with busy := true, check := 0 } else m
      | 0x18 => { m with done := m.done && !v.getLsbD 1, fault := m.fault && !v.getLsbD 2, fcause := if v.getLsbD 2 then 0 else m.fcause }
      | _ => m }

/-- A write to a word of a function's MSI-X table; a vector that is unmasked sends what waits (R476; log 7). -/
def State.msixWrite (s : State) (pf off : Nat) (v : Word) : State :=
  if pf = 0 || 8 < pf || 259 * 16 ≤ off then s
  else
    let p := pf - 1
    let i := off / 16
    let s := s.updPart p fun x => { x with msix := x.msix.write (off / 8 * 8) (bytesOf 8 v.toNat) }
    if off / 8 % 2 = 0 then s
    else if v.getLsbD 32 then s.updPart p fun x => { x with msixOpen := x.msixOpen.filter (· != i) }
    else
      let waits := (s.part p).msixPending.contains i
      let s := s.updPart p fun x => { x with
        msixOpen := (x.msixOpen.filter (· != i)) ++ [i], msixPending := x.msixPending.filter (· != i) }
      if waits then s.interrupt pf i else s

/-- A write to a register with no row of its own acts per its field access codes. -/
def execRegisterWrite (master : Nat) (r : RegAddr) (v : Word) (s : State) : Out :=
  match r with
  | .mgmt off => .next (s.mgmtWrite master off v)
  | .mailbox p core off => .next (if (s.die 0).lost then s else s.mailboxWrite p core off v)
  | .hostWindow p which =>
    let w := v &&& ~~~0x1FFFFF#64
    .next (if (s.die 0).lost then s
      else s.updPart p fun x => if which = 0 then { x with hwbase := w } else if which = 1 then { x with hwsize := w } else x)
  | .msix pf off => .next (if (s.die 0).lost then s else s.msixWrite pf off v)

/-! ## Reads of registers (R3, R370, R442, R476, R478, R488, R490, R492): fields that are reserved or only written read 0. -/

def bitWord (n i : Nat) : Nat := n * 2 ^ i

/-- PCTL as it reads: OP reads 0. -/
def Part.pctl (x : Part) : Word := BitVec.ofNat 64 (bitWord (one x.exists_) 17 + bitWord (one x.busy) 16 + bitWord x.stat.toNat 8)

def Mgmt.bstat (m : Mgmt) : Word := BitVec.ofNat 64 (bitWord m.fsvn 24 + bitWord m.rsvn 16 + bitWord (one m.recov) 8 + m.step)

/-- What a read of the management space returns: MCLM and SVNR are only written, and an offset that is not listed reads 0. MOWN's read
clears DENY as well (MOWN_READ). -/
def State.mgmtRead (s : State) (off : Nat) : Word :=
  if !mgmtListed off then 0
  else if off = 0 then s.mown.word
  else if off = 0x10 then s.mgmt.bstat
  else if off = 0x20 then BitVec.ofNat 64 s.mgmt.plim
  else if 0x400 ≤ off && off < 0x480 then (if off % 16 = 0 then (s.hdm ((off - 0x400) / 16)).1 else (s.hdm ((off - 0x400) / 16)).2)
  else if 0x500 ≤ off && off < 0x540 then Tab.get 0 s.mgmt.nvme ((off - 0x500) / 8)
  else if 0x1000 ≤ off && off < 0x1040 then (s.part ((off - 0x1000) / 8)).pctl
  else if 0x2000 ≤ off && off < 0x3000 then (s.part ((off - 0x2000) / 0x200)).desc64 (off % 0x200)
  else if 0x4000 ≤ off then zext (Tab.get 0 (s.die ((off - 0x4000) / 0x100)).errors ((off - 0x4000) % 0x100 / 8))
  else 0

/-- The status word of a mailbox. -/
def Mailbox.status (m : Mailbox) : Word := BitVec.ofNat 64
  (bitWord m.launches.toNat 32 + bitWord m.fcause.toNat 16 + bitWord m.check.toNat 8 + bitWord (one m.fault) 2 + bitWord (one m.done) 1 + one m.busy)

/-- What a read of a boot mailbox returns: GO reads 0, and so does the mailbox of a core that the partition does not own. -/
def State.mailboxRead (s : State) (p core off : Nat) : Word :=
  let m := (s.core core).mbox
  if !((s.part p).exists_ && (s.part p).ownsCore core) then 0
  else if off = 0 then m.handle.setWidth 64
  else if off = 8 then m.arg
  else if off = 0x18 then m.status
  else 0

/-- What a read of a register returns (R3). -/
def State.registerRead (s : State) (r : RegAddr) : Word :=
  match r with
  | .mgmt off => s.mgmtRead off
  | .mailbox p core off => s.mailboxRead p core off
  | .hostWindow p which => if which = 0 then (s.part p).hwbase else if which = 1 then (s.part p).hwsize else 0
  | .msix pf off => if pf = 0 || 8 < pf || 259 * 16 ≤ off then 0 else BitVec.ofNat 64 ((s.part (pf - 1)).msix.value (off / 8 * 8) 8)

end Sys2Proof.Machine
end

