-- ==== Sys2Proof/Machine/Memories.lean ====
section
/-! DEFINITION. The events of the memories: first-touch fills, window ports, page moves and migrations, the bounce buffer, the pager's
answers, the refresh of the Slate, and tier errors (R113, R114, R133, R284, R286 to R288, R290, R309 to R319, R339, R355). -/

namespace Sys2Proof.Machine

/-! ## First-touch fills (R113, R114, R284) -/

/-- One 64-byte unit of a fill. -/
inductive Unit64 where
  | bytes (s : State) (bs : List Byte) (bad : Bool)
  /-- The pager is called with this address. -/
  | call (a : Word)
  | wait (s : State)

/-- Read one unit of a line's G image; what lies on another device is asked for once. -/
def State.fillUnit (s : State) (c k : Nat) (x : Ctx) (a : Word) : Unit64 :=
  match x.got.find? fun q => q.1 == a with
  | some (_, bs, bad) => if bs.length = 64 then .bytes s bs bad else .call a
  | none =>
    match s.readPiece c k x false a 64 with
    | .bytes s bs bad => .bytes s bs bad
    | .hold p => .call p
    | .bad _ => .call a
    | .wait s => .wait s
    | .ask dev =>
      if x.asks.any fun q => q.addr == a then .wait s
      else match s.askPieces c x [(dev, a, 64)] with
        | .refused => .call a
        | .wait s => .wait s
        | .sent s l => .wait (s.updCtx c k fun x => { x with asks := x.asks ++ l })

/-- The units of a line in order: the bytes with their marks, or what stops the fill. -/
def State.fillUnits (s : State) (c k : Nat) (x : Ctx) : List Word → List Byte → List Bool → Except Unit64 (State × List Byte × List Bool)
  | [], bs, bad => .ok (s, bs, bad)
  | a :: l, bs, bad => match s.fillUnit c k x a with
    | .bytes s cs b => s.fillUnits c k x l (bs ++ cs) (bad ++ [b])
    | o => .error o

/-- A line gets the bytes of its G image. -/
def Ctx.filled (x : Ctx) (line : Nat) (bs : List Byte) (bad : List Bool) : Ctx :=
  let marks := (bad.mapIdx fun i b => (i, b)).foldl (fun (m : BitVec 4) (i, b) => if b then m ||| (1#4 <<< i) else m) 0
  { x with l := x.l.write (256 * line) bs, lines := Tab.put x.lines line ⟨true, true, false, marks⟩ }

def State.endFill (s : State) (c k line : Nat) : State := { s with fills := s.fills.filter fun f => !f.names c k line }

/-- The oldest command that waits for a fill: commands of the class that are older go first (R284, R323). -/
def Fill.oldest (f : Fill) : Option Nat := f.who.foldl (fun m w => match w, m with
  | .cmd _ id, some o => some (min id o)
  | .cmd _ id, none => some id
  | _, m => m) none

/-- Does the pager have a call for a line's image? -/
def State.fillCalled (s : State) (c k g : Nat) : Bool := s.pager.any fun q => match q with
  | .fill c' k' a => c' == c && k' == k && g ≤ a.toNat && a.toNat < g + 256
  | _ => false

/-- The fill of a line that an access waits for completes, or calls the pager. -/
def execScratchpadRegionFill (core slot line : Nat) (s : State) : Out :=
  match s.fills.find? fun f => f.names core slot line, s.ctx? core slot with
  | none, _ => .next s
  | some _, none => .next (s.endFill core slot line)
  | some f, some x => match x.regionOf line with
      | none => .next (s.endFill core slot line)
      | some g =>
        if (x.line line).rgf then .next (s.endFill core slot line)
        else if s.fillCalled core slot g || s.classUnfinished x ((x.regionClass line).getD 0) f.oldest then .next s
        else
          let units := (List.range 4).map fun i => BitVec.ofNat 64 (g + 64 * i)
          match s.fillUnits core slot x units [] [] with
          | .error (.call a) => .next { s with pager := s.pager ++ [.fill core slot a] }
          | .error (.wait s) => .next s
          | .error (.bytes s _ _) => .next s
          | .ok (s, bs, bad) =>
            .next ((s.updCtx core slot fun x => { x.filled line bs bad with got := x.got.filter fun q => !units.contains q.1 }).endFill core slot line)

/-! ## Ports (R68, R286, R299) -/

/-- A request arrives at the port of a slice and is performed; one that fails the check of R68, or meets a mark, changes nothing. -/
def execWindowPortRequest (core : Nat) (r : PortReq) (s : State) : Out :=
  let slice := r.off / 0x40000
  let off := r.off % 0x40000
  match r.op with
  | none => .next (if off % 8 = 0 && slice < 16 then s.storeWin core slice off (bytesOf 8 r.x.toNat) false else s)
  | some op =>
    if off % aopAlign op ≠ 0 || 16 ≤ slice then .next s
    else
      let key := r.det.map fun (reg, ph) => (reg, ph.toNat % 256)
      match s.detCheck key core slice off (!r.returning && aopCommutes op) with
      | none => .next s
      | some s => .next (if (s.marksAt (.win core slice off) (aopWidth op)).isEmpty then (s.port core slice off op r.x r.cmp).1 else s)

/-! ## Moving pages (R133, R314, R315, R319, R339) -/

/-- The leaf that maps an address of a partition, with the place of its entry. -/
def State.leafOf (s : State) (p addr : Nat) : Option (Nat × Cached) := (s.leaves p).find? fun (_, x) => x.covers addr

/-- Rewrite a leaf and invalidate the old translation. -/
def State.setLeaf (s : State) (p : Nat) (at' : Nat) (x : Cached) (e : Word) : State :=
  ({ s with mem := s.mem.write at' (bytesOf 8 e.toNat) } : State).dropEntries p x.base (2 ^ x.size)

/-- Keys lo to lo + n − 1 of a table, moved to begin at to. -/
def moveKeys {α : Type} (t : Tab α) (lo n to' : Nat) : Tab α := t.filterMap fun (i, v) => if lo ≤ i ∧ i < lo + n then some (i - lo + to', v) else none

/-- Replace keys to to to + n − 1 of a table by others. -/
def replaceKeys {α : Type} (t new : Tab α) (to' n : Nat) : Tab α :=
  new.foldl (fun t (i, v) => Tab.put t i v) (t.filter fun (i, _) => !(to' ≤ i && i < to' + n))

/-- Copy a 64 KiB quarter of a slice with its R68 bits, metadata and marks. -/
def Slice.copyQuarter (dst src : Slice) (qs qd : Nat) : Slice where
  bytes := replaceKeys dst.bytes (moveKeys src.bytes (65536 * qs) 65536 (65536 * qd)) (65536 * qd) 65536
  bits := replaceKeys dst.bits (moveKeys src.bits (8192 * qs) 8192 (8192 * qd)) (8192 * qd) 8192
  red := replaceKeys dst.red (moveKeys src.red (1024 * qs) 1024 (1024 * qd)) (1024 * qd) 1024
  pois := (dst.pois.filter fun u => u / 1024 != qd) ++ (src.pois.filter fun u => u / 1024 == qs).map fun u => u % 1024 + 1024 * qd

/-- Watches and lock queues of a quarter go with it, in their order. -/
def State.moveWaits (s : State) (c sl q c' sl' q' : Nat) : State :=
  let here := fun (slice off : Nat) => slice == sl && off / 65536 == q
  let ws := (s.core c).watches.filter fun w => here w.slice w.off
  let ls := (s.core c).lockq.filter fun w => here w.slice w.off
  let s := s.updCore c fun r => { r with
    watches := r.watches.filter fun w => !here w.slice w.off, lockq := r.lockq.filter fun w => !here w.slice w.off }
  s.updCore c' fun r => { r with
    watches := r.watches ++ ws.map fun w => { w with slice := sl', off := w.off % 65536 + 65536 * q' }
    lockq := r.lockq ++ ls.map fun w => { w with slice := sl', off := w.off % 65536 + 65536 * q' } }

/-- Is a quarter of a slice a window that no other page maps? -/
def State.quarterFree (s : State) (c sl q : Nat) : Bool :=
  (match s.sliceHolder c sl with
   | some (k, i) => (match s.ctx? c k with | some x => x.win.getLsbD i | none => true)
   | none => true) &&
  !partNums.any fun p => (s.part p).exists_ && (s.leaves p).any fun (_, x) =>
    let b := entryBody x.entry
    entryKind x.entry == 3 && b / 128 % 2 == 0 && b / 256 == c && b / 8 % 16 == sl && b / 2 % 4 == q

/-- The pager migrates an accumulator-window page to a slice of another core: page is the G address divided by 64 KiB. -/
def execWindowPageMigration (part page toCore toSlice toQtr : Nat) (s : State) : Out :=
  match s.leafOf part (65536 * page) with
  | none => .next s
  | some (at', x) =>
    let b := entryBody x.entry
    if entryKind x.entry ≠ 3 || b / 128 % 2 ≠ 0 then .next s
    else if !(s.part part).ownsCore toCore || (s.die (dieOf toCore)).lost || 16 ≤ toSlice || 4 ≤ toQtr || !s.quarterFree toCore toSlice toQtr then .next s
    else
      let c := b / 256
      let sl := b / 8 % 16
      let q := b / 2 % 4
      let s := s.setSlice toCore toSlice ((s.slice toCore toSlice).copyQuarter (s.slice c sl) q toQtr)
      let s := s.moveWaits c sl q toCore toSlice toQtr
      .next (s.setLeaf part at' x (putBits x.entry 0 48 (toCore * 256 + toSlice * 8 + toQtr * 2)))

/-- May a leaf of n bytes be moved to a physical address by the tier manager: a tier other than Slate, of the partition, in no decoder, that
no leaf maps? -/
def State.targetFree (s : State) (p pa n : Nat) : Bool :=
  pa % n == 0 && !isSlate pa &&
  (if isHost pa then (s.part p).hostMine pa && (s.part p).hostMine (pa + n - 1) && s.hostUp
   else onDevice pa && onDevice (pa + n - 1) && s.present pa && s.present (pa + n - 1) &&
     ((List.range (n / 2 ^ 26 + 1)).all fun i => (s.part p).ownsPa (min (pa + n - 1) (pa + 2 ^ 26 * i)))) &&
  !(s.hdmLive.any fun j => s.inDecoder j pa || s.inDecoder j (pa + n - 1)) &&
  !partNums.any fun q => (s.part q).exists_ && (s.leaves q).any fun (_, x) =>
    entryKind x.entry == 1 && overlaps pa n (entryBody x.entry) (2 ^ x.size)

/-- Copy the bytes, marks and access stamps of a physical range of whole pages. -/
def State.copyRange (s : State) (src n dst : Nat) : State :=
  { s with
    mem := replaceKeys s.mem (moveKeys s.mem src n dst) dst n
    stamps := replaceKeys s.stamps (moveKeys s.stamps (src / 65536) (n / 65536) (dst / 65536)) (dst / 65536) (n / 65536)
    memPois := (s.memPois.filter fun u => !(dst / 64 ≤ u && u < (dst + n) / 64)) ++
      (s.memPois.filter fun u => src / 64 ≤ u && u < (src + n) / 64).map fun u => u - src / 64 + dst / 64 }

/-- The promotion in flight of a leaf's page (R339). -/
def State.promotion (s : State) (p : Nat) (x : Cached) : Option Promotion :=
  s.promoting.find? fun q => q.part == p && x.base ≤ 65536 * q.page && 65536 * q.page < x.base + 2 ^ x.size

/-- The latest access stamp of the page at a physical address of n bytes (R314). -/
def State.lastAccess (s : State) (pa n : Nat) : Nat :=
  s.stamps.foldl (fun m (i, v) => if pageOf pa ≤ i ∧ 65536 * i < pa + n then max m v else m) 0

/-- May a page be chosen as a victim of the tier of its die that a class names (R314)? -/
def State.victimFit (s : State) (p die cls : Nat) (x : Cached) : Bool :=
  let pa := entryBody x.entry
  entryKind x.entry == 1 && !isHost pa && !isSlate pa && dieOfPa pa == die && tierClass pa die == cls &&
  (s.promotion p x).isNone && !(s.hdmLive.any fun j => s.inDecoder j pa) && cls + 1 ≤ entryLat x.entry

/-- Is a page the victim: the one with the oldest stamp, and of those the one lowest in G? -/
def State.isVictim (s : State) (p die cls : Nat) (x : Cached) : Bool :=
  let age := fun (y : Cached) => s.lastAccess (entryBody y.entry) (2 ^ y.size)
  s.victimFit p die cls x &&
  (s.leaves p).all fun (_, y) => !s.victimFit p die cls y || age x < age y || (age x == age y && x.base ≤ y.base)

/-- Bytes of a tier, seen from a die, that a partition owns and maps no leaf to. The host's is what its function exposes. -/
def State.tierRoom (s : State) (p die cls : Nat) : Nat :=
  let x := s.part p
  let slices := (List.range 8192).filter fun i => onDevice (2 ^ 26 * i) && x.ownsPa (2 ^ 26 * i) && s.present (2 ^ 26 * i) &&
    !isSlate (2 ^ 26 * i) && tierClass (2 ^ 26 * i) die == cls
  let used := ((s.leaves p).filter fun (_, y) => entryKind y.entry == 1 && !isSlate (entryBody y.entry) && tierClass (entryBody y.entry) die == cls).map
    fun (_, y) => 2 ^ y.size
  (if cls = 7 then (if s.hostUp then x.hwsize.toNat else 0) else 2 ^ 26 * slices.length) - used.foldl (· + ·) 0

/-- The next lower tier, of its die, that has room for n bytes (R314). -/
def State.nextTier (s : State) (p die cls n : Nat) : Option Nat := [2, 3, 7].find? fun t => cls < t && n ≤ s.tierRoom p die t

/-- May the tier manager move a page to an address and give its leaf a class (R112, R314, R339)? A page with a promotion in flight goes to the
tier that the promotion's class names, and its leaf gets that class; any other keeps its class, goes to a tier that meets it, and goes down only
out of a decoder's slices or as the victim, which goes to the next lower tier that has room. -/
def State.tierMoveOk (s : State) (p : Nat) (x : Cached) (to' lat : Nat) : Bool :=
  let pa := entryBody x.entry
  let die := if isHost pa then dieOfPa to' else dieOfPa pa
  let there := tierClass to' die
  match s.promotion p x with
  | some q => lat == q.cls && !isHost to' && (if q.cls = 1 then tierClass to' (dieOfPa to') == 1
      else tierClass to' (dieOfPa to') == 2 && (q.cls == 3 || dieOfPa to' == q.die))
  | none =>
    lat == entryLat x.entry && there ≤ lat &&
    (there ≤ tierClass pa die || (s.hdmLive.any fun j => s.inDecoder j pa) ||
     (s.isVictim p die (tierClass pa die) x && s.nextTier p die (tierClass pa die) (2 ^ x.size) == some there))

/-- The tier manager moves a page: it copies it, rewrites its leaf and ends what promotion was in flight. -/
def execPageMove (part page toPhys : Nat) (lat : BitVec 3) (s : State) : Out :=
  match s.leafOf part (65536 * page) with
  | none => .next s
  | some (at', x) =>
    let pa := entryBody x.entry
    let n := 2 ^ x.size
    let fixed := (List.range 8).any fun j => hdmEn (s.hdm j).1 && s.inDecoder j pa
    if entryKind x.entry ≠ 1 || isSlate pa || fixed || (4 ≤ lat.toNat && lat.toNat ≤ 6) || !s.targetFree part toPhys n || !s.tierMoveOk part x toPhys lat.toNat then .next s
    else
      let s := s.copyRange pa n toPhys
      let s := s.setLeaf part at' x (putBits (putBits x.entry 0 48 toPhys) 57 3 lat.toNat)
      .next { s with promoting := s.promoting.filter fun q => !(q.part == part && x.base ≤ 65536 * q.page && 65536 * q.page < x.base + n) }

/-! ## The bounce buffer (R317) -/

/-- The pager moves a slot into its page, once the page is resident, and frees the slot; a Slate page takes it while its window is open
(R311, R314). -/
def execBounceSlotMove (die idx : Nat) (s : State) : Out :=
  match (s.die die).bounce[idx]? with
  | none => .next s
  | some b => match s.translate b.part (65536 * b.page) with
    | none => .next s
    | some e =>
      let to' := entryBody e.entry + 65536 * b.page % 2 ^ e.size
      if entryKind e.entry ≠ 1 || (isSlate to' && !s.slateOpen b.part) then .next s else .next (s.emptySlot die b to')

/-! ## The pager's answers (R114, R290, R318, R355) -/

/-- Who has stalled at a fill that cannot be had: its word completes with zero, and its task aborts then (R114). -/
def State.doom (s : State) (f : Fill) (w : Cause) : Stalled → State
  | .sq => s.updCtx f.core f.slot fun x => { x with doomed := x.doomed ++ [(none, w)] }
  | .eng e => s.updCtx f.core f.slot fun x => { x with doomed := x.doomed ++ [(some e, w)] }
  | .job => match (s.core f.core).jobs.find? fun j => j.slot == f.slot with
    | some j => s.jobFail f.core j w
    | none => s.abort f.core f.slot w
  | .cmd c id => match s.cmd? c id with
    | some m => s.inCtx m.part m.tid m.role fun lc lk _ s => s.abort lc lk w
    | none => s
  | .stream => s.abort f.core f.slot w

/-- A fill that cannot be had, at an address of its line's image: the line reads zero. A write-back that has no stalled access aborts at once
(R114, R285). -/
def State.fillFailed (s : State) (c k : Nat) (a : Word) : State :=
  let here := fun (f : Fill) => f.core == c && f.slot == k && (match (s.ctx? c k).bind fun x => x.regionOf f.line with
    | some g => g ≤ a.toNat && a.toNat < g + 256
    | none => false)
  match s.fills.filter here with
  | [] => s.abort c k ⟨OBJFAULT, a⟩
  | l => l.foldl (fun s f =>
      let s := (s.updCtx c k fun x => x.filled f.line (List.replicate 256 0) []).endFill c k f.line
      f.who.foldl (fun s w => s.doom f ⟨OBJFAULT, a⟩ w) s) s

/-- Does a command write regions back (R285, R340)? -/
def TuCmd.writesBack (m : TuCmd) : Bool := match m.word with
  | .evct .. | .evctUnmap .. => true
  | _ => false

/-- The pager reports a call resolved, or not resolvable. -/
def execPagerResolve (call : Nat) (ok : Bool) (s : State) : Out :=
  match s.pager[call]? with
  | none => .next s
  | some q =>
    let s := { s with pager := s.pager.eraseIdx call }
    match q with
    | .command c id a => match s.cmd? c id with
      | none => .next s
      | some m =>
        if s.overdue c m then .next (s.lateCmd c m)
        else if ok then
          let s := s.updCmd c id fun m => { m with held := false }
          .next (s.onMember m.part m.tid m.role fun x => x.setTag (TuCmd.tag m) false 0)
        else
          let s := s.faultCmd c id reasonXlate
          .next (if m.writesBack then s.inCtx m.part m.tid m.role fun lc lk _ s => s.abort lc lk ⟨OBJFAULT, a⟩ else s)
    | .fill c k a => .next (if ok then s else s.fillFailed c k a)
    | .image c k a => .next (if ok then s else s.abort c k ⟨OBJFAULT, a⟩)
    | .stream p tid role ring _ =>
      let s := s.onMember p tid role fun y => y.setRing ring (let r := Tab.get Ring.empty y.rings ring
        { r with held := false, fault := r.fault || !ok })
      .next (if ok then s else s.unlock (.stream p tid role ring))
    | .chain .. => .next s

/-! ## Time on a die (R22, R169, R312) -/

/-- Some cc pass on a die: its refresh position, its queue clock and its cores' cycle counters. -/
def State.pass (s : State) (die n : Nat) : State :=
  if (s.die die).lost then s
  else
    let s := s.updDie die fun d => { d with pos := d.pos + BitVec.ofNat 14 n, qclk := d.qclk + BitVec.ofNat 64 n }
    { s with cores := s.cores.map fun (c, r) => if c < 256 ∧ dieOf c = die then (c, { r with cyc := r.cyc + BitVec.ofNat 64 n }) else (c, r) }

/-- The refresh position passes the window of the bank it is in, and the reads that wait there proceed (R312). -/
def execSlateRefresh (die : Nat) (s : State) : Out :=
  let pos := (s.die die).pos.toNat
  .next (if pos % 256 < 128 then s.pass die (128 - pos % 256) else s)

/-! ## Tier errors (R316) -/

def execTierError (r : TierReq) (s : State) : Out :=
  match r with
  | .command c id => match s.cmd? c id with
    | none => .next s
    | some m =>
      if m.res.isSome then .next s
      else
        let s := (s.updCmd c id fun m => { m with res := some (1, reasonTier, m.stepShown), held := false, asks := [] }).countError (dieOf c) 11
        .next { s with pager := s.pager.filter fun q => match q with
          | .command c' i _ => !(c' == c && i == id)
          | _ => true }
  | .stream p tid role ring => match s.memberCtx p tid role with
    | none => .next s
    | some (c, x) => .next ((s.faultStream x ring).countError (dieOf c) 11)
  | .move p page => match s.leafOf p (65536 * page) with
    | none => .next s
    | some (_, e) =>
      if entryKind e.entry ≠ 1 then .next s
      else
        let left := s.promoting.filter fun r => !(r.part == p && e.base ≤ 65536 * r.page && 65536 * r.page < e.base + 2 ^ e.size)
        .next ({ s with promoting := left }.countError (if isHost (entryBody e.entry) then 0 else dieOfPa (entryBody e.entry)) 11)

end Sys2Proof.Machine
end

