-- ==== Sys2Proof/Machine/EventRun.lean ====
section
/-! DEFINITION. Running an event: the meaning of each. -/

namespace Sys2Proof.Machine

/-- What an event does. -/
def runEvent (e : Event) (s : State) : Out :=
  match e with
  | .dieQueuePop core => execDieQueuePop core s
  | .taskDispatch core => execTaskDispatch core s
  | .gangStart part tid => execGangStart part tid s
  | .overlayLoadComplete core slot => execOverlayLoadComplete core slot s
  | .taskCommit core slot => execTaskCommit core slot s
  | .taskAbort core slot => execTaskAbort core slot s
  | .dmuRelease part nv => execDmuRelease part nv s
  | .replicationComplete part nv => execReplicationComplete part nv s
  | .recoveryWalk part nv => execRecoveryWalk part nv s
  | .versionRestoreComplete part nv => execVersionRestoreComplete part nv s
  | .remoteReply core slot value refused => execRemoteReply core slot value refused s
  | .stageBalancer die => execStageBalancer die s
  | .agingTick part tid => execAgingTick part tid s
  | .preemption core => execPreemption core s
  | .shadowStoreDrain core => execShadowStoreDrain core s
  | .contextRestore core => execContextRestore core s
  | .phaseBegin part region => execPhaseBegin part region s
  | .bootGo part core => execBootGo part core s
  | .scratchpadRegionFill core slot line => execScratchpadRegionFill core slot line s
  | .windowPortRequest core r => execWindowPortRequest core r s
  | .movedReply core slot => execMovedReply core slot s
  | .windowPageMigration part page toCore toSlice toQtr => execWindowPageMigration part page toCore toSlice toQtr s
  | .pageMove part page toPhys lat => execPageMove part page toPhys lat s
  | .bounceSlotMove die idx => execBounceSlotMove die idx s
  | .pagerResolve call ok => execPagerResolve call ok s
  | .slateRefresh die => execSlateRefresh die s
  | .tierError r => execTierError r s
  | .tuAccept core => execTuAccept core s
  | .tuCommandFinish core cmd => execTuCommandFinish core cmd s
  | .copyDeadline core cmd => execCopyDeadline core cmd s
  | .chainStep core cmd => execChainStep core cmd s
  | .chainReply core cmd => execChainReply core cmd s
  | .streamInTile part member ring => execStreamInTile part member ring s
  | .streamOutTile part member ring => execStreamOutTile part member ring s
  | .engineEntryStart core e => execEngineEntryStart core e s
  | .engineWordComplete core e => execEngineWordComplete core e s
  | .veRemoteResume core data => execVeRemoteResume core data s
  | .meStepComplete core job => execMeStepComplete core job s
  | .msgoBatchEnd core => execMsgoBatchEnd core s
  | .engineErrorReport core e => execEngineErrorReport core e s
  | .engineFault core e => execEngineFault core e s
  | .eccCorrectable w => execEccCorrectable w s
  | .eccUncorrectable w => execEccUncorrectable w s
  | .powerOnReset => execPowerOnReset s
  | .coreReset core => execCoreReset core s
  | .dieLoss die => execDieLoss die s
  | .handoverTimeout core slot => execHandoverTimeout core slot s
  | .peerLoss part dev => execPeerLoss part dev s
  | .heartbeatSend die => execHeartbeatSend die s
  | .ucieFlitReceive side seq crcOk p => execUcieFlitReceive side seq crcOk p s
  | .ucieRetrainComplete side => execUcieRetrainComplete side s
  | .ucieFlitAck side seq => execUcieFlitAck side seq s
  | .tunarFlitReceive port flit => execTunarFlitReceive port flit s
  | .tunarReplayRequest port seq => execTunarReplayRequest port seq s
  | .tunarResetNotice port => execTunarResetNotice port s
  | .tunarCreditReturn port cls vc n => execTunarCreditReturn port cls vc n s
  | .tunarPortDown port => execTunarPortDown port s
  | .packetForward p => execPacketForward p s
  | .remoteRequest p => execRemoteRequest p s
  | .monitorSample die values => execMonitorSample die values s
  | .powerLimitWindow meanWatts => execPowerLimitWindow meanWatts s
  | .moduleOvertemp => execModuleOvertemp s
  | .linkTraining l => execLinkTraining l s
  | .hostLinkLoss => execHostLinkLoss s
  | .hostFunctionReset pf => execHostFunctionReset pf s
  | .hostCxlMemAccess addr data => execHostCxlMemAccess addr data s
  | .mownRead master => execMownRead master s
  | .htgtWrite master v => execHtgtWrite master v s
  | .mclmClaim master => execMclmClaim master s
  | .mclmRelease master => execMclmRelease master s
  | .mclmAccept master => execMclmAccept master s
  | .pctlCreate master part => execPctlCreate master part s
  | .pctlDestroy master part => execPctlDestroy master part s
  | .pctlReset master part => execPctlReset master part s
  | .pctlQuiesce master part => execPctlQuiesce master part s
  | .pctlOperationEnd part => execPctlOperationEnd part s
  | .svnrRaise master => execSvnrRaise master s
  | .fuseRaiseComplete => execFuseRaiseComplete s
  | .hdmEnable master j w0 => execHdmEnable master j w0 s
  | .hdmDisable master j => execHdmDisable master j s
  | .hdmSlicesEmptied j => execHdmSlicesEmptied j s
  | .nvmeSlotEnable master j w => execNvmeSlotEnable master j w s
  | .nvmeSlotDisable master j => execNvmeSlotDisable master j s
  | .nvmeCompletion req ok => execNvmeCompletion req ok s
  | .nvmeTimeout req => execNvmeTimeout req s
  | .bootRomStart image => execBootRomStart image s
  | .resourceTraining r ok => execResourceTraining r ok s
  | .identityChallenge challenge => execIdentityChallenge challenge s
  | .registerWrite master r v => execRegisterWrite master r v s
  | .accessCompletion core slot k id => execAccessCompletion core slot k id s
  | .managementInterfaceReset => execManagementInterfaceReset s
  | .nvmeInitialisationEnd j ok => execNvmeInitialisationEnd j ok s
  | .controllerFatalStatus j => execControllerFatalStatus j s

end Sys2Proof.Machine
end

