-- ==== Sys2Proof/Machine/Clock.lean ====
section
/-! DEFINITION. What every step adds: replies leave, time passes, thresholds are evaluated, and one of the turns that the device offers
is taken next (R18, R26, R50, R57, R169, R442, R443, R445). -/

namespace Sys2Proof.Machine

/-! ## The turns that the device offers -/

def optTurn (b : Bool) (t : Turn) : List Turn := if b then [t] else []

def optEvent (b : Bool) (e : Event) : List Turn := optTurn b (.event e)

/-- An engine's turns: the word at the entry's place, its completion, an entry's start, an error report (R50, R347, R456). -/
def engineTurns (c : Nat) (r : Core) (e : Eng) : List Turn :=
  let word := match e with | .ve => Turn.ve c | .me => .me c | .tu => .tu c
  (match r.current e with
   | some n =>
     if n.busy then [.event (.engineWordComplete c e)]
     else if n.len ≤ n.pos then []
     else word :: optEvent (e == .tu) (.tuAccept c)
   | none => []) ++
  optEvent (r.startable e).isSome (.engineEntryStart c e) ++
  optEvent ((r.chain e).any fun n => n.failed.isSome) (.engineErrorReport c e)

/-- The turns of a step word of the ME that is in flight (R251, R271). -/
def jobTurns (c : Nat) (j : MeJob) : List Turn := match j.word with
  | .mgo .. => [.event (.meStepComplete c j.id)]
  | .mgob .. => [.event (.meStepComplete c j.id)]
  | _ => [.event (.msgoBatchEnd c)]

/-- The turns of an accepted command (R320, R336, R337). -/
def cmdTurns (c : Nat) (m : TuCmd) : List Turn :=
  (match m.res, m.list with
   | none, [] => optTurn (!m.held && m.asks.isEmpty) (.cmd c m.id)
   | none, _ => optEvent (!m.held && m.asks.isEmpty) (.chainStep c m.id)
   | some _, [] => optEvent m.acks.isEmpty (.tuCommandFinish c m.id)
   | some _, _ => optEvent (!m.held) (.chainReply c m.id)) ++
  optEvent (m.dl != 0) (.copyDeadline c m.id)

/-- The turns of a context's streams (R355). -/
def streamTurns (x : Ctx) : List Turn := x.rings.flatMap fun (i, q) =>
  optEvent (q.takes x && q.kind == 1) (.streamInTile x.part ⟨x.tid, x.role⟩ i) ++ optEvent (q.takes x && q.kind == 2) (.streamOutTile x.part ⟨x.tid, x.role⟩ i)

/-- The turns of a resident context: its load, its end, its streams, the limit of its handover. -/
def State.ctxTurns (s : State) (c k : Nat) (x : Ctx) : List Turn :=
  (match x.life with
   | .loading => [.event (.overlayLoadComplete c k)]
   | .running => optEvent (s.wantedImage c x).isSome (.overlayLoadComplete c k)
   | .halted => [.event (.taskCommit c k)]
   | .aborting _ => [.event (.taskAbort c k)]
   | _ => []) ++
  optEvent (x.chkpt && (s.part x.part).quiesce.isSome) (.handoverTimeout c k) ++ streamTurns x

/-- The turns of a core. -/
def State.coreTurns (s : State) (c : Nat) (r : Core) : List Turn :=
  (match r.active with | some k => [.sq c k] | none => []) ++
  [Eng.ve, .me, .tu].flatMap (engineTurns c r) ++ r.jobs.flatMap (jobTurns c) ++ r.cmds.flatMap (cmdTurns c) ++
  r.ctxs.flatMap (fun (k, x) => s.ctxTurns c k x) ++
  optEvent (!r.shadow.isEmpty) (.shadowStoreDrain c) ++ optEvent (r.isolated && !r.heldReset) (.coreReset c) ++
  optEvent r.active.isSome (.preemption c) ++
  (if r.mbox.busy then [.event (.bootGo ((s.coreOwner c).getD 0) c)] else [])

/-- The turns of idle and reserved cores (R45, R57, R466). -/
def State.idleTurns (s : State) (c : Nat) : List Turn :=
  (match s.reservedFor c with
   | some t => optEvent (recGang t.record == 0) (.taskDispatch c) ++ optEvent (recGang t.record == 0) (.contextRestore c)
   | none => if s.idle c then
       optEvent (s.nextFor c).isSome (.dieQueuePop c) ++ optEvent ((s.wokenMember c).isSome || (s.wokenImage c).isSome) (.contextRestore c)
     else [])

/-- The turns of a task: its gang, its aging, and what its saved contexts stream (R47, R60, R355). -/
def taskTurns (t : Task) : List Turn :=
  (match t.st with
   | .ready => .event (.agingTick t.part t.tid) :: optEvent (recGang t.record != 0) (.gangStart t.part t.tid)
   | .reserved _ => if recGang t.record = 0 then [] else [.event (.agingTick t.part t.tid), .event (.gangStart t.part t.tid)]
   | _ => []) ++
  t.images.flatMap (fun i => streamTurns i.ctx) ++ t.waits.map (fun nv => .event (.dmuRelease t.part nv)) ++
  t.replWaits.map fun nv => .event (.replicationComplete t.part nv)

/-- The turns of a version's recovery (R417). -/
def versionTurns (e : DirEntry) : List Turn :=
  optEvent (e.st == .lost && !e.unrc) (.recoveryWalk e.part e.nv) ++ optEvent (e.st == .restore) (.versionRestoreComplete e.part e.nv) ++
  optEvent (e.st == .current && e.far.any FarUse.waits) (.dmuRelease e.part e.nv) ++
  optEvent (e.far.any fun u => u.repl.isSome) (.replicationComplete e.part e.nv)

/-- The turns of a partition: the end of an operation on it, and the phases of its regions (R66, R490). -/
def State.partTurns (s : State) (p : Nat) : List Turn :=
  optEvent (s.part p).busy (.pctlOperationEnd p) ++
  (s.part p).regions.flatMap fun (r, x) => optEvent (x.st == .running && x.begun != x.openPhase) (.phaseBegin p r)

/-- The turns of a die (R40, R312, R483). -/
def State.dieTurns (s : State) (d : Nat) : List Turn :=
  optEvent ((s.die d).qclk.toNat / 4096 != (s.die d).balanced) (.stageBalancer d) ++
  optEvent ((s.die d).qclk.toNat / 2 ^ 16 != (s.die d).heartbeat) (.heartbeatSend d) ++
  optEvent ((s.die d).pos.toNat % 256 < 128) (.slateRefresh d)

/-- Every turn that the device offers. What comes from outside arrives in the inbox, whose oldest event happens at an idle turn (log 2). -/
def State.turns (s : State) : List Turn :=
  optTurn (!s.inbox.isEmpty) .idle ++ s.cores.flatMap (fun (c, r) => s.coreTurns c r) ++ coreNums.flatMap s.idleTurns ++ s.tasks.flatMap taskTurns ++
  s.versions.flatMap versionTurns ++ partNums.flatMap s.partTurns ++ dieNums.flatMap s.dieTurns ++
  s.fills.map (fun f => .event (.scratchpadRegionFill f.core f.slot f.line)) ++
  optEvent s.mgmt.raising .fuseRaiseComplete ++ s.mgmt.emptying.map fun j => .event (.hdmSlicesEmptied j)

/-- The turn taken next: one of those offered, whichever (log 1). -/
def State.nextTurn (s : State) : Turn :=
  (s.turns[Config.pick s.tick % max 1 s.turns.length]?).getD .idle

/-! ## Counting words and cc (R442) -/

/-- Does a word transfer control? Such a word never waits. -/
def Instr.jumps : Instr → Bool
  | .br .. => true
  | .call .. => true
  | .jmp .. => true
  | .ret .. => true
  | .loop .. => true
  | .eret .. => true
  | _ => false

/-- Is a context parked at a JOIN, which issues when it goes on (R175)? -/
def Ctx.joining (x : Ctx) : Bool := match x.life with
  | .parked (.join _) _ => true
  | _ => false

/-- Has the SQ issued its word, and not waited at it? -/
def State.sqIssued (s new : State) (c k : Nat) (i : Instr) : Bool :=
  Instr.jumps i || (match s.ctx? c k, new.ctx? c k with
    | some x, some y => x.pc != y.pc || (y.life != .running && !y.joining) || x.inh != y.inh
    | _, _ => true)

/-- Has an engine issued the word at its entry's place? -/
def State.wordIssued (new : State) (e : Eng) (n : Entry) : Bool := match new.wordTurn e with
  | some (_, m, _) => !(m.slot == n.slot && m.firstSeq == n.firstSeq && m.pos == n.pos)
  | none => true

/-- Add to a performance counter, which wraps. -/
def State.addPerf (s : State) (c i n : Nat) : State :=
  s.updCore c fun r => { r with perf := Tab.put r.perf i (Tab.get 0 r.perf i + BitVec.ofNat 64 n) }

/-- Is an issue slot withheld at this tick (R26, R496)? -/
def State.slotWithheld (s : State) (c : Nat) : Bool :=
  ((s.die (dieOf c)).withheld || (s.die (dieOf c)).capped) && Config.withhold s.tick

/-! ## The end of every step -/

/-- The cc that a step takes (R173; log 9). -/
def State.stepCycles (s : State) : Nat := 1 + Config.extraCycles s.tick

/-- Time passes on every die. -/
def State.passAll (s : State) (n : Nat) : State := dieNums.foldl (fun s d => s.pass d n) s

/-- What follows every step: replies leave, time passes, the thresholds of counters that changed are evaluated, and the next turn is
taken. -/
def State.settle (s old : State) : State :=
  let s := (s.drainPorts.flushAnswers.flushHome.ucieFlush.passAll old.stepCycles).evalChanged old
  let s := { s with tick := old.tick + 1 }
  { s with turn := s.nextTurn }

/-- The end of a step in its outcome. -/
def Out.settle (o : Out) (old : State) : Out := match o with
  | .next s => .next (s.settle old)
  | .fault r => .fault r
  | .refused r => .refused r

end Sys2Proof.Machine
end

