-- ==== Sys2Proof/Machine/Alu.lean ====
section
/-! DEFINITION. Integer, immediate, comparison, predicate, control-transfer and system words of the SQ that touch no memory
(R176 to R187, R191, R195 to R197). -/

namespace Sys2Proof.Machine

/-! ## Arithmetic (R176 to R178) -/

/-- The exact signed product's high half. -/
def mulHigh (a b : Word) : Word := BitVec.ofInt 64 (a.toInt * b.toInt / 2 ^ 64)
def mulHighN (a b : Word) : Word := BitVec.ofNat 64 (a.toNat * b.toNat / 2 ^ 64)

/-- Quotient and remainder of R177: truncation toward zero, fixed results for a zero divisor and the one overflow. -/
def divide (signed : Bool) (a b : Word) : Word × Word :=
  if b = 0 then (BitVec.allOnes 64, a)
  else if signed then
    if a = BitVec.ofNat 64 (2 ^ 63) ∧ b = BitVec.allOnes 64 then (a, 0)
    else (BitVec.ofInt 64 (a.toInt.tdiv b.toInt), BitVec.ofInt 64 (a.toInt.tmod b.toInt))
  else (BitVec.ofNat 64 (a.toNat / b.toNat), BitVec.ofNat 64 (a.toNat % b.toNat))

/-- Shifts by any count (R178). -/
def shiftLeft (a : Word) (n : Nat) : Word := if 64 ≤ n then 0 else a <<< n
def shiftRight (a : Word) (n : Nat) : Word := if 64 ≤ n then 0 else a >>> n
def shiftArith (a : Word) (n : Nat) : Word := a.sshiftRight (min n 64)

/-- Number of one bits among the low n. -/
def popCount (a : Word) : Nat → Nat
  | 0 => 0
  | n + 1 => popCount a n + one (a.getLsbD n)

/-- Leading zeros: looks from bit n − 1 down. -/
def leadZeros (a : Word) : Nat → Nat
  | 0 => 0
  | n + 1 => if a.getLsbD n then 0 else leadZeros a n + 1

/-- Trailing zeros: looks from bit 64 − n up. -/
def trailZeros (a : Word) : Nat → Nat
  | 0 => 0
  | n + 1 => if a.getLsbD (63 - n) then 0 else trailZeros a n + 1

def execAdd (d a b : Reg) (g : Pred) (s : State) : Out := sqValue g [a, b] d (fun x => x.reg a + x.reg b) s
def execSub (d a b : Reg) (g : Pred) (s : State) : Out := sqValue g [a, b] d (fun x => x.reg a - x.reg b) s
def execMul (d a b : Reg) (g : Pred) (s : State) : Out := sqValue g [a, b] d (fun x => x.reg a * x.reg b) s
def execMulh (d a b : Reg) (g : Pred) (s : State) : Out := sqValue g [a, b] d (fun x => mulHigh (x.reg a) (x.reg b)) s
def execMulhn (d a b : Reg) (g : Pred) (s : State) : Out := sqValue g [a, b] d (fun x => mulHighN (x.reg a) (x.reg b)) s
def execDiv (d a b : Reg) (g : Pred) (s : State) : Out := sqValue g [a, b] d (fun x => (divide true (x.reg a) (x.reg b)).1) s
def execDivn (d a b : Reg) (g : Pred) (s : State) : Out := sqValue g [a, b] d (fun x => (divide false (x.reg a) (x.reg b)).1) s
def execRem (d a b : Reg) (g : Pred) (s : State) : Out := sqValue g [a, b] d (fun x => (divide true (x.reg a) (x.reg b)).2) s
def execRemn (d a b : Reg) (g : Pred) (s : State) : Out := sqValue g [a, b] d (fun x => (divide false (x.reg a) (x.reg b)).2) s
def execAnd (d a b : Reg) (g : Pred) (s : State) : Out := sqValue g [a, b] d (fun x => x.reg a &&& x.reg b) s
def execOr (d a b : Reg) (g : Pred) (s : State) : Out := sqValue g [a, b] d (fun x => x.reg a ||| x.reg b) s
def execXor (d a b : Reg) (g : Pred) (s : State) : Out := sqValue g [a, b] d (fun x => x.reg a ^^^ x.reg b) s
def execShl (d a b : Reg) (g : Pred) (s : State) : Out := sqValue g [a, b] d (fun x => shiftLeft (x.reg a) (x.reg b).toNat) s
def execShr (d a b : Reg) (g : Pred) (s : State) : Out := sqValue g [a, b] d (fun x => shiftRight (x.reg a) (x.reg b).toNat) s
def execSra (d a b : Reg) (g : Pred) (s : State) : Out := sqValue g [a, b] d (fun x => shiftArith (x.reg a) (x.reg b).toNat) s
def execClz (d a : Reg) (g : Pred) (s : State) : Out := sqValue g [a] d (fun x => BitVec.ofNat 64 (leadZeros (x.reg a) 64)) s
def execCtz (d a : Reg) (g : Pred) (s : State) : Out := sqValue g [a] d (fun x => BitVec.ofNat 64 (trailZeros (x.reg a) 64)) s
def execPopc (d a : Reg) (g : Pred) (s : State) : Out := sqValue g [a] d (fun x => BitVec.ofNat 64 (popCount (x.reg a) 64)) s
def execMin (d a b : Reg) (g : Pred) (s : State) : Out :=
  sqValue g [a, b] d (fun x => if (x.reg b).toInt < (x.reg a).toInt then x.reg b else x.reg a) s
def execMax (d a b : Reg) (g : Pred) (s : State) : Out :=
  sqValue g [a, b] d (fun x => if (x.reg a).toInt < (x.reg b).toInt then x.reg b else x.reg a) s
def execMinn (d a b : Reg) (g : Pred) (s : State) : Out :=
  sqValue g [a, b] d (fun x => if (x.reg b).toNat < (x.reg a).toNat then x.reg b else x.reg a) s
def execMaxn (d a b : Reg) (g : Pred) (s : State) : Out :=
  sqValue g [a, b] d (fun x => if (x.reg a).toNat < (x.reg b).toNat then x.reg b else x.reg a) s
def execSext8 (d a : Reg) (g : Pred) (s : State) : Out := sqValue g [a] d (fun x => sext ((x.reg a).setWidth 8)) s
def execSext16 (d a : Reg) (g : Pred) (s : State) : Out := sqValue g [a] d (fun x => sext ((x.reg a).setWidth 16)) s
def execSext32 (d a : Reg) (g : Pred) (s : State) : Out := sqValue g [a] d (fun x => sext ((x.reg a).setWidth 32)) s
def execZext8 (d a : Reg) (g : Pred) (s : State) : Out := sqValue g [a] d (fun x => zext ((x.reg a).setWidth 8)) s
def execZext16 (d a : Reg) (g : Pred) (s : State) : Out := sqValue g [a] d (fun x => zext ((x.reg a).setWidth 16)) s
def execZext32 (d a : Reg) (g : Pred) (s : State) : Out := sqValue g [a] d (fun x => zext ((x.reg a).setWidth 32)) s
def execLea (d a b : Reg) (sh : BitVec 3) (g : Pred) (s : State) : Out :=
  sqValue g [a, b] d (fun x => x.reg a + x.reg b <<< sh.toNat) s
def execSel (d : Reg) (p : Pred) (a b : Reg) (g : Pred) (s : State) : Out :=
  sqValue g [a, b] d (fun x => if x.pred p then x.reg a else x.reg b) s

/-! ## Comparisons and predicate logic (R181, R182) -/

def execCmpeq (pd : Pred) (a b : Reg) (g : Pred) (s : State) : Out := sqPred g [a, b] pd (fun x => x.reg a == x.reg b) s
def execCmpne (pd : Pred) (a b : Reg) (g : Pred) (s : State) : Out := sqPred g [a, b] pd (fun x => x.reg a != x.reg b) s
def execCmplt (pd : Pred) (a b : Reg) (g : Pred) (s : State) : Out := sqPred g [a, b] pd (fun x => (x.reg a).toInt < (x.reg b).toInt) s
def execCmple (pd : Pred) (a b : Reg) (g : Pred) (s : State) : Out := sqPred g [a, b] pd (fun x => (x.reg a).toInt ≤ (x.reg b).toInt) s
def execCmpltn (pd : Pred) (a b : Reg) (g : Pred) (s : State) : Out := sqPred g [a, b] pd (fun x => (x.reg a).toNat < (x.reg b).toNat) s
def execCmplen (pd : Pred) (a b : Reg) (g : Pred) (s : State) : Out := sqPred g [a, b] pd (fun x => (x.reg a).toNat ≤ (x.reg b).toNat) s
def execPand (pd pa pb : Pred) (g : Pred) (s : State) : Out := sqPred g [] pd (fun x => x.pred pa && x.pred pb) s
def execPor (pd pa pb : Pred) (g : Pred) (s : State) : Out := sqPred g [] pd (fun x => x.pred pa || x.pred pb) s
def execPxor (pd pa pb : Pred) (g : Pred) (s : State) : Out := sqPred g [] pd (fun x => x.pred pa != x.pred pb) s
def execPnot (pd pa : Pred) (g : Pred) (s : State) : Out := sqPred g [] pd (fun x => !x.pred pa) s

/-! ## Immediates (R178 to R181) -/

def execAddi (d a : Reg) (imm : BitVec 13) (g : Pred) (s : State) : Out := sqValue g [a] d (fun x => x.reg a + sext imm) s
def execAndi (d a : Reg) (imm : BitVec 13) (g : Pred) (s : State) : Out := sqValue g [a] d (fun x => x.reg a &&& sext imm) s
def execOri (d a : Reg) (imm : BitVec 13) (g : Pred) (s : State) : Out := sqValue g [a] d (fun x => x.reg a ||| zext imm) s
def execXori (d a : Reg) (imm : BitVec 13) (g : Pred) (s : State) : Out := sqValue g [a] d (fun x => x.reg a ^^^ zext imm) s
def execShli (d a : Reg) (n : BitVec 6) (g : Pred) (s : State) : Out := sqValue g [a] d (fun x => shiftLeft (x.reg a) n.toNat) s
def execShri (d a : Reg) (n : BitVec 6) (g : Pred) (s : State) : Out := sqValue g [a] d (fun x => shiftRight (x.reg a) n.toNat) s
def execSrai (d a : Reg) (n : BitVec 6) (g : Pred) (s : State) : Out := sqValue g [a] d (fun x => shiftArith (x.reg a) n.toNat) s
def execCmpeqi (pd : Pred) (a : Reg) (imm : BitVec 13) (g : Pred) (s : State) : Out := sqPred g [a] pd (fun x => x.reg a == sext imm) s
def execCmplti (pd : Pred) (a : Reg) (imm : BitVec 13) (g : Pred) (s : State) : Out :=
  sqPred g [a] pd (fun x => (x.reg a).toInt < (sext imm).toInt) s
def execMovi (d : Reg) (imm : BitVec 18) (g : Pred) (s : State) : Out := sqValue g [] d (fun _ => sext imm) s
def execSethi (d : Reg) (imm : BitVec 18) (g : Pred) (s : State) : Out :=
  sqValue g [d] d (fun x => imm ++ (x.reg d).extractLsb' 0 46) s

/-! ## Control transfer (R183 to R187) -/

/-- The value that a bad target reports: T as an n64. -/
def targetWord (t : Int) : Word := BitVec.ofInt 64 t

/-- Transfer to T, after its check; f is what else the word writes. -/
def jumpTo (s : State) (c k : Nat) (x : Ctx) (t : Int) (f : Ctx → Ctx) : State :=
  if s.validTarget c x t then s.setCtx c k { f x with pc := BitVec.ofInt 32 t } else s.trap c k ILLOP (targetWord t)

/-- The decision of an SB word (R138). -/
def taken (x : Ctx) (p : Pred) (neg : Bool) : Bool := x.pred p != neg

def execBr (p : Pred) (neg : Bool) (off : BitVec 22) (s : State) : Out :=
  sqRun 0 [] s fun c k x =>
    if taken x p neg then jumpTo s c k x (x.pc.toNat + off.toInt) id else s.setCtx c k x.step

def execCall (p : Pred) (neg : Bool) (off : BitVec 22) (s : State) : Out :=
  sqRun 0 [] s fun c k x =>
    if taken x p neg then jumpTo s c k x (x.pc.toNat + off.toInt) (fun y => y.setReg 31 (BitVec.ofNat 64 (x.pc.toNat + 1)))
    else s.setCtx c k x.step

def execJmp (a : Reg) (g : Pred) (s : State) : Out := sqRun g [a] s fun c k x => jumpTo s c k x (x.reg a).toNat id
def execRet (g : Pred) (s : State) : Out := sqRun g [31] s fun c k x => jumpTo s c k x (x.reg 31).toNat id

def execLoop (d : Reg) (imm : BitVec 13) (g : Pred) (s : State) : Out :=
  sqRun g [d] s fun c k x =>
    let v := x.reg d
    if v = 0 then s.setCtx c k x.step
    else if v = 1 then s.setCtx c k (x.step.setReg d 0)
    else jumpTo s c k x (x.pc.toNat + imm.toInt) (fun y => y.setReg d (v - 1))

/-! ## System words that touch no other state (R191, R195 to R197) -/

def execNop (g : Pred) (s : State) : Out := sqRun g [] s fun c k x => s.setCtx c k x.step

/-- BKPT and TRAP complete, then enter the handler with the next offset in EPC (R195, R196). -/
def execBkpt (code : BitVec 13) (g : Pred) (s : State) : Out :=
  sqRun g [] s fun c k x => s.takeTrap c k ⟨8, zext code⟩ false false (x.pc + 1)

def execTrap (n : BitVec 13) (g : Pred) (s : State) : Out :=
  sqRun g [] s fun c k x => s.takeTrap c k ⟨0, zext n⟩ true false (x.pc + 1)

def execEret (g : Pred) (s : State) : Out :=
  sqRun g [] s fun c k x =>
    if !x.inh then s.trap c k ILLOP 0
    else if s.validTarget c x x.epc.toNat then s.leaveHandler c k x.epc
    else s.trap c k ILLOP (zext x.epc)

/-- HALT: the program ends; what the task still has outstanding goes on (R192, R51). -/
def execHalt (g : Pred) (s : State) : Out :=
  sqRun g [] s fun c k x =>
    let s := s.setCtx c k { x.step with life := .halted }
    s.updCore c fun r => { r with active := if r.active = some k then none else r.active }

end Sys2Proof.Machine
end

