-- ==== Sys2Proof/Machine/Dispatch.lean ====
section
/-! DEFINITION. The dispatcher: one arm per instruction, each one call of its meaning. -/

namespace Sys2Proof.Machine

/-- What an instruction, an engine word or an event does. -/
def exec (i : Instr) (s : State) : Host.Outcome State Fault Refusal :=
  match i with
  | .add d a b g => Sys2Proof.Machine.execAdd d a b g s
  | .sub d a b g => Sys2Proof.Machine.execSub d a b g s
  | .mul d a b g => Sys2Proof.Machine.execMul d a b g s
  | .mulh d a b g => Sys2Proof.Machine.execMulh d a b g s
  | .mulhn d a b g => Sys2Proof.Machine.execMulhn d a b g s
  | .div d a b g => Sys2Proof.Machine.execDiv d a b g s
  | .divn d a b g => Sys2Proof.Machine.execDivn d a b g s
  | .rem d a b g => Sys2Proof.Machine.execRem d a b g s
  | .remn d a b g => Sys2Proof.Machine.execRemn d a b g s
  | .and d a b g => Sys2Proof.Machine.execAnd d a b g s
  | .or d a b g => Sys2Proof.Machine.execOr d a b g s
  | .xor d a b g => Sys2Proof.Machine.execXor d a b g s
  | .shl d a b g => Sys2Proof.Machine.execShl d a b g s
  | .shr d a b g => Sys2Proof.Machine.execShr d a b g s
  | .sra d a b g => Sys2Proof.Machine.execSra d a b g s
  | .clz d a g => Sys2Proof.Machine.execClz d a g s
  | .ctz d a g => Sys2Proof.Machine.execCtz d a g s
  | .popc d a g => Sys2Proof.Machine.execPopc d a g s
  | .min d a b g => Sys2Proof.Machine.execMin d a b g s
  | .max d a b g => Sys2Proof.Machine.execMax d a b g s
  | .minn d a b g => Sys2Proof.Machine.execMinn d a b g s
  | .maxn d a b g => Sys2Proof.Machine.execMaxn d a b g s
  | .sext8 d a g => Sys2Proof.Machine.execSext8 d a g s
  | .sext16 d a g => Sys2Proof.Machine.execSext16 d a g s
  | .sext32 d a g => Sys2Proof.Machine.execSext32 d a g s
  | .zext8 d a g => Sys2Proof.Machine.execZext8 d a g s
  | .zext16 d a g => Sys2Proof.Machine.execZext16 d a g s
  | .zext32 d a g => Sys2Proof.Machine.execZext32 d a g s
  | .lea d a b sh g => Sys2Proof.Machine.execLea d a b sh g s
  | .sel d p a b g => Sys2Proof.Machine.execSel d p a b g s
  | .cmpeq pd a b g => Sys2Proof.Machine.execCmpeq pd a b g s
  | .cmpne pd a b g => Sys2Proof.Machine.execCmpne pd a b g s
  | .cmplt pd a b g => Sys2Proof.Machine.execCmplt pd a b g s
  | .cmple pd a b g => Sys2Proof.Machine.execCmple pd a b g s
  | .cmpltn pd a b g => Sys2Proof.Machine.execCmpltn pd a b g s
  | .cmplen pd a b g => Sys2Proof.Machine.execCmplen pd a b g s
  | .pand pd pa pb g => Sys2Proof.Machine.execPand pd pa pb g s
  | .por pd pa pb g => Sys2Proof.Machine.execPor pd pa pb g s
  | .pxor pd pa pb g => Sys2Proof.Machine.execPxor pd pa pb g s
  | .pnot pd pa g => Sys2Proof.Machine.execPnot pd pa g s
  | .addi d a imm g => Sys2Proof.Machine.execAddi d a imm g s
  | .andi d a imm g => Sys2Proof.Machine.execAndi d a imm g s
  | .ori d a imm g => Sys2Proof.Machine.execOri d a imm g s
  | .xori d a imm g => Sys2Proof.Machine.execXori d a imm g s
  | .shli d a n g => Sys2Proof.Machine.execShli d a n g s
  | .shri d a n g => Sys2Proof.Machine.execShri d a n g s
  | .srai d a n g => Sys2Proof.Machine.execSrai d a n g s
  | .cmpeqi pd a imm g => Sys2Proof.Machine.execCmpeqi pd a imm g s
  | .cmplti pd a imm g => Sys2Proof.Machine.execCmplti pd a imm g s
  | .loop d imm g => Sys2Proof.Machine.execLoop d imm g s
  | .movi d imm g => Sys2Proof.Machine.execMovi d imm g s
  | .sethi d imm g => Sys2Proof.Machine.execSethi d imm g s
  | .br p neg off => Sys2Proof.Machine.execBr p neg off s
  | .call p neg off => Sys2Proof.Machine.execCall p neg off s
  | .jmp a g => Sys2Proof.Machine.execJmp a g s
  | .ret g => Sys2Proof.Machine.execRet g s
  | .fence mask scope g => Sys2Proof.Machine.execFence mask scope g s
  | .rdc d c g => Sys2Proof.Machine.execRdc d c g s
  | .wrc c a g => Sys2Proof.Machine.execWrc c a g s
  | .ldI8 d a oc off g => Sys2Proof.Machine.execLdI8 d a oc off g s
  | .ldN8 d a oc off g => Sys2Proof.Machine.execLdN8 d a oc off g s
  | .ldI16 d a oc off g => Sys2Proof.Machine.execLdI16 d a oc off g s
  | .ldN16 d a oc off g => Sys2Proof.Machine.execLdN16 d a oc off g s
  | .ldI32 d a oc off g => Sys2Proof.Machine.execLdI32 d a oc off g s
  | .ldN32 d a oc off g => Sys2Proof.Machine.execLdN32 d a oc off g s
  | .ld64 d a oc off g => Sys2Proof.Machine.execLd64 d a oc off g s
  | .st8 d a oc off g => Sys2Proof.Machine.execSt8 d a oc off g s
  | .st16 d a oc off g => Sys2Proof.Machine.execSt16 d a oc off g s
  | .st32 d a oc off g => Sys2Proof.Machine.execSt32 d a oc off g s
  | .st64 d a oc off g => Sys2Proof.Machine.execSt64 d a oc off g s
  | .lda d a oc scope w g => Sys2Proof.Machine.execLda d a oc scope w g s
  | .stl d a oc scope w g => Sys2Proof.Machine.execStl d a oc scope w g s
  | .aadd d a b oc g => Sys2Proof.Machine.execAadd d a b oc g s
  | .aaddf d a b oc g => Sys2Proof.Machine.execAaddf d a b oc g s
  | .axchg d a b oc g => Sys2Proof.Machine.execAxchg d a b oc g s
  | .acas d a b oc g => Sys2Proof.Machine.execAcas d a b oc g s
  | .amax d a b oc g => Sys2Proof.Machine.execAmax d a b oc g s
  | .amin d a b oc g => Sys2Proof.Machine.execAmin d a b oc g s
  | .amaxf d a b oc g => Sys2Proof.Machine.execAmaxf d a b oc g s
  | .aclrmax d a oc g => Sys2Proof.Machine.execAclrmax d a oc g s
  | .aincb d a b oc g => Sys2Proof.Machine.execAincb d a b oc g s
  | .aincw d a b oc g => Sys2Proof.Machine.execAincw d a b oc g s
  | .adecz d a oc g => Sys2Proof.Machine.execAdecz d a oc g s
  | .aaddl d a b oc g => Sys2Proof.Machine.execAaddl d a b oc g s
  | .axrd d a oc g => Sys2Proof.Machine.execAxrd d a oc g s
  | .aaddN a b oc g => Sys2Proof.Machine.execAaddN a b oc g s
  | .aaddfN a b oc g => Sys2Proof.Machine.execAaddfN a b oc g s
  | .axchgN a b oc g => Sys2Proof.Machine.execAxchgN a b oc g s
  | .acasN d a b oc g => Sys2Proof.Machine.execAcasN d a b oc g s
  | .amaxN a b oc g => Sys2Proof.Machine.execAmaxN a b oc g s
  | .aminN a b oc g => Sys2Proof.Machine.execAminN a b oc g s
  | .amaxfN a b oc g => Sys2Proof.Machine.execAmaxfN a b oc g s
  | .aclrmaxN a oc g => Sys2Proof.Machine.execAclrmaxN a oc g s
  | .aincbN a b oc g => Sys2Proof.Machine.execAincbN a b oc g s
  | .aincwN a b oc g => Sys2Proof.Machine.execAincwN a b oc g s
  | .adeczN a oc g => Sys2Proof.Machine.execAdeczN a oc g s
  | .aaddlN a b oc g => Sys2Proof.Machine.execAaddlN a b oc g s
  | .axadd a b oc g => Sys2Proof.Machine.execAxadd a b oc g s
  | .waitwEq d a b oc g => Sys2Proof.Machine.execWaitwEq d a b oc g s
  | .waitwNe d a b oc g => Sys2Proof.Machine.execWaitwNe d a b oc g s
  | .waitwGe d a b oc g => Sys2Proof.Machine.execWaitwGe d a b oc g s
  | .waitwLt d a b oc g => Sys2Proof.Machine.execWaitwLt d a b oc g s
  | .alock a oc g => Sys2Proof.Machine.execAlock a oc g s
  | .aunlk a oc g => Sys2Proof.Machine.execAunlk a oc g s
  | .enq e a b g => Sys2Proof.Machine.execEnq e a b g s
  | .enqw e a b g => Sys2Proof.Machine.execEnqw e a b g s
  | .mcw n a g => Sys2Proof.Machine.execMcw n a g s
  | .mcrd a n g => Sys2Proof.Machine.execMcrd a n g s
  | .rdseq a e g => Sys2Proof.Machine.execRdseq a e g s
  | .spawn d a b g => Sys2Proof.Machine.execSpawn d a b g s
  | .popt d g => Sys2Proof.Machine.execPopt d g s
  | .join a g => Sys2Proof.Machine.execJoin a g s
  | .qput d a g => Sys2Proof.Machine.execQput d a g s
  | .qget d a b g => Sys2Proof.Machine.execQget d a b g s
  | .rclm d a g => Sys2Proof.Machine.execRclm d a g s
  | .evreg d a b g => Sys2Proof.Machine.execEvreg d a b g s
  | .rpush d a r g => Sys2Proof.Machine.execRpush d a r g s
  | .rpop d a r g => Sys2Proof.Machine.execRpop d a r g s
  | .wfill d a r g => Sys2Proof.Machine.execWfill d a r g s
  | .wfree d a r g => Sys2Proof.Machine.execWfree d a r g s
  | .subscr d a r g => Sys2Proof.Machine.execSubscr d a r g s
  | .otw d a b g => Sys2Proof.Machine.execOtw d a b g s
  | .gbind d a b g => Sys2Proof.Machine.execGbind d a b g s
  | .ptinv a b g => Sys2Proof.Machine.execPtinv a b g s
  | .rlaunchStart d a b g => Sys2Proof.Machine.execRlaunchStart d a b g s
  | .rlaunchUpdate d a b g => Sys2Proof.Machine.execRlaunchUpdate d a b g s
  | .rlaunchStop d a b g => Sys2Proof.Machine.execRlaunchStop d a b g s
  | .routw d a b g => Sys2Proof.Machine.execRoutw d a b g s
  | .publ d a b g => Sys2Proof.Machine.execPubl d a b g s
  | .tvq d a b g => Sys2Proof.Machine.execTvq d a b g s
  | .retain d a b g => Sys2Proof.Machine.execRetain d a b g s
  | .repl d a b g => Sys2Proof.Machine.execRepl d a b g s
  | .rcvrVer d a b g => Sys2Proof.Machine.execRcvrVer d a b g s
  | .rcvrHand d b g => Sys2Proof.Machine.execRcvrHand d b g s
  | .trimSync d a b g => Sys2Proof.Machine.execTrimSync d a b g s
  | .trimForce d a b g => Sys2Proof.Machine.execTrimForce d a b g s
  | .twaitAny d a g => Sys2Proof.Machine.execTwaitAny d a g s
  | .twaitAll d a g => Sys2Proof.Machine.execTwaitAll d a g s
  | .tffr d a g => Sys2Proof.Machine.execTffr d a g s
  | .tclr d a g => Sys2Proof.Machine.execTclr d a g s
  | .cntrd d a g => Sys2Proof.Machine.execCntrd d a g s
  | .cntset d a b g => Sys2Proof.Machine.execCntset d a b g s
  | .waitc tl ld st cp g => Sys2Proof.Machine.execWaitc tl ld st cp g s
  | .ctxs d a b g => Sys2Proof.Machine.execCtxs d a b g s
  | .ctxr d a g => Sys2Proof.Machine.execCtxr d a g s
  | .poisq d a g => Sys2Proof.Machine.execPoisq d a g s
  | .nop g => Sys2Proof.Machine.execNop g s
  | .halt g => Sys2Proof.Machine.execHalt g s
  | .yield g => Sys2Proof.Machine.execYield g s
  | .bkpt code g => Sys2Proof.Machine.execBkpt code g s
  | .trap n g => Sys2Proof.Machine.execTrap n g s
  | .eret g => Sys2Proof.Machine.execEret g s
  | .phase g => Sys2Proof.Machine.execPhase g s
  | .dep t0 t1 t2 => Sys2Proof.Machine.execDep t0 t1 t2 s
  | .vadd m vd va vb k => Sys2Proof.Machine.execVadd m vd va vb k s
  | .vsub m vd va vb k => Sys2Proof.Machine.execVsub m vd va vb k s
  | .vmul m vd va vb k => Sys2Proof.Machine.execVmul m vd va vb k s
  | .vfma m vd va vb k => Sys2Proof.Machine.execVfma m vd va vb k s
  | .vfms m vd va vb k => Sys2Proof.Machine.execVfms m vd va vb k s
  | .vnfma m vd va vb k => Sys2Proof.Machine.execVnfma m vd va vb k s
  | .vmin m vd va vb k => Sys2Proof.Machine.execVmin m vd va vb k s
  | .vmax m vd va vb k => Sys2Proof.Machine.execVmax m vd va vb k s
  | .vabs m vd va k => Sys2Proof.Machine.execVabs m vd va k s
  | .vneg m vd va k => Sys2Proof.Machine.execVneg m vd va k s
  | .vand vd va vb k => Sys2Proof.Machine.execVand vd va vb k s
  | .vor vd va vb k => Sys2Proof.Machine.execVor vd va vb k s
  | .vxor vd va vb k => Sys2Proof.Machine.execVxor vd va vb k s
  | .vnot vd va k => Sys2Proof.Machine.execVnot vd va k s
  | .vshl vd va vb k => Sys2Proof.Machine.execVshl vd va vb k s
  | .vshr vd va vb k => Sys2Proof.Machine.execVshr vd va vb k s
  | .vsra vd va vb k => Sys2Proof.Machine.execVsra vd va vb k s
  | .vshlImm vd va n => Sys2Proof.Machine.execVshlImm vd va n s
  | .vshrImm vd va n => Sys2Proof.Machine.execVshrImm vd va n s
  | .vsraImm vd va n => Sys2Proof.Machine.execVsraImm vd va n s
  | .vcmp c kd va vb k => Sys2Proof.Machine.execVcmp c kd va vb k s
  | .vsel vd va vb k => Sys2Proof.Machine.execVsel vd va vb k s
  | .vmsk op kd ka kb => Sys2Proof.Machine.execVmsk op kd ka kb s
  | .vcls kd va set k => Sys2Proof.Machine.execVcls kd va set k s
  | .viota vd f k => Sys2Proof.Machine.execViota vd f k s
  | .vcvt m vd va f k => Sys2Proof.Machine.execVcvt m vd va f k s
  | .vcvtw m vd va f k => Sys2Proof.Machine.execVcvtw m vd va f k s
  | .vcvtn m vd va f k => Sys2Proof.Machine.execVcvtn m vd va f k s
  | .vpack m vd va w => Sys2Proof.Machine.execVpack m vd va w s
  | .vunpk m vd va w => Sys2Proof.Machine.execVunpk m vd va w s
  | .vred m op vd va k => Sys2Proof.Machine.execVred m op vd va k s
  | .vamax m vd va vb k => Sys2Proof.Machine.execVamax m vd va vb k s
  | .vdot m vd va vb k => Sys2Proof.Machine.execVdot m vd va vb k s
  | .vsplat vd va ix => Sys2Proof.Machine.execVsplat vd va ix s
  | .vsplatImm vd v => Sys2Proof.Machine.execVsplatImm vd v s
  | .vsplatReg vd a => Sys2Proof.Machine.execVsplatReg vd a s
  | .vmov vd va k => Sys2Proof.Machine.execVmov vd va k s
  | .vperm vd va vb k => Sys2Proof.Machine.execVperm vd va vb k s
  | .vslide vd va sh => Sys2Proof.Machine.execVslide vd va sh s
  | .vslideRot vd va sh => Sys2Proof.Machine.execVslideRot vd va sh s
  | .vexp2 m vd va k => Sys2Proof.Machine.execVexp2 m vd va k s
  | .vlog2 m vd va k => Sys2Proof.Machine.execVlog2 m vd va k s
  | .vrcp m vd va k => Sys2Proof.Machine.execVrcp m vd va k s
  | .vrsq m vd va k => Sys2Proof.Machine.execVrsq m vd va k s
  | .vsqrt m vd va k => Sys2Proof.Machine.execVsqrt m vd va k s
  | .vdiv m vd va vb k => Sys2Proof.Machine.execVdiv m vd va vb k s
  | .vtanh m vd va k => Sys2Proof.Machine.execVtanh m vd va k s
  | .vsig m vd va k => Sys2Proof.Machine.execVsig m vd va k s
  | .vscl m vd va vb k => Sys2Proof.Machine.execVscl m vd va vb k s
  | .vqnt m vd va vb k => Sys2Proof.Machine.execVqnt m vd va vb k s
  | .verrf m vd va vb k => Sys2Proof.Machine.execVerrf m vd va vb k s
  | .vshp a => Sys2Proof.Machine.execVshp a s
  | .vtag vd va f => Sys2Proof.Machine.execVtag vd va f s
  | .vld vd a off oc => Sys2Proof.Machine.execVld vd a off oc s
  | .vst vd a off oc => Sys2Proof.Machine.execVst vd a off oc s
  | .vldx vd vi a k oc => Sys2Proof.Machine.execVldx vd vi a k oc s
  | .vstx vd vi a k oc => Sys2Proof.Machine.execVstx vd vi a k oc s
  | .vchain m obj ws => Sys2Proof.Machine.execVchain m obj ws s
  | .mldw sub tag a => Sys2Proof.Machine.execMldw sub tag a s
  | .mldwt sub tag a => Sys2Proof.Machine.execMldwt sub tag a s
  | .mgo t sub => Sys2Proof.Machine.execMgo t sub s
  | .mgob t sub => Sys2Proof.Machine.execMgob t sub s
  | .mgath a b size nm1 => Sys2Proof.Machine.execMgath a b size nm1 s
  | .msp n => Sys2Proof.Machine.execMsp n s
  | .msamp a b e0 e1 => Sys2Proof.Machine.execMsamp a b e0 e1 s
  | .msgo t => Sys2Proof.Machine.execMsgo t s
  | .mnorm side tag a b => Sys2Proof.Machine.execMnorm side tag a b s
  | .malias a b e0 => Sys2Proof.Machine.execMalias a b e0 s
  | .mdrain t a b sn sat tag => Sys2Proof.Machine.execMdrain t a b sn sat tag s
  | .mdraina t a b e0 clamp oc => Sys2Proof.Machine.execMdraina t a b e0 clamp oc s
  | .mdrainx t a b oc => Sys2Proof.Machine.execMdrainx t a b oc s
  | .mrda t a b => Sys2Proof.Machine.execMrda t a b s
  | .mzero t i32 => Sys2Proof.Machine.execMzero t i32 s
  | .mvar a => Sys2Proof.Machine.execMvar a s
  | .mstat a => Sys2Proof.Machine.execMstat a s
  | .mmode m => Sys2Proof.Machine.execMmode m s
  | .cpy tag a b c tv oc => Sys2Proof.Machine.execCpy tag a b c tv oc s
  | .cpys tag a b c e0 e1 e2 oc => Sys2Proof.Machine.execCpys tag a b c e0 e1 e2 oc s
  | .cpyd tag a b c e0 e1 oc => Sys2Proof.Machine.execCpyd tag a b c e0 e1 oc s
  | .cpyt tag a b c e0 e1 es oc => Sys2Proof.Machine.execCpyt tag a b c e0 e1 es oc s
  | .cpyp tag a b c e0 e1 e2 q es oc => Sys2Proof.Machine.execCpyp tag a b c e0 e1 e2 q es oc s
  | .cpyh tag a b c ord oc => Sys2Proof.Machine.execCpyh tag a b c ord oc s
  | .chld tag a b c nm1 k dl oc => Sys2Proof.Machine.execChld tag a b c nm1 k dl oc s
  | .pfch tag a b c oc => Sys2Proof.Machine.execPfch tag a b c oc s
  | .pfchMap tag a b c oc => Sys2Proof.Machine.execPfchMap tag a b c oc s
  | .evct tag a c oc => Sys2Proof.Machine.execEvct tag a c oc s
  | .evctUnmap tag a oc => Sys2Proof.Machine.execEvctUnmap tag a oc s
  | .ctrb tag a b c oc => Sys2Proof.Machine.execCtrb tag a b c oc s
  | .ctrbXa tag a b c oc => Sys2Proof.Machine.execCtrbXa tag a b c oc s
  | .rdyw tag a c oc => Sys2Proof.Machine.execRdyw tag a c oc s
  | .dieQueuePop core => Sys2Proof.Machine.execDieQueuePop core s
  | .taskDispatch core => Sys2Proof.Machine.execTaskDispatch core s
  | .gangStart part tid => Sys2Proof.Machine.execGangStart part tid s
  | .overlayLoadComplete core slot => Sys2Proof.Machine.execOverlayLoadComplete core slot s
  | .taskCommit core slot => Sys2Proof.Machine.execTaskCommit core slot s
  | .taskAbort core slot => Sys2Proof.Machine.execTaskAbort core slot s
  | .dmuRelease part nv => Sys2Proof.Machine.execDmuRelease part nv s
  | .replicationComplete part nv => Sys2Proof.Machine.execReplicationComplete part nv s
  | .recoveryWalk part nv => Sys2Proof.Machine.execRecoveryWalk part nv s
  | .versionRestoreComplete part nv => Sys2Proof.Machine.execVersionRestoreComplete part nv s
  | .remoteReply core slot value refused => Sys2Proof.Machine.execRemoteReply core slot value refused s
  | .stageBalancer die => Sys2Proof.Machine.execStageBalancer die s
  | .agingTick part tid => Sys2Proof.Machine.execAgingTick part tid s
  | .preemption core => Sys2Proof.Machine.execPreemption core s
  | .shadowStoreDrain core => Sys2Proof.Machine.execShadowStoreDrain core s
  | .contextRestore core => Sys2Proof.Machine.execContextRestore core s
  | .phaseBegin part region => Sys2Proof.Machine.execPhaseBegin part region s
  | .bootGo part core => Sys2Proof.Machine.execBootGo part core s
  | .scratchpadRegionFill core slot line => Sys2Proof.Machine.execScratchpadRegionFill core slot line s
  | .windowPortRequest core r => Sys2Proof.Machine.execWindowPortRequest core r s
  | .movedReply core slot => Sys2Proof.Machine.execMovedReply core slot s
  | .windowPageMigration part page toCore toSlice toQtr => Sys2Proof.Machine.execWindowPageMigration part page toCore toSlice toQtr s
  | .pageMove part page toPhys lat => Sys2Proof.Machine.execPageMove part page toPhys lat s
  | .bounceSlotMove die idx => Sys2Proof.Machine.execBounceSlotMove die idx s
  | .pagerResolve call ok => Sys2Proof.Machine.execPagerResolve call ok s
  | .slateRefresh die => Sys2Proof.Machine.execSlateRefresh die s
  | .tierError r => Sys2Proof.Machine.execTierError r s
  | .tuAccept core => Sys2Proof.Machine.execTuAccept core s
  | .tuCommandFinish core cmd => Sys2Proof.Machine.execTuCommandFinish core cmd s
  | .copyDeadline core cmd => Sys2Proof.Machine.execCopyDeadline core cmd s
  | .chainStep core cmd => Sys2Proof.Machine.execChainStep core cmd s
  | .chainReply core cmd => Sys2Proof.Machine.execChainReply core cmd s
  | .streamInTile part member ring => Sys2Proof.Machine.execStreamInTile part member ring s
  | .streamOutTile part member ring => Sys2Proof.Machine.execStreamOutTile part member ring s
  | .engineEntryStart core e => Sys2Proof.Machine.execEngineEntryStart core e s
  | .engineWordComplete core e => Sys2Proof.Machine.execEngineWordComplete core e s
  | .veRemoteResume core data => Sys2Proof.Machine.execVeRemoteResume core data s
  | .meStepComplete core job => Sys2Proof.Machine.execMeStepComplete core job s
  | .msgoBatchEnd core => Sys2Proof.Machine.execMsgoBatchEnd core s
  | .engineErrorReport core e => Sys2Proof.Machine.execEngineErrorReport core e s
  | .engineFault core e => Sys2Proof.Machine.execEngineFault core e s
  | .eccCorrectable w => Sys2Proof.Machine.execEccCorrectable w s
  | .eccUncorrectable w => Sys2Proof.Machine.execEccUncorrectable w s
  | .powerOnReset => Sys2Proof.Machine.execPowerOnReset s
  | .coreReset core => Sys2Proof.Machine.execCoreReset core s
  | .dieLoss die => Sys2Proof.Machine.execDieLoss die s
  | .handoverTimeout core slot => Sys2Proof.Machine.execHandoverTimeout core slot s
  | .peerLoss part dev => Sys2Proof.Machine.execPeerLoss part dev s
  | .heartbeatSend die => Sys2Proof.Machine.execHeartbeatSend die s
  | .ucieFlitReceive side seq crcOk p => Sys2Proof.Machine.execUcieFlitReceive side seq crcOk p s
  | .ucieRetrainComplete side => Sys2Proof.Machine.execUcieRetrainComplete side s
  | .ucieFlitAck side seq => Sys2Proof.Machine.execUcieFlitAck side seq s
  | .tunarFlitReceive port flit => Sys2Proof.Machine.execTunarFlitReceive port flit s
  | .tunarReplayRequest port seq => Sys2Proof.Machine.execTunarReplayRequest port seq s
  | .tunarResetNotice port => Sys2Proof.Machine.execTunarResetNotice port s
  | .tunarCreditReturn port cls vc n => Sys2Proof.Machine.execTunarCreditReturn port cls vc n s
  | .tunarPortDown port => Sys2Proof.Machine.execTunarPortDown port s
  | .packetForward p => Sys2Proof.Machine.execPacketForward p s
  | .remoteRequest p => Sys2Proof.Machine.execRemoteRequest p s
  | .monitorSample die values => Sys2Proof.Machine.execMonitorSample die values s
  | .powerLimitWindow meanWatts => Sys2Proof.Machine.execPowerLimitWindow meanWatts s
  | .moduleOvertemp => Sys2Proof.Machine.execModuleOvertemp s
  | .linkTraining l => Sys2Proof.Machine.execLinkTraining l s
  | .hostLinkLoss => Sys2Proof.Machine.execHostLinkLoss s
  | .hostFunctionReset pf => Sys2Proof.Machine.execHostFunctionReset pf s
  | .hostCxlMemAccess addr data => Sys2Proof.Machine.execHostCxlMemAccess addr data s
  | .mownRead master => Sys2Proof.Machine.execMownRead master s
  | .htgtWrite master v => Sys2Proof.Machine.execHtgtWrite master v s
  | .mclmClaim master => Sys2Proof.Machine.execMclmClaim master s
  | .mclmRelease master => Sys2Proof.Machine.execMclmRelease master s
  | .mclmAccept master => Sys2Proof.Machine.execMclmAccept master s
  | .pctlCreate master part => Sys2Proof.Machine.execPctlCreate master part s
  | .pctlDestroy master part => Sys2Proof.Machine.execPctlDestroy master part s
  | .pctlReset master part => Sys2Proof.Machine.execPctlReset master part s
  | .pctlQuiesce master part => Sys2Proof.Machine.execPctlQuiesce master part s
  | .pctlOperationEnd part => Sys2Proof.Machine.execPctlOperationEnd part s
  | .svnrRaise master => Sys2Proof.Machine.execSvnrRaise master s
  | .fuseRaiseComplete => Sys2Proof.Machine.execFuseRaiseComplete s
  | .hdmEnable master j w0 => Sys2Proof.Machine.execHdmEnable master j w0 s
  | .hdmDisable master j => Sys2Proof.Machine.execHdmDisable master j s
  | .hdmSlicesEmptied j => Sys2Proof.Machine.execHdmSlicesEmptied j s
  | .nvmeSlotEnable master j w => Sys2Proof.Machine.execNvmeSlotEnable master j w s
  | .nvmeSlotDisable master j => Sys2Proof.Machine.execNvmeSlotDisable master j s
  | .nvmeCompletion req ok => Sys2Proof.Machine.execNvmeCompletion req ok s
  | .nvmeTimeout req => Sys2Proof.Machine.execNvmeTimeout req s
  | .bootRomStart image => Sys2Proof.Machine.execBootRomStart image s
  | .resourceTraining r ok => Sys2Proof.Machine.execResourceTraining r ok s
  | .identityChallenge challenge => Sys2Proof.Machine.execIdentityChallenge challenge s
  | .registerWrite master r v => Sys2Proof.Machine.execRegisterWrite master r v s
  | .accessCompletion core slot k id => Sys2Proof.Machine.execAccessCompletion core slot k id s
  | .managementInterfaceReset => Sys2Proof.Machine.execManagementInterfaceReset s
  | .nvmeInitialisationEnd j ok => Sys2Proof.Machine.execNvmeInitialisationEnd j ok s
  | .controllerFatalStatus j => Sys2Proof.Machine.execControllerFatalStatus j s

end Sys2Proof.Machine
end

