-- ==== Sys2Proof/Machine/Fetch.lean ====
section
/-! DEFINITION. One turn of the device: fetching and decoding the word of the sequencer or an engine and running it, or another step of the
device; and placing an instruction where the next step fetches it (R18, R136, R154, R155, R194, R347, R396, R426, R427). -/

namespace Sys2Proof.Machine

/-! ## The sequencer -/

/-- The row of the opcode table that a word stands for where a register's value selects it (R396, R426, R427). -/
def refine (x : Ctx) (i : Instr) : Instr :=
  match i with
  | .rlaunchStart d a b g =>
    if bitsAt (x.reg b) 12 2 = 1 then .rlaunchUpdate d a b g else if bitsAt (x.reg b) 12 2 = 2 then .rlaunchStop d a b g else i
  | .rcvrVer d a b g => if a = 0 ∧ x.reg b = 1 then .rcvrHand d b g else i
  | .trimSync d a b g => if x.reg b = 2 then .trimForce d a b g else i
  | _ => i

/-- What the sequencer fetches. -/
inductive Fetched where
  | word (i : Instr)
  /-- No instruction: TRAPV is the word, or the offset beyond the section. -/
  | bad (v : Word)
  /-- The image is being loaded again. -/
  | wait
  deriving DecidableEq, Repr

def State.fetchSq (s : State) (c : Nat) (x : Ctx) : Fetched :=
  match (s.core c).loaded x.image with
  | none => .wait
  | some l => match l.sq[x.pc.toNat]? with
    | none => .bad (x.pc.setWidth 64)
    | some w => match decodeSq w with
      | none => .bad (w.setWidth 64)
      | some i => .word (refine x i)

/-- Deliver a cause that waits until its context runs: CHKPT at the boundary, a refusal at its word, or an abort (R194, R298, R472, R487). -/
def State.deliverPend (s : State) (c k : Nat) (x : Ctx) (w : Cause) : State :=
  let s := s.setCtx c k { x with pend := none }
  if 512 ≤ w.code then s.abort c k ⟨w.code % 512, w.value⟩
  else if w.code = POISON ∨ w.code = 11 then s.abort c k w else s.takeTrap c k w false (w.code == 12) x.pc

/-- After the sequencer has issued a word that had stalled at a fill that cannot be had, its task aborts (R114). -/
def State.doomSq (s new : State) (c k : Nat) (i : Instr) : State :=
  match new.ctx? c k with
  | none => new
  | some y => match y.doomed.find? fun d => d.1.isNone with
    | some (_, w) => if s.sqIssued new c k i then new.abort c k w else new
    | none => new

/-- Count a word that the sequencer has issued; one at which it waits is counted when it issues. -/
def State.countIssue (s new : State) (c k : Nat) (i : Instr) : State := if s.sqIssued new c k i then new.countPerf c 0 else new

/-- The sequencer's turn for a context. -/
def State.runSq (s : State) (c k : Nat) : Out :=
  match s.ctx? c k with
  | none => .next s
  | some x =>
    if x.life ≠ .running || x.awaitsPort then .next s
    else match x.pend with
      | some w => .next (s.deliverPend c k x w)
      | none => match s.fetchSq c x with
        | .wait => .next s
        | .bad v => .next (s.trap c k ILLOP v)
        | .word i => match exec i s with
          | .next t => .next (s.doomSq (s.countIssue t c k i) c k i)
          | o => o

/-! ## The engines -/

/-- The item that counts an engine's words. -/
def perfItem (e : Eng) : Nat := match e with
  | .ve => 1
  | .me => 2
  | .tu => 3

/-- An engine's turn: the word at the place of the entry that it executes (R347). -/
def State.runEngine (s : State) (e : Eng) : Out :=
  match s.wordTurn e with
  | none => .next s
  | some (c, n, x) => match s.entryWords c x e n with
    | [] => .next s
    | w :: rest => match decodeEngine e w rest with
      | .bad o => .next (s.failEntry c e ⟨ENGILL, engineForm e n 0 (n.pos + o)⟩)
      | .ok i _ => match exec i s with
        | .next t => .next (if t.wordIssued e n then t.countPerf c (perfItem e) else t)
        | o => o

/-- An accepted command goes on. -/
def State.runCmd (s : State) (c id : Nat) : Out :=
  match s.cmd? c id with
  | some m => exec m.word s
  | none => .next s

/-! ## One turn -/

/-- The core whose issue slot of the VE or ME a turn takes. -/
def Turn.slot : Turn → Option Nat
  | .ve c => some c
  | .me c => some c
  | .event (.meStepComplete c _) => some c
  | .event (.msgoBatchEnd c) => some c
  | _ => none

/-- What the turn does. -/
def State.takeTurn (s : State) : Out :=
  match s.turn with
  | .idle => match s.inbox with
    | e :: l => runEvent e { s with inbox := l, turn := .event e }
    | [] => .next s
  | .sq c k => s.runSq c k
  | .ve _ => s.runEngine .ve
  | .me _ => s.runEngine .me
  | .tu _ => s.runEngine .tu
  | .cmd c id => s.runCmd c id
  | .event e => runEvent e s

/-- The turn, unless its issue slot is withheld (R26). -/
def State.runTurn (s : State) : Out :=
  match Turn.slot s.turn with
  | some c => if s.slotWithheld c then .next (s.countPerf c 4) else s.takeTurn
  | none => s.takeTurn

/-! ## WFILL (R442) -/

/-- Does a core's sequencer wait at a WFILL? -/
def State.atWfill (s : State) (c : Nat) : Bool :=
  match (s.core c).active with
  | none => false
  | some k => match s.ctx? c k with
    | none => false
    | some x => x.life == .running && x.pend.isNone && (match s.fetchSq c x with
      | .word (.wfill d a b g) =>
        let t : State := { s with turn := .sq c k }
        (match exec (.wfill d a b g) t with
         | .next u => !t.sqIssued u c k (.wfill d a b g)
         | _ => false)
      | _ => false)

/-- Count the cc of a step in which cores have waited at a WFILL. -/
def State.countWfill (s old : State) : State :=
  old.cores.foldl (fun s (c, _) => if old.atWfill c then s.addPerf c 5 old.stepCycles else s) s

/-- The count in a step's outcome. -/
def Out.countWfill (o : Out) (old : State) : Out := match o with
  | .next s => .next (s.countWfill old)
  | .fault r => .fault r
  | .refused r => .refused r

/-! ## An instruction as the next one (the host's question) -/

/-- A context with an image and nothing else. -/
def bareCtx (key : ImgKey) : Ctx where
  life := .running
  part := key.part
  tid := 0
  role := 0
  record := 0
  image := key
  a := Vector.replicate 32 0
  apois := []
  p := 0
  pc := 0
  inline := false
  recomp := false
  inh := false
  sys := false
  tvec := 0
  epc := 0
  trapc := 0
  trapv := 0
  tscr := 0
  ocls := 0
  chkpt := false
  entered := 0
  window := 0
  vwb := 0
  vshp := 0x4000000
  rstrm := 0
  masks := Vector.replicate 8 0
  maskDirty := 0
  held := 0
  win := 0
  phys := []
  tileTag := []
  rowDirty := []
  me := MeState.reset
  l := []
  lines := []
  srm := []
  hlc := 0
  binding := ⟨[], []⟩
  nocommit := false
  loads := []
  stores := []
  tiles := []
  tags := 0
  tagStatus := []
  appended := Vector.replicate 3 0
  done := Vector.replicate 3 0
  det := false
  creg := 0
  ctl := false
  kern := 0
  phase := 0
  rings := []
  slateReader := false
  enqw := []
  asks := []
  got := []
  writing := none
  savedEntries := []
  savedJobs := []
  pend := none
  doomed := []
  order := 0
  carried := none

/-- The key of the image that placed words stand in. -/
def placedKey : ImgKey := ⟨0, 0, 0⟩

/-- Core 0 runs context 0 with an image that holds some words in one stream; an engine's words stand in an entry that it executes. -/
def State.place (s : State) (st : Option Eng) (ws : List Half) : State :=
  let x := bareCtx placedKey
  let sec := fun (e : Option Eng) => if e = st then ws else []
  let l : Loaded := ⟨placedKey, 0, sec none, sec (some .ve), sec (some .me), sec (some .tu), 0⟩
  let entry := fun (e : Eng) =>
    if st = some e then [{ mkEntry x 0 e 0 ws.length (numberGo e x.app ws 0 0 0 []).2 with started := true }] else []
  let s := s.updDie 0 fun d => { d with withheld := false, capped := false }
  let s := s.updCore 0 fun r => { r with
    active := some 0, ctxs := Tab.put r.ctxs 0 x, imem := [l], ve := entry .ve, me := entry .me, tu := entry .tu, jobs := [] }
  { s with turn := match st with
    | none => .sq 0 0
    | some .ve => .ve 0
    | some .me => .me 0
    | some .tu => .tu 0 }

end Sys2Proof.Machine
end

