-- ==== Sys2Proof/Machine/Step.lean ====
section
/-! DEFINITION. One step of the device, and a state whose next step runs a given instruction. -/

namespace Sys2Proof.Machine

/-- One step: what the turn does, the waits that its cc count, and what follows every step. -/
def step (s : State) : Host.Outcome State Fault Refusal := Out.settle (Out.countWfill s.runTurn s) s

/-- s with the instruction of an opcode-table row as the one that the next step runs. Its words stand in the stream that
decodeTableWord reads them in. The placement stands for loading an image and dispatching a task (log 20). -/
def State.withFetchWord (s : State) (nbits w : Nat) : State :=
  let ws := Sys2Proof.tableWords (w % 2 ^ nbits) 9
  s.place ((Sys2Proof.tableStream ws).getD none) ws

end Sys2Proof.Machine
end

