-- ==== Sys2Proof/Safety.lean ====
section
/-! DEFINITION. What claims about the machine are stated in: an instruction that runs, a step that goes on, states in good order. -/

namespace Sys2Proof.Machine

/-! ## A word that runs -/

/-- The step or instruction goes on: it has a next state. -/
def Out.goesOn (o : Out) : Prop := ∃ t, o = .next t

/-- The sequencer of core c has the turn for context x in slot k, which runs. -/
structure SqTurn (s : State) (c k : Nat) (x : Ctx) : Prop where
  turn : s.turn = .sq c k
  ctx : s.ctx? c k = some x
  life : x.life = .running

/-- The sequencer of core c runs context x in slot k, at a word whose guard g is true and whose source registers carry no mark. -/
structure SqAt (s : State) (c k : Nat) (x : Ctx) (g : Pred) (srcs : List Reg) : Prop extends SqTurn s c k x where
  guard : x.pred g = true
  clean : x.marked srcs = none

/-- The outcome of a word that only writes value v to register d of its context and goes on to the next word. -/
def regResult (s : State) (c k : Nat) (x : Ctx) (d : Reg) (v : Word) : Out := .next (s.setCtx c k (x.step.setReg d v))

/-- The outcome of a word that only writes predicate pd and goes on to the next word. -/
def predResult (s : State) (c k : Nat) (x : Ctx) (pd : Pred) (v : Bool) : Out := .next (s.setCtx c k (x.step.setPred pd v))

/-- The outcome of a word whose context is then y. -/
def ctxResult (s : State) (c k : Nat) (y : Ctx) : Out := .next (s.setCtx c k y)

/-- A context whose handler can be entered: it is not inside it, and TVEC names a word of its program (R194). -/
def State.handlerReady (s : State) (c : Nat) (x : Ctx) : Prop :=
  x.inh = false ∧ x.tvec.getLsbD 63 = true ∧ s.validTarget c x (x.tvec.setWidth 32).toNat = true

/-- A VE word's turn: core c executes entry n of context x at a VE word that has not run, whose source registers carry no mark (R208). -/
structure VeAt (s : State) (c : Nat) (n : Entry) (x : Ctx) (srcs : List Nat) : Prop where
  word : s.wordTurn .ve = some (c, n, x)
  clean : ∀ r ∈ srcs, ((s.veEnv c x n).reg r).poison = none

/-- The state after a VE word that leaves what it sees as w. -/
def State.veDone (s : State) (c : Nat) (n : Entry) (x : Ctx) (w : VEnv) : State := (s.keepEnv c x n w).wordDone c .ve

/-- The register file w holds what v's does but for the given registers of v's window. -/
def VEnv.keeps (v w : VEnv) (rs : List Nat) : Prop := ∀ j, (∀ r ∈ rs, j ≠ 64 * v.win + r) → Tab.get .empty w.file j = Tab.get .empty v.file j

/-- Instruction i writes the elements idx of register vd in format f, element e as g says, and nothing else but RSTRM, which moves by one
where bump holds; it counts the events of those elements. -/
def State.VeWrites (s : State) (c : Nat) (n : Entry) (x : Ctx) (i : Instr) (vd : Nat) (f : Fmt) (idx : List Nat) (g : Nat → Nat × Ev) (bump : Bool) :
    Prop :=
  let v := s.veEnv c x n
  let total := Ev.sum (idx.map fun e => (g e).2)
  ∃ w, exec i s = .next (s.veDone c n x w) ∧ v.keeps w [vd] ∧ (w.reg vd).tag = f ∧ (w.reg vd).dirty = true ∧
    (∀ e, e < Fmt.count f → elem f (w.reg vd).bytes e = if e ∈ idx then (g e).1 % 2 ^ Fmt.width f else elem f (v.reg vd).bytes e) ∧
    w.masks = v.masks ∧ w.maskDirty = v.maskDirty ∧ w.rstrm = (if bump then v.rstrm + 1 else v.rstrm) ∧
    w.ev = if total.isZero then [] else [(f, total)]

/-- Instruction i writes mask kd as m says and marks it dirty, and writes no register. -/
def State.VeMasks (s : State) (c : Nat) (n : Entry) (x : Ctx) (i : Instr) (kd : KNum) (m : Nat → Bool) : Prop :=
  let v := s.veEnv c x n
  ∃ w, exec i s = .next (s.veDone c n x w) ∧ v.keeps w [] ∧ (∀ e, e < 1024 → (w.mask kd).getLsbD e = m e) ∧
    (∀ k, k ≠ kd → w.mask k = v.mask k) ∧ (∀ k : KNum, w.maskDirty.getLsbD k.toNat = (k == kd || v.maskDirty.getLsbD k.toNat)) ∧ w.rstrm = v.rstrm

/-- An ME word's turn: core c executes entry n of context x at an ME word that has not run, and no step word in flight holds what it needs
(R251). -/
structure MeAt (s : State) (c : Nat) (n : Entry) (x : Ctx) (w : Needs) : Prop where
  word : s.wordTurn .me = some (c, n, x)
  free : (s.core c).jobs.any w.clash = false

/-- The turn of an accepted TU command m of core c, which is word w, has not ended, waits for nothing, is not past its deadline, and whose
context x is resident in slot k of core d (R322, R323). -/
structure TuAt (s : State) (c : Nat) (m : TuCmd) (d k : Nat) (x : Ctx) (w : Instr) : Prop where
  turn : s.turn = .cmd c m.id
  cmd : s.cmd? c m.id = some m
  word : m.word = w
  going : m.res = none ∧ m.held = false ∧ m.asks = []
  inTime : s.overdue c m = false
  first : s.classWaits m = false
  ctx : s.resident m.part m.tid m.role = some (d, k, x)

/-- The next n lines of a command can be moved one after another; t is the state once they are (R329). -/
def State.Moves (c id d k : Nat) (host : Bool) (line : Nat → Line) : Nat → State → State → Prop
  | 0, s, t => t = s
  | n + 1, s, t => ∃ m x u, s.cmd? c id = some m ∧ s.ctx? d k = some x ∧
    s.moveLine d k x host (line m.line) m.got (ackCmd c id) = .done u ∧
    State.Moves c id d k host line n (u.updCmd c id fun m => { m with line := m.line + 1, got := [] }) t

/-- The n bytes at a are readable for the device's own use and are bs; t is the state once they are read (R513). -/
def State.Reads (s : State) (c k : Nat) (x : Ctx) (a : Word) (n : Nat) (t : State) (bs : List Byte) : Prop :=
  ∃ u, s.readPieces c k x (devPieces a n) = .bytes u bs ∧ t = u.updCtx c k fun y => { y with asks := [], got := [] }

/-- The bytes bs can be stored at a for a word, and t is the state once they are (R513). -/
def State.Writes (s : State) (c k : Nat) (x : Ctx) (a : Word) (bs : List Byte) (t : State) : Prop :=
  ∀ f : State → State, s.devWrite c k x a bs f = f t

/-! ## What an SQ word names -/

/-- The guard of an SQ word (R138); BR and CALL have none. -/
def guardOf (i : Instr) : Option Pred := match i with
  | .add _ _ _ g | .sub _ _ _ g | .mul _ _ _ g | .mulh _ _ _ g | .mulhn _ _ _ g | .div _ _ _ g | .divn _ _ _ g | .rem _ _ _ g
  | .remn _ _ _ g | .and _ _ _ g | .or _ _ _ g | .xor _ _ _ g | .shl _ _ _ g | .shr _ _ _ g | .sra _ _ _ g | .clz _ _ g | .ctz _ _ g
  | .popc _ _ g | .min _ _ _ g | .max _ _ _ g | .minn _ _ _ g | .maxn _ _ _ g | .sext8 _ _ g | .sext16 _ _ g | .sext32 _ _ g
  | .zext8 _ _ g | .zext16 _ _ g | .zext32 _ _ g | .lea _ _ _ _ g | .sel _ _ _ _ g | .cmpeq _ _ _ g | .cmpne _ _ _ g | .cmplt _ _ _ g
  | .cmple _ _ _ g | .cmpltn _ _ _ g | .cmplen _ _ _ g | .pand _ _ _ g | .por _ _ _ g | .pxor _ _ _ g | .pnot _ _ g | .addi _ _ _ g
  | .andi _ _ _ g | .ori _ _ _ g | .xori _ _ _ g | .shli _ _ _ g | .shri _ _ _ g | .srai _ _ _ g | .cmpeqi _ _ _ g | .cmplti _ _ _ g
  | .loop _ _ g | .movi _ _ g | .sethi _ _ g | .jmp _ g | .ret g | .fence _ _ g | .rdc _ _ g | .wrc _ _ g | .ldI8 _ _ _ _ g
  | .ldN8 _ _ _ _ g | .ldI16 _ _ _ _ g | .ldN16 _ _ _ _ g | .ldI32 _ _ _ _ g | .ldN32 _ _ _ _ g | .ld64 _ _ _ _ g | .st8 _ _ _ _ g
  | .st16 _ _ _ _ g | .st32 _ _ _ _ g | .st64 _ _ _ _ g | .lda _ _ _ _ _ g | .stl _ _ _ _ _ g | .aadd _ _ _ _ g | .aaddf _ _ _ _ g
  | .axchg _ _ _ _ g | .acas _ _ _ _ g | .amax _ _ _ _ g | .amin _ _ _ _ g | .amaxf _ _ _ _ g | .aclrmax _ _ _ g | .aincb _ _ _ _ g
  | .aincw _ _ _ _ g | .adecz _ _ _ g | .aaddl _ _ _ _ g | .axrd _ _ _ g | .aaddN _ _ _ g | .aaddfN _ _ _ g | .axchgN _ _ _ g
  | .acasN _ _ _ _ g | .amaxN _ _ _ g | .aminN _ _ _ g | .amaxfN _ _ _ g | .aclrmaxN _ _ g | .aincbN _ _ _ g | .aincwN _ _ _ g
  | .adeczN _ _ g | .aaddlN _ _ _ g | .axadd _ _ _ g | .waitwEq _ _ _ _ g | .waitwNe _ _ _ _ g | .waitwGe _ _ _ _ g
  | .waitwLt _ _ _ _ g | .alock _ _ g | .aunlk _ _ g | .enq _ _ _ g | .enqw _ _ _ g | .mcw _ _ g | .mcrd _ _ g | .rdseq _ _ g
  | .spawn _ _ _ g | .popt _ g | .join _ g | .qput _ _ g | .qget _ _ _ g | .rclm _ _ g | .evreg _ _ _ g | .rpush _ _ _ g
  | .rpop _ _ _ g | .wfill _ _ _ g | .wfree _ _ _ g | .subscr _ _ _ g | .otw _ _ _ g | .gbind _ _ _ g | .ptinv _ _ g
  | .rlaunchStart _ _ _ g | .rlaunchUpdate _ _ _ g | .rlaunchStop _ _ _ g | .routw _ _ _ g | .publ _ _ _ g | .tvq _ _ _ g
  | .retain _ _ _ g | .repl _ _ _ g | .rcvrVer _ _ _ g | .rcvrHand _ _ g | .trimSync _ _ _ g | .trimForce _ _ _ g | .twaitAny _ _ g
  | .twaitAll _ _ g | .tffr _ _ g | .tclr _ _ g | .cntrd _ _ g | .cntset _ _ _ g | .waitc _ _ _ _ g | .ctxs _ _ _ g | .ctxr _ _ g
  | .poisq _ _ g | .nop g | .halt g | .yield g | .bkpt _ g | .trap _ g | .eret g | .phase g => some g
  | _ => none

/-- The scalar registers that an SQ word reads, in the order in which a mark is met (R294). -/
def sourcesOf (i : Instr) : List Reg := match i with
  | .add _ a b _ | .sub _ a b _ | .mul _ a b _ | .mulh _ a b _ | .mulhn _ a b _ | .div _ a b _ | .divn _ a b _ | .rem _ a b _
  | .remn _ a b _ | .and _ a b _ | .or _ a b _ | .xor _ a b _ | .shl _ a b _ | .shr _ a b _ | .sra _ a b _ | .min _ a b _
  | .max _ a b _ | .minn _ a b _ | .maxn _ a b _ | .lea _ a b _ _ | .sel _ _ a b _ | .cmpeq _ a b _ | .cmpne _ a b _
  | .cmplt _ a b _ | .cmple _ a b _ | .cmpltn _ a b _ | .cmplen _ a b _ | .aadd _ a b _ _ | .aaddf _ a b _ _ | .axchg _ a b _ _
  | .amax _ a b _ _ | .amin _ a b _ _ | .amaxf _ a b _ _ | .aincb _ a b _ _ | .aincw _ a b _ _ | .aaddl _ a b _ _
  | .aaddN a b _ _ | .aaddfN a b _ _ | .axchgN a b _ _ | .amaxN a b _ _ | .aminN a b _ _ | .amaxfN a b _ _ | .aincbN a b _ _
  | .aincwN a b _ _ | .aaddlN a b _ _ | .axadd a b _ _ | .waitwEq _ a b _ _ | .waitwNe _ a b _ _ | .waitwGe _ a b _ _
  | .waitwLt _ a b _ _ | .enq _ a b _ | .enqw _ a b _ | .spawn _ a b _ | .qget _ a b _ | .evreg _ a b _ | .otw _ a b _
  | .gbind _ a b _ | .ptinv a b _ | .rlaunchStart _ a b _ | .rlaunchUpdate _ a b _ | .rlaunchStop _ a b _ | .routw _ a b _
  | .tvq _ a b _ | .retain _ a b _ | .repl _ a b _ | .rcvrVer _ a b _ | .trimSync _ a b _ | .trimForce _ a b _ | .cntset _ a b _
  | .ctxs _ a b _ => [a, b]
  | .clz _ a _ | .ctz _ a _ | .popc _ a _ | .sext8 _ a _ | .sext16 _ a _ | .sext32 _ a _ | .zext8 _ a _ | .zext16 _ a _
  | .zext32 _ a _ | .addi _ a _ _ | .andi _ a _ _ | .ori _ a _ _ | .xori _ a _ _ | .shli _ a _ _ | .shri _ a _ _ | .srai _ a _ _
  | .cmpeqi _ a _ _ | .cmplti _ a _ _ | .jmp a _ | .wrc _ a _ | .ldI8 _ a _ _ _ | .ldN8 _ a _ _ _ | .ldI16 _ a _ _ _
  | .ldN16 _ a _ _ _ | .ldI32 _ a _ _ _ | .ldN32 _ a _ _ _ | .ld64 _ a _ _ _ | .lda _ a _ _ _ _ | .axrd _ a _ _ | .alock a _ _
  | .aunlk a _ _ | .mcw _ a _ | .join a _ | .qput _ a _ | .rclm _ a _ | .rpush _ a _ _ | .rpop _ a _ _ | .wfill _ a _ _
  | .wfree _ a _ _ | .subscr _ a _ _ | .twaitAny _ a _ | .twaitAll _ a _ | .tffr _ a _ | .tclr _ a _ | .cntrd _ a _
  | .ctxr _ a _ | .poisq _ a _
  | .aclrmax _ a _ _ | .adecz _ a _ _ | .aclrmaxN a _ _ | .adeczN a _ _ => [a]
  | .loop d _ _ | .sethi d _ _ => [d]
  | .ret _ => [31]
  | .st8 d a _ _ _ | .st16 d a _ _ _ | .st32 d a _ _ _ | .st64 d a _ _ _ | .stl d a _ _ _ _ => [d, a]
  | .acas d a b _ _ | .acasN d a b _ _ | .publ d a b _ => [d, a, b]
  | .rcvrHand _ b _ => [b]
  | _ => []

/-- The destination of an SQ word that computes a value for a register and does nothing else (R176 to R180, R189, R434). -/
def valueDest (i : Instr) : Option Reg := match i with
  | .add d _ _ _ | .sub d _ _ _ | .mul d _ _ _ | .mulh d _ _ _ | .mulhn d _ _ _ | .div d _ _ _ | .divn d _ _ _ | .rem d _ _ _
  | .remn d _ _ _ | .and d _ _ _ | .or d _ _ _ | .xor d _ _ _ | .shl d _ _ _ | .shr d _ _ _ | .sra d _ _ _ | .clz d _ _
  | .ctz d _ _ | .popc d _ _ | .min d _ _ _ | .max d _ _ _ | .minn d _ _ _ | .maxn d _ _ _ | .sext8 d _ _ | .sext16 d _ _
  | .sext32 d _ _ | .zext8 d _ _ | .zext16 d _ _ | .zext32 d _ _ | .lea d _ _ _ _ | .sel d _ _ _ _ | .addi d _ _ _
  | .andi d _ _ _ | .ori d _ _ _ | .xori d _ _ _ | .shli d _ _ _ | .shri d _ _ _ | .srai d _ _ _ | .movi d _ _ | .sethi d _ _
  | .rdc d _ _ | .tffr d _ _ => some d
  | .rdseq a _ _ => some a
  | _ => none

/-- The predicate that a comparison or a word of predicate logic writes (R181, R182). -/
def predDest (i : Instr) : Option Pred := match i with
  | .cmpeq pd _ _ _ | .cmpne pd _ _ _ | .cmplt pd _ _ _ | .cmple pd _ _ _ | .cmpltn pd _ _ _ | .cmplen pd _ _ _ | .pand pd _ _ _
  | .por pd _ _ _ | .pxor pd _ _ _ | .pnot pd _ _ | .cmpeqi pd _ _ _ | .cmplti pd _ _ _ => some pd
  | _ => none

/-- The words that transfer control (R183 to R187), NOP, BKPT, TRAP and ERET. -/
def transfers (i : Instr) : Bool := match i with
  | .br _ _ _ | .call _ _ _ | .jmp _ _ | .ret _ | .loop _ _ _ | .nop _ | .bkpt _ _ | .trap _ _ | .eret _ => true
  | _ => false

/-- The register that a transfer writes: a31 for CALL, the counter for LOOP; a0, which discards writes, for the others. -/
def linkOf (i : Instr) : Reg := match i with
  | .call _ _ _ => 31
  | .loop d _ _ => d
  | _ => 0

/-! ## States in good order -/

/-- The turn is idle, or one that the device offers. -/
def State.turnOk (s : State) : Prop := s.turn = .idle ∨ s.turn ∈ s.turns

end Sys2Proof.Machine
end

