-- ==== Sys2Proof/Certificates/Slice0/Obligations.lean ====
section
/-! DEFINITION. The statements about the DN-256 that are put to the provers. Each docstring names the rules that a statement formalises. -/

open Sys2Proof Sys2Proof.Machine

/-! ## The sequencer: values, predicates, transfers -/

/-- R176: the words of the integer group write the values of its table. R176: CLZ, CTZ and POPC count, with 64 zeros in 0; SEXT and ZEXT
extend the low bits. R177: the divisions truncate toward zero; a zero divisor gives all ones and the dividend, and the one signed overflow
−2^63 and 0. R178: bit by bit, the shifts by any register count and by an immediate: zeros come in, or copies of bit 63 for SRA and SRAI. -/
def Obligations.ScalarValues : Prop :=
  (∀ (s : State) (c k : Nat) (x : Ctx) (g : Pred) (d a b : Reg), SqAt s c k x g [a, b] →
    exec (.add d a b g) s = regResult s c k x d (x.reg a + x.reg b) ∧
    exec (.sub d a b g) s = regResult s c k x d (x.reg a - x.reg b) ∧
    exec (.mul d a b g) s = regResult s c k x d (((x.reg a).setWidth 128 * (x.reg b).setWidth 128).extractLsb' 0 64) ∧
    exec (.mulh d a b g) s = regResult s c k x d (((x.reg a).signExtend 128 * (x.reg b).signExtend 128).extractLsb' 64 64) ∧
    exec (.mulhn d a b g) s = regResult s c k x d (((x.reg a).setWidth 128 * (x.reg b).setWidth 128).extractLsb' 64 64) ∧
    exec (.and d a b g) s = regResult s c k x d (x.reg a &&& x.reg b) ∧
    exec (.or d a b g) s = regResult s c k x d (x.reg a ||| x.reg b) ∧
    exec (.xor d a b g) s = regResult s c k x d (x.reg a ^^^ x.reg b) ∧
    exec (.min d a b g) s = regResult s c k x d (if (x.reg a).sle (x.reg b) then x.reg a else x.reg b) ∧
    exec (.max d a b g) s = regResult s c k x d (if (x.reg a).sle (x.reg b) then x.reg b else x.reg a) ∧
    exec (.minn d a b g) s = regResult s c k x d (if x.reg a ≤ x.reg b then x.reg a else x.reg b) ∧
    exec (.maxn d a b g) s = regResult s c k x d (if x.reg a ≤ x.reg b then x.reg b else x.reg a) ∧
    (∀ sh, exec (.lea d a b sh g) s = regResult s c k x d (x.reg a + x.reg b * BitVec.ofNat 64 (2 ^ sh.toNat))) ∧
    ∀ p, exec (.sel d p a b g) s = regResult s c k x d (if x.pred p then x.reg a else x.reg b)) ∧
  (∀ (s : State) (c k : Nat) (x : Ctx) (g : Pred) (d a : Reg), SqAt s c k x g [a] →
    (∃ v : Word, exec (.clz d a g) s = regResult s c k x d v ∧ v.toNat ≤ 64 ∧
      (∀ i, i < v.toNat → (x.reg a).getLsbD (63 - i) = false) ∧ (v.toNat < 64 → (x.reg a).getLsbD (63 - v.toNat) = true)) ∧
    (∃ v : Word, exec (.ctz d a g) s = regResult s c k x d v ∧ v.toNat ≤ 64 ∧
      (∀ i, i < v.toNat → (x.reg a).getLsbD i = false) ∧ (v.toNat < 64 → (x.reg a).getLsbD v.toNat = true)) ∧
    exec (.popc d a g) s = regResult s c k x d (BitVec.ofNat 64 ((List.range 64).filter fun i => (x.reg a).getLsbD i).length) ∧
    (∃ v : Word, exec (.sext8 d a g) s = regResult s c k x d v ∧ v.toInt = ((x.reg a).toInt).bmod (2 ^ 8)) ∧
    (∃ v : Word, exec (.sext16 d a g) s = regResult s c k x d v ∧ v.toInt = ((x.reg a).toInt).bmod (2 ^ 16)) ∧
    (∃ v : Word, exec (.sext32 d a g) s = regResult s c k x d v ∧ v.toInt = ((x.reg a).toInt).bmod (2 ^ 32)) ∧
    (∃ v : Word, exec (.zext8 d a g) s = regResult s c k x d v ∧ v.toNat = (x.reg a).toNat % 2 ^ 8) ∧
    (∃ v : Word, exec (.zext16 d a g) s = regResult s c k x d v ∧ v.toNat = (x.reg a).toNat % 2 ^ 16) ∧
    ∃ v : Word, exec (.zext32 d a g) s = regResult s c k x d v ∧ v.toNat = (x.reg a).toNat % 2 ^ 32) ∧
  (∀ (s : State) (c k : Nat) (x : Ctx) (g : Pred) (d a b : Reg), SqAt s c k x g [a, b] →
    ∃ q r qn rn : Word,
      exec (.div d a b g) s = regResult s c k x d q ∧ exec (.rem d a b g) s = regResult s c k x d r ∧
      exec (.divn d a b g) s = regResult s c k x d qn ∧ exec (.remn d a b g) s = regResult s c k x d rn ∧
      (x.reg b = 0 → q = BitVec.allOnes 64 ∧ r = x.reg a ∧ qn = BitVec.allOnes 64 ∧ rn = x.reg a) ∧
      ((x.reg a).toInt = -2 ^ 63 → (x.reg b).toInt = -1 → q.toInt = -2 ^ 63 ∧ r = 0) ∧
      (x.reg b ≠ 0 → ¬ ((x.reg a).toInt = -2 ^ 63 ∧ (x.reg b).toInt = -1) →
        q.toInt = (x.reg a).toInt.tdiv (x.reg b).toInt ∧ r.toInt = (x.reg a).toInt.tmod (x.reg b).toInt) ∧
      (x.reg b ≠ 0 → qn.toNat = (x.reg a).toNat / (x.reg b).toNat ∧ rn.toNat = (x.reg a).toNat % (x.reg b).toNat)) ∧
  (∀ (s : State) (c k : Nat) (x : Ctx) (g : Pred) (d a : Reg),
    let shl := fun (n : Nat) (v : Word) => ∀ i, i < 64 → v.getLsbD i = (decide (n ≤ i) && (x.reg a).getLsbD (i - n))
    let shr := fun (n : Nat) (v : Word) => ∀ i, i < 64 → v.getLsbD i = (x.reg a).getLsbD (i + n)
    let sra := fun (n : Nat) (v : Word) => ∀ i, i < 64 → v.getLsbD i = (x.reg a).getLsbD (min 63 (i + n))
    (∀ b, SqAt s c k x g [a, b] →
      (∃ v, exec (.shl d a b g) s = regResult s c k x d v ∧ shl (x.reg b).toNat v) ∧
      (∃ v, exec (.shr d a b g) s = regResult s c k x d v ∧ shr (x.reg b).toNat v) ∧
      ∃ v, exec (.sra d a b g) s = regResult s c k x d v ∧ sra (x.reg b).toNat v) ∧
    ∀ n : BitVec 6, SqAt s c k x g [a] →
      (∃ v, exec (.shli d a n g) s = regResult s c k x d v ∧ shl n.toNat v) ∧
      (∃ v, exec (.shri d a n g) s = regResult s c k x d v ∧ shr n.toNat v) ∧
      ∃ v, exec (.srai d a n g) s = regResult s c k x d v ∧ sra n.toNat v)

/-- R179, R180: the immediate forms. R181, R182: the comparisons and the predicate logic write pd. -/
def Obligations.ImmediatesAndPredicates : Prop :=
  (∀ (s : State) (c k : Nat) (x : Ctx) (g : Pred) (d a : Reg) (imm : BitVec 13) (j : BitVec 18),
    (SqAt s c k x g [a] →
      exec (.addi d a imm g) s = regResult s c k x d (x.reg a + BitVec.ofInt 64 imm.toInt) ∧
      exec (.andi d a imm g) s = regResult s c k x d (x.reg a &&& BitVec.ofInt 64 imm.toInt) ∧
      exec (.ori d a imm g) s = regResult s c k x d (x.reg a ||| BitVec.ofNat 64 imm.toNat) ∧
      exec (.xori d a imm g) s = regResult s c k x d (x.reg a ^^^ BitVec.ofNat 64 imm.toNat)) ∧
    (SqAt s c k x g [] → exec (.movi d j g) s = regResult s c k x d (BitVec.ofInt 64 j.toInt)) ∧
    (SqAt s c k x g [d] →
      exec (.sethi d j g) s = regResult s c k x d (BitVec.ofNat 64 (j.toNat * 2 ^ 46 + (x.reg d).toNat % 2 ^ 46)))) ∧
  (∀ (s : State) (c k : Nat) (x : Ctx) (g pd pa pb : Pred) (a b : Reg) (imm : BitVec 13),
    (SqAt s c k x g [a, b] →
      exec (.cmpeq pd a b g) s = predResult s c k x pd (decide (x.reg a = x.reg b)) ∧
      exec (.cmpne pd a b g) s = predResult s c k x pd (decide (x.reg a ≠ x.reg b)) ∧
      exec (.cmplt pd a b g) s = predResult s c k x pd (BitVec.slt (x.reg a) (x.reg b)) ∧
      exec (.cmple pd a b g) s = predResult s c k x pd (BitVec.sle (x.reg a) (x.reg b)) ∧
      exec (.cmpltn pd a b g) s = predResult s c k x pd (BitVec.ult (x.reg a) (x.reg b)) ∧
      exec (.cmplen pd a b g) s = predResult s c k x pd (BitVec.ule (x.reg a) (x.reg b))) ∧
    (SqAt s c k x g [a] →
      exec (.cmpeqi pd a imm g) s = predResult s c k x pd (decide ((x.reg a).toInt = imm.toInt)) ∧
      exec (.cmplti pd a imm g) s = predResult s c k x pd (decide ((x.reg a).toInt < imm.toInt))) ∧
    (SqAt s c k x g [] →
      exec (.pand pd pa pb g) s = predResult s c k x pd (x.pred pa && x.pred pb) ∧
      exec (.por pd pa pb g) s = predResult s c k x pd (x.pred pa || x.pred pb) ∧
      exec (.pxor pd pa pb g) s = predResult s c k x pd (decide (x.pred pa ≠ x.pred pb)) ∧
      exec (.pnot pd pa g) s = predResult s c k x pd (!x.pred pa)))

/-- R138, R162, R294: what the writes of the statements above do. A register takes the value and loses its mark, a0 reads 0 and discards
writes; a predicate takes the value, p0 reads true and discards writes; nothing else of the context changes but the word offset. -/
def Obligations.RegisterWrites : Prop :=
  ∀ (x : Ctx) (d r : Reg) (pd p : Pred) (v : Word) (w : Bool),
    (x.setReg d v).reg r = (if r = 0 then 0 else if r = d then v else x.reg r) ∧
    (x.setReg d v).marked [r] = (if r = d then none else x.marked [r]) ∧
    { x.setReg d v with a := x.a, apois := x.apois } = x ∧
    (x.setPred pd w).pred p = (if p = 0 then true else if p = pd then w else x.pred p) ∧
    { x.setPred pd w with p := x.p } = x ∧
    x.step.pc = x.pc + 1 ∧ { x.step with pc := x.pc } = x

/-- R174: a word whose guard reads false only advances the offset by 1. R294, R459: a word that would read a marked register does not
execute; its task aborts with POISON and the address, and its entries that have not started are removed. -/
def Obligations.WordsThatDoNotExecute : Prop :=
  (∀ (i : Instr) (g : Pred) (s : State) (c k : Nat) (x : Ctx), guardOf i = some g → SqTurn s c k x → x.pred g = false →
    exec i s = ctxResult s c k { x with pc := x.pc + 1 }) ∧
  (∀ (i : Instr) (g : Pred) (s : State) (c k : Nat) (x : Ctx) (v : Word),
    guardOf i = some g → SqTurn s c k x → x.pred g = true → x.marked (sourcesOf i) = some v →
    ∃ t, exec i s = .next t ∧ t.ctx? c k = some { x with life := .aborting ⟨10, v⟩ } ∧ (t.core c).active ≠ some k ∧
      (∀ e, ∀ n ∈ (t.core c).chain e, n.slot = k → n.started = true ∨ n.resume = true) ∧
      (∀ d j, (d, j) ≠ (c, k) → t.ctx? d j = s.ctx? d j) ∧ { t with cores := s.cores } = s)

/-- R183 to R187: transfers whose target is a word of the program, and LOOP and SB words that do not transfer. R183, R194: a transfer that
would leave the program raises ILLOP with its target; no register or predicate changes, and the handler finds the word's own offset in EPC.
-/
def Obligations.TransfersOfControl : Prop :=
  (∀ (s : State) (c k : Nat) (x : Ctx) (g p : Pred) (neg : Bool) (a d : Reg) (off : BitVec 22) (imm : BitVec 13),
    let goes := fun (t : Int) => 0 ≤ t ∧ t < (s.sqWords c x).length
    let far : Int := x.pc.toNat + off.toInt
    let near : Int := x.pc.toNat + imm.toInt
    (SqAt s c k x 0 [] → x.pred p ≠ neg → goes far →
      exec (.br p neg off) s = ctxResult s c k { x with pc := BitVec.ofInt 32 far } ∧
      exec (.call p neg off) s = ctxResult s c k { x.setReg 31 (BitVec.ofNat 64 (x.pc.toNat + 1)) with pc := BitVec.ofInt 32 far }) ∧
    (SqAt s c k x 0 [] → x.pred p = neg →
      exec (.br p neg off) s = ctxResult s c k x.step ∧ exec (.call p neg off) s = ctxResult s c k x.step) ∧
    (SqAt s c k x g [a] → goes (x.reg a).toNat → exec (.jmp a g) s = ctxResult s c k { x with pc := (x.reg a).setWidth 32 }) ∧
    (SqAt s c k x g [31] → goes (x.reg 31).toNat → exec (.ret g) s = ctxResult s c k { x with pc := (x.reg 31).setWidth 32 }) ∧
    (SqAt s c k x g [d] → x.reg d = 0 → exec (.loop d imm g) s = ctxResult s c k x.step) ∧
    (SqAt s c k x g [d] → x.reg d = 1 → exec (.loop d imm g) s = regResult s c k x d 0) ∧
    (SqAt s c k x g [d] → 1 < (x.reg d).toNat → goes near →
      exec (.loop d imm g) s = ctxResult s c k { x.setReg d (x.reg d - 1) with pc := BitVec.ofInt 32 near })) ∧
  (∀ (s : State) (c k : Nat) (x : Ctx) (g p : Pred) (neg : Bool) (a d : Reg) (off : BitVec 22) (imm : BitVec 13),
    s.handlerReady c x →
    let leaves := fun (t : Int) => t < 0 ∨ ((s.sqWords c x).length : Int) ≤ t
    let trapped := fun (o : Out) (v : Int) => ∃ y, o = ctxResult s c k y ∧ y.epc = x.pc ∧ y.trapc = 1 ∧ y.trapv = BitVec.ofInt 64 v ∧
      y.inh = true ∧ y.pc = x.tvec.setWidth 32 ∧ y.life = .running ∧ y.a = x.a ∧ y.p = x.p
    let far : Int := x.pc.toNat + off.toInt
    let near : Int := x.pc.toNat + imm.toInt
    (SqAt s c k x 0 [] → x.pred p ≠ neg → leaves far →
      trapped (exec (.br p neg off) s) far ∧ trapped (exec (.call p neg off) s) far) ∧
    (SqAt s c k x g [a] → leaves (x.reg a).toNat → trapped (exec (.jmp a g) s) (x.reg a).toNat) ∧
    (SqAt s c k x g [31] → leaves (x.reg 31).toNat → trapped (exec (.ret g) s) (x.reg 31).toNat) ∧
    (SqAt s c k x g [d] → 1 < (x.reg d).toNat → leaves near → trapped (exec (.loop d imm g) s) near))

/-- R194, R195, R196: TRAP and BKPT complete and enter the handler: EPC is the next offset, TRAPC holds SW with code 0 or the code 8 of
BKPT, TRAPV the word's number, INH is set, and the SQ goes on at TVEC's offset. Registers, predicates and memory stay. R194: without a
handler, or inside it, the task aborts with the cause: 0 with the number for TRAP, 8 for BKPT. -/
def Obligations.SoftwareTraps : Prop :=
  (∀ (s : State) (c k : Nat) (x : Ctx) (g : Pred) (n : BitVec 13), SqAt s c k x g [] → s.handlerReady c x →
    let entered := fun (o : Out) (trapc : Half) => ∃ y, o = ctxResult s c k y ∧ y.epc = x.pc + 1 ∧ y.trapc = trapc ∧
      y.trapv = BitVec.ofNat 64 n.toNat ∧ y.inh = true ∧ y.pc = x.tvec.setWidth 32 ∧ y.life = .running ∧ y.a = x.a ∧ y.p = x.p ∧
      y.apois = x.apois ∧ y.tvec = x.tvec ∧ y.tscr = x.tscr ∧ y.sys = x.sys ∧ y.l = x.l
    entered (exec (.trap n g) s) 0x80000000 ∧ entered (exec (.bkpt n g) s) 8) ∧
  (∀ (s : State) (c k : Nat) (x : Ctx) (g : Pred) (n : BitVec 13), SqAt s c k x g [] →
    (x.inh = true ∨ x.tvec.getLsbD 63 = false ∨ (s.sqWords c x).length ≤ (x.tvec.setWidth 32).toNat) →
    let aborted := fun (o : Out) (code : Nat) => ∃ t, o = .next t ∧
      t.ctx? c k = some { x with life := .aborting ⟨code, BitVec.ofNat 64 n.toNat⟩ } ∧ (t.core c).active ≠ some k ∧ { t with cores := s.cores } = s
    aborted (exec (.trap n g) s) 0 ∧ aborted (exec (.bkpt n g) s) 8)

/-- R197: ERET clears INH and goes on at EPC, and changes nothing else that a program sees; outside the handler it raises ILLOP with 0. -/
def Obligations.ReturnFromHandler : Prop :=
  ∀ (s : State) (c k : Nat) (x : Ctx) (g : Pred), SqAt s c k x g [] →
    (x.inh = true → x.epc.toNat < (s.sqWords c x).length →
      exec (.eret g) s = ctxResult s c k { x with inh := false, chkpt := false, pc := x.epc }) ∧
    (x.inh = true → (s.sqWords c x).length ≤ x.epc.toNat →
      ∃ t, exec (.eret g) s = .next t ∧ t.ctx? c k = some { x with life := .aborting ⟨1, x.epc.setWidth 64⟩ }) ∧
    (s.handlerReady c x → ∃ y, exec (.eret g) s = ctxResult s c k y ∧ y.epc = x.pc ∧ y.trapc = 1 ∧ y.trapv = 0 ∧ y.inh = true ∧
      y.pc = x.tvec.setWidth 32 ∧ y.a = x.a)

/-- R191, R192, R188, R193: NOP only goes on; HALT ends the context's program, which leaves the SQ; a FENCE goes on once the context has no
access of the classes in its mask outstanding, or with mask 0; a YIELD goes on where no ready task is to be preferred. R193, R63: a YIELD
for which an eligible ready task of at least its priority exists gives up the core: the context leaves its slot, its task is ready, and its
image resumes at the next word. The model's own: a task of a partition in a quiesce does not count for YIELD (log 60). -/
def Obligations.SystemWordsAndYield : Prop :=
  (∀ (s : State) (c k : Nat) (x : Ctx) (g : Pred), SqAt s c k x g [] →
    exec (.nop g) s = ctxResult s c k x.step ∧
    (∃ t, exec (.halt g) s = .next t ∧ t.ctx? c k = some { x with pc := x.pc + 1, life := .halted } ∧ (t.core c).active ≠ some k ∧
      { t with cores := s.cores } = s) ∧
    (∀ (m : BitVec 16) sc, m = 0 ∨ (∀ o ∈ x.loads ++ x.stores, ∀ cls, o.cls = some cls → o.done = false → m.getLsbD cls = false) → exec (.fence m sc g) s = ctxResult s c k x.step) ∧
    (∀ t, s.task? x.part x.tid = some t →
      recGang t.record ≠ 0 ∨ x.inline = true ∨ x.inh = true ∨ (∀ u ∈ s.tasks, u.st = .ready → s.effPri u < s.effPri t) →
      exec (.yield g) s = ctxResult s c k x.step)) ∧
  (∀ (s : State) (c k : Nat) (x : Ctx) (g : Pred) (t u : Task), SqAt s c k x g [] → s.task? x.part x.tid = some t →
    recGang t.record = 0 → x.inline = false → x.inh = false → s.canSave c k = true →
    u ∈ s.tasks → u.st = .ready → (s.part u.part).quiesce = none → s.eligible c u = true → s.effPri t ≤ s.effPri u →
    ∃ v, exec (.yield g) s = .next v ∧ v.ctx? c k = none ∧
      ∃ w, v.task? x.part x.tid = some w ∧ w.st = .ready ∧ ∃ i ∈ w.images, i.role = x.role ∧ i.ctx.pc = x.pc + 1 ∧ i.ctx.a = x.a ∧
        i.ctx.p = x.p ∧ i.fromCore = c ∧ i.fromSlot = k)

/-! ## Control registers -/

/-- R165 to R171, R189, R430, R440: RDC writes the register's value, its fields at the places of their maps and zeros
elsewhere; of SLFW, the low 14 bits. -/
def Obligations.ControlRegisterReads : Prop :=
  ∀ (s : State) (c k : Nat) (x : Ctx) (g : Pred) (d : Reg), SqAt s c k x g [] → x.part < 8 → c < 256 → k < 16 →
    let reads := fun (cr : CReg) (v : Word) => exec (.rdc d cr g) s = regResult s c k x d v
    reads .cyc (s.core c).cyc ∧
    reads .ctxid (BitVec.ofNat 49 0 ++ BitVec.ofNat 3 x.part ++ BitVec.ofNat 8 c ++ BitVec.ofNat 4 k) ∧
    (∀ t, s.task? x.part x.tid = some t →
      reads .prio (BitVec.ofNat 52 0 ++ BitVec.ofNat 4 (recPri x.record) ++ BitVec.ofNat 4 (min 15 t.aged) ++ BitVec.ofNat 4 (s.effPri t))) ∧
    reads .sst (BitVec.ofNat 60 0 ++ BitVec.ofBool x.inline ++ BitVec.ofBool x.recomp ++ BitVec.ofBool x.inh ++ BitVec.ofBool x.sys) ∧
    reads .tvec x.tvec ∧ reads .epc (BitVec.ofNat 32 0 ++ x.epc) ∧ reads .trapc (BitVec.ofNat 32 0 ++ x.trapc) ∧
    reads .trapv x.trapv ∧ reads .tscr x.tscr ∧ reads .ocls (BitVec.ofNat 60 0 ++ x.ocls) ∧ reads .vshp x.vshp ∧
    reads .vwb (BitVec.ofNat 58 0 ++ x.vwb) ∧ reads .rstrm (BitVec.ofNat 32 0 ++ x.rstrm) ∧
    (x.held < 2 ^ 48 → reads .accpart (BitVec.ofNat 48 x.held ++ x.win)) ∧
    reads .mscnt (BitVec.ofNat 32 0 ++ x.me.mscnt) ∧ reads .mvar (BitVec.ofNat 32 0 ++ x.me.mvar) ∧ reads .tags x.tags ∧
    (x.loads.length < 2 ^ 14 → x.stores.length < 2 ^ 14 → x.tiles.length < 2 ^ 12 → s.copies x < 2 ^ 7 →
      reads .osc (BitVec.ofNat 8 0 ++ BitVec.ofNat 14 x.loads.length ++ BitVec.ofNat 14 x.stores.length ++ BitVec.ofNat 12 x.tiles.length ++
        BitVec.ofNat 9 0 ++ BitVec.ofNat 7 (s.copies x))) ∧
    (x.creg < 2 ^ 12 →
      reads .detm (BitVec.ofNat 19 0 ++ BitVec.ofBool x.det ++ BitVec.ofNat 12 x.creg ++ BitVec.ofBool x.ctl ++ BitVec.ofNat 25 0 ++ x.kern)) ∧
    reads .phase (BitVec.ofNat 32 0 ++ x.phase) ∧
    ∃ v : Word, reads .slfw v ∧ v.toNat % 2 ^ 14 = (s.die (c / 64)).pos.toNat

/-- R190: WRC writes the writable fields of its register and nothing else; a register that is only readable does not change; VWB and DETM
take a value at system level alone, where VWB names a window of a context of the partition, and ACCPART waits until the accumulator rests
(R244). -/
def Obligations.ControlRegisterWrites : Prop :=
  ∀ (s : State) (c k : Nat) (x : Ctx) (g : Pred) (a : Reg), SqAt s c k x g [a] →
    let v := x.reg a
    let writes := fun (cr : CReg) (y : Ctx) => exec (.wrc cr a g) s = ctxResult s c k { y with pc := x.pc + 1 }
    let bit := fun (i : Nat) => BitVec.ofBool (v.getLsbD i)
    writes .tvec { x with tvec := bit 63 ++ BitVec.ofNat 31 0 ++ v.extractLsb' 0 32 } ∧
    writes .epc { x with epc := v.extractLsb' 0 32 } ∧
    writes .trapc { x with trapc := bit 31 ++ bit 30 ++ BitVec.ofNat 14 0 ++ v.extractLsb' 0 16 } ∧
    writes .trapv { x with trapv := v } ∧ writes .tscr { x with tscr := v } ∧ writes .ocls { x with ocls := v.extractLsb' 0 4 } ∧
    writes .vshp { x with vshp := BitVec.ofNat 37 0 ++ v.extractLsb' 16 11 ++ BitVec.ofNat 12 0 ++ v.extractLsb' 0 4 } ∧
    (x.sys = true → s.windowOf c x.part (v.extractLsb' 0 6).toNat = true → writes .vwb { x with vwb := v.extractLsb' 0 6 }) ∧
    (x.sys = true → writes .detm { x with creg := (v.extractLsb' 32 12).toNat, ctl := v.getLsbD 31, kern := v.extractLsb' 0 6 }) ∧
    (s.accIdle c k x = true → ∃ w, writes .accpart { x with win := w, tileTag := x.tileTag.filter fun q => !(x.win.getLsbD q.1 && !w.getLsbD q.1) } ∧
      ∀ i, i < 16 → w.getLsbD i = (v.getLsbD i && decide (i < x.held))) ∧
    (∀ cr ∈ [CReg.cyc, .ctxid, .prio, .sst, .rstrm, .mscnt, .mvar, .tags, .osc, .phase, .slfw], writes cr x) ∧
    (x.sys = false → s.handlerReady c x → ∀ cr ∈ [CReg.vwb, .detm], ∃ y, exec (.wrc cr a g) s = ctxResult s c k y ∧ y.epc = x.pc ∧ y.trapc = 2 ∧
      y.trapv = BitVec.ofNat 64 (if cr = .vwb then 0x011 else 0x022) ∧ y.inh = true ∧ y.vwb = x.vwb ∧ y.kern = x.kern ∧ y.ctl = x.ctl ∧ y.creg = x.creg)

/-- R33, R165: no word of the integer, immediate, predicate, transfer groups, nor RDC, changes memory, another context, another
core, or a register that it does not name; of its own context it may change the destination, the offset and what a trap or WRC writes. -/
def Obligations.RegisterWordFrame : Prop :=
  ∀ (i : Instr) (s t : State) (c k : Nat) (x : Ctx), SqTurn s c k x → exec i s = .next t →
    let frame := fun (P : Ctx → Prop) => (∀ adr, t.mem.get adr = s.mem.get adr) ∧ { t with cores := s.cores } = s ∧
      (∀ d, d ≠ c → t.core d = s.core d) ∧ (∀ j, j ≠ k → t.ctx? c j = s.ctx? c j) ∧ (t.core c).vrf = (s.core c).vrf ∧
      (t.core c).slices = (s.core c).slices ∧ ∃ y, t.ctx? c k = some y ∧ P y
    (∀ d, valueDest i = some d → frame fun y => (∀ r, r ≠ d → y.reg r = x.reg r) ∧
      { y with a := x.a, apois := x.apois, pc := x.pc, life := x.life } = x) ∧
    (∀ pd, predDest i = some pd → frame fun y => (∀ p, p ≠ pd → y.pred p = x.pred p) ∧
      { y with p := x.p, pc := x.pc, life := x.life } = x) ∧
    (transfers i = true → frame fun y => (∀ r, r ≠ linkOf i → y.reg r = x.reg r) ∧ y.p = x.p ∧ y.tvec = x.tvec ∧ y.tscr = x.tscr ∧
      y.sys = x.sys ∧ y.l = x.l ∧ y.masks = x.masks ∧ y.me = x.me ∧ y.tags = x.tags)

/-! ## Scalar memory words -/

/-- R292, R293, R294: a load from a place of this device, which its class lets perform (R118), writes the bytes read, lowest first, extended as
its form says, and goes on; the register takes a poison mark with the address where a unit read is poisoned. -/
def Obligations.ScalarLoads : Prop :=
  ∀ (s t : State) (c k : Nat) (x : Ctx) (g : Pred) (d a : Reg) (oc : OClass) (off : BitVec 9) (w : Width) (sc : Scope) (p : Target),
    SqAt s c k x g [a] → (∀ dev, p ≠ .remote dev) →
    let adr := fun (size : Nat) => x.reg a + BitVec.ofInt 64 (off.toInt * size)
    let loads := fun (o : Out) (at' : Word) (size : Nat) (ext : BitVec (8 * size) → Word) =>
      at'.toNat % size = 0 → s.openSq c k x oc.toNat at' size .read = .go t p →
      let v := ext (BitVec.ofNat (8 * size) (ofBytes (t.readAt p size)))
      o = .next (t.updCtx c k fun y => if t.marksAt p size = [] then y.step.setReg d v else (y.step.setReg d v).markReg d at')
    loads (exec (.ldI8 d a oc off g) s) (adr 1) 1 (fun v => v.signExtend 64) ∧
    loads (exec (.ldN8 d a oc off g) s) (adr 1) 1 (fun v => v.setWidth 64) ∧
    loads (exec (.ldI16 d a oc off g) s) (adr 2) 2 (fun v => v.signExtend 64) ∧
    loads (exec (.ldN16 d a oc off g) s) (adr 2) 2 (fun v => v.setWidth 64) ∧
    loads (exec (.ldI32 d a oc off g) s) (adr 4) 4 (fun v => v.signExtend 64) ∧
    loads (exec (.ldN32 d a oc off g) s) (adr 4) 4 (fun v => v.setWidth 64) ∧
    loads (exec (.ld64 d a oc off g) s) (adr 8) 8 (fun v => v.setWidth 64) ∧
    loads (exec (.lda d a oc sc w g) s) (x.reg a) (widthBytes w) (fun v => v.setWidth 64)

/-- R292, R293: a store writes the low bytes of its register, lowest first, at the place that its address names, once its class lets it
perform (R118), and goes on; every byte of the device's memories outside the place keeps its value, but for a page whose bounce slot moves
into it (R317). STL does so once the context's earlier accesses have performed. The model's own: the moment at which a bounce slot moves
(log 55). R280, R292: a store to an owned line of L changes the bytes stored of that context's L contents and no other byte of them, and a
load of the same bytes reads what was stored. -/
def Obligations.ScalarStoresAndReadBack : Prop :=
  (∀ (s t : State) (c k : Nat) (x : Ctx) (g : Pred) (d a : Reg) (oc : OClass) (off : BitVec 9) (w : Width) (sc : Scope) (p : Target),
    SqAt s c k x g [d, a] → (∀ dev, p ≠ .remote dev) →
    let adr := fun (size : Nat) => x.reg a + BitVec.ofInt 64 (off.toInt * size)
    let stores := fun (o : Out) (at' : Word) (size : Nat) =>
      at'.toNat % size = 0 → s.openSq c k x oc.toNat at' size .write = .go t p →
      let bs := (List.range size).map fun i => (x.reg d).extractLsb' (8 * i) 8
      let u := ((t.crossed c p).writeAt p bs).updCtx c k Ctx.step
      o = .next u ∧ (s.bounceSlot x.part ((at'.extractLsb' 0 56).toNat / 65536) = none → t.mem = s.mem) ∧ ∀ b, u.mem.get b = (match p with
        | .mem pa => if pa ≤ b ∧ b < pa + size then (x.reg d).extractLsb' (8 * (b - pa)) 8 else t.mem.get b
        | .host pa => if pa ≤ b ∧ b < pa + size then (x.reg d).extractLsb' (8 * (b - pa)) 8 else t.mem.get b
        | _ => t.mem.get b)
    stores (exec (.st8 d a oc off g) s) (adr 1) 1 ∧ stores (exec (.st16 d a oc off g) s) (adr 2) 2 ∧
    stores (exec (.st32 d a oc off g) s) (adr 4) 4 ∧ stores (exec (.st64 d a oc off g) s) (adr 8) 8 ∧
    (x.sqPending = [] → stores (exec (.stl d a oc sc w g) s) (x.reg a) (widthBytes w))) ∧
  (∀ (s : State) (c k : Nat) (x : Ctx) (off : Nat) (bs : List Byte), s.ctx? c k = some x →
    ∃ y, (s.writeAt (.l c k off) bs).ctx? c k = some y ∧ (s.writeAt (.l c k off) bs).readAt (.l c k off) bs.length = bs ∧
      (∀ b, b < off ∨ off + bs.length ≤ b → y.l.get b = x.l.get b) ∧ y.a = x.a ∧ y.p = x.p ∧ y.pc = x.pc ∧
      (∀ d j, (d, j) ≠ (c, k) → (s.writeAt (.l c k off) bs).ctx? d j = s.ctx? d j))

/-- R105, R106, R131, R281: where the addresses of L and A lead. A line of L that the context owns, outside any region of its map, is
reached at once, or waits for the banks that a transfer has locked; a slice of A is reached where it is in the window; every other selector
than G's is refused: with PRIV for I, OBJFAULT else. R292, R110, R453: a load or store that is not aligned raises MISALIGN, one whose place
is refused the cause of the refusal, each with the address and before any access: memory and registers stay, EPC is the word's own offset.
-/
def Obligations.SelectorsAndMemoryTraps : Prop :=
  (∀ (s : State) (c k : Nat) (x : Ctx) (adr : Word) (n : Nat) (u : Use),
    let sel := adr.extractLsb' 56 8
    let off := (adr.extractLsb' 0 56).toNat
    (sel = 0x80 → u ≠ .atomic → off < 2 ^ 20 → s.ctx? c k = some x → Tab.find (s.core c).lineOwner (off / 256) = some k → x.regionOf (off / 256) = none →
      s.openAt c k x adr n u = if s.bankHeld c off n then .wait s else .go s (.l c k off)) ∧
    (sel = 0x80 → 2 ^ 20 ≤ off → s.openAt c k x adr n u = .deny 3) ∧
    (sel = 0x81 → off < 2 ^ 22 → off / 2 ^ 18 < x.held → x.win.getLsbD (off / 2 ^ 18) = true → (∀ i, i < x.held → i < x.phys.length) →
      s.openAt c k x adr n u = .go s (.win c (x.phys.getD (off / 2 ^ 18) 0) (off % 2 ^ 18))) ∧
    (sel = 0x81 → (2 ^ 22 ≤ off ∨ x.held ≤ off / 2 ^ 18 ∨ x.win.getLsbD (off / 2 ^ 18) = false) → s.openAt c k x adr n u = .deny 3) ∧
    (sel = 0x82 → s.openAt c k x adr n u = .deny 2) ∧
    (sel ≠ 0 → sel ≠ 0x80 → sel ≠ 0x81 → sel ≠ 0x82 → s.openAt c k x adr n u = .deny 3)) ∧
  (∀ (s : State) (c k : Nat) (x : Ctx) (g : Pred) (d a : Reg) (oc : OClass) (off : BitVec 9) (w : Width) (sc : Scope),
    SqTurn s c k x → x.pred g = true → s.handlerReady c x →
    let adr := fun (size : Nat) => x.reg a + BitVec.ofInt 64 (off.toInt * size)
    let traps := fun (o : Out) (at' : Word) (size : Nat) (u : Use) => ∀ code : Nat, code < 2 ^ 16 →
      (at'.toNat % size ≠ 0 ∧ code = 4 ∨ at'.toNat % size = 0 ∧ s.openAt c k x at' size u = .deny code) →
      ∃ y, o = ctxResult s c k y ∧ y.epc = x.pc ∧ y.trapc = BitVec.ofNat 32 code ∧ y.trapv = at' ∧ y.inh = true ∧
        y.pc = x.tvec.setWidth 32 ∧ y.a = x.a ∧ y.p = x.p ∧ y.l = x.l
    (x.marked [a] = none →
      traps (exec (.ldI8 d a oc off g) s) (adr 1) 1 .read ∧ traps (exec (.ldN8 d a oc off g) s) (adr 1) 1 .read ∧
      traps (exec (.ldI16 d a oc off g) s) (adr 2) 2 .read ∧ traps (exec (.ldN16 d a oc off g) s) (adr 2) 2 .read ∧
      traps (exec (.ldI32 d a oc off g) s) (adr 4) 4 .read ∧ traps (exec (.ldN32 d a oc off g) s) (adr 4) 4 .read ∧
      traps (exec (.ld64 d a oc off g) s) (adr 8) 8 .read ∧ traps (exec (.lda d a oc sc w g) s) (x.reg a) (widthBytes w) .read) ∧
    (x.marked [d, a] = none →
      traps (exec (.st8 d a oc off g) s) (adr 1) 1 .write ∧ traps (exec (.st16 d a oc off g) s) (adr 2) 2 .write ∧
      traps (exec (.st32 d a oc off g) s) (adr 4) 4 .write ∧ traps (exec (.st64 d a oc off g) s) (adr 8) 8 .write ∧
      (x.sqPending = [] → traps (exec (.stl d a oc sc w g) s) (x.reg a) (widthBytes w) .write)))

/-- R292, R53, R445: a load from another device's leaf sends one read request to that device and parks the context after the word until the
answer comes; a store sends its bytes, counts as outstanding and goes on. -/
def Obligations.RemoteScalarAccesses : Prop :=
  ∀ (s t u : State) (c k : Nat) (x y : Ctx) (g : Pred) (d a : Reg) (oc : OClass) (off : BitVec 9) (dev id : Nat),
    t.requestRoom c 1 = true →
    let adr := x.reg a + BitVec.ofInt 64 (off.toInt * 8)
    let bs := (List.range 8).map fun i => (x.reg d).extractLsb' (8 * i) 8
    adr.toNat % 8 = 0 → u.ctx? c k = some y →
    (SqAt s c k x g [a] → s.openSq c k x oc.toNat adr 8 .read = .go t (.remote dev) →
      t.sendRemote x.part dev 1 7 (adr.extractLsb' 0 56).toNat [] = .sent u [id] →
      ∃ v z, exec (.ld64 d a oc off g) s = .next v ∧ v.ctx? c k = some z ∧ z.pc = y.pc + 1 ∧ z.a = y.a ∧ z.loads.length = y.loads.length + 1 ∧
        (∃ w, z.life = .parked (.remote w) false ∧ w.dev = dev ∧ w.addr = adr ∧ w.d = d ∧ w.bits = 64 ∧ w.id = id) ∧ (v.core c).active ≠ some k ∧
        v.outbox = u.outbox ∧ v.mem = u.mem) ∧
    (SqAt s c k x g [d, a] → s.openSq c k x oc.toNat adr 8 .write = .go t (.remote dev) →
      t.sendRemote x.part dev 2 7 (adr.extractLsb' 0 56).toNat bs = .sent u [id] →
      ∃ v z, exec (.st64 d a oc off g) s = .next v ∧ v.ctx? c k = some z ∧ z.pc = y.pc + 1 ∧ z.a = y.a ∧ z.life = y.life ∧
        z.stores.length = y.stores.length + 1 ∧ (∃ o ∈ z.stores, o.devs = [(dev, id)] ∧ o.cls = some oc.toNat ∧ o.done = false) ∧ v.outbox = u.outbox ∧ v.mem = u.mem)

/-! ## Atomics, word waits, locks -/

/-- R298, R299, R300: the integer atomics on a word of a window slice that is not poisoned, where the determinism check lets them through:
the word takes the new value of the table, the returning forms write the old one, the others no register. -/
def Obligations.IntegerAtomics : Prop :=
  ∀ (s t u : State) (c k : Nat) (x : Ctx) (g : Pred) (d a b : Reg) (oc : OClass) (core sl o : Nat),
    let w : Word := BitVec.ofNat 64 (ofBytes (t.readAt (.win core sl o) 8))
    let limit : Word := BitVec.ofNat 64 (ofBytes (t.readAt (.win core sl (o + 8)) 8))
    let v := x.reg b
    let ready := fun (align : Nat) (commutes : Bool) => (x.reg a).toNat % align = 0 ∧
      s.openSq c k x oc.toNat (x.reg a) (min align 64) .atomic = .go t (.win core sl o) ∧ t.marksAt (.win core sl o) 8 = [] ∧
      (t.crossed c (.win core sl o)).detCheck x.detKey core sl o commutes = some u
    let word := fun (new : Word) => if new = w then u else u.writeAt (.win core sl o) (bytesOf 8 new.toNat)
    let returns := fun (i : Instr) (new : Word) => exec i s = .next ((word new).updCtx c k fun y => y.step.setReg d w)
    let quiet := fun (i : Instr) (new : Word) => exec i s = .next ((word new).updCtx c k Ctx.step)
    let incb := if w.ult v then w + 1 else w
    let incw := if v ≠ 0 ∧ v.toNat ≤ w.toNat + 1 then 0 else w + 1
    let decz := if (0 : Word).slt w then w - 1 else w
    let addl := if w.toInt + v.toInt ≤ limit.toInt then w + v else w
    (SqAt s c k x g [a, b] → ready 8 false →
      returns (.aadd d a b oc g) (w + v) ∧ returns (.axchg d a b oc g) v ∧ returns (.amax d a b oc g) (if w.slt v then v else w) ∧
      returns (.amin d a b oc g) (if v.slt w then v else w) ∧ returns (.aincb d a b oc g) incb ∧ returns (.aincw d a b oc g) incw ∧
      quiet (.axchgN a b oc g) v ∧ quiet (.aincbN a b oc g) incb) ∧
    (SqAt s c k x g [d, a, b] → ready 8 false →
      returns (.acas d a b oc g) (if w = x.reg d then v else w) ∧ quiet (.acasN d a b oc g) (if w = x.reg d then v else w)) ∧
    (SqAt s c k x g [a] → ready 8 false → returns (.adecz d a oc g) decz ∧ quiet (.adeczN a oc g) decz) ∧
    (SqAt s c k x g [a, b] → ready 16 false → returns (.aaddl d a b oc g) addl ∧ quiet (.aaddlN a b oc g) addl) ∧
    (SqAt s c k x g [a, b] → ready 8 true →
      quiet (.aaddN a b oc g) (w + v) ∧ quiet (.amaxN a b oc g) (if w.slt v then v else w) ∧
      quiet (.aminN a b oc g) (if v.slt w then v else w) ∧ quiet (.aincwN a b oc g) incw)

/-- R299, R301, R302: the atomics on an FP32 word and on an exact accumulator. Sums are rounded to nearest, AMAXF keeps the larger
magnitude without its sign, ACLRMAX writes +0, AXADD adds exactly in bytes 0 to 55, AXRD only reads. -/
def Obligations.FloatAtomics : Prop :=
  ∀ (s t u : State) (c k : Nat) (x : Ctx) (g : Pred) (d a b : Reg) (oc : OClass) (core sl o : Nat),
    let w := ofBytes (t.readAt (.win core sl o) 4)
    let xa : BitVec 512 := BitVec.ofNat 512 (ofBytes (t.readAt (.win core sl o) 64))
    let f := ((x.reg b).extractLsb' 0 32).toNat
    let ready := fun (align : Nat) (commutes : Bool) => (x.reg a).toNat % align = 0 ∧
      s.openSq c k x oc.toNat (x.reg a) (min align 64) .atomic = .go t (.win core sl o) ∧ t.marksAt (.win core sl o) align = [] ∧
      (t.crossed c (.win core sl o)).detCheck x.detKey core sl o commutes = some u
    let word := fun (r : Nat × Ev) => (u.writeAt (.win core sl o) (bytesOf 4 r.1)).countSq x r.2
    let returns := fun (i : Instr) (r : Nat × Ev) => exec i s = .next ((word r).updCtx c k fun y => y.step.setReg d (BitVec.ofNat 64 w))
    let quiet := fun (i : Instr) (r : Nat × Ev) => exec i s = .next ((word r).updCtx c k Ctx.step)
    let sum := fp32Rne (vAdd false (decodeVal .fp32 w) (decodeVal .fp32 f))
    let top := fp32Rne (vMaxMag (decodeVal .fp32 w) (decodeVal .fp32 f))
    let big := (if isNanBits .fp32 top.1 then top.1 else top.1 % 2 ^ 31, top.2)
    (SqAt s c k x g [a, b] → ready 4 false →
      returns (.aaddf d a b oc g) sum ∧ quiet (.aaddfN a b oc g) sum ∧ returns (.amaxf d a b oc g) big) ∧
    (SqAt s c k x g [a, b] → ready 4 true → quiet (.amaxfN a b oc g) big) ∧
    (SqAt s c k x g [a] → ready 4 false → returns (.aclrmax d a oc g) (0, Ev.zero) ∧ quiet (.aclrmaxN a oc g) (0, Ev.zero)) ∧
    (SqAt s c k x g [a, b] → ready 64 true →
      exec (.axadd a b oc g) s =
        .next ((u.writeAt (.win core sl o) (bytesOf 56 (xaAdd xa ((x.reg b).extractLsb' 0 32)).toNat)).updCtx c k Ctx.step)) ∧
    (SqAt s c k x g [a] → ready 64 false →
      exec (.axrd d a oc g) s = .next ((u.countSq x (xaValue xa).2).updCtx c k fun y => y.step.setReg d (BitVec.ofNat 64 (xaValue xa).1)))

/-- R68: the determinism check. Without a deterministic region it neither reads nor writes the bits; in one, a commutative atomic is refused
where the ordered bit is set and an ordered one where the touched bit is, bits of another region or phase counting as clear; what passes
sets touched, and ordered for an ordered one. R68, R294, R298: what the checks of a window access do. A word whose determinism check fails
raises DETTRAP with the address; on a poisoned unit a returning atomic or a WAITW writes the bits with a mark and leaves the word, and a
non-returning one goes on and its task aborts with POISON and the unit's address; a misaligned address raises MISALIGN. -/
def Obligations.WindowChecks : Prop :=
  (∀ (s : State) (core sl o region phase : Nat) (commutes : Bool),
    let old := Tab.find (s.slice core sl).bits (o / 8)
    let seen := fun (b : DetBits) => b.region = region ∧ b.phase = phase
    s.detCheck none core sl o commutes = some s ∧
    ((∃ b, old = some b ∧ seen b ∧ (if commutes then b.ordered else b.touched) = true) → s.detCheck (some (region, phase)) core sl o commutes = none) ∧
    ((∀ b, old = some b → seen b → (if commutes then b.ordered else b.touched) = false) →
      ∃ t, s.detCheck (some (region, phase)) core sl o commutes = some t ∧
        (∃ b, Tab.find (t.slice core sl).bits (o / 8) = some b ∧ seen b ∧ b.touched = true ∧ (commutes = false → b.ordered = true)) ∧
        (t.slice core sl).bytes = (s.slice core sl).bytes ∧ { t with cores := s.cores } = s)) ∧
  (∀ (s t : State) (c k : Nat) (x y : Ctx) (g : Pred) (d a b : Reg) (oc : OClass) (core sl o : Nat), SqAt s c k x g [d, a, b] →
    let opens := s.openSq c k x oc.toNat (x.reg a) 8 .atomic = .go t (.win core sl o) ∧ (x.reg a).toNat % 8 = 0
    let all := [Instr.aadd d a b oc g, .axchg d a b oc g, .acas d a b oc g, .amax d a b oc g, .amin d a b oc g, .aincb d a b oc g,
      .aincw d a b oc g, .adecz d a oc g, .axchgN a b oc g, .acasN d a b oc g, .aincbN a b oc g, .adeczN a oc g, .waitwEq d a b oc g,
      .waitwNe d a b oc g, .waitwGe d a b oc g, .waitwLt d a b oc g]
    let commuting := [Instr.aaddN a b oc g, .amaxN a b oc g, .aminN a b oc g, .aincwN a b oc g]
    let returning := [Instr.aadd d a b oc g, .axchg d a b oc g, .acas d a b oc g, .amax d a b oc g, .amin d a b oc g, .aincb d a b oc g,
      .aincw d a b oc g, .adecz d a oc g]
    let waiting := [Instr.waitwEq d a b oc g, .waitwNe d a b oc g, .waitwGe d a b oc g, .waitwLt d a b oc g]
    let quiet := [Instr.axchgN a b oc g, .acasN d a b oc g, .aincbN a b oc g, .adeczN a oc g]
    let v := t.crossed c (.win core sl o)
    (opens → v.detCheck x.detKey core sl o false = none → ∀ i ∈ all, exec i s = .next (v.trap c k 6 (x.reg a))) ∧
    (opens → v.detCheck x.detKey core sl o true = none → ∀ i ∈ commuting, exec i s = .next (v.trap c k 6 (x.reg a))) ∧
    (opens → (v.detCheck x.detKey core sl o false).isSome = true → t.marksAt (.win core sl o) 8 ≠ [] → t.ctx? c k = some y →
      (∀ i ∈ returning, exec i s = .next (v.setCtx c k ((y.step.setReg d (BitVec.ofNat 64 (ofBytes (t.readAt (.win core sl o) 8)))).markReg d (x.reg a)))) ∧
      (∀ i ∈ waiting, exec i s = .next (v.setCtx c k ((y.step.setReg d ((t.slice core sl).word o)).markReg d (x.reg a)))) ∧
      ∀ i ∈ quiet, exec i s = .next ((v.setCtx c k y.step).abort c k ⟨10, x.reg a &&& ~~~63#64⟩)) ∧
    ((x.reg a).toNat % 8 ≠ 0 → ∀ i ∈ all ++ commuting, exec i s = .next (s.trap c k 4 (x.reg a))))

/-- R303: a WAITW whose condition holds writes the word to d and goes on; one whose condition does not hold leaves a watch and parks its
context at the word. R304, R305: ALOCK takes a free word for the context and counts it; a word that another holds queues the context, which
parks; AUNLK of the own word frees it, or gives it to the head of its queue without letting it read 0; each refuses what is not its own. -/
def Obligations.WordWaitsAndLocks : Prop :=
  (∀ (s t u : State) (c k : Nat) (x : Ctx) (g : Pred) (d a b : Reg) (oc : OClass) (core sl o : Nat), SqAt s c k x g [a, b] →
    (x.reg a).toNat % 8 = 0 → s.openSq c k x oc.toNat (x.reg a) 8 .atomic = .go t (.win core sl o) → t.marksAt (.win core sl o) 8 = [] →
    (t.crossed c (.win core sl o)).detCheck x.detKey core sl o false = some u →
    let w := (t.slice core sl).word o
    let v := x.reg b
    let waits := fun (i : Instr) (cond : WCond) (holds : Bool) =>
      (holds = true → exec i s = .next (u.updCtx c k fun y => y.step.setReg d w)) ∧
      (holds = false → (u.ctx? c k).isSome = true → ∃ r z, exec i s = .next r ∧ r.ctx? c k = some z ∧ z.life = .parked (.wait d (x.reg a)) false ∧
        z.pc = ((u.ctx? c k).getD x).pc ∧ (r.core c).active ≠ some k ∧ ⟨x.part, x.tid, x.role, sl, o, cond, v, none, false⟩ ∈ (r.core core).watches ∧
        r.mem = u.mem)
    waits (.waitwEq d a b oc g) .eq (decide (w = v)) ∧ waits (.waitwNe d a b oc g) .ne (decide (w ≠ v)) ∧
    waits (.waitwGe d a b oc g) .ge (v.sle w) ∧ waits (.waitwLt d a b oc g) .lt (w.slt v)) ∧
  (∀ (s t u : State) (c k : Nat) (x : Ctx) (g : Pred) (a : Reg) (oc : OClass) (core sl o : Nat), SqAt s c k x g [a] →
    (x.reg a).toNat % 8 = 0 → s.openSq c k x oc.toNat (x.reg a) 8 .atomic = .go t (.win core sl o) → t.marksAt (.win core sl o) 8 = [] →
    (t.crossed c (.win core sl o)).detCheck x.detKey core sl o false = some u →
    let w := (t.slice core sl).word o
    let me : Word := 1#1 ++ BitVec.ofNat 36 0 ++ BitVec.ofNat 12 (t.part x.part).devnum ++ BitVec.ofNat 15 (x.part * 4096 + c * 16 + k)
    (x.hlc < 0xFFFF → w = 0 →
      exec (.alock a oc g) s = .next ((u.writeAt (.win core sl o) (bytesOf 8 me.toNat)).updCtx c k fun y => { y with pc := y.pc + 1, hlc := y.hlc + 1 })) ∧
    (x.hlc < 0xFFFF → w ≠ 0 → w ≠ me → (u.ctx? c k).isSome = true →
      ∃ r z, exec (.alock a oc g) s = .next r ∧ r.ctx? c k = some z ∧ z.life = .parked .lock false ∧ z.hlc = ((u.ctx? c k).getD x).hlc ∧
        (r.core core).lockq = (u.core core).lockq ++ [⟨x.part, x.tid, x.role, sl, o, none⟩]) ∧
    (x.hlc < 0xFFFF → w ≠ 0 → w = me → exec (.alock a oc g) s = .next ((t.crossed c (.win core sl o)).trap c k 1 w)) ∧
    (x.hlc = 0xFFFF → exec (.alock a oc g) s = .next (t.trap c k 1 (x.reg a))) ∧
    (x.sqPending = [] → w = me →
      exec (.aunlk a oc g) s = .next ((u.updCtx c k fun y => { y with pc := y.pc + 1, hlc := (y.hlc + 65535) % 65536 }).handOver core sl o)) ∧
    (x.sqPending = [] → w ≠ me → exec (.aunlk a oc g) s = .next ((t.crossed c (.win core sl o)).trap c k 1 w)) ∧
    ((u.core core).lockq.find? (fun q => q.slice == sl && q.off == o) = none → u.handOver core sl o = u.writeAt (.win core sl o) (bytesOf 8 0)))

/-! ## Engine chains -/

/-- R348, R349, R346: ENQ of a block of its section appends one entry at the chain's tail, with the block's place, its first number and the
captured registers, and goes on; where the context has 16 entries of the engine or the chain 64, it waits with nothing changed; a block
that is empty, longer than 4,096 words or beyond the section raises ILLOP with its offset. A block of plain words takes one number each. -/
def Obligations.EnqueueWords : Prop :=
  ∀ (s : State) (c k : Nat) (x : Ctx) (g : Pred) (a b : Reg) (e : Eng), SqAt s c k x g [a, b] →
    let r := s.core c
    let off := (x.reg a).toNat
    let len := (x.reg b).toNat
    let sec := s.section c x e
    let fits := len ≠ 0 ∧ len ≤ 4096 ∧ off + len ≤ sec.length
    let room := (r.entriesOf e k).length < 16 ∧ (r.chain e).length < 64
    (fits → room → s.blockMark c x e (x.reg a) (x.reg b) = none →
      ∃ t n y, exec (.enq e a b g) s = .next t ∧ (t.core c).chain e = r.chain e ++ [n] ∧ t.ctx? c k = some y ∧
        n.slot = k ∧ n.start = off ∧ n.len = len ∧ n.firstSeq = x.app e + 1 ∧ n.started = false ∧ n.regs = x.a.set 0 0 ∧
        n.kern = x.kern.toNat ∧ n.vshp = x.vshp ∧ n.vwb = x.vwb.toNat ∧ y.pc = x.pc + 1 ∧ y.a = x.a ∧
        ((∀ w ∈ (sec.drop off).take len, isDep w = false ∧ followers e w = 0) → y.appended[engIdx e] = BitVec.ofNat 32 (x.app e + len)) ∧
        (∀ f, f ≠ e → (t.core c).chain f = r.chain f ∧ y.appended[engIdx f] = x.appended[engIdx f]) ∧ t.mem = s.mem) ∧
    (fits → ¬ room → s.blockMark c x e (x.reg a) (x.reg b) = none → exec (.enq e a b g) s = .next s) ∧
    (¬ fits → exec (.enq e a b g) s = .next (s.trap c k 1 (x.reg a))) ∧
    (Tab.find x.enqw x.pc.toNat = none → fits → room → s.blockMark c x e (x.reg a) (x.reg b) = none →
      ∃ t n y, exec (.enqw e a b g) s = .next t ∧ (t.core c).chain e = r.chain e ++ [n] ∧ n.start = off ∧ n.len = len ∧ t.ctx? c k = some y ∧
        y.pc = x.pc ∧ Tab.find y.enqw x.pc.toNat = some (e, off, x.app e + 1)) ∧
    ∀ e' o f, Tab.find x.enqw x.pc.toNat = some (e', o, f) →
      (s.entryEnded c k x e' o f = true →
        ∃ y, exec (.enqw e a b g) s = ctxResult s c k y ∧ y.pc = x.pc + 1 ∧ y.a = x.a ∧ Tab.find y.enqw x.pc.toNat = none) ∧
      (s.entryEnded c k x e' o f = false → exec (.enqw e a b g) s = .next s)

/-- R246, R248, R436: MCW writes the width of its register into the shadow copy, once no latching word that was appended is left to run;
MCRD reads the shadow copy, or with 0x200 added the active one, and the status registers; an MCW of a number outside the table raises ILLOP;
RDSEQ reads the numbers appended and completed. R123, R150, R151: a DEP before another word goes on to it when every word that its tokens
name has completed, and waits with nothing changed until then; a DEP before a DEP, or at its block's end, raises ENGILL at the entry. -/
def Obligations.EngineRegistersAndDepWaits : Prop :=
  (∀ (s : State) (c k : Nat) (x : Ctx) (g : Pred) (a : Reg) (n : BitVec 11) (e : Eng),
    let m := n.toNat
    let width := if m < 48 ∧ m % 8 = 0 then 21 else if m = 0x45 then 52 else if m = 0x46 then 5 else if m = 0x47 then 7 else if m = 0x82 then 32
      else if m = 0x83 then 8 else if 0x90 ≤ m then 32 else 64
    let writable := (m < 48 ∧ m % 8 ≤ 5) ∨ (0x40 ≤ m ∧ m ≤ 0x48) ∨ (0x80 ≤ m ∧ m ≤ 0x83) ∨ (0x90 ≤ m ∧ m ≤ 0x9F)
    (SqAt s c k x g [a] → writable → ((s.core c).entriesOf .me k).any (fun q => anyLatch (s.unrun c x q) 0) = false →
      ∃ y, exec (.mcw n a g) s = ctxResult s c k y ∧ y.pc = x.pc + 1 ∧ y.a = x.a ∧
        (∃ v, Tab.get 0 y.me.shadow m = v ∧ (v ||| x.reg a) = x.reg a ∧ v.toNat < 2 ^ width) ∧
        (m ≠ 0x45 → m < 0x90 → (Tab.get 0 y.me.shadow m).toNat = (x.reg a).toNat % 2 ^ width) ∧
        (∀ j, j ≠ m → Tab.get 0 y.me.shadow j = Tab.get 0 x.me.shadow j) ∧ y.me.active = x.me.active) ∧
    (SqAt s c k x g [a] → writable → ((s.core c).entriesOf .me k).any (fun q => anyLatch (s.unrun c x q) 0) = true → exec (.mcw n a g) s = .next s) ∧
    (SqAt s c k x g [a] → ¬ writable → exec (.mcw n a g) s = .next (s.trap c k 1 (BitVec.ofNat 64 m))) ∧
    (SqAt s c k x g [] →
      (writable → exec (.mcrd a n g) s = regResult s c k x a (Tab.get 0 x.me.shadow m)) ∧
      (0x200 ≤ m → m < 0x2A0 → ((m - 0x200 < 48 ∧ (m - 0x200) % 8 ≤ 5) ∨ (0x240 ≤ m ∧ m ≤ 0x248) ∨ (0x280 ≤ m ∧ m ≤ 0x283) ∨ 0x290 ≤ m) →
        exec (.mcrd a n g) s = regResult s c k x a (Tab.get 0 x.me.active (m - 0x200))) ∧
      (m = 0x100 → exec (.mcrd a n g) s = regResult s c k x a x.me.mpos0) ∧ (m = 0x101 → exec (.mcrd a n g) s = regResult s c k x a x.me.mpos1) ∧
      (m = 0x102 → exec (.mcrd a n g) s = regResult s c k x a (BitVec.ofNat 64 x.me.mqsum.toNat)) ∧
      (m = 0x103 → exec (.mcrd a n g) s = regResult s c k x a (BitVec.ofNat 64 x.me.sctr.toNat)) ∧
      exec (.rdseq a e g) s = regResult s c k x a (BitVec.ofNat 64 (x.appended[engIdx e].toNat * 2 ^ 32 + x.done[engIdx e].toNat)))) ∧
  (∀ (s : State) (c : Nat) (e : Eng) (n : Entry) (x : Ctx) (t0 t1 t2 : Option (Eng × BitVec 8)), s.engineTurn = some (c, e, n, x) →
    let tokens := match n.deps.find? fun q => q.1 == n.pos with
      | some q => q.2
      | none => resolveDep x.app [t0, t1, t2]
    (∀ w0 w1 l, s.entryWords c x e n = w0 :: w1 :: l → isDep w1 = false →
      ((∀ q ∈ tokens, s.tokenDone c n.slot x q.1 q.2 = true) →
        exec (.dep t0 t1 t2) s = .next (s.updCore c fun r => r.setChain e ((r.chain e).map fun m => if m == n then { m with pos := m.pos + 1 } else m))) ∧
      ((∃ q ∈ tokens, s.tokenDone c n.slot x q.1 q.2 = false) → exec (.dep t0 t1 t2) s = .next s)) ∧
    ((∃ w0 w1 l, s.entryWords c x e n = w0 :: w1 :: l ∧ isDep w1 = true) ∨ (s.entryWords c x e n).length ≤ 1 →
      ∃ t, exec (.dep t0 t1 t2) s = .next t ∧ ∃ m ∈ (t.core c).chain e, m.start = n.start ∧ m.slot = n.slot ∧
        m.failed = some ⟨9, BitVec.ofNat 64 (n.start * 2 ^ 32 + (engIdx e).val * 2 ^ 30 + n.pos % 4096)⟩))

/-! ## Task words and rings -/

/-- R364, R365, R366, R367, R368: POPT without a child to run writes 0, and with one parks its task at it; JOIN goes on at a counter of 0
and parks at any other; QPUT inserts a record that is admitted on the core's die, or writes 1 where there is no room; QGET takes the oldest message, or
writes 0 where there is none; RCLM withdraws a child that has not started, or writes 0. -/
def Obligations.TaskWords : Prop :=
  ∀ (s t u v : State) (c k : Nat) (x : Ctx) (g : Pred) (d a b : Reg) (bs : List Byte) (tid : Word) (m w : Task),
    let A := x.reg a
    (SqAt s c k x g [] → (recGang x.record ≠ 0 ∨ x.inh = true ∨ s.poppable x c = none) → exec (.popt d g) s = regResult s c k x d 0) ∧
    (SqAt s c k x g [] → recGang x.record = 0 → x.inh = false → s.poppable x c = some m → s.canSave c k = true → s.task? x.part x.tid = some w →
      s.task? x.part m.tid = some m → m.tid ≠ x.tid → recGang w.record = 0 →
      ∃ v, exec (.popt d g) s = .next v ∧ v.ctx? c k = none ∧ (∃ n, v.task? x.part m.tid = some n ∧ n.place = .inline x.tid ∧ n.record = m.record) ∧
        ∃ p, v.task? x.part x.tid = some p ∧ p.st = .parked ∧ ∃ i ∈ p.images, i.ctx.life = .parked (.child m.tid (some d)) false) ∧
    (SqAt s c k x g [a] → ∀ jc js jo, A.toNat % 8 = 0 → s.joinWord x A = some (jc, js, jo) → x.inOrder x.ocls.toNat none = true → s.marksAt (.win jc js jo) 8 = [] →
      ((s.slice jc js).word jo = 0 → exec (.join a g) s = ctxResult s c k x.step) ∧
      ((s.slice jc js).word jo ≠ 0 → ∃ v y, exec (.join a g) s = .next v ∧ v.ctx? c k = some y ∧ y.life = .parked (.join A) false ∧ y.pc = x.pc ∧
        ⟨x.part, x.tid, x.role, js, jo / 8 * 8, .eq, 0, none, true⟩ ∈ (v.core jc).watches)) ∧
    (SqAt s c k x g [a] → A.toNat % 128 = 0 → s.readPieces c k x (devPieces A 128) = .bytes v bs →
      let r : Rec := BitVec.ofNat 1024 (ofBytes bs)
      let full := t.stageFull x.part (recRegion r) (recStage r) || !t.queueRoom x.part (recRegion r)
      v.recordCheck ⟨x.part, x.sys, recRegion x.record, true⟩ r = none → recJoin r = 0 → v.enterRecord c k x r none = .fresh t →
      (full = true → exec (.qput d a g) s = .next ((t.retract x.part r (recResults r)).updCtx c k fun y => y.step.setReg d 1)) ∧
      (full = false → t.insertTask x.part r ⟨c, dieOf c, .stage (dieOf c) (recRegion r) (recStage r),
          t.stampFor x.part r (some (recRegion x.record, x.phase)), none, false, none, none, 0⟩ = .ok (tid, u) →
        exec (.qput d a g) s = .next (u.updCtx c k fun y => y.step.setReg d 0))) ∧
    (SqAt s c k x g [a, b] → bitsAt (x.reg b) 4 12 = recRegion x.record → bitsAt (x.reg b) 0 4 < s.stageCount x.part (recRegion x.record) →
      bitsAt (x.reg b) 16 48 = 0 → A.toNat % 128 = 0 →
      (s.message x c (bitsAt (x.reg b) 0 4) = none → exec (.qget d a b g) s = regResult s c k x d 0) ∧
      (s.message x c (bitsAt (x.reg b) 0 4) = some m → s.Writes c k x A (bytesOf 128 m.record.toNat) t →
        exec (.qget d a b g) s = .next ((t.updTask x.part m.tid fun q => { q with st := .taken x.tid m.place, place := .none }).updCtx c k fun y => y.step.setReg d 1))) ∧
    (SqAt s c k x g [a] → x.det = false →
      (s.task? x.part A = none → exec (.rclm d a g) s = regResult s c k x d 0) ∧
      (s.task? x.part A = some m → m.parent = some x.tid → m.bySpawn = true → m.undispatched = true → (m.place = .local c ∨ m.place = .spill (dieOf c)) →
        exec (.rclm d a g) s = .next (((s.removeRecord x.part A).joinDec x (dieOf c) (recJoin m.record)).updCtx c k fun y => y.step.setReg d 1)))

/-- R363, R55, R44: a SPAWN whose record passes its checks and is admitted, as it is where no result has another producer and all are homed
here, and finds room in the core's queue or the die's spill region inserts it there for its task, adds 1 to the join counter and writes the
task ID; a child that the core must run itself parks the parent instead. A record that fails a check traps with the check's cause. R369: at
system level EVREG with a = 0 removes the partition's entry for the event from the die's table, and else replaces it or takes a free one of
the 64 and writes 0, or 1 where none is free; at user level it raises PRIV. The model's own: the value that the ILLOP and PRIV of EVREG
report (log 44). -/
def Obligations.SpawnAndEvents : Prop :=
  (∀ (s t u v : State) (c k : Nat) (x : Ctx) (g : Pred) (d a b : Reg) (jc js jo : Nat) (bs : List Byte) (tid : Word), SqAt s c k x g [a, b] →
    (x.reg a).toNat % 128 = 0 → (x.reg b).toNat % 8 = 0 → s.joinWord x (x.reg b) = some (jc, js, jo) → x.inOrder x.ocls.toNat none = true →
    s.readPieces c k x (devPieces (x.reg a) 128) = .bytes v bs →
    let r := recSet (BitVec.ofNat 1024 (ofBytes bs)) 15 (x.reg b)
    let check := v.recordCheck ⟨x.part, x.sys, recRegion x.record, true⟩ r
    let place := t.spawnPlace x.part c r x.tid
    let w := ((u.crossed c (.win jc js jo)).port jc js jo .add 1 0).1
    (check = none → v.adopts x.part r = false → (∀ nv ∈ recResults r, v.homeLocal x.part nv = true) →
      v.enterRecord c k x r check = .fresh (v.updCtx c k Ctx.heard)) ∧
    (v.enterRecord c k x r check = .fresh t →
      t.insertTask x.part r ⟨c, dieOf c, place, t.stampFor x.part r (some (recRegion x.record, x.phase)), some x.tid, true, none, none, 0⟩ = .ok (tid, u) →
      ((place = .local c ∨ place = .spill (dieOf c)) → exec (.spawn d a b g) s = .next (w.updCtx c k fun y => y.step.setReg d tid)) ∧
      (∀ y, place = .inline x.tid → t.canSave c k = true → w.ctx? c k = some y →
        exec (.spawn d a b g) s = .next (w.runInline c k (y.setReg d tid) tid none))) ∧
    ∀ n code, check = some (n, code) → exec (.spawn d a b g) s = .next ((v.updCtx c k Ctx.heard).trap c k code (x.reg a))) ∧
  (∀ (s t : State) (c k : Nat) (x : Ctx) (g : Pred) (d a b : Reg) (bs : List Byte), SqAt s c k x g [a, b] →
    let v := x.reg b
    let ev := bitsAt v 0 16
    let r : Rec := BitVec.ofNat 1024 (ofBytes bs)
    let mine := fun (e : EvReg) => e.part == x.part && e.event == ev
    let new : EvReg := ⟨x.part, ev, v.getLsbD 16, r⟩
    (x.sys = false → exec (.evreg d a b g) s = .next (s.trap c k 2 v)) ∧
    (x.sys = true → bitsAt v 17 47 = 0 → ev < 64 →
      (x.reg a = 0 → exec (.evreg d a b g) s =
        .next ((s.updDie (dieOf c) fun q => { q with events := q.events.filter fun e => !mine e }).updCtx c k fun y => y.step.setReg d 0)) ∧
      (x.reg a ≠ 0 → (x.reg a).toNat % 128 = 0 → s.Reads c k x (x.reg a) 128 t bs → recMgmt r = true →
        t.recordCheck ⟨x.part, x.sys, recRegion x.record, true⟩ r = none →
        ((t.die (dieOf c)).events.any mine = true → exec (.evreg d a b g) s =
          .next ((t.updDie (dieOf c) fun q => { q with events := q.events.map fun o => if mine o then new else o }).updCtx c k fun y => y.step.setReg d 0)) ∧
        ((t.die (dieOf c)).events.any mine = false → (t.die (dieOf c)).events.length < 64 → exec (.evreg d a b g) s =
          .next ((t.updDie (dieOf c) fun q => { q with events := q.events ++ [new] }).updCtx c k fun y => y.step.setReg d 0)) ∧
        ((t.die (dieOf c)).events.any mine = false → 64 ≤ (t.die (dieOf c)).events.length →
          exec (.evreg d a b g) s = .next (t.updCtx c k fun y => y.step.setReg d 1)))))

/-- R352, R354, R357, R358, R359: RPUSH and RPOP move TAIL and HEAD by n and write the status word; WFILL claims n filled slots and writes
the first one's number, WFREE the number of the next free slot; each waits where what it needs is not there yet. SUBSCR installs the ring
of its descriptor, and with a = 0 clears it once none of its transfers is in flight. -/
def Obligations.RingWords : Prop :=
  ∀ (s t : State) (c k : Nat) (x : Ctx) (g : Pred) (d a : Reg) (r : BitVec 3) (bs : List Byte), SqAt s c k x g [a] →
    let q := x.ring r
    let n := (x.reg a).toNat
    let gone := fun (i : Instr) (q' : Ring) (v : Word) => exec i s = ctxResult s c k ((x.step.setRing r.toNat q').setReg d v)
    let status := fun (q : Ring) => BitVec.ofNat 12 0 ++ BitVec.ofBool q.fault ++ BitVec.ofBool q.done ++ BitVec.ofBool q.bound ++ BitVec.ofBool q.valid ++
      q.tail ++ q.claim ++ q.head
    let pushed := { q with tail := q.tail + BitVec.ofNat 16 n }
    let popped := { q with head := q.head + BitVec.ofNat 16 n }
    (q.valid = true → q.kind ≠ 1 → (q.tail - q.head).toNat + n ≤ q.nslot + 1 →
      ((n = 0 ∨ s.quiet c k x = true) → gone (.rpush d a r g) pushed (status pushed)) ∧
      (n ≠ 0 → s.quiet c k x = false → exec (.rpush d a r g) s = .next s)) ∧
    (q.valid = true → q.kind ≠ 2 → n ≤ (q.claim - q.head).toNat →
      ((n = 0 ∨ s.quiet c k x = true) → gone (.rpop d a r g) popped (status popped)) ∧
      (n ≠ 0 → s.quiet c k x = false → exec (.rpop d a r g) s = .next s)) ∧
    (q.valid = true → q.kind ≠ 2 → n ≤ q.nslot + 1 →
      (n ≤ (q.tail - q.claim).toNat →
        gone (.wfill d a r g) { q with claim := q.claim + BitVec.ofNat 16 n } (BitVec.ofNat 64 (q.claim.toNat % (q.nslot + 1)))) ∧
      ((q.tail - q.claim).toNat < n → (q.done = true ∨ q.fault = true) → exec (.wfill d a r g) s = regResult s c k x d (BitVec.allOnes 64)) ∧
      ((q.tail - q.claim).toNat < n → q.done = false → q.fault = false → exec (.wfill d a r g) s = .next s)) ∧
    (q.valid = true → q.kind ≠ 1 → n ≤ q.nslot + 1 →
      ((n = 0 ∨ (q.tail - q.head).toNat + n ≤ q.nslot + 1) → exec (.wfree d a r g) s = regResult s c k x d (BitVec.ofNat 64 (q.tail.toNat % (q.nslot + 1)))) ∧
      (n ≠ 0 → q.nslot + 1 < (q.tail - q.head).toNat + n → exec (.wfree d a r g) s = .next s)) ∧
    (q.valid = false → ∀ i ∈ [Instr.rpush d a r g, .rpop d a r g, .wfill d a r g, .wfree d a r g], exec i s = .next (s.trap c k 1 (BitVec.ofNat 64 r.toNat))) ∧
    (x.reg a = 0 → q.inFlight = false → exec (.subscr d a r g) s =
      .next ((s.setCtx c k ((x.step.setRing r.toNat Ring.empty).setReg d 0)).unlock (.stream x.part x.tid x.role r.toNat))) ∧
    (x.reg a = 0 → q.inFlight = true → exec (.subscr d a r g) s = ctxResult s c k (x.setRing r.toNat { q with bound := false })) ∧
    (x.reg a ≠ 0 → n % 32 = 0 → s.Reads c k x (x.reg a) 32 t bs → q.valid = false →
      let w := fun i => BitVec.ofNat 64 (ofBytes ((bs.drop (8 * i)).take 8))
      x.ringBad r.toNat (w 0) (w 1) (w 2) (w 3) = false → (bitsAt (w 0) 62 2 = 0 ∨ t.boundStreams (dieOf c) < 512) →
      ∃ q', exec (.subscr d a r g) s = .next (t.updCtx c k fun y => (y.step.setRing r.toNat q').setReg d (status q')) ∧
        q'.valid = true ∧ q'.kind = bitsAt (w 0) 62 2 ∧ q'.bound = (q'.kind != 0) ∧ q'.nslot = bitsAt (w 0) 44 12 ∧ q'.slines = bitsAt (w 0) 32 12 ∧
        q'.lbase = bitsAt (w 0) 8 12 ∧ q'.gbase = w 1 ∧ q'.gstride = w 2 ∧ q'.count = bitsAt (w 3) 0 32 ∧ q'.tail = 0 ∧ q'.claim = 0 ∧ q'.head = 0)

/-! ## Naming tables, regions and routes -/

/-- R377, R378, R382, R391, R402: the words over the naming tables run at system level only. OTW replaces an object's 32 bytes with GEN
one higher, or writes 2 for a malformed entry, 3 where the kind's check fails and 4 where a resident context runs from the image; GBIND
installs, replaces or removes a binding; PTINV drops the translations of its range; ROUTW sets a device's route and writes the old one. -/
def Obligations.NamingWords : Prop :=
  ∀ (s t v : State) (c k : Nat) (x : Ctx) (g : Pred) (d a b : Reg) (bs cs : List Byte) (cores : List Nat), SqAt s c k x g [a, b] →
    let A := x.reg a
    let B := x.reg b
    let n := B.toNat
    let p := x.part
    let status := fun (u : State) (v : Word) => Host.Outcome.next (u.updCtx c k fun y => y.step.setReg d v)
    let gen := (objGen (t.object p n).1 + 1) % 65536
    let w := wordAt bs
    let mine := fun (e : Nat × Nat × List Nat) => e.1 == bitsAt B 20 12 && e.2.1 == bitsAt B 0 20
    let binding := (bitsAt B 20 12, bitsAt B 0 20, cores)
    let kind := kindCheck (w 0) (w 1) (w 2) (w 3)
    let ends := fun (u : State) =>
      (u.runsFrom ⟨p, n, gen⟩ = true → exec (.otw d a b g) s = status u 4) ∧
      (u.runsFrom ⟨p, n, gen⟩ = false → x.accessesDone = false → exec (.otw d a b g) s = .next u) ∧
      (u.runsFrom ⟨p, n, gen⟩ = false → x.accessesDone = true →
        exec (.otw d a b g) s = status (u.writeG p ((u.part p).otbase.toNat + 32 * n) (bytesOf 8 (putBits (w 0) 32 16 gen).toNat ++ bs.drop 8)) 0)
    (x.sys = false → ∀ i ∈ [Instr.otw d a b g, .gbind d a b g, .ptinv a b g, .routw d a b g], exec i s = .next (s.trap c k 2 B)) ∧
    (x.sys = true → n ≠ 0 → n < (s.part p).otsize → A.toNat % 32 = 0 → s.Reads c k x A 32 t bs →
      (objV (w 0) = true → objBad (w 0) (w 1) (w 2) = true → exec (.otw d a b g) s = status t 2) ∧
      (objV (w 0) = true → objBad (w 0) (w 1) (w 2) = false → kind.1 = false → exec (.otw d a b g) s = status t 3) ∧
      (objV (w 0) = false ∨ (objBad (w 0) (w 1) (w 2) = false ∧ kind.1 = true ∧ kind.2.isNone = true) → ends t) ∧
      (objV (w 0) = true → objBad (w 0) (w 1) (w 2) = false → kind.1 = true → ∀ m f, kind.2 = some (m, f) →
        (t.residentG p (bitsAt (w 1) 0 56) m = false → exec (.otw d a b g) s = status t 3) ∧
        (t.residentG p (bitsAt (w 1) 0 56) m = true → t.Reads c k x (w 1) m v cs →
          (f cs = false → exec (.otw d a b g) s = status v 3) ∧ (f cs = true → ends v)))) ∧
    (x.sys = true → bitsAt B 32 32 = 0 → s.running p (bitsAt B 20 12) = true → s.isImage p (bitsAt B 0 20) = true →
      (A = 0 → exec (.gbind d a b g) s = status (s.updPart p fun q => { q with bindings := q.bindings.filter fun e => !mine e }) 0) ∧
      (A ≠ 0 → A.toNat % 32 = 0 → s.Reads c k x A 32 t bs →
        (t.bindingOf p bs = none → exec (.gbind d a b g) s = status t 2) ∧
        (t.bindingOf p bs = some cores → (t.part p).bindings.any mine = true →
          exec (.gbind d a b g) s = status (t.updPart p fun q => { q with bindings := q.bindings.map fun e => if mine e then binding else e }) 0) ∧
        (t.bindingOf p bs = some cores → (t.part p).bindings.any mine = false →
          ((t.part p).bindings.length < 256 →
            exec (.gbind d a b g) s = status (t.updPart p fun q => { q with bindings := q.bindings ++ [binding] }) 0) ∧
          (256 ≤ (t.part p).bindings.length → exec (.gbind d a b g) s = status t 1)))) ∧
    (x.sys = true → selectsG A = true → A.toNat % 65536 = 0 → (n = 0 ∨ A.toNat + n * 65536 ≤ 2 ^ 56) →
      let first := if n = 0 then 0 else A.toNat
      let len := if n = 0 then 2 ^ 56 else n * 65536
      let u := (s.dropEntries p first len).updPart p fun q =>
        { q with lostPages := q.lostPages.filter fun l => !(decide (n = 0) || (decide (A.toNat ≤ l) && decide (l < A.toNat + len))) }
      (x.accessesDone = false → exec (.ptinv a b g) s = .next s) ∧
      (x.accessesDone = true → u.partBusy p first len = true → exec (.ptinv a b g) s = .next u) ∧
      (x.accessesDone = true → u.partBusy p first len = false → exec (.ptinv a b g) s = .next (u.updCtx c k Ctx.step))) ∧
    (x.sys = true → n < 4096 → n ≠ (s.part p).devnum → routeBad A = false →
      let old := Tab.get 0 s.routes n
      (routeV old = true → routePart old ≠ p → exec (.routw d a b g) s = .next (s.trap c k 2 B)) ∧
      (routeV old = false ∨ routePart old = p → ∃ u, exec (.routw d a b g) s = status u (zext old) ∧
        Tab.get 0 u.routes n = (putBits A 21 3 (if A.getLsbD 31 then p else 0)).setWidth 32 ∧ (∀ m, m ≠ n → Tab.get 0 u.routes m = Tab.get 0 s.routes m) ∧
        u.cores = s.cores ∧ u.parts = s.parts ∧ u.mem = s.mem))

/-- R392 to R397: RLAUNCH by the operation in b. START installs a well-formed RCB in a free region below a running one, and inserts its
entry record where it names one that is admitted, writing 3, 4, 2 or 1 where the region, the parent, the RCB or the sums refuse it; UPDATE
replaces the RCB of a running region; STOP of a free region writes 0, and of another stops its subtree and writes 5 while tasks of it are
left. R33, R392 to R395: what a started region is. It runs under its RCB with phase 0 open, and its cores, the lowest-numbered of its
parent's assignment and no more than its core budget, have left its parent. -/
def Obligations.RegionLaunches : Prop :=
  (∀ (s t v q : State) (c k : Nat) (x : Ctx) (g : Pred) (d a b : Reg) (bs es : List Byte), SqAt s c k x g [a, b] →
    let A := x.reg a
    let B := x.reg b
    let p := x.part
    let e : Rec := BitVec.ofNat 1024 (ofBytes es)
    let r := bitsAt B 0 12
    let w := (List.range 32).map (wordAt bs)
    let up := rcbParent w
    let old := rcbParent (s.region p r).rcb
    let status := fun (u : State) (v : Word) => Host.Outcome.next (u.updCtx c k fun y => y.step.setReg d v)
    let may := fun (up : Nat) => x.sys = true ∨ s.inSubtree p (recRegion x.record) up = true
    let put := t.updPart p fun q => { q with regions := Tab.adjust q.regions r fun y => { y with rcb := w } }
    ∀ i ∈ [Instr.rlaunchStart d a b g, .rlaunchUpdate d a b g, .rlaunchStop d a b g], bitsAt B 14 50 = 0 →
      (bitsAt B 12 2 = 0 → r = 0 → exec i s = .next (s.trap c k 2 B)) ∧
      (bitsAt B 12 2 = 0 → r ≠ 0 → A.toNat % 256 = 0 → s.Reads c k x A 256 t bs →
        (¬ may up → exec i s = .next (t.trap c k 2 B)) ∧
        (may up →
          ((t.region p r).st ≠ .free → exec i s = status t 3) ∧
          ((t.region p r).st = .free → t.running p up = false → exec i s = status t 4) ∧
          ((t.region p r).st = .free → t.running p up = true → rcbOk w (t.rcbChain p 4096 up) = false → exec i s = status t 2) ∧
          ((t.region p r).st = .free → t.running p up = true → rcbOk w (t.rcbChain p 4096 up) = true → w.getD 6 0 = 0 →
            exec i s = if (t.startRegion p r w).sumsHold p up then status (t.startRegion p r w) 0 else status t 1) ∧
          ((t.region p r).st = .free → t.running p up = true → rcbOk w (t.rcbChain p 4096 up) = true → w.getD 6 0 ≠ 0 →
            t.readPieces c k x (devPieces (w.getD 6 0) 128) = .bytes v es → recRegionField e = r → recStage e = 0 →
            (t.startRegion p r w).recordCheck ⟨p, x.sys, recRegion x.record, true⟩ e = none → v.enterRecord c k x e none = .fresh q →
            ((q.startRegion p r w).sumsHold p up = false → exec i s = status (q.retract p e (recResults e)) 1) ∧
            (∀ z, (q.startRegion p r w).sumsHold p up = true → (q.startRegion p r w).insertEntry c x r e = .ok z → exec i s = status z 0)))) ∧
      (bitsAt B 12 2 = 1 → (r ≠ 0 ∨ x.sys = true) → A.toNat % 256 = 0 → s.Reads c k x A 256 t bs →
        (x.sys = true ∨ ((s.region p r).st ≠ .free ∧ s.inSubtree p (recRegion x.record) old = true)) →
        ((t.region p r).st ≠ .running → exec i s = status t 3) ∧
        ((t.region p r).st = .running → up = rcbParent (t.region p r).rcb → rcbOk w (if r = 0 then [] else t.rcbChain p 4096 up) = true →
          put.stageCount p r = t.stageCount p r → (∀ j, j < t.stageCount p r → t.stageFill p r j ≤ stageCap (put.stageWord p r j)) →
          (r = 0 ∨ put.sumsHold p up = true) → put.sumsHold p r = true →
          ∃ u, exec i s = status u 0 ∧ (u.region p r).rcb = w ∧ (u.region p r).st = .running ∧
            (u.region p r).assign.map Prod.fst = (t.region p r).assign.map Prod.fst ∧ u.cores = t.cores ∧ u.mem = t.mem ∧ u.tasks = t.tasks)) ∧
      (bitsAt B 12 2 = 2 → r ≠ 0 → A = 0 →
        (x.sys = true → (s.region p r).st = .free → exec i s = status s 0) ∧
        (x.sys = true ∨ s.inSubtree p (recRegion x.record) old = true → (s.region p r).st ≠ .free →
          let u := s.stopRegion p r
          exec i s = status u (if ∃ q ∈ u.tasks, q.part = p ∧ recRegion q.record ∈ s.subtree p r then 5 else 0)))) ∧
  (∀ (s : State) (p r : Nat) (w : List Word), r ≠ rcbParent w →
    let u := s.startRegion p r w
    let mine := (u.region p r).assign.map Prod.fst
    let theirs := (u.region p (rcbParent w)).assign.map Prod.fst
    let before := (s.region p (rcbParent w)).assign.map Prod.fst
    (u.region p r).st = .running ∧ (u.region p r).rcb = w ∧ (u.region p r).openPhase = 0 ∧ (u.region p r).begun = 0 ∧
    mine.length ≤ u.eff p r 0 ∧ (∀ e ∈ mine, e ∈ before ∧ e ∉ theirs) ∧ (∀ e ∈ before, e ∈ mine ∨ e ∈ theirs) ∧ (∀ e ∈ theirs, e ∈ before) ∧
    (∀ e ∈ mine, ∀ f ∈ theirs, e ≤ f) ∧ u.cores = s.cores ∧ u.mem = s.mem ∧ u.tasks = s.tasks ∧
    ∀ q, q ≠ r → q ≠ rcbParent w → u.region p q = s.region p q)

/-! ## Versions -/

/-- R410, R423: for a version whose home is this device, PUBL marks its storage range for its task, or changes nothing where the same mark
stands; it refuses another mark with ILLOP and a range that overlaps another version's with OBJFAULT. TVQ reads the entry's word that b
chooses, 0 where there is no entry, once no commit holds the version (R415). R412, R414, R416, R424 to R427: for a version whose home is
this device, RETAIN marks a hold delta for the task's commit, or at system level with NOW applies it; REPL makes a replica and releases the
records that wait for it; RCVR loses a CURRENT version, and during a quiesce hands the task over; TRIM tells whether lineage remains or
removes it. Each writes the status of its rule. The model's own: RETAIN NOW answers 0 where it frees the entry, and RCVR and TRIM report
their b (logs 33 and 34). -/
def Obligations.VersionWords : Prop :=
  (∀ (s u : State) (c k : Nat) (x : Ctx) (g : Pred) (d a b : Reg) (e : DirEntry),
    let nv := x.reg a
    let D := x.reg d
    let B := x.reg b
    let m : PubMark := ⟨x.tid, D &&& ~~~63#64, bitsAt B 0 32, bitsAt B 32 16, bitsAt B 48 16, D.getLsbD 1, D.getLsbD 2⟩
    let mark := (s.version? x.part nv).bind DirEntry.mark
    nameOk nv = true → s.homeLocal x.part nv = true → (s.homeDie x.part nv).isSome = true →
    (SqAt s c k x g [d, a, b] → nv ∈ recResults x.record → bitsAt D 3 3 = 0 → bitsAt D 56 8 = 0 → D.getLsbD 0 = false → m.size ≠ 0 →
      (m.norm = true ∨ bitsAt B 32 32 = 0) →
      (mark = some m → exec (.publ d a b g) s = ctxResult s c k x.step) ∧
      (mark ≠ none → mark ≠ some m → exec (.publ d a b g) s = .next (s.trap c k 1 nv)) ∧
      (mark = none → s.pubOverlaps x.part nv m = true → exec (.publ d a b g) s = .next (s.trap c k 3 m.base)) ∧
      (mark = none → s.pubOverlaps x.part nv m = false → s.ensureVersion x.part nv = some u →
        exec (.publ d a b g) s = .next ((u.updVersion x.part nv fun e => { e with mark := some m }).updCtx c k Ctx.step)) ∧
      (mark = none → s.pubOverlaps x.part nv m = false → s.ensureVersion x.part nv = none → exec (.publ d a b g) s = .next (s.trap c k 3 nv))) ∧
    (SqAt s c k x g [d, a, b] → nv ∉ recResults x.record → exec (.publ d a b g) s = .next (s.trap c k 1 nv)) ∧
    (SqAt s c k x g [a, b] →
      (s.version? x.part nv = none → B.toNat ≤ 3 → exec (.tvq d a b g) s = regResult s c k x d 0) ∧
      (s.version? x.part nv = some e → e.taking = true → B.toNat ≤ 3 → exec (.tvq d a b g) s = .next s) ∧
      (s.version? x.part nv = some e → e.taking = false →
        (B = 0 → exec (.tvq d a b g) s = regResult s c k x d e.word1) ∧ (B = 1 → exec (.tvq d a b g) s = regResult s c k x d e.base) ∧
        (B = 2 → exec (.tvq d a b g) s = regResult s c k x d e.word3) ∧ (B = 3 → exec (.tvq d a b g) s = regResult s c k x d e.word4)) ∧
      (3 < B.toNat → exec (.tvq d a b g) s = .next (s.trap c k 1 B)))) ∧
  (∀ (s : State) (c k : Nat) (x : Ctx) (g : Pred) (d a b : Reg) (e : DirEntry) (q : Task) (dev die : Nat) (why : Word),
    let nv := x.reg a
    let B := x.reg b
    let p := x.part
    let status := fun (u : State) (v : Word) => Host.Outcome.next (u.updCtx c k fun y => y.step.setReg d v)
    let delta : Int := (B.extractLsb' 0 16).toInt
    let here := nameOk nv = true ∧ s.homeLocal p nv = true ∧ (s.homeDie p nv).isSome = true
    (SqAt s c k x g [a, b] → here → bitsAt B 17 47 = 0 → (B.getLsbD 16 = true → x.sys = true) →
      (s.version? p nv = none → exec (.retain d a b g) s = status s 0) ∧
      (s.version? p nv = some e → e.taking = false → s.task? p x.tid = some q → (e.st = .unprod ∨ e.st = .pending) → exec (.retain d a b g) s = status s e.word1) ∧
      (s.version? p nv = some e → e.taking = false → s.task? p x.tid = some q → e.st ≠ .unprod → e.st ≠ .pending → 0 ≤ e.hold + q.marked nv + delta →
        e.hold + q.marked nv + delta ≤ 65535 →
        (B.getLsbD 16 = false →
          exec (.retain d a b g) s = status (s.updTask p x.tid fun t => { t with deltas := t.deltas ++ [(nv, delta)] }) e.word1) ∧
        (B.getLsbD 16 = true → 0 ≤ e.hold + delta → e.hold + delta ≤ 65535 →
          let v := (s.updVersion p nv fun e => { e with hold := (e.hold + delta).toNat }).sweep
          exec (.retain d a b g) s = status v (v.versionWord p nv)))) ∧
    (SqAt s c k x g [a, b] → B.getLsbD 16 = true → bitsAt B 17 47 = 0 → nameOk nv = true → x.sys = false →
      exec (.retain d a b g) s = .next (s.trap c k 2 B)) ∧
    (SqAt s c k x g [a, b] → here → bitsAt B 15 49 = 0 → (B.getLsbD 14 = true → bitsAt B 0 14 = 0) →
      let target := if B.getLsbD 14 then (s.nextDie p (dieOf c)).map fun die => ((s.part p).devnum, die) else some (bitsAt B 0 12, bitsAt B 12 2)
      (s.version? p nv = none → exec (.repl d a b g) s = status s 1) ∧
      (s.version? p nv = some e → e.repl = true → exec (.repl d a b g) s = status s 0) ∧
      (s.version? p nv = some e → e.repl = false → e.st ≠ .current → exec (.repl d a b g) s = status s 1) ∧
      (s.version? p nv = some e → e.repl = false → e.st = .current →
        (target = none → exec (.repl d a b g) s = status s 3) ∧
        (target = some (dev, die) → s.replicaTarget p e dev die = false → exec (.repl d a b g) s = status s 3) ∧
        (target = some (dev, die) → s.replicaTarget p e dev die = true → s.replicaFits p e dev die = false → exec (.repl d a b g) s = status s 2) ∧
        (target = some (dev, die) → s.replicaTarget p e dev die = true → s.replicaFits p e dev die = true →
          exec (.repl d a b g) s = status ((s.makeReplica p nv dev die).replicated p nv) 0))) ∧
    (SqAt s c k x g [a, b] → here → B = 0 →
      (s.version? p nv = none → exec (.rcvrVer d a b g) s = status s 1) ∧
      (s.version? p nv = some e →
        (e.st = .current → exec (.rcvrVer d a b g) s = status (s.loseVersion p nv 3) 0) ∧
        (e.st = .unprod ∨ e.st = .pending → exec (.rcvrVer d a b g) s = status s 1) ∧
        (e.st = .lost ∨ e.st = .recomp ∨ e.st = .restore → exec (.rcvrVer d a b g) s = status s 0))) ∧
    (SqAt s c k x g [0, b] → B = 1 →
      ((s.part p).quiesce = some why → x.inh = true → x.chkpt = true → exec (.rcvrHand d b g) s = .next (s.abort c k ⟨12, why⟩)) ∧
      (((s.part p).quiesce = none ∨ x.inh = false ∨ x.chkpt = false) → exec (.rcvrHand d b g) s = .next (s.trap c k 1 B))) ∧
    (SqAt s c k x g [a, b] → here →
      (B = 0 → (s.version? p nv = none → exec (.trimSync d a b g) s = status s 1) ∧
        (s.version? p nv = some e → exec (.trimSync d a b g) s = status s (if e.lin = none then 1 else 0))) ∧
      (B = 2 → x.sys = false → exec (.trimForce d a b g) s = .next (s.trap c k 2 B)) ∧
      (B = 2 → x.sys = true → (s.version? p nv = none → exec (.trimForce d a b g) s = status s 0) ∧
        (s.version? p nv = some e → exec (.trimForce d a b g) s = status (s.trimEntry p nv) (if e.lin = none then 0 else 1)))))

/-! ## Tags, waits and counters -/

/-- R432, R435, R448: a TWAIT that its tags satisfy writes them and goes on, and else stays at its word; TFFR writes the lowest of them or
64; TCLR clears what is not busy and writes what is; WAITC goes on when all four limits hold; PHASE closes the open phase of its region.
R429, R449, R450: CNTRD reads the counter of a number or the metadata of a window line; CNTSET at system level writes the old value and sets
the counter to b at its width, and arms or disarms a line; a number of no counter raises ILLOP, and a counter that the level or the
partition may not reach PRIV. -/
def Obligations.TagsPhaseAndCounters : Prop :=
  (∀ (s : State) (c k : Nat) (x : Ctx) (g : Pred) (d a : Reg) (tl : BitVec 5) (ld st cp : BitVec 6),
    let m := x.reg a
    let set := x.tags &&& m
    let skip := m &&& s.busyTags x
    let clear := m &&& ~~~skip
    let r := if x.ctl then x.creg else recRegion x.record
    let limits := x.loads.length ≤ ld.toNat ∧ x.stores.length ≤ st.toNat ∧ s.copies x ≤ cp.toNat ∧ x.tiles.length ≤ tl.toNat
    (SqAt s c k x g [a] →
      (m = 0 ∨ set ≠ 0 → exec (.twaitAny d a g) s = regResult s c k x d set) ∧
      (m ≠ 0 → set = 0 → exec (.twaitAny d a g) s = .next s) ∧
      (set = m → exec (.twaitAll d a g) s = regResult s c k x d set) ∧
      (set ≠ m → exec (.twaitAll d a g) s = .next s) ∧
      (∃ v : Nat, exec (.tffr d a g) s = regResult s c k x d (BitVec.ofNat 64 v) ∧ (∀ j, j < v → j < 64 → set.getLsbD j = false) ∧
        (v < 64 → set.getLsbD v = true) ∧ v ≤ 64) ∧
      (∃ y : Ctx, exec (.tclr d a g) s = ctxResult s c k (y.setReg d skip) ∧ (∀ j, j < 64 → y.tags.getLsbD j = (x.tags.getLsbD j && !clear.getLsbD j)) ∧
        (∀ j, j < 64 → Tab.get 0 y.tagStatus j = if clear.getLsbD j then 0 else Tab.get 0 x.tagStatus j) ∧
        { y with tags := x.tags, tagStatus := x.tagStatus } = x.step)) ∧
    (SqAt s c k x g [] →
      (limits → exec (.waitc tl ld st cp g) s = ctxResult s c k x.step) ∧
      (¬ limits → exec (.waitc tl ld st cp g) s = .next s) ∧
      (x.recomp = true → exec (.phase g) s = .next (s.trap c k 1 (BitVec.ofNat 64 r))) ∧
      (x.recomp = false → s.running x.part r = true → s.det x.part r = true →
        (x.ctl = false → x.phase ≠ (s.region x.part r).openPhase → exec (.phase g) s = .next (s.trap c k 1 (zext (s.region x.part r).openPhase))) ∧
        (x.ctl = true ∨ x.phase = (s.region x.part r).openPhase →
          ((s.region x.part r).begun = (s.region x.part r).openPhase → ∃ u : State, exec (.phase g) s = .next (u.updCtx c k Ctx.step) ∧
            (u.region x.part r).openPhase = (s.region x.part r).openPhase + 1 ∧ (u.region x.part r).begun = (s.region x.part r).begun ∧
            (∀ q, q ≠ r → u.region x.part q = s.region x.part q) ∧ { u with parts := s.parts } = s) ∧
          ((s.region x.part r).begun ≠ (s.region x.part r).openPhase → exec (.phase g) s = .next s))))) ∧
  (∀ (s t u : State) (c k : Nat) (x : Ctx) (g : Pred) (d a b : Reg) (n : Counter) (core sl o : Nat),
    let A := x.reg a
    let B := x.reg b
    let p := x.part
    let allowed := (n.system = true → x.sys = true) ∧ s.counterMine p n = true
    let old := s.counterValue p x.tagStatus n
    (SqAt s c k x g [a] → lineForm A = false → numberForm A = true →
      (counterOf A = none → exec (.cntrd d a g) s = .next (s.trap c k 1 A)) ∧
      (counterOf A = some n → allowed → exec (.cntrd d a g) s = regResult s c k x d old) ∧
      (counterOf A = some n → ¬ allowed → exec (.cntrd d a g) s = .next (s.trap c k 2 A))) ∧
    (SqAt s c k x g [a] → lineForm A = true → s.openSq c k x x.ocls.toNat (unitOf A) 64 .read = .go t (.win core sl o) →
      exec (.cntrd d a g) s = .next (t.updCtx c k fun y => y.step.setReg d (Slice.meta' (t.slice core sl) o))) ∧
    (SqAt s c k x g [a, b] → lineForm A = false → numberForm A = true → counterOf A = some n →
      ((∃ i, n = .tag i) ∨ (∃ i j, n = .monitor i j) ∨ (∃ i j, n = .tunar i j) → exec (.cntset d a b g) s = .next (s.trap c k 1 A)) ∧
      ((∃ i, n = .exc i) ∨ (∃ i j, n = .perf i j) ∨ (∃ i j, n = .error i j) ∨ (∃ i j w, n = .threshold i j w) ∨ (∃ i j, n = .ucie i j) →
        (x.sys = false ∨ s.counterMine p n = false → exec (.cntset d a b g) s = .next (s.trap c k 2 A)) ∧
        (x.sys = true → s.counterMine p n = true → s.setRefused p A B n = none →
          ∃ v : State, exec (.cntset d a b g) s = .next (v.updCtx c k fun y => y.step.setReg d old) ∧
            ((∃ i j, n = .perf i j) ∨ (∃ i j w, n = .threshold i j w ∧ w ≠ 0) → v.counterValue p [] n = B) ∧
            ((∃ i, n = .exc i) ∨ (∃ i j, n = .error i j) ∨ (∃ i j, n = .ucie i j) → v.counterValue p [] n = zext (B.setWidth 32)) ∧
            (∀ i j, n = .threshold i j 0 → v = (s.setThreshold p (threshIndex i j 0) (B &&& 0xE0000000FFFFFFFF)).evalThreshold s p i j)))) ∧
    (SqAt s c k x g [a, b] → lineForm A = true → s.openSq c k x x.ocls.toNat (unitOf A) 64 .write = .go t (.win core sl o) →
      (bitsAt B 16 48 ≠ 0 → exec (.cntset d a b g) s = .next (t.trap c k 1 B)) ∧
      (bitsAt B 16 48 = 0 → t.detCheck x.detKey core sl o false = none → exec (.cntset d a b g) s = .next (t.trap c k 6 A)) ∧
      (bitsAt B 16 48 = 0 → t.detCheck x.detKey core sl o false = some u →
        ∃ v : State, exec (.cntset d a b g) s = .next (v.updCtx c k fun y => y.step.setReg d (Slice.meta' (u.slice core sl) o)) ∧
          Slice.meta' (v.slice core sl) o = (if B = 0 then 0 else BitVec.ofNat 64 (2 ^ 62 + bitsAt B 0 16 * 2 ^ 32)) ∧
          (v.slice core sl).bytes = (u.slice core sl).bytes)))

/-! ## Context images and poison queries -/

/-- R467, R469 to R471: POISQ writes 1 where the 64-byte unit of a is poisoned and 0 else, without its data. CTXS writes 4 for a gang and for
itself named by its CTXID, traps at user level for another context, and images its own context in units of 64 bytes, with 1 recorded in d,
before it writes 0. CTXR is of system level, writes 1 for a wrong header, 2 for a wrong digest, 3 for a record that is refused and 4 where no
image area can be had, and else inserts the continuation ready with its image. -/
def Obligations.ContextImages : Prop :=
  ∀ (s t : State) (c k : Nat) (x : Ctx) (g : Pred) (d a b : Reg) (T : Target) (q : Task) (i : Image) (hd bs : List Byte),
    let A := x.reg a
    let B := x.reg b
    let digest := fun (bs : List Byte) => Config.sha384 (bs.drop 256) = BitVec.ofNat 384 (ofBytes ((bs.drop 16).take 48))
    (SqAt s c k x g [a] → s.openSq c k x x.ocls.toNat (unitOf A) 64 .read = .go t T → (∀ dev, T ≠ .remote dev) →
      exec (.poisq d a g) s = .next (t.updCtx c k fun y => y.step.setReg d (if t.marksAt T 64 = [] then 0 else 1))) ∧
    (SqAt s c k x g [a, b] → x.writing = none →
      (B ≠ 0 → x.sys = false → exec (.ctxs d a b g) s = .next (s.trap c k 2 B)) ∧
      (B = 0 → s.task? x.part x.tid = some q → A.toNat % 256 ≠ 0 → exec (.ctxs d a b g) s = .next (s.trap c k 4 A)) ∧
      (B = 0 → s.task? x.part x.tid = some q → A.toNat % 256 = 0 → recGang q.record ≠ 0 → exec (.ctxs d a b g) s = regResult s c k x d 4) ∧
      (B ≠ 0 → x.sys = true → s.ctxTask x.part B = some q → A.toNat % 256 = 0 → B.toNat = ctxid x.part c k →
        exec (.ctxs d a b g) s = regResult s c k x d 4) ∧
      (B = 0 → s.task? x.part x.tid = some q → A.toNat % 256 = 0 → recGang q.record = 0 → x.accessesDone = true → s.canSave c k = true →
        (s.setCtx c k (x.step.setReg d 1)).imageOf c k x = some i →
        let data := (s.makeFlat q.record i).1
        let start := (s.makeFlat q.record i).2.updCtx c k fun y => { y with writing := some (data, 0, false) }
        ∀ (at' : Nat → State) (T : Nat → Target), at' 0 = start →
          (∀ j, 64 * j < data.length → (∀ dev, T j ≠ .remote dev) ∧
            (∀ y, (at' j).ctx? c k = some y → (at' j).openSq c k y y.ocls.toNat (A + BitVec.ofNat 64 (64 * j)) 64 .write = .go (at' j) (T j)) ∧
            at' (j + 1) = (((at' j).crossed c (T j)).writeAt (T j) ((data.drop (64 * j)).take 64)).updCtx c k fun y => { y with writing := some (data, j + 1, false) }) →
          (∀ j, j * 64 ≤ data.length → ∃ y, (at' j).ctx? c k = some y ∧ y.writing = some (data, j, false) ∧ y.stores = []) →
          data.length % 64 = 0 →
          exec (.ctxs d a b g) s = .next ((at' (data.length / 64)).updCtx c k fun y => { y.step.setReg d 0 with writing := none }))) ∧
    (SqAt s c k x g [a] →
      (x.sys = false → exec (.ctxr d a g) s = .next (s.trap c k 2 A)) ∧
      (x.sys = true → A.toNat % 256 ≠ 0 → exec (.ctxr d a g) s = .next (s.trap c k 4 A)) ∧
      (x.sys = true → A.toNat % 256 = 0 → s.readPieces c k x (devPieces A 256) = .bytes t hd →
        let fin := fun (u : State) (v : Word) => Host.Outcome.next (u.updCtx c k fun y => { y.step.setReg d v with asks := [], got := [] })
        (flatBad hd = true → exec (.ctxr d a g) s = fin t 1) ∧
        (flatBad hd = false → ∀ u v, t.readPieces c k x (devPieces A (ofBytes ((hd.drop 8).take 8))) = .bytes u bs →
          let r : Rec := BitVec.ofNat 1024 (ofBytes ((bs.drop 128).take 128))
          let cont := recSet r 0 (recHeader r ||| 1#64 <<< 52)
          (¬ digest bs → exec (.ctxr d a g) s = fin u 2) ∧
          let locked := ((u.flats.find? fun f => f.bytes == bs).map fun f => f.image.ctx.hlc != 0).getD false
          let check := if locked then some (0, 1) else u.recordCheck ⟨x.part, x.sys, recRegion x.record, false⟩ r
          let room := v.hbmRoom x.part (dieOf c) areaSize (some (recRegion cont))
          (digest bs → check ≠ none → exec (.ctxr d a g) s = fin (u.updCtx c k Ctx.heard) 3) ∧
          (digest bs → check = none → u.enterRecord c k x r none = .same v → exec (.ctxr d a g) s = fin v 3) ∧
          (digest bs → check = none → u.enterRecord c k x r none = .fresh v → room = false →
            exec (.ctxr d a g) s = fin (v.retract x.part cont (recResults cont)) 4) ∧
          (digest bs → check = none → u.enterRecord c k x r none = .fresh v → room = true → ∀ tid w n,
            v.insertTask x.part cont ⟨c, dieOf c, v.spillOr x.part (dieOf c), v.stampFor x.part cont none, none, false, none, none, 0⟩ = .ok (tid, w) →
            w.task? x.part tid = some n →
            exec (.ctxr d a g) s = fin ((w.updTask x.part tid fun m => { m with
              images := [w.flatImage bs n c k], areas := [(0, dieOf c)], depth := w.depthOf x.part cont }).makeReady x.part tid) 0))))

/-! ## Vector words -/

/-- R207, R211, R212: the arithmetic words write the active elements of vd in their sources' common format: a float result is the exact one
rounded once, an integer one is taken modulo 2^N, or clamped with SAT; VABS and VNEG change a float's sign alone. -/
def Obligations.VectorArithmetic : Prop :=
  ∀ (s : State) (c : Nat) (n : Entry) (x : Ctx) (m : Rnd) (vd va vb : VNum) (k : KNum),
    let v := s.veEnv c x n
    let d := vd.toNat
    let f := (v.reg va.toNat).tag
    let act := v.active (Fmt.count f) k
    let bits := fun (r : VNum) e => elem f (v.reg r.toNat).bytes e
    let rdn := m.rm == .rdn
    let two := VeAt s c n x [va.toNat, vb.toNat] ∧ (v.reg vb.toNat).tag = f
    let three := VeAt s c n x [va.toNat, vb.toNat, d] ∧ (v.reg vb.toNat).tag = f ∧ (v.reg d).tag = f
    let R := fun e => decodeVal f (bits va e)
    let S := fun e => decodeVal f (bits vb e)
    let T := fun e => decodeVal f (bits vd e)
    let I := fun e => decodeInt f (bits va e)
    let J := fun e => decodeInt f (bits vb e)
    let K := fun e => decodeInt f (bits vd e)
    let rounded := fun i (g : Nat → Val × Bool) => s.VeWrites c n x i d f act (fun e => deliver f m (v.draw e) (g e)) (m.rm == .sr)
    let picked := fun i (g : Nat → Val × Bool) => s.VeWrites c n x i d f act (fun e => deliver f rneNoSat (v.draw e) (g e)) false
    let exact := fun i (g : Nat → Int) =>
      s.VeWrites c n x i d f act (fun e => if m.sat then clampInt f false (g e) else (encodeInt f (g e), Ev.zero)) false
    let sign := fun b => Ev.ofFlags (isNanBits f b) (isInfBits f b) false false false
    (Fmt.isFloat f = true →
      (two → rounded (.vadd m vd va vb k) (fun e => vAdd rdn (R e) (S e)) ∧ rounded (.vsub m vd va vb k) (fun e => vAdd rdn (R e) (S e).flip) ∧
        rounded (.vmul m vd va vb k) (fun e => vMul (R e) (S e)) ∧ picked (.vmin m vd va vb k) (fun e => vMin (R e) (S e)) ∧
        picked (.vmax m vd va vb k) (fun e => vMax (R e) (S e))) ∧
      (three → rounded (.vfma m vd va vb k) (fun e => vFma rdn (R e) (S e) (T e)) ∧ rounded (.vfms m vd va vb k) (fun e => vFma rdn (R e) (S e) (T e).flip) ∧
        rounded (.vnfma m vd va vb k) (fun e => vFma rdn (R e).flip (S e) (T e))) ∧
      (VeAt s c n x [va.toNat] →
        s.VeWrites c n x (.vabs m vd va k) d f act (fun e => let b := bits va e % 2 ^ (Fmt.width f - 1); (b, sign b)) false ∧
        s.VeWrites c n x (.vneg m vd va k) d f act (fun e => let b := bits va e ^^^ 2 ^ (Fmt.width f - 1); (b, sign b)) false)) ∧
    (Fmt.isInt f = true →
      (two → exact (.vadd m vd va vb k) (fun e => I e + J e) ∧ exact (.vsub m vd va vb k) (fun e => I e - J e) ∧ exact (.vmul m vd va vb k) (fun e => I e * J e) ∧
        s.VeWrites c n x (.vmin m vd va vb k) d f act (fun e => (if J e < I e then bits vb e else bits va e, Ev.zero)) false ∧
        s.VeWrites c n x (.vmax m vd va vb k) d f act (fun e => (if I e < J e then bits vb e else bits va e, Ev.zero)) false) ∧
      (three → exact (.vfma m vd va vb k) (fun e => I e * J e + K e) ∧ exact (.vfms m vd va vb k) (fun e => I e * J e - K e) ∧
        exact (.vnfma m vd va vb k) (fun e => K e - I e * J e)) ∧
      (VeAt s c n x [va.toNat] → exact (.vabs m vd va k) (fun e => (I e).natAbs) ∧ exact (.vneg m vd va k) (fun e => -(I e))))

/-- R213 to R218: logic on the bits of elements of one format; shifts, where a count of the width or more leaves zeros or copies of the
sign; comparison, mask logic and classification write a mask whose inactive bits are 0; VSEL picks by the mask, VIOTA counts its set bits below
each element. -/
def Obligations.VectorLogicAndMasks : Prop :=
  ∀ (s : State) (c : Nat) (n : Entry) (x : Ctx) (vd va vb : VNum) (k ka kb kd : KNum) (imm : BitVec 9) (cond : VCond) (set : BitVec 6) (g : Fmt),
    let v := s.veEnv c x n
    let d := vd.toNat
    let f := (v.reg va.toNat).tag
    let N := Fmt.width f
    let act := v.active (Fmt.count f) k
    let bits := fun (r : VNum) e => elem f (v.reg r.toNat).bytes e
    let one := VeAt s c n x [va.toNat] ∧ f ≠ .empty
    let two := VeAt s c n x [va.toNat, vb.toNat] ∧ f ≠ .empty ∧ (v.reg vb.toNat).tag = f
    let writes := fun i (act : List Nat) (h : Nat → Nat) => s.VeWrites c n x i d f act (fun e => (h e, Ev.zero)) false
    let sign := fun e : Nat => if 2 ^ (N - 1) ≤ bits va e then 2 ^ N - 1 else 0
    let moved := fun e t => if N ≤ t then sign e else bits va e / 2 ^ t + sign e / 2 ^ (N - t) * 2 ^ (N - t)
    let masks := fun (op : MskOp) (m : Nat → Bool) => s.VeMasks c n x (.vmsk op kd ka kb) kd m
    (two →
      writes (.vand vd va vb k) act (fun e => bits va e &&& bits vb e) ∧ writes (.vor vd va vb k) act (fun e => bits va e ||| bits vb e) ∧
      writes (.vxor vd va vb k) act (fun e => bits va e ^^^ bits vb e) ∧
      writes (.vsel vd va vb k) (v.active (Fmt.count f) 0) (fun e => if v.sel k e then bits va e else bits vb e) ∧
      s.VeMasks c n x (.vcmp cond kd va vb k) kd (fun e => decide (e ∈ act) && condHolds cond f (bits va e) (bits vb e)) ∧
      (Fmt.isInt f = true →
        writes (.vshl vd va vb k) act (fun e => if N ≤ bits vb e then 0 else bits va e * 2 ^ bits vb e) ∧
        writes (.vshr vd va vb k) act (fun e => bits va e / 2 ^ bits vb e) ∧
        writes (.vsra vd va vb k) act (fun e => moved e (bits vb e)))) ∧
    (one →
      writes (.vnot vd va k) act (fun e => 2 ^ N - 1 - bits va e) ∧
      (Fmt.isFloat f = true →
        s.VeMasks c n x (.vcls kd va set k) kd (fun e => decide (e ∈ act) && set.getLsbD (classOf f (bits va e)))) ∧
      (Fmt.isInt f = true →
        writes (.vshlImm vd va imm) (v.active (Fmt.count f) 0) (fun e => if N ≤ imm.toNat then 0 else bits va e * 2 ^ imm.toNat) ∧
        writes (.vshrImm vd va imm) (v.active (Fmt.count f) 0) (fun e => bits va e / 2 ^ imm.toNat) ∧
        writes (.vsraImm vd va imm) (v.active (Fmt.count f) 0) (fun e => moved e imm.toNat))) ∧
    (VeAt s c n x [] →
      masks .and (fun e => (v.mask ka).getLsbD e && (v.mask kb).getLsbD e) ∧ masks .or (fun e => (v.mask ka).getLsbD e || (v.mask kb).getLsbD e) ∧
      masks .xor (fun e => (v.mask ka).getLsbD e != (v.mask kb).getLsbD e) ∧ masks .andn (fun e => (v.mask ka).getLsbD e && !(v.mask kb).getLsbD e) ∧
      masks .not (fun e => !(v.mask ka).getLsbD e) ∧ masks .len (fun e => decide (e < v.len)) ∧
      masks .first (fun e => (v.mask ka).getLsbD e && (List.range e).all fun j => !(v.mask ka).getLsbD j) ∧
      s.VeWrites c n x (.viota vd g k) d g (v.active (Fmt.count g) 0) (fun e => (((List.range e).filter (v.sel k)).length, Ev.zero)) false)

/-- R219 to R224: conversion of elements, one by one, into a group or out of one; VPACK and VUNPK reorder a group; VRED leaves one element,
for integer sums the sum modulo 2^N; VAMAX the largest magnitude of each block of 128 and the old one; VDOT adds each block's products to its
accumulator. -/
def Obligations.VectorConversionsAndSums : Prop :=
  ∀ (s : State) (c : Nat) (n : Entry) (x : Ctx) (m : Rnd) (vd va vb : VNum) (k : KNum) (f : Fmt) (w : BitVec 3) (op : RedOp),
    let v := s.veEnv c x n
    let d := vd.toNat
    let a := va.toNat
    let g := (v.reg a).tag
    let bits := fun (h : Fmt) r e => elem h (v.reg r).bytes e
    let sr := fun h => m.rm == .sr && (Fmt.isFloat g || Fmt.isFloat h)
    let W := w.toNat
    let group := fun (r : Nat) => (List.range r).map (a + ·)
    (VeAt s c n x [a] → g ≠ .empty →
      s.VeWrites c n x (.vcvt m vd va f k) d f (v.active (min (Fmt.count g) (Fmt.count f)) k) (fun e => convert g f m (v.draw e) (bits g a e)) (sr f) ∧
      (∀ r, groupWidth g f = some r → ∃ u, exec (.vcvtw m vd va f k) s = .next (s.veDone c n x u) ∧ v.keeps u ((List.range r).map (d + ·)) ∧
        u.masks = v.masks ∧ (∀ q, q < r → (u.reg (d + q)).tag = f ∧ ∀ p, p < Fmt.count f → elem f (u.reg (d + q)).bytes p =
          if p * r + q ∈ v.active (Fmt.count g) k then (convert g f m (v.draw (p * r + q)) (bits g a (p * r + q))).1 % 2 ^ Fmt.width f
          else bits f (d + q) p)) ∧
      (∃ u, exec (.vred m op vd va k) s = .next (s.veDone c n x u) ∧ v.keeps u [d] ∧ u.masks = v.masks ∧ (u.reg d).tag = redFmt g ∧
        (∀ e, e ≠ 0 → e < Fmt.count (redFmt g) → elem (redFmt g) (u.reg d).bytes e = bits (redFmt g) d e) ∧
        (Fmt.isInt g = true → op = .sum → elem (redFmt g) (u.reg d).bytes 0 =
          encodeInt (redFmt g) ((v.active (Fmt.count g) k).map fun e => decodeInt g (bits g a e)).sum) ∧
        (v.active (Fmt.count g) k = [] → (op = .sum ∨ op = .amax) → elem (redFmt g) (u.reg d).bytes 0 = 0))) ∧
    (∀ r, groupWidth f g = some r → VeAt s c n x (group r) → (∀ q ∈ group r, (v.reg q).tag = g) →
      s.VeWrites c n x (.vcvtn m vd va f k) d f (v.active (Fmt.count f) k)
        (fun e => convert g f m (v.draw e) (bits g (a + e % r) (e / r))) (sr f)) ∧
    (W = 2 ∨ W = 4 → VeAt s c n x (group W) → g ≠ .empty → (∀ q ∈ group W, (v.reg q).tag = g) →
      let all := (List.range W).map (d + ·)
      (∃ u, exec (.vpack m vd va w) s = .next (s.veDone c n x u) ∧ v.keeps u all ∧ u.masks = v.masks ∧ ∀ q p, q < W → p < Fmt.count g →
        (u.reg (d + q)).tag = g ∧ elem g (u.reg (d + q)).bytes p = bits g (a + (q * Fmt.count g + p) % W) ((q * Fmt.count g + p) / W)) ∧
      (∃ u, exec (.vunpk m vd va w) s = .next (s.veDone c n x u) ∧ v.keeps u all ∧ u.masks = v.masks ∧ ∀ q p, q < W → p < Fmt.count g →
        (u.reg (d + q)).tag = g ∧ elem g (u.reg (d + q)).bytes p = bits g (a + (p * W + q) / Fmt.count g) ((p * W + q) % Fmt.count g))) ∧
    (VeAt s c n x [a, vb.toNat] → Fmt.isFloat g = true → (v.reg vb.toNat).tag = .fp32 →
      ∃ u, exec (.vamax m vd va vb k) s = .next (s.veDone c n x u) ∧ v.keeps u [d] ∧ u.masks = v.masks ∧ (u.reg d).tag = .fp32 ∧
        ∀ j, j < 128 → elem .fp32 (u.reg d).bytes j =
          let lane := fun i => if 128 * j + i ∈ v.active (Fmt.count g) k then some (bits g a (128 * j + i), Ev.zero) else none
          let top := match treeRoot (fun _ _ y z => redComb .amax g rneNoSat 0 y z) ((List.range 128).map lane) with
            | some y => (convert g .fp32 rneNoSat 0 y.1).1
            | none => 0
          let r := (fp32Rne (vMaxMag (decodeVal .fp32 (bits .fp32 vb.toNat j)) (decodeVal .fp32 top))).1
          if (Fmt.count g + 127) / 128 ≤ j then bits .fp32 d j else (if isNanBits .fp32 r then r else r % 2 ^ 31) % 2 ^ 32) ∧
    (VeAt s c n x [a, vb.toNat, d] → g ≠ .empty → (v.reg vb.toNat).tag ≠ .empty → pairing g (v.reg vb.toNat).tag = some f → (v.reg d).tag = f →
      let act := v.active (min (Fmt.count g) (Fmt.count (v.reg vb.toNat).tag)) k
      ∃ u, exec (.vdot m vd va vb k) s = .next (s.veDone c n x u) ∧ v.keeps u [d] ∧ u.masks = v.masks ∧ (u.reg d).tag = f ∧
        ∀ j, j < 128 → elem f (u.reg d).bytes j =
          let es := act.filter fun e => e / 128 == j
          if es = [] then bits f d j
          else if f = .i32 then
            (clampInt .i32 false (decodeInt .i32 (bits .i32 d j) + (es.map fun e => decodeInt .i8 (bits .i8 a e) * decodeInt .i8 (bits .i8 vb.toNat e)).sum)).1
          else (deliver .fp32 m (v.draw j) (vAdd (m.rm == .rdn) (decodeVal .fp32 (bits .fp32 d j)) (decodeVal .fp32 (blockSum (es.map fun e =>
            (decodeVal g (bits g a e), decodeVal (v.reg vb.toNat).tag (bits (v.reg vb.toNat).tag vb.toNat e)))).1))).1 % 2 ^ 32)

/-- R225 to R227, R232, R233: splats of an element, an immediate or a captured register; VMOV; VPERM, which takes 0 for an index outside the
register; VSLIDE and its rotating form; VTAG, which keeps the bytes under another tag; VSHP, which sets the shape of the entry's later
words. R228 to R231: the special functions and VDIV on FP32 elements, rounded to nearest; VSCL multiplies each block of 128 by its scale,
VQNT divides by it and rounds to the working tag, VERRF does so with the carried error added and leaves the new error. -/
def Obligations.VectorMovesAndFunctions : Prop :=
  (∀ (s : State) (c : Nat) (n : Entry) (x : Ctx) (vd va vb : VNum) (k : KNum) (i sh : BitVec 9) (r : Reg) (f : Fmt),
    let v := s.veEnv c x n
    let d := vd.toNat
    let g := (v.reg va.toNat).tag
    let h := (v.reg vb.toNat).tag
    let C := Fmt.count g
    let bits := fun e => elem g (v.reg va.toNat).bytes e
    let all := fun t => v.active (Fmt.count t) 0
    let writes := fun i t act (q : Nat → Nat) => s.VeWrites c n x i d t act (fun e => (q e, Ev.zero)) false
    let at' := fun (j : Int) => if 0 ≤ j ∧ j < C then bits j.toNat else 0
    (VeAt s c n x [va.toNat] → g ≠ .empty →
      (i.toNat < C → writes (.vsplat vd va i) g (all g) (fun _ => bits i.toNat)) ∧
      writes (.vmov vd va k) g (v.active C k) bits ∧
      writes (.vslide vd va sh) g (all g) (fun e => at' (e + sh.toInt)) ∧
      writes (.vslideRot vd va sh) g (all g) (fun e => bits (((e : Int) + sh.toInt) % C).toNat)) ∧
    (VeAt s c n x [va.toNat, vb.toNat] → g ≠ .empty → Fmt.isInt h = true →
      writes (.vperm vd va vb k) g (v.active (min C (Fmt.count h)) k) (fun e => at' (decodeInt h (elem h (v.reg vb.toNat).bytes e)))) ∧
    (VeAt s c n x [va.toNat] → ∃ u, exec (.vtag vd va f) s = .next (s.veDone c n x u) ∧ v.keeps u [d] ∧ (u.reg d).tag = f ∧ u.masks = v.masks ∧
      (u.reg d).poison = none ∧ (f ≠ .empty → ∀ j, j < 4080 → (u.reg d).bytes.getLsbD j = (v.reg va.toNat).bytes.getLsbD j) ∧
      (f = .empty → (u.reg d).bytes = 0)) ∧
    (VeAt s c n x [] → v.tag ≠ .empty →
      writes (.vsplatReg vd r) v.tag (all v.tag) (fun _ => (n.reg r).toNat) ∧
      s.VeWrites c n x (.vsplatImm vd i) d v.tag (all v.tag)
        (fun _ => if Fmt.isFloat v.tag then deliver v.tag rneNoSat 0 (.fin (Ex.ofInt i.toInt), false) else clampInt v.tag false i.toInt) false) ∧
    (VeAt s c n x [] → ∃ t m, exec (.vshp r) s = .next t ∧ m ∈ (t.core c).chain .ve ∧ m.slot = n.slot ∧ m.start = n.start ∧ m.pos = n.pos ∧
      shapeLen m.shape = shapeLen (n.reg r) ∧ shapeTag m.shape = shapeTag (n.reg r) ∧ m.busy = true ∧ (t.core c).vrf = (s.core c).vrf ∧ t.mem = s.mem)) ∧
  (∀ (s : State) (c : Nat) (n : Entry) (x : Ctx) (m : Rnd) (vd va vb : VNum) (k : KNum),
    let v := s.veEnv c x n
    let d := vd.toNat
    let g := (v.reg va.toNat).tag
    let h := (v.reg vb.toNat).tag
    let A := fun e => elem g (v.reg va.toNat).bytes e
    let B := fun e => elem .fp32 (v.reg vb.toNat).bytes e
    let C := fun e => elem .fp32 (v.reg (d + 1)).bytes e
    let act := v.active 128 k
    let special := fun i fn => s.VeWrites c n x i d .fp32 act (fun e => fp32Rne (specialVal fn (decodeVal .fp32 (A e)))) false
    let sr := m.rm == .sr
    (VeAt s c n x [va.toNat] → g = .fp32 →
      special (.vexp2 m vd va k) .exp2 ∧ special (.vlog2 m vd va k) .log2 ∧ special (.vrcp m vd va k) .rcp ∧ special (.vrsq m vd va k) .rsq ∧
      special (.vsqrt m vd va k) .sqrt ∧ special (.vtanh m vd va k) .tanh ∧ special (.vsig m vd va k) .sig) ∧
    (VeAt s c n x [va.toNat, vb.toNat] → h = .fp32 →
      (g = .fp32 → s.VeWrites c n x (.vdiv m vd va vb k) d .fp32 act
        (fun e => fp32Rne (vDiv (decodeVal .fp32 (A e)) (decodeVal .fp32 (B e)))) false) ∧
      (Fmt.isFloat g = true → s.VeWrites c n x (.vscl m vd va vb k) d g (v.active (Fmt.count g) k)
        (fun e => deliver g m (v.draw e) (vMul (decodeVal g (A e)) (decodeVal .fp32 (B (e / 128))))) sr) ∧
      (g = .fp32 ∨ g = .bf16 ∨ g = .fp16 → v.tag ≠ .empty →
        s.VeWrites c n x (.vqnt m vd va vb k) d v.tag (v.active (min (Fmt.count g) (Fmt.count v.tag)) k)
          (fun e => deliverAny v.tag m (v.draw e) (vDiv (decodeVal g (A e)) (decodeVal .fp32 (B (e / 128))))) sr)) ∧
    (VeAt s c n x [va.toNat, vb.toNat, d + 1] → g = .fp32 → h = .fp32 → (v.reg (d + 1)).tag = .fp32 → v.tag ≠ .empty → vd ≠ vb →
      let idx := v.active (min 128 (Fmt.count v.tag)) k
      ∃ u, exec (.verrf m vd va vb k) s = .next (s.veDone c n x u) ∧ v.keeps u [d, vb.toNat] ∧ u.masks = v.masks ∧
        (u.reg d).tag = v.tag ∧ (u.reg vb.toNat).tag = .fp32 ∧
        (∀ e, e < Fmt.count v.tag → e ∈ idx → elem v.tag (u.reg d).bytes e = (errfElem v.tag m (v.draw e) (A e) (B e) (C (e / 128))).1.1 % 2 ^ Fmt.width v.tag) ∧
        (∀ e, e < 128 → elem .fp32 (u.reg vb.toNat).bytes e =
          if e ∈ idx then (errfElem v.tag m (v.draw e) (A e) (B e) (C (e / 128))).2.1 % 2 ^ 32 else B e) ∧
        u.rstrm = if sr then v.rstrm + 1 else v.rstrm))

/-- R295, R297: a VLD whose bytes all lie on this device writes the elements of the working tag below LEN and keeps the rest, a VST stores
those of its register, and VLDX and VSTX do the same element by element at base plus index times the element's width, in increasing element;
every access is checked before any byte moves. -/
def Obligations.VectorMemory : Prop :=
  ∀ (s t : State) (c : Nat) (n : Entry) (x : Ctx) (vd vi : VNum) (a : Reg) (off : BitVec 10) (k : KNum) (oc : OClass) (spots : List Spot),
    let v := s.veEnv c x n
    let d := vd.toNat
    let A := n.reg a + sext off * 64
    let f := v.tag
    let old := v.reg d
    let idx := v.reg vi.toNat
    let place := fun g e => n.reg a + BitVec.ofInt 64 (decodeInt idx.tag (elem idx.tag idx.bytes e) * (Fmt.width g / 8 : Nat))
    let here := fun (l : List Spot) => ∀ p ∈ l, p.remote = none
    let across := fun (t : State) => spots.foldl (fun s q => s.crossed c q.t) t
    let vldBytes := byteSpan f (min (Fmt.count f) v.len)
    let vstBytes := byteSpan old.tag (min (Fmt.count old.tag) v.len)
    let els := fun g => v.active (min (Fmt.count g) (Fmt.count idx.tag)) k
    let ok := fun g => (∃ b, Fmt.width g = 8 * b ∧ 0 < b) ∧ Fmt.isInt idx.tag = true ∧ ∀ e ∈ els g, (place g e).toNat % (Fmt.width g / 8) = 0
    (VeAt s c n x [] → f ≠ .empty → A.toNat % 64 = 0 → s.openBy c n.slot x .read n.pages (lineParts A vldBytes) = .go t spots → here spots →
      t.core c = s.core c → t.ctx? c n.slot = some x →
      ∃ u, exec (.vld vd a off oc) s = .next (t.veDone c n x u) ∧ v.keeps u [d] ∧ u.masks = v.masks ∧ (u.reg d).tag = f ∧
        (t.firstMark spots = none → n.mark = none → vldBytes = byteSpan f (Fmt.count f) → (u.reg d).poison = none) ∧
        ∀ j, j < 4080 → (u.reg d).bytes.getLsbD j = (if j < 8 * vldBytes then (BitVec.ofNat 4096 (ofBytes (t.gather spots []))).getLsbD j else old.bytes.getLsbD j)) ∧
    (VeAt s c n x [d] → old.tag ≠ .empty → A.toNat % 64 = 0 → s.openBy c n.slot x .write n.pages (lineParts A vstBytes) = .go t spots → here spots →
      exec (.vst vd a off oc) s = .next (((across t).scatter spots (splitData (lineParts A vstBytes) (regBytes old.bytes 0 vstBytes))).wordDone c .ve)) ∧
    (VeAt s c n x [vi.toNat] → ok f → s.openBy c n.slot x .read n.pages ((els f).map fun e => (place f e, Fmt.width f / 8)) = .go t spots → here spots →
      t.core c = s.core c → t.ctx? c n.slot = some x →
      ∃ u, exec (.vldx vd vi a k oc) s = .next (t.veDone c n x u) ∧ v.keeps u [d] ∧ u.masks = v.masks ∧ (u.reg d).tag = f ∧
        ∀ e, e < Fmt.count f → elem f (u.reg d).bytes e = match (els f).findIdx? (· == e) with
          | some j => ofBytes (((t.gather spots []).drop (Fmt.width f / 8 * j)).take (Fmt.width f / 8))
          | none => elem f old.bytes e) ∧
    (VeAt s c n x [vi.toNat, d] → ok old.tag → s.openBy c n.slot x .write n.pages ((els old.tag).map fun e => (place old.tag e, Fmt.width old.tag / 8)) = .go t spots →
      here spots →
      exec (.vstx vd vi a k oc) s = .next (((across t).scatter spots ((els old.tag).map fun e =>
        (place old.tag e, regBytes old.bytes (Fmt.width old.tag / 8 * e) (Fmt.width old.tag / 8)))).wordDone c .ve))

/-- R234, R235, R208, R454: a chain runs its words in order on temporaries that end with it, and the first that fails cancels it and names its
own offset; a word with a poisoned source stops its entry with POISON and the address, one with a tag that it does not accept with FMTTAG and
the engine form, and neither has any other effect. -/
def Obligations.VectorChainsAndErrors : Prop :=
  ∀ (s : State) (c : Nat) (n : Entry) (x : Ctx) (m : Rnd) (vd va vb : VNum) (k : KNum) (w0 : ChainWord) (ws : List (Option ChainWord))
    (i : Nat) (e : VErr) (a : Word), s.wordTurn .ve = some (c, n, x) →
    let v := s.veEnv c x n
    let start := { v with chain := true }
    let last := fun (u : VEnv) => { u with chain := false, temps := [] }
    let stopped := fun (o : Out) (w : Cause) => ∃ t, o = .next t ∧ (t.core c).vrf = (s.core c).vrf ∧ t.ctx? c n.slot = s.ctx? c n.slot ∧ t.mem = s.mem ∧
      ∃ q ∈ (t.core c).chain .ve, q.slot = n.slot ∧ q.start = n.start ∧ q.pos = n.pos ∧ q.failed = some w
    exec (.vchain m 0 []) s = .next (s.veDone c n x v) ∧
    (∀ u, veChainGo m 1 ws start = .ok u → exec (.vchain m 0 ws) s = .next (s.veDone c n x (last u))) ∧
    (∀ u, start.clean (ChainWord.reads w0) (veChainWord m w0) = .ok u → exec (.vchain m 0 [some w0]) s = .next (s.veDone c n x (last u))) ∧
    (∀ (obj : BitVec 16) r ts u, obj ≠ 0 → s.chainObject x obj.toNat v.tag = some (r, ts) → ts.any s.bankBusy = false →
      veChainGo m 1 ws { start with temps := [(7, r)] } = .ok u →
      exec (.vchain m obj ws) s = .next ((ts.foldl (fun s t => (s.stamp t).noteReader c n.slot t .read) s).veDone c n x (last u))) ∧
    (∀ obj : BitVec 16, obj ≠ 0 → s.chainObject x obj.toNat v.tag = none → stopped (exec (.vchain m obj ws) s) ⟨3, engineForm .ve n 0 n.pos⟩) ∧
    (veChainGo m 1 ws start = .error (i, e) → stopped (exec (.vchain m 0 ws) s) (veCause n (n.pos + i) e)) ∧
    ((v.reg va.toNat).poison = some a →
      ∀ j ∈ [Instr.vadd m vd va vb k, .vsub m vd va vb k, .vmul m vd va vb k, .vfma m vd va vb k, .vmin m vd va vb k, .vand vd va vb k,
        .vcvt m vd va .fp32 k, .vmov vd va k, .vtag vd va .fp32, .vdiv m vd va vb k], stopped (exec j s) ⟨10, a⟩) ∧
    ((v.reg va.toNat).poison = none → (v.reg vb.toNat).poison = none → (v.reg va.toNat).tag ≠ (v.reg vb.toNat).tag →
      ∀ j ∈ [Instr.vadd m vd va vb k, .vsub m vd va vb k, .vmul m vd va vb k, .vmin m vd va vb k, .vand vd va vb k, .vshl vd va vb k,
        .vsel vd va vb k], stopped (exec j s) ⟨5, BitVec.ofNat 64 (n.start * 2 ^ 32 + n.pos % 4096)⟩)

/-! ## Matrix words -/

/-- R251, R254 to R256, R259: a word waits for the step words in flight that hold what it needs. A load takes the weights of its mode and tag into
a sub-array, with their scales and positions; MSP sets the sparse code, MMODE the mode, which empties every sub-array; MGATH takes rows into
the operand latch. A sub-array that the mode does not have raises ILLOP, a tag that it does not take FMTTAG. -/
def Obligations.MatrixOperands : Prop :=
  ∀ (s t u : State) (c : Nat) (n : Entry) (x : Ctx) (sub size : BitVec 2) (tag : Fmt) (a b : Reg) (nn : BitVec 4) (mode : MMode) (nm1 : BitVec 8)
    (kd nw : Nat),
    let m := x.me
    let k := n.slot
    let need : Needs := { Needs.nothing with sub := some sub.toNat }
    let len := weightBytes tag kd nw m.sparse
    let set := fun (v : State) (f : MeState → MeState) => Host.Outcome.next ((v.updCtx c k fun y => { y with me := f y.me }).wordDone c .me)
    let loads := fun (i : Instr) (transposed : Bool) =>
      let w : Weights := ⟨tag, m.sparse, transposed, t.lRead c k (n.reg a) len⟩
      exec i s = set t fun y => { y with weights := Tab.put y.weights sub.toNat w, badmeta := y.badmeta || w.badMeta kd nw }
    let rows := nm1.toNat + 1
    let bytes := 256 + 128 * size.toNat
    let at' := fun i => n.reg b + BitVec.ofNat 64 (t.lWord c k (n.reg a + BitVec.ofNat 64 (4 * i)) 4)
    let form := engineForm .me n 0 n.pos
    (MeAt s c n x need → sub.toNat < subCount m.mode →
      (arrayShape m.mode tag = some (kd, nw) → s.meOpen c k x n.seq [(n.reg a, len)] [] = .go t →
        (m.sparse = 0 ∨ tag ≠ .bf16 → loads (.mldw sub tag a) false) ∧ (m.sparse = 0 → loads (.mldwt sub tag a) true)) ∧
      (arrayShape m.mode tag = none → ∀ i ∈ [Instr.mldw sub tag a, .mldwt sub tag a], exec i s = .next (s.failEntry c .me ⟨5, form⟩))) ∧
    (MeAt s c n x need → subCount m.mode ≤ sub.toNat → ∀ i ∈ [Instr.mldw sub tag a, .mldwt sub tag a], exec i s = .next (s.failEntry c .me ⟨1, form⟩)) ∧
    (MeAt s c n x { Needs.nothing with array := true } →
      exec (.msp nn) s = set s (fun y => { y with sparse := nn.toNat }) ∧ exec (.mmode mode) s = set s (fun y => { y with mode := mode, weights := [] })) ∧
    (s.wordTurn .me = some (c, n, x) → (s.core c).jobs ≠ [] → exec (.msp nn) s = .next s ∧ exec (.mmode mode) s = .next s) ∧
    (MeAt s c n x { Needs.nothing with latch := true } → s.meOpen c k x n.seq [(n.reg a, 4 * rows)] [] = .go t →
      t.meOpen c k x n.seq ((List.range rows).map fun i => (at' i, bytes)) [] = .go u →
      ∃ f : Tab (List Byte) → Tab (List Byte), exec (.mgath a b size nm1) s = set u (fun y => { y with latch := f y.latch }) ∧ ∀ l i,
        (i < rows → Tab.get (List.replicate 512 0) (f l) i =
          u.lRead c k (at' i) bytes ++ (Tab.get (List.replicate 512 0) l i).drop bytes) ∧
        (rows ≤ i → Tab.find (f l) i = Tab.find l i))

/-- R245, R248, R257, R258, R275: MGO and MGOB latch the nest registers, zero their part of the tile where the epilogue says so, and go into flight
at the nest's first position while the entry goes on. A step that can read what it streams updates the rows of the tile together, sets the
tile's tag and moves the nest on. -/
def Obligations.MatrixNests : Prop :=
  ∀ (s t : State) (c : Nat) (n : Entry) (x : Ctx) (tl : BitVec 4) (sub : BitVec 2) (back : Bool) (ph kd nw row0 : Nat) (acc : Fmt) (j : MeJob),
    let m := x.me
    let T := tl.toNat
    let S := sub.toNat
    let act := latchSet nestSet m
    let w := Tab.get .empty m.weights S
    let jw := Tab.get .empty m.weights j.sub
    let reload := j.steps ≠ 0 ∧ reloads j.act j.idx = true
    let reads := (if reload then [(streamAt j.act j.idx 1, weightBytes jw.tag kd nw jw.sparse)] else []) ++
      stepReads j.act j.idx back (Fmt.isNarrow jw.tag) (spanOf kd jw.sparse) nw
    let inFlight := fun (u : State) (word : Instr) => ∃ q y, (u.core c).jobs = (s.core c).jobs ++ [q] ∧ q.slot = n.slot ∧ q.word = word ∧
      q.pos = n.pos ∧ q.seq = n.seq ∧ q.tile = T ∧ q.sub = S ∧ q.act = act ∧ q.idx = List.replicate 6 0 ∧ q.steps = 0 ∧ u.mem = s.mem ∧
      u.ctx? c n.slot = some y ∧ y.me.active = act ∧ y.me.mpos0 = 0 ∧ y.me.mpos1 = 0 ∧ y.a = x.a ∧
      ((epi act).getLsbD 0 = true → y.tagOf T = acc ∧ ∀ r i, r < 256 → i < nw → tileElem (u.slice c ph) r i = 0) ∧
      ((epi act).getLsbD 0 = false → u.slice c ph = s.slice c ph)
    (MeAt s c n x (Needs.nest x T S) → S < subCount m.mode → x.tile? T = some ph → arrayShape m.mode w.tag = some (kd, nw) →
      pairing (fmtAtag act) w.tag = some acc → 0 < geomRows act → geomRows act ≤ 256 →
      (∃ u, exec (.mgo tl sub) s = .next u ∧ inFlight u (.mgo tl sub)) ∧
      (kd ≤ 256 → w.sparse = 0 → ∃ u, exec (.mgob tl sub) s = .next u ∧ inFlight u (.mgob tl sub))) ∧
    ((s.core c).jobs.find? (fun q => q.id == j.id) = some j → s.ctx? c j.slot = some x → (j.word = if back then .mgob tl sub else .mgo tl sub) → j.idx ≠ [] → x.tile? j.tile = some ph →
      arrayShape m.mode jw.tag = some (kd, nw) → pairing (fmtAtag j.act) jw.tag = some acc → s.meOpen c j.slot x j.seq reads [] = .go t →
      stepRow0 j.act j.idx = some row0 → (x.tagOf j.tile = .empty ∨ x.tagOf j.tile = acc) →
      t.tileMark c ph j.tile ((List.range (geomRows j.act)).map (row0 + ·)) = none →
      let r := t.stepWeights c j jw kd nw
      exec (.meStepComplete c j.id) s = .next (((r.1.stepTile c j x back acc r.2 kd nw ph row0).setTileTag c j.slot j.tile acc).afterStep c j))

/-- R262 to R266, R129: MDRAIN converts a region of a tile into L; MDRAINA adds it to FP32 words of windows, MDRAINX to exact accumulators,
a row after the other, here where every place is on this device; MRDA copies a whole tile with its step count; MZERO clears a tile; MVAR and
MSTAT store their state.
The model's own: the value that a DETTRAP of MDRAINX reports, and an address that is no multiple of 4 (logs 39 and 65). -/
def Obligations.MatrixDrains : Prop :=
  ∀ (s t v : State) (c : Nat) (n : Entry) (x : Ctx) (tl : BitVec 4) (a b e : Reg) (sn sat clamp i32 : Bool) (f : Fmt) (oc : OClass) (ph : Nat)
    (spots : List Spot),
    let T := tl.toNat
    let k := n.slot
    let g := regionOfReg (n.reg b)
    let sl := s.slice c ph
    let tileRows := (List.range g.rows).map (g.row0 + ·)
    let needTile : Needs := { Needs.nothing with tile := some T }
    let row := fun r => n.reg a + BitVec.ofNat 64 (r * g.pitch)
    let d := drainRows (t.slice c ph) (x.tagOf T) f sat (if sn then x.me.mscnt.toNat else 0) g
    let elems := (List.range g.rows).flatMap fun r => (List.range g.cols).map fun i => (r, i)
    let at' := fun w => elems.map fun (p : Nat × Nat) => (n.reg a + BitVec.ofNat 64 (p.1 * g.pitch + w * p.2), w)
    let rows := (List.range g.rows).map fun r => (spots.zip elems).filterMap fun q =>
      if q.2.1 = r then some (q.1, tileElem sl (g.row0 + r) (g.col0 + q.2.2)) else none
    let here := (∀ q ∈ spots, q.remote = none) ∧ t.firstMark spots = none ∧ x.tiles.all (Osc.lets oc.toNat (rowsPlace rows)) = true
    let first := n.row = 0 ∧ n.osc = [] ∧ x.tiles.length < 4095
    let rowDone := fun (s : State) => s.updCore c fun r => r.updCurrent .me fun m => { m with row := m.row + 1, asks := [], got := [] }
    let add := fun (s : State) (q : Spot × Nat) =>
      let r := drainAdd clamp (bitsAt (n.reg e) 0 32) (bitsAt (n.reg e) 32 32) (ofBytes (s.readAt q.1.t 4)) q.2
      (s.writeAt q.1.t (bytesOf 4 r.1)).countEv x.part n.kern x.recomp .fp32 r.2
    let readable := x.tile? T = some ph ∧ g.fits = true ∧ s.tileMark c ph T tileRows = none
    let stored := fun i addr bs => ∀ u, s.meOpen c k x n.seq [] [(addr, bs.length)] = .go u → exec i s = .next ((u.lWrite c k addr bs).wordDone c .me)
    (MeAt s c n x needTile → readable → drainsTo (x.tagOf T) f = true → (sn = true → x.tagOf T = .fp32) →
      s.meOpen c k x n.seq [] ((List.range g.rows).map fun r => (row r, drainRowBytes f g.cols)) = .go t →
      exec (.mdrain tl a b sn sat f) s = .next (((d.1.mapIdx fun r bs => (r, bs)).foldl (fun s q => s.lWrite c k (row q.1) q.2) t |>.countEv
        x.part n.kern x.recomp f d.2).wordDone c .me)) ∧
    (MeAt s c n x needTile → readable → x.tagOf T = .fp32 →
      (x.det = true → exec (.mdraina tl a b e clamp oc) s = .next (s.failEntry c .me ⟨6, engineForm .me n T n.pos⟩)) ∧
      (x.det = false → first → s.windowSpots c k x (at' 4) = .ok (t, spots) → here → exec (.mdraina tl a b e clamp oc) s =
        .next (((rows.foldl (fun s cells => rowDone (cells.foldl add (s.crossedRow c cells))) t).closeRows c k).wordDone c .me)) ∧
      ((n.reg a).toNat % 64 = 0 → g.pitch % 64 = 0 → first → s.windowSpots c k x (at' 64) = .ok (t, spots) → here →
        (rows.foldl (fun (o : Option State) cells => o.bind fun s => ((s.crossedRow c cells).addRow x.detKey cells).map rowDone) (some t) = some v →
          exec (.mdrainx tl a b oc) s = .next ((v.closeRows c k).wordDone c .me)) ∧
        (∀ cells rest, rows = cells :: rest → (t.crossedRow c cells).addRow x.detKey cells = none →
          exec (.mdrainx tl a b oc) s = .next ((t.closeRows c k).meFail c n 6 0)))) ∧
    (MeAt s c n x Needs.nothing → x.tile? T = some ph → x.inAccBusy = false →
      (∀ j, (s.core c).jobs.find? (fun j => j.slot == k && j.tile == T) = some j → x.me.mode ≠ .full →
        exec (.mrda tl a b) s = .next (s.failEntry c .me ⟨7, BitVec.ofNat 64 (T * 2 ^ 32 + j.seq % 2 ^ 32)⟩)) ∧
      (∀ owner, (s.core c).jobs.find? (fun j => j.slot == k && j.tile == T) = owner → owner = none ∨ x.me.mode = .full →
        s.tileMark c ph T (List.range 256) = none → s.meOpen c k x n.seq [] [(n.reg a, 0x40000), (n.reg b, 8)] = .go t →
        let count := match owner with | some j => j.steps | none => 2 ^ 64 - 1
        exec (.mrda tl a b) s = .next (((t.lWrite c k (n.reg a) ((t.slice c ph).bytes.read 0 0x40000)).lWrite c k (n.reg b)
          (bytesOf 8 count)).wordDone c .me))) ∧
    (MeAt s c n x needTile → x.tile? T = some ph →
      ∃ u y, exec (.mzero tl i32) s = .next u ∧ (u.slice c ph).bytes = [] ∧ (u.slice c ph).pois = [] ∧ u.ctx? c k = some y ∧
        y.tagOf T = (if i32 then .i32 else .fp32) ∧ y.a = x.a ∧ u.mem = s.mem ∧ ∀ q, q ≠ ph → u.slice c q = s.slice c q) ∧
    (MeAt s c n x Needs.nothing →
      let m := x.me
      let probe := fun p => if (Tab.get 0 m.active (0x90 + p)).getLsbD 31 then bytesOf 4 (Tab.get 0 m.mean p).toNat ++ bytesOf 4 (Tab.get 0 m.m2 p).toNat
        else List.replicate 8 0
      stored (.mvar a) (n.reg a) ((List.range 16).flatMap probe ++ bytesOf 4 m.mscnt.toNat ++ bytesOf 4 m.mvar.toNat) ∧
      (∀ u, s.meOpen c k x n.seq [] [(n.reg a, 64)] = .go u →
        exec (.mstat a) s = .next ((u.lWrite c k (n.reg a) (statBytes m ((u.core c).jobs.filter fun j => j.slot == k))).wordDone c .me)))

/-- R267 to R273: MSAMP latches the sampler registers and clears its sums; MNORM stores the norms of the columns or rows of an operand; MALIAS
stores the table made of the products of norms; MSGO starts its batches, or with an invalid table fills the tile with NaN and counts an invalid
operation; a batch reads its draws' columns and adds their products.
The model's own: which roundings count events, and where a pairing outside the table is reported (logs 39, 62 and 73). -/
def Obligations.MatrixSampling : Prop :=
  ∀ (s t u : State) (c : Nat) (n : Entry) (x : Ctx) (tl : BitVec 4) (a b e0 e1 : Reg) (side : Bool) (tag : Fmt) (ph : Nat) (j : MeJob),
    let m := x.me
    let k := n.slot
    let T := tl.toNat
    let K := dimK m
    let len := K * (if side then dimN m else dimM m) * (Fmt.width tag / 8)
    let el := fun i => ofBytes (((t.lRead c k (n.reg a) len).drop (i * (Fmt.width tag / 8))).take (Fmt.width tag / 8))
    let norms := (List.range K).map fun q => normOf tag ((List.range (if side then dimN m else dimM m)).map fun i =>
      el (if side then q * dimN m + i else i * K + q))
    let word := fun r q => t.lWord c k (n.reg r + BitVec.ofNat 64 (4 * q)) 4
    let table := aliasTable ((List.range K).map fun q => qOf (word a q) (word b q))
    let array : Needs := { Needs.nothing with array := true }
    let runs := m.mode = .full ∧ m.sparse = 0 ∧ m.tvalid = true ∧ m.tabK = K ∧ sampleTag (tagA m) = true ∧ sampleTag (tagB m) = true ∧
      (x.tagOf T = .empty ∨ x.tagOf T = .fp32) ∧ ∀ p, p < 16 → probeOn m p = true → probeRow m p < dimM m ∧ probeCol m p < dimN m
    (MeAt s c n x array → ∃ (v : State) (f : MeState → MeState), exec (.msamp a b e0 e1) s = .next v ∧
      v = (s.updCtx c k fun y => { y with me := f y.me }).wordDone c .me ∧ ∀ y,
      (∀ i ∈ samplerSet, Tab.get 0 (f y).active i = Tab.get 0 y.shadow i) ∧ (f y).seed = n.reg a ∧ (f y).tau = (n.reg b).setWidth 32 ∧
      256 ≤ (f y).nmin ∧ (f y).nmin ≤ (f y).nmax ∧ (f y).nmax ≤ 2 ^ 24 ∧ (f y).nmin % 256 = 0 ∧ (f y).nmax % 256 = 0 ∧ (f y).sctr = 0 ∧
      (f y).mean = [] ∧ (f y).m2 = [] ∧ (f y).tvalid = false ∧ (f y).weights = y.weights ∧ (f y).shadow = y.shadow) ∧
    (MeAt s c n x Needs.nothing → tag = .fp32 ∨ tag = .bf16 ∨ tag = .e4m3 ∨ tag = .e5m2 → s.meOpen c k x n.seq [(n.reg a, len)] [(n.reg b, 4 * K)] = .go t →
      exec (.mnorm side tag a b) s = .next (((t.lWrite c k (n.reg b) (norms.flatMap fun r => bytesOf 4 r.1)).countEv x.part n.kern x.recomp .fp32
        (Ev.sum (norms.map Prod.snd))).wordDone c .me)) ∧
    (MeAt s c n x array → s.meOpen c k x n.seq [(n.reg a, 4 * K), (n.reg b, 4 * K)] [(n.reg e0, 5 * K)] = .go t →
      exec (.malias a b e0) s = .next (((t.lWrite c k (n.reg e0) (table.1.flatMap fun q => bytesOf 3 q.1 ++ bytesOf 2 q.2)).updCtx c k fun y =>
        let me' := { y.me with tabA := n.reg a, tabB := n.reg b, tabE := n.reg e0, tabK := K, mqsum := BitVec.ofNat 32 table.2.1 }
        { y with me := { me' with tvalid := true, inval := table.2.2 } }).wordDone c .me)) ∧
    (MeAt s c n x ⟨true, none, false, some T⟩ → x.tile? T = some ph → runs →
      (m.inval = false → ∃ v, exec (.msgo tl) s = .next v ∧ ∃ q y, (v.core c).jobs = (s.core c).jobs ++ [q] ∧ q.word = .msgo tl ∧ q.slot = k ∧ q.tile = T ∧
        q.pos = n.pos ∧ q.seq = n.seq ∧ q.steps = (if m.srun then m.sctr.toNat / 256 else 0) ∧ v.ctx? c k = some y ∧ y.me.srun = true ∧ (m.srun = true → v.slice c ph = s.slice c ph) ∧
        (m.srun = false → y.tagOf T = .fp32 ∧ ∀ r i, r < dimM m → i < dimN m → tileElem (v.slice c ph) r i = 0)) ∧
      (m.inval = true → ∃ v, exec (.msgo tl) s = .next v ∧ ∃ y, (v.core c).jobs = (s.core c).jobs ∧ v.ctx? c k = some y ∧ y.me.srun = false ∧
        y.me.mscnt = 0 ∧ y.me.mvar = 0x7FC00000 ∧ Tab.find y.me.weights 0 = none ∧
        ∀ r i, r < dimM m → i < dimN m → tileElem (v.slice c ph) r i = 0x7FC00000)) ∧
    ((s.core c).jobs.find? MeJob.whole = some j → s.ctx? c j.slot = some x → x.tile? j.tile = some ph →
      (pairing (tagA m) (tagB m)).isSome = true →
      let pick := (List.range 256).map fun i => drawColumn m.seed m.tabK (m.sctr.toNat + i)
      let ent := fun q => m.tabE + BitVec.ofNat 64 (5 * q)
      let na := fun q => m.tabA + BitVec.ofNat 64 (4 * q)
      let nb := fun q => m.tabB + BitVec.ofNat 64 (4 * q)
      let cols := pick.map fun d => if d.2 < t.lWord c j.slot (ent d.1) 3 then d.1 else t.lWord c j.slot (ent d.1 + 3) 2
      let ops := cols.flatMap fun q => [(na q, 4), (nb q, 4), (elemAt (Tab.get 0 m.active 0x81) (dimN m) (Fmt.width (tagB m) / 8) q 0,
        dimN m * (Fmt.width (tagB m) / 8))] ++ (List.range (dimM m)).map fun i =>
          (elemAt (Tab.get 0 m.active 0x80) K (Fmt.width (tagA m) / 8) i q, Fmt.width (tagA m) / 8)
      let draws := cols.map fun q => (⟨q, (fp32Rne (vDiv (decodeVal .fp32 m.mqsum.toNat)
        (decodeVal .fp32 (qOf (u.lWord c j.slot (na q) 4) (u.lWord c j.slot (nb q) 4))))).1⟩ : Sample)
      s.meOpen c j.slot x j.seq (pick.map fun d => (ent d.1, 5)) [] = .go t → (∀ q ∈ cols, q < m.tabK) → t.meOpen c j.slot x j.seq ops [] = .go u →
      u.tileMark c ph j.tile (List.range (dimM m)) = none → exec (.msgoBatchEnd c) s = .next (u.runBatch c j x ph draws))

/-! ## Transfers -/

/-- R320, R322 to R324, R327: the TU accepts a word while it has fewer than 64 commands and no unfinished one of the context bears the word's
tag; the tag clears and the command keeps the word, the captured registers and its deadline. An ended command whose stores are answered
leaves, and its tag is set with the status of its end; one past its deadline ends LATE. A CHLD's step list is read as it is accepted. -/
def Obligations.TransferCommands : Prop :=
  ∀ (s : State) (c : Nat) (n : Entry) (x : Ctx) (w : Instr) (h : Half) (rest : List Half) (m : TuCmd) (d k code reason st : Nat) (len : Nat),
    ((s.core c).current .tu = some n → s.ctx? c n.slot = some x → s.entryWords c x .tu n = h :: rest → n.busy = false → isDep h = false →
      decodeTu h rest = .ok w len →
      let accepts := fun (v : State) (list : List Byte) => ∃ t q y, exec (.tuAccept c) s = .next t ∧ (t.core c).cmds = (v.core c).cmds ++ [q] ∧
        q.word = w ∧ q.slot = n.slot ∧ q.part = x.part ∧ q.tid = x.tid ∧ q.regs = n.regs ∧ q.res = none ∧ q.seq = n.seq ∧ q.out = list ∧
        q.dl = Instr.tuDeadline n.reg w ∧ q.line = 0 ∧ q.accepted = (v.core c).cyc ∧ t.ctx? c n.slot = some y ∧
        (∀ j, j < 64 → y.tags.getLsbD j = (x.tags.getLsbD j && decide (j ≠ Instr.tuTag w))) ∧ t.mem = v.mem
      (s.acceptable c x w = true → Instr.stepList c n w = none → accepts s []) ∧
      (∀ a size v bs bad y, s.acceptable c x w = true → Instr.stepList c n w = some (a, size) →
        s.readSegs c n.slot x false [] (unitPieces 4 a size) = .ok (v, bs, bad, []) → v.ctx? c n.slot = some y → y.tags = x.tags → accepts v bs) ∧
      (s.acceptable c x w = false → exec (.tuAccept c) s = .next s)) ∧
    (s.cmd? c m.id = some m → s.resident m.part m.tid m.role = some (d, k, x) → TuCmd.tag m < 64 →
      let ended := fun (i : Instr) code reason st => ∃ t, exec i s = .next t ∧ ∃ y, t.cmd? c m.id = none ∧ t.ctx? d k = some y ∧
        (∀ j, j < 64 → y.tags.getLsbD j = (x.tags.getLsbD j || decide (j = TuCmd.tag m))) ∧
        Tab.get 0 y.tagStatus (TuCmd.tag m) = BitVec.ofNat 16 (reason * 256 + st % 8 * 16 + code) ∧ y.a = x.a ∧ t.mem = s.mem
      (m.res = some (code, reason, st) → s.overdue c m = false → m.list = [] → m.acks = [] → ended (.tuCommandFinish c m.id) code reason st) ∧
      (m.res = some (code, reason, st) → s.overdue c m = false → m.acks ≠ [] → exec (.tuCommandFinish c m.id) s = .next s) ∧
      (m.res = some (code, reason, st) → s.overdue c m = true → ended (.tuCommandFinish c m.id) 4 0 0) ∧
      (m.dl ≠ 0 → m.dl ≤ ((s.core c).cyc - m.accepted).toNat → m.res = none → ended (.copyDeadline c m.id) 4 0 0) ∧
      (m.dl ≠ 0 → ((s.core c).cyc - m.accepted).toNat < m.dl → exec (.copyDeadline c m.id) s = .next s))

/-- R322, R323, R328 to R332: a copy whose lines can all be moved moves them in order and ends DONE: CPY from its source or its version's
storage, CPYS row by row, CPYT transposed, CPYP the plain copy and, once that is answered, the transposed one, CPYH with host memory on one side; one of no bytes ends DONE at once, and bits of the length register that
must be zero end it with ARGS. A line within one page of device memory carries its source's bytes. -/
def Obligations.Copies : Prop :=
  ∀ (s t : State) (c : Nat) (m : TuCmd) (d k : Nat) (x : Ctx) (tag : BitVec 6) (a b cr e0 e1 e2 : Reg) (tv ord : Bool) (es : BitVec 2) (q : BitVec 15)
    (oc : OClass),
    let A := m.addr c a
    let B := m.addr c b
    let v := m.reg cr
    let n := lenOf v
    let rows := (m.reg e2).toNat
    let sz := esBytes es
    let R := dimRows v
    let C := dimCols v
    let tp := BitVec.ofNat 64 (64 * q.toNat)
    let T := m.addr c e0
    let moved := fun (u : State) (host : Bool) (line : Nat → Line) (total : Nat) => State.Moves c m.id d k host line (total - m.line) u t
    let at' := fun (i : Instr) => TuAt s c m d k x i
    let noSlot := fun (u : State) (p : Word) => u.bounceSlot x.part (bitsAt p 0 56 / 65536) = none
    (∀ i ∈ [Instr.cpy tag a b cr tv oc, .cpyh tag a b cr ord oc], at' i →
      (lenBad v = true → exec i s = .next (s.faultCmd c m.id 3)) ∧ (lenBad v = false → n = 0 → exec i s = .next (s.doneCmd c m.id))) ∧
    (at' (.cpy tag a b cr tv oc) → lenBad v = false → n ≠ 0 → x.rangeBad A n = false →
      (tv = false → x.rangeBad B n = false → moved s false (copyLine A B n) (copyLines n) →
        exec (.cpy tag a b cr tv oc) s = .next (t.doneCmd c m.id)) ∧
      (tv = true → m.step ≠ 0 → x.rangeBad m.ptr n = false → moved s false (copyLine A m.ptr n) (copyLines n) →
        exec (.cpy tag a b cr tv oc) s = .next (t.doneCmd c m.id)) ∧
      (∀ w, tv = true → m.step = 0 → s.homeLocal x.part (m.reg b) = true → s.version? x.part (m.reg b) = some w → w.taking = false →
        (w.st ≠ .current → exec (.cpy tag a b cr tv oc) s = .next (s.faultCmd c m.id 10)) ∧
        (w.st = .current → n ≤ w.size → x.rangeBad w.base n = false →
          moved (s.updCmd c m.id fun m => { m with step := 1, ptr := w.base, got := [] }) false (copyLine A w.base n) (copyLines n) →
          exec (.cpy tag a b cr tv oc) s = .next (t.doneCmd c m.id)))) ∧
    (at' (.cpys tag a b cr e0 e1 e2 oc) → lenBad v = false → n ≠ 0 → 0 < rows → rows ≤ 2 ^ 20 →
      (∀ r, r < rows → x.rangeBad (A + BitVec.ofNat 64 r * m.reg e1) n = false ∧ x.rangeBad (B + BitVec.ofNat 64 r * m.reg e0) n = false) →
      moved s false (rowLine A B n (m.reg e1) (m.reg e0)) (rows * copyLines n) → exec (.cpys tag a b cr e0 e1 e2 oc) s = .next (t.doneCmd c m.id)) ∧
    (at' (.cpyt tag a b cr e0 e1 es oc) → aligned64 [A, B, m.reg e0, m.reg e1] = true → dimsBad es v = false →
      x.matrixBad B (m.reg e0) R (C * sz) = false → x.matrixBad A (m.reg e1) C (R * sz) = false →
      moved s false (transLine A B (m.reg e1) (m.reg e0) R sz) (transLines R C sz) → exec (.cpyt tag a b cr e0 e1 es oc) s = .next (t.doneCmd c m.id)) ∧
    (at' (.cpyp tag a b cr e0 e1 e2 q es oc) → aligned64 [A, B, T, m.reg e1, m.reg e2] = true → dimsBad es v = false → q ≠ 0 → selectsL B = true →
      x.matrixBad B (m.reg e1) R (C * sz) = false → x.matrixBad A (m.reg e2) R (C * sz) = false → x.matrixBad T tp C (R * sz) = false →
      let plain := R * copyLines (C * sz)
      let line := fun i => if i < plain then rowLine A B (C * sz) (m.reg e2) (m.reg e1) i else transLine T B tp (m.reg e1) R sz (i - plain)
      (m.line < plain → moved s false line plain → exec (.cpyp tag a b cr e0 e1 e2 q es oc) s = .next t) ∧
      (m.line = plain → m.acks ≠ [] → exec (.cpyp tag a b cr e0 e1 e2 q es oc) s = .next s) ∧
      (plain < m.line ∨ (m.line = plain ∧ m.acks = []) → moved s false line (plain + transLines R C sz) →
        exec (.cpyp tag a b cr e0 e1 e2 q es oc) s = .next (t.doneCmd c m.id))) ∧
    (at' (.cpyh tag a b cr ord oc) → lenBad v = false → n ≠ 0 → x.rangeBad A n = false → x.rangeBad B n = false →
      (ord = true → ∀ o ∈ s.cmdsOf m.part m.tid m.role, m.seq ≤ o.seq) → s.oneHostSide d k x A B n = true →
      moved s true (copyLine A B n) (copyLines n) → exec (.cpyh tag a b cr ord oc) s = .next (t.doneCmd c m.id)) ∧
    (∀ (src : Word) (i pa : Nat), (s.reach d k x true src).t = .mem pa → (s.reach d k x true src).r = true → isSlate pa = false → noSlot s src →
      ∃ u bad, s.readPiece d k x false src i = .bytes u (s.mem.read pa i) bad ∧ u.mem = s.mem ∧ (bad = true ↔ s.marksAt (.mem pa) i ≠ [])) ∧
    (∀ (u : State) (src dst : Word) (i pb : Nat) (bs : List Byte) (bad : Bool) (f : State → Nat → Nat → State),
      s.readPiece d k x false src i = .bytes u bs bad → (u.reach d k x true dst).t = .mem pb → (u.reach d k x true dst).w = true → isSlate pb = false →
      noSlot u dst → ∃ v, s.moveLine d k x false ⟨dst, [(src, i)]⟩ [] f = .done v ∧ v.mem = u.mem.write pb bs ∧
        ∀ c' k', v.ctx? c' k' = u.ctx? c' k' ∧ v.slice c' k' = u.slice c' k')

/-- R333 to R343, R439: CPYD decodes its stream by a valid table and writes what it decodes; CHLD keeps the steps that are left of its list, and
each step on this device's memory reads the next pointer until the last reads the data for its record; PFCH ends when no page is slower than its
class, and else promotes those that are; its map form maps a scratchpad region, EVCT stamps pages 0 or writes dirty lines back, and its unmap form ends a
region; CTRB adds line after line at the window port and counts each; RDYW ends once RDY is set and else waits.
The model's own: what a chain's packets carry (log 21). -/
def Obligations.OtherTransfers : Prop :=
  ∀ (s t : State) (c : Nat) (m : TuCmd) (d k : Nat) (x : Ctx) (tag : BitVec 6) (a b cr e0 e1 : Reg) (nm1 kk : BitVec 3) (dl : BitVec 11) (oc : OClass)
    (bs : List Byte) (cws : List (Nat × Nat)) (l : List (Word × Word × Nat)) (mask off : Word) (w pa : Nat) (xa : Bool),
    let A := m.addr c a
    let B := m.addr c b
    let v := m.reg cr
    let n := lenOf v
    let id := m.id
    let T := m.addr c e0
    let L := m.addr c cr
    let len := (m.reg e1).toNat
    let pages := s.pagesOf x.part (bitsAt A 0 56) n
    let kind := fun (q : Nat × Option Cached) => match q.2 with | some e => entryKind e.entry | none => 0
    let slow := pages.filter fun q => match q.2 with
      | some e => decide (B.toNat < tierClass (entryBody e.entry + q.1 % 2 ^ e.size) (dieOf c))
      | none => false
    let at' := fun (i : Instr) => TuAt s c m d k x i
    let running := m.res = none ∧ m.asks = [] ∧ s.overdue c m = false ∧ s.cmd? c id = some m ∧ s.resident m.part m.tid m.role = some (d, k, x)
    let here := (s.reach d k x false m.ptr).t = .mem pa ∧ (s.reach d k x false m.ptr).r = true ∧ selectsG m.ptr = true ∧ isSlate pa = false ∧
      s.bounceSlot x.part (bitsAt m.ptr 0 56 / 65536) = none
    let promoted := fun (l : List Promotion) (q : Nat × Option Cached) => ∃ r ∈ l, r.part = x.part ∧ r.page = q.1 / 65536
    (at' (.cpyd tag a b cr e0 e1 oc) → lenBad v = false → n ≠ 0 → n ≤ 2 ^ 20 → selectsL A = true → x.rangeBad A n = false → x.rangeBad B len = false →
      x.rangeBad T 256 = false → s.readSegs d k x false m.got (unitPieces 6 T 256 ++ unitPieces (len / 64 + 2) B len) = .ok (t, bs, false, []) →
      (codeWords ((bs.take 256).map BitVec.toNat) = none → exec (.cpyd tag a b cr e0 e1 oc) s = .next (t.faultCmd c id 6)) ∧
      (codeWords ((bs.take 256).map BitVec.toNat) = some cws →
        let out := decodeStreamBytes cws (bs.drop 256) (8 * len) n 0
        exec (.cpyd tag a b cr e0 e1 oc) s = .next (t.putBytes c id d k A out false
          (fun s => if out.length = n then s.doneCmd c id else s.faultCmd c id 7) (copyLines n + 1 - m.line)))) ∧
    (at' (.chld tag a b cr nm1 kk dl oc) → m.list = [] → selectsL L = true → selectsL A = true → x.rangeBad L (16 * (nm1.toNat + 1)) = false →
      x.rangeBad A 128 = false → L.toNat % 16 = 0 → A.toNat % 64 = 0 → kk.toNat < nm1.toNat + 1 → (m.got.any fun q => q.2.2) = false →
      stepsOf m.out 8 0 = .ok l → l ≠ [] →
      exec (.chld tag a b cr nm1 kk dl oc) s = .next (s.updCmd c id fun q => { q with list := l, ptr := m.reg b, step := kk.toNat, out := [], got := [] })) ∧
    (running → m.list = (mask, off, w) :: l → here →
      (l ≠ [] → m.ptr.toNat % 8 = 0 → s.marksAt (.mem pa) 8 = [] → ∃ u q, exec (.chainStep c id) s = .next u ∧ u.cmd? c id = some q ∧
        q.ptr = (BitVec.ofNat 64 (ofBytes (s.mem.read pa 8)) &&& mask) + off ∧ q.step = m.step + 1 ∧ q.list = l ∧ q.res = none ∧ u.mem = s.mem) ∧
      (l = [] → m.ptr.toNat % (8 * 2 ^ w) = 0 → ∃ u q, exec (.chainStep c id) s = .next u ∧ u.cmd? c id = some q ∧
        q.out = s.mem.read pa (8 * 2 ^ w) ∧ q.res = some (0, 0, m.step) ∧ u.mem = s.mem)) ∧
    (s.cmd? c id = some m → s.resident m.part m.tid m.role = some (d, k, x) → m.list ≠ [] → m.held = false → s.overdue c m = false →
      (m.res = none → exec (.chainReply c id) s = .next s) ∧
      (∀ code reason st u u', m.res = some (code, reason, st) → m.out.length ≠ 128 →
        s.writePiece d k x false (m.record c) ((chainRecord m code reason st).take 64) (m.got.any fun q => q.2.2) (ackCmd c id) = .done u →
        u.writePiece d k x false (m.record c + 64) ((chainRecord m code reason st).drop 64) false (ackCmd c id) = .done u' →
        exec (.chainReply c id) s = .next (u'.updCmd c id fun q => { q with list := [] }))) ∧
    (at' (.pfch tag a b cr oc) → lenBad v = false → 1 ≤ B.toNat → B.toNat ≤ 3 → n ≠ 0 → selectsG A = true → x.rangeBad A n = false →
      (∀ q ∈ pages, kind q = 1) →
      (slow = [] → (∀ q ∈ pages, ¬ promoted s.promoting q) → exec (.pfch tag a b cr oc) s = .next (s.doneCmd c id)) ∧
      (slow ≠ [] → ∃ u, exec (.pfch tag a b cr oc) s = .next u ∧ (∀ q ∈ slow, promoted u.promoting q) ∧
        (∀ q ∈ s.promoting, q ∈ u.promoting) ∧ u.cores = s.cores ∧ u.mem = s.mem)) ∧
    (at' (.pfchMap tag a b cr oc) → m.step = 0 → selectsL A = true → selectsG (m.reg b) = true → bitsAt A 20 36 = 0 → A.toNat % 256 = 0 → (m.reg b).toNat % 256 = 0 →
      bitsAt v 13 3 = 0 → bitsAt v 21 19 = 0 → 1 ≤ bitsAt v 0 13 → bitsAt A 8 12 + bitsAt v 0 13 ≤ 4096 →
      (∀ q ∈ x.srm, srmValid q.2 = true → q.1 ≠ bitsAt v 16 4 ∧ srmOverlaps (bitsAt A 8 12) (srmFirst q.2) (bitsAt v 0 13) (srmLines q.2) = false) →
      let e : Word × Word := (BitVec.ofNat 64 (2 ^ 63 + oc.toNat * 2 ^ 56 + bitsAt (m.reg b) 8 48 * 256), BitVec.ofNat 64 (bitsAt v 0 13 * 2 ^ 20 + bitsAt A 8 12 * 256))
      let u := s.updCtx d k fun y => { y with srm := Tab.put y.srm (bitsAt v 16 4) e }
      exec (.pfchMap tag a b cr oc) s = .next (if v.getLsbD 20 then u.updCmd c id fun q => { q with step := 1 } else u.doneCmd c id)) ∧
    (at' (.evct tag a cr oc) → lenBad v = false → n ≠ 0 → x.rangeBad A n = false →
      (selectsG A = true → ∃ u : State, exec (.evct tag a cr oc) s = .next (u.doneCmd c id) ∧ { u with stamps := s.stamps } = s ∧
        ∀ q ∈ pages, ∀ e, q.2 = some e → entryKind e.entry = 1 → ∀ i, i < 2 ^ e.size / 65536 →
          Tab.get 0 u.stamps (pageOf (entryBody e.entry) + i) = 0) ∧
      (selectsL A = true →
        let lo := bitsAt A 0 20 / 256
        s.writeBackAll d k (some id) (ackBoth c id d k) (x.dirtyLines lo ((bitsAt A 0 20 + n - 1) / 256 + 1 - lo)) = .done t →
        exec (.evct tag a cr oc) s = .next (t.doneCmd c id))) ∧
    (∀ e, at' (.evctUnmap tag a oc) → Tab.find x.srm (bitsAt (m.reg a) 0 4) = some e → bitsAt (m.reg a) 4 60 = 0 → srmValid e = true →
      s.writeBackAll d k (some id) (ackBoth c id d k) (x.dirtyLines (srmFirst e) (srmLines e)) = .done t →
      ∃ f : Ctx → Ctx, exec (.evctUnmap tag a oc) s = .next ((t.updCtx d k f).doneCmd c id) ∧
        ∀ y, Tab.find (f y).srm (bitsAt (m.reg a) 0 4) = some (e.1 &&& ~~~(1#64 <<< 63), e.2) ∧ (∀ j, j ≠ bitsAt (m.reg a) 0 4 → Tab.find (f y).srm j = Tab.find y.srm j) ∧
          (f y).l = y.l ∧ (f y).a = y.a) ∧
    (lenBad v = false → n ≠ 0 → selectsL B = true → x.rangeBad B n = false → A.toNat % 64 = 0 →
      (at' (.ctrb tag a b cr oc) → x.rangeBad A (64 * (n / 64)) = false → B.toNat % 64 = 0 → n % 64 = 0 → x.det = false →
        exec (.ctrb tag a b cr oc) s = .next (s.ctrbLines c id d k false A B (n / 64 - m.line))) ∧
      (at' (.ctrbXa tag a b cr oc) → x.rangeBad A (64 * (n / 4)) = false → n % 4 = 0 →
        exec (.ctrbXa tag a b cr oc) s = .next (s.ctrbLines c id d k true A B (n / 4 - m.line)))) ∧
    (∀ (u z : State) f core sl o bad y q, s.cmd? c id = some q → s.ctx? d k = some y →
      let n := if xa then 4 else 64
      s.readPiece d k y false (B + BitVec.ofNat 64 (n * q.line)) n = .bytes u bs bad → (u.reach d k y true (A + BitVec.ofNat 64 (64 * q.line))).t = .win core sl o →
      (u.reach d k y true (A + BitVec.ofNat 64 (64 * q.line))).w = true → (u.reach d k y true (A + BitVec.ofNat 64 (64 * q.line))).r = true →
      u.detCheck (if xa then y.detKey else none) core sl o true = some z →
      let r := (z.crossed c (.win core sl o)).contribute core sl o xa bs bad
      s.ctrbLines c id d k xa A B (f + 1) = ((r.1.countEv y.part q.kern y.recomp .fp32 r.2).updCmd c id fun q => { q with line := q.line + 1 }).ctrbLines c id d k xa A B f ∧
      s.ctrbLines c id d k xa A B 0 = s.doneCmd c id) ∧
    (∀ core sl o, at' (.rdyw tag a cr oc) → bitsAt v 0 40 = 0 → x.rangeBad A 64 = false → A.toNat % 64 = 0 → (s.reach d k x true A).t = .win core sl o →
      (s.reach d k x true A).r = true →
      (redRdy (Slice.meta' (s.slice core sl) o) = true → exec (.rdyw tag a cr oc) s = .next (s.doneCmd c id)) ∧
      (redRdy (Slice.meta' (s.slice core sl) o) = false → exec (.rdyw tag a cr oc) s = .next s))

/-! ## Steps of the device -/

/-- R40, R45, R47, R53, R57, R60, R63, R290, R371, R465, R466: the idle cores of a die reserve, in ascending order, the record that each may take first; a
reserved core starts or restores it, or gives it back where a budget has been lowered; a gang starts when it has all its cores; the overlay loader places a checked image; a pre-empted task's contexts are saved; the
shadow store drains its oldest save; a record that has waited 2^20 cc rises by one level; the stage balancer acts once every 4,096 cc; a launch
inserts its boot record or names why not.
The model's own: a record made ready again counts its 2^20 cc anew (log 59). -/
def Obligations.SchedulerEvents : Prop :=
  ∀ (s u : State) (core k : Nat) (t : Task) (cs : List Nat) (i : Image) (x : Ctx) (part die : Nat) (tid : Word) (key : ImgKey),
    (s.idle core = true → exec (.dieQueuePop core) s = .next ((dieCores (dieOf core)).foldl State.pop s)) ∧
    (s.idle core = true → s.nextFor core = some t →
      s.pop core = s.updTask t.part t.tid fun t => { t with st := .reserved (t.reservedCores ++ [core]) }) ∧
    (s.idle core = false ∨ s.nextFor core = none → s.pop core = s) ∧
    (s.idle core = false → exec (.dieQueuePop core) s = .next s) ∧
    (s.reservedFor core = some t → recGang t.record = 0 → t.images = [] → t.members = [] →
      (s.withinBudget t.part (recRegion t.record) = true → s.startMember t 0 core = some (k, u) →
        exec (.taskDispatch core) s = .next (u.started t [(0, core, k)])) ∧
      (s.withinBudget t.part (recRegion t.record) = false →
        exec (.taskDispatch core) s = .next (s.updTask t.part t.tid fun t => { t with st := .ready }))) ∧
    (s.reservedFor core = some t → recGang t.record = 0 → t.images = [i] → t.members = [] → s.withinBudget t.part (recRegion t.record) = true →
      s.restoreOn t i core = some (k, u) →
      exec (.taskDispatch core) s = .next s ∧ exec (.contextRestore core) s = .next ((u.started t [(0, core, k)]).resume core k)) ∧
    (s.reservedFor core = none → s.idle core = true → s.wokenMember core = some k → s.ctx? core k = some x →
      ∀ why, x.life = .parked why true → ∃ v, exec (.contextRestore core) s = .next v ∧ (v.core core).active = some k ∧ v.ctx? core k = some { x with life := .running }) ∧
    (s.task? part tid = some t → t.st = .reserved cs → recGang t.record ≠ 0 →
      let stuck := t.images.any fun i => i.bound && (s.core i.fromCore).isolated
      (stuck = true → exec (.gangStart part tid) s = .next (s.endTask part tid ⟨11, Config.freeWord s.tick &&& 3⟩ false)) ∧
      (stuck = false → cs.length = recGang t.record + 1 → s.withinBudget t.part (recRegion t.record) = true → s.startGang t cs = some u →
        exec (.gangStart part tid) s = .next u) ∧
      (stuck = false → cs.length ≠ recGang t.record + 1 → exec (.gangStart part tid) s = .next s)) ∧
    (∀ l : Loaded, s.ctx? core k = some x → x.life = .loading → s.wantedImage core x = none →
      (s.core core).loaded (s.imageKey x.part (recCode x.record)) = some l →
      exec (.overlayLoadComplete core k) s = .next (s.setCtx core k { x with life := .running, image := l.key, pc := BitVec.ofNat 32 l.entry })) ∧
    (s.ctx? core k = some x → s.wantedImage core x = some key → s.isImage x.part key.handle = true →
      let o := s.object x.part key.handle
      let base := bitsAt o.2.1 0 56
      let img := s.readG x.part base (ofBytes (((s.readG x.part base 64).drop 0xC).take 4))
      objGen o.1 = key.gen → selectsG o.2.1 = true → s.firstAway x.part base 64 = none → s.poisonG x.part base 64 = none →
      (∀ off, headerBad (s.readG x.part base 64) o.2.2.1 = some off → exec (.overlayLoadComplete core k) s = .next (s.abort core k ⟨3, BitVec.ofNat 64 off⟩)) ∧
      (headerBad (s.readG x.part base 64) o.2.2.1 = none →
        s.firstAway x.part base (ofBytes (((s.readG x.part base 64).drop 0xC).take 4)) = none →
        s.poisonG x.part base (ofBytes (((s.readG x.part base 64).drop 0xC).take 4)) = none →
        exec (.overlayLoadComplete core k) s = .next (s.placeImage core k x key (loadedOf key img)))) ∧
    (s.runningOn core = some t → s.canPreempt t = true → ∀ w ∈ s.tasks, w.st = .ready → s.queueDie w = dieOf core → s.dispatchable w = true →
      s.wants w = some core → exec (.preemption core) s = .next (s.preemptTask t)) ∧
    (s.runningOn core = none → exec (.preemption core) s = .next s) ∧
    (∃ v, exec (.shadowStoreDrain core) s = .next v ∧ (v.core core).shadow = (s.core core).shadow.drop 1 ∧ v.mem = s.mem ∧
      (v.core core).ctxs = (s.core core).ctxs ∧ ∀ c, c ≠ core → v.core c = s.core c) ∧
    (s.task? part tid = some t → t.st = .ready ∨ t.gathering = true → recMgmt t.record = false → t.since + 2 ^ 20 ≤ (s.die t.die).qclk.toNat →
      ∃ v q, exec (.agingTick part tid) s = .next v ∧ v.task? part tid = some q ∧ q.since = t.since + 2 ^ 20 ∧ q.st = t.st ∧
        q.aged = (if t.aged < min 15 (s.eff part (recRegion t.record) 5 + 2) then t.aged + 1 else t.aged) ∧ v.cores = s.cores ∧ v.mem = s.mem) ∧
    (s.task? part tid = some t → (s.die t.die).qclk.toNat < t.since + 2 ^ 20 → exec (.agingTick part tid) s = .next s) ∧
    ((s.die die).qclk.toNat / 4096 = (s.die die).balanced → exec (.stageBalancer die) s = .next s) ∧
    ((s.die die).qclk.toNat / 4096 ≠ (s.die die).balanced → ∃ v, exec (.stageBalancer die) s = .next v ∧
      (v.die die).balanced = (s.die die).qclk.toNat / 4096 ∧ v.cores = s.cores ∧ v.tasks = s.tasks ∧ v.mem = s.mem ∧
      ∀ p r, (v.region p r).assign.map Prod.fst = (s.region p r).assign.map Prod.fst ∧ (v.region p r).rcb = (s.region p r).rcb) ∧
    ((s.core core).mbox.busy = true → s.coreOwner core ≠ some part → exec (.bootGo part core) s =
      .next (s.updCore core fun q => { q with mbox := { q.mbox with busy := false, check := 0xFF } })) ∧
    ((s.core core).mbox.busy = true → s.coreOwner core = some part → s.coreOk part core = true →
      let r := s.bootRecord part (s.core core).mbox
      (∀ row cause, s.recordCheck ⟨part, true, 0, true⟩ r = some (row, cause) →
        ∃ v, exec (.bootGo part core) s = .next v ∧ (v.core core).mbox.busy = false ∧ (v.core core).mbox.check = BitVec.ofNat 8 row ∧ v.tasks = s.tasks) ∧
      (s.recordCheck ⟨part, true, 0, true⟩ r = none →
        s.insertTask part r ⟨core, dieOf core, .boot core, s.stampFor part r none, none, false, some core, none, 0⟩ = .ok (tid, u) →
        exec (.bootGo part core) s = .next (u.updCore core fun q => { q with mbox := { q.mbox with busy := false, launches := q.mbox.launches + 1 } })))

/-- R48, R52, R62, R407, R409, R414, R417, R419, R458, R472: the steps of versions and of ends. A current version's notice releases what waits; a replica
is made; a walk restores from a replica or lineage, or else marks the version unrecoverable; a restored version is current. A halted task whose
members have settled commits; a pending cause or a fault of a command refuses the commit; an aborting task whose requests have drained leaves its core. -/
def Obligations.VersionAndTaskEnds : Prop :=
  ∀ (s : State) (core k p dev die : Nat) (nv : Word) (x : Ctx) (t : Task) (e : DirEntry) (l : Lineage) (w : Cause),
    (s.version? p nv = some e →
      (e.st = .current → exec (.dmuRelease p nv) s = .next ((s.notify p nv).notifyFar p e)) ∧
      (e.st ≠ .current → exec (.dmuRelease p nv) s = .next s)) ∧
    (∀ want, s.version? p nv = some e → s.replWanted p e = some want →
      (e.repl = true → exec (.replicationComplete p nv) s = .next (s.replicated p nv)) ∧
      (e.repl = false → e.st ≠ .current → exec (.replicationComplete p nv) s = .next s) ∧
      (e.repl = false → e.st = .current → s.homeLocal p nv = true → s.autoTarget p want e = some (dev, die) → s.replicaFits p e dev die = true →
        exec (.replicationComplete p nv) s = .next ((s.makeReplica p nv dev die).replicated p nv))) ∧
    (s.version? p nv = some e → e.st = .lost → e.unrc = false → e.need ≠ 0 → (s.part p).quiesce = none → s.homeLocal p nv = true →
      s.storageMapped p e = true →
      (e.repl = true → exec (.recoveryWalk p nv) s = .next (s.updVersion p nv fun e => { e with st := .restore })) ∧
      (e.repl = false → e.lin = some l → e.ext = false → exec (.recoveryWalk p nv) s = .next (s.recompute p e l)) ∧
      (e.repl = false → e.lin = none ∨ e.ext = true → exec (.recoveryWalk p nv) s = .next (s.unrecoverable p nv))) ∧
    (s.version? p nv = some e → e.st = .restore → s.residentG p e.base.toNat e.rangeLen = true →
      ∃ v q, exec (.versionRestoreComplete p nv) s = .next v ∧ v.version? p nv = some q ∧ q.st = .current ∧ q.base = e.base ∧ q.size = e.size ∧
        v.cores = s.cores ∧ v.tasks = s.tasks) ∧
    (s.ctx? core k = some x → s.task? x.part x.tid = some t → t.members = [(0, core, k)] → recGang t.record = 0 → x.life = .halted →
      s.settled core k x = true →
      (∀ v, x.pend = none → Ctx.commitFault x = some v → exec (.taskCommit core k) s = .next (s.abort core k ⟨259, BitVec.ofNat 64 v⟩)) ∧
      (∀ v, x.pend = some v → exec (.taskCommit core k) s = .next (s.abort core k ⟨v.code % 512, v.value⟩)) ∧
      (x.pend = none → Ctx.commitFault x = none → x.dirtyLines 0 4096 = [] → x.stores = [] →
        (∀ nv ∈ recResults t.record, s.homeLocal x.part nv = true) →
        (s.differs x.part t [] = none → exec (.taskCommit core k) s = .next (s.commitTask x.part core k x t)) ∧
        (∀ nv, s.differs x.part t [] = some nv → exec (.taskCommit core k) s = .next (s.abort core k ⟨3, nv⟩)))) ∧
    (s.ctx? core k = some x → s.task? x.part x.tid = some t → x.life ≠ .halted → t.members = [(0, core, k)] → exec (.taskCommit core k) s = .next s) ∧
    (s.ctx? core k = some x → s.task? x.part x.tid = some t → x.life = .aborting w → t.members = [(0, core, k)] →
      let v := (s.abort core k w).dropStuck core k x
      (v.drained core k x w = false → exec (.taskAbort core k) s = .next v) ∧
      (v.drained core k x w = true → (v.core core).isolated = false →
        ∃ f : Task → Task, exec (.taskAbort core k) s = .next ((((v.updTask x.part x.tid f).dropCtx core k false).updTask x.part x.tid fun t =>
          { t with members := [] }).endTask x.part x.tid w false |>.evictOld x.part) ∧ ∀ q, (f q).record = q.record ∧ (f q).tid = q.tid ∧ (f q).st = q.st)) ∧
    (∀ r, (s.region p r).st = .running → s.det p r = true → (s.region p r).begun ≠ (s.region p r).openPhase →
      (∀ q ∈ s.tasks, q.part = p → recRegion q.record = r → q.phase = (s.region p r).begun → q.recomp = true) →
      ∃ v, exec (.phaseBegin p r) s = .next v ∧ (v.region p r).begun = (s.region p r).begun + 1 ∧ (v.region p r).openPhase = (s.region p r).openPhase ∧
        v.tasks = s.tasks ∧ v.mem = s.mem) ∧
    (∀ r, (s.region p r).begun = (s.region p r).openPhase → exec (.phaseBegin p r) s = .next s) ∧
    (s.ctx? core k = none → exec (.taskCommit core k) s = .next s ∧ exec (.taskAbort core k) s = .next s ∧ exec (.handoverTimeout core k) s = .next s)

/-! ## Engines and answers -/

/-- R123, R205, R275, R296, R347, R436, R456, R460: the steps of engines. An entry starts with its captured shape; one that was stopped goes
on with its own and with its stopped step words. A word that has run completes, and an entry at its end leaves the chain. An engine's
error aborts its task, and ACCBUSY enters the handler. A suspended word whose replies are there completes. An engine fault aborts the task
that the engine worked for, and the third within 2^30 cc isolates the core.
The model's own: the numbers of the units in the ENGFAULT value (log 27). -/
def Obligations.EngineSteps : Prop :=
  ∀ (s : State) (c : Nat) (e : Eng) (n : Entry) (l : List Entry) (x : Ctx) (w : Cause) (data : List Byte),
    ((s.core c).startable e = none → exec (.engineEntryStart c e) s = .next s) ∧
    ((s.core c).startable e = some n → s.ctx? c n.slot = some x → ∃ (v : State) (y : Ctx), exec (.engineEntryStart c e) s = .next v ∧
      (v.core c).chain e = ((s.core c).chain e).map (fun m =>
        if m = n then { n with started := true, resume := false, shape := if n.resume then n.shape else n.vshp } else m) ∧
      (v.core c).jobs = (s.core c).jobs ++ (if e = .me ∧ n.resume = true then x.savedJobs else []) ∧ v.ctx? c n.slot = some y ∧
      y = { x with savedJobs := if e = .me ∧ n.resume = true then [] else x.savedJobs } ∧ v.mem = s.mem ∧ ∀ d, d ≠ c → v.core d = s.core d) ∧
    ((s.core c).chain e = n :: l → n ∉ l → n.started = true → n.susp = false → n.failed = none → s.ctx? c n.slot = some x →
      (e = .me → ∀ j ∈ (s.core c).jobs, j.slot ≠ n.slot) → (∀ d ∈ x.doomed, d.1 ≠ some e) →
      let m : Entry := { n with pos := n.pos + wordLen e (s.entryWords c x e n), seq := n.seq + 1, busy := false }
      (n.busy = false → exec (.engineWordComplete c e) s = .next s) ∧
      (n.busy = true → m ∉ l → ∃ v, exec (.engineWordComplete c e) s = .next v ∧
        v.ctx? c n.slot = some { x with done := x.done.set (engIdx e) (BitVec.ofNat 32 n.seq) } ∧
        (v.core c).chain e = (if n.len ≤ m.pos then l else m :: l) ∧ v.mem = s.mem ∧ v.tasks = s.tasks ∧ ∀ d, d ≠ c → v.core d = s.core d)) ∧
    (((s.core c).chain e).find? (fun m => m.failed.isSome) = some n → n.failed = some w → s.ctx? c n.slot = some x →
      ((e = .me ∧ ∃ j ∈ (s.core c).jobs, j.slot = n.slot) → exec (.engineErrorReport c e) s = .next s) ∧
      ((e = .me → ∀ j ∈ (s.core c).jobs, j.slot ≠ n.slot) →
        (w.code ≠ 7 → exec (.engineErrorReport c e) s = .next (s.abort c n.slot w)) ∧
        (w.code = 7 → x.life = .halted → exec (.engineErrorReport c e) s = .next (s.abort c n.slot w)) ∧
        (w.code = 7 → x.life = .running → x.awaitsPort = false → s.handlerReady c x → ∃ (v : State) (y : Ctx), exec (.engineErrorReport c e) s = .next v ∧
          v.ctx? c n.slot = some y ∧ y.inh = true ∧ y.pc = x.tvec.setWidth 32 ∧ y.epc = x.pc ∧ y.trapc = BitVec.ofNat 32 (2 ^ 30 + 7) ∧
          y.trapv = w.value ∧ y.a = x.a ∧ y.p = x.p ∧
          (v.core c).chain e = ((s.core c).chain e).map fun m => if m = n then { n with failed := none } else m))) ∧
    (s.resumable c data = none → exec (.veRemoteResume c data) s = .next s) ∧
    (∀ plan p t spots, s.resumable c data = some n → s.ctx? c n.slot = some x → planOf (s.entryWords c x .ve n) = some plan →
      plan n (s.veEnv c x n) = .ok p → s.openBy c n.slot x (if p.write then .write else .read) n.pages (p.parts.map fun q => (q.1, q.2.length)) = .go t spots →
      data.length = (if p.write then 0 else (spots.filterMap fun q => q.remote.map fun _ => q.n).foldl (· + ·) 0) →
      let u := if p.write then (spots.foldl (fun s q => s.crossed c q.t) t).scatter spots p.parts
        else t.keepEnv c x n (p.fin (t.gather spots data) (match t.firstMark spots with | some a => some a | none => n.mark) (t.veEnv c x n))
      exec (.veRemoteResume c data) s = .next ((u.dropStores c n).setEntry c .ve n { n.again with busy := true })) ∧
    (∀ u : Unit4,
      let code : Word := match u with | .ve => 0 | .me => 1 | .tu => 2 | .sq => 3
      let t := (s.updCore c fun r => { r with faults := (r.faults ++ [r.cyc]).drop (r.faults.length - 1) }).countError (dieOf c) 9
      let v := match s.workOf c u with
        | none => t.resetEngine c u 8 0
        | some (p, tid, _) => (((t.clearEngine c u p tid).resetEngine c u p tid).updTask p tid fun q =>
            { q with excl := ((q.excl ++ [c]).eraseDups).take 16 }).abortTask p tid ⟨11, code⟩
      let third := ∃ a b, (s.core c).faults = [a, b] ∧ ((s.core c).cyc - a).toNat < 2 ^ 30
      (¬third ∨ (s.core c).isolated = true → exec (.engineFault c u) s = .next v) ∧
      (third → (s.core c).isolated = false → exec (.engineFault c u) s =
        .next ((((v.updCore c fun r => { r with isolated := true }).countError (dieOf c) 10).evacuate c ⟨11, code⟩).interrupt 0 2)))

/-- R53, R133, R352, R355, R421, R430, R472, R487: answers and streams. A reply's value goes to the parked word's register and its task is ready; a
refusal gives the word its cause; MOVED issues it again. An access completes, retiring from the head. A handler that has not handed over
within 2^20 cc is handed over. An IN stream fills a slot unit by unit and then counts TAIL; an OUT stream counts CLAIM, drains the slot and
then counts HEAD. -/
def Obligations.AnswersAndStreams : Prop :=
  ∀ (s : State) (c k r : Nat) (val : Word) (refused : Bool) (x : Ctx) (t : Task) (w : FarWait) (n : Entry) (o : OscKind) (id : Nat) (why : Word)
    (p : Nat) (tid : Word) (role : Nat),
    (s.memberAt c k = none → exec (.remoteReply c k val refused) s = .next s ∧ exec (.movedReply c k) s = .next s) ∧
    (s.ctx? c k = some x → x.life = .parked (.remote w) false → s.task? x.part x.tid = some t →
      t.members.find? (fun q => q.1 == x.role) = some (x.role, c, k) →
      let woken := fun (v : State) => (∃ q, v.task? x.part x.tid = some q ∧ q.st = if t.st = .parked then .ready else t.st) ∧ v.mem = s.mem
      (∃ (v : State) (y : Ctx), exec (.remoteReply c k val false) s = .next v ∧ v.ctx? c k = some y ∧ woken v ∧ y.life = .parked (.remote w) true ∧
        y.pc = x.pc ∧ y.pend = x.pend ∧ y.p = x.p ∧
        ∀ d, y.reg d = if d = w.d ∧ d ≠ 0 then extendTo w.bits w.signed (val.toNat % 2 ^ w.bits) else x.reg d) ∧
      (∃ (v : State) (y : Ctx), exec (.remoteReply c k val true) s = .next v ∧ v.ctx? c k = some y ∧ woken v ∧ y.life = .parked (.remote w) true ∧
        y.pc = x.pc - 1 ∧ y.hlc = w.was ∧ y.pend = some (x.pend.getD ⟨w.code, val⟩) ∧ y.a = x.a ∧ y.p = x.p) ∧
      (w.id < 65536 → ∃ (v : State) (y : Ctx), exec (.movedReply c k) s = .next v ∧ v.ctx? c k = some y ∧ woken v ∧ y.life = .parked (.remote w) true ∧
        y.pc = x.pc - 1 ∧ y.hlc = w.was ∧ y.pend = x.pend ∧ y.a = x.a ∧ y.p = x.p)) ∧
    (s.ctx? c k = some x → x.life = .parked (.remote w) false → 65536 ≤ w.id →
      exec (.movedReply c k) s = .next (s.takeAck x.part w.dev (w.id - 65536) answerMoved [])) ∧
    (s.ctx? c k = some x → x.awaits = false → (s.core c).ve.find? (fun n => n.susp && n.slot == k) = some n → n.osc = [] →
      exec (.movedReply c k) s = .next (s.setEntry c .ve n n.again)) ∧
    (s.ctx? c k = some x → ∃ v : State, exec (.accessCompletion c k o id) s = .next v ∧
      v.ctx? c k = some (x.setOsc o (retire ((x.oscList o).map fun a => if a.id = id then { a with done := true } else a))) ∧
      (∀ e ∈ s.inbox, e ∈ v.inbox) ∧ v.mem = s.mem ∧ v.tasks = s.tasks ∧ ∀ d, d ≠ c → v.core d = s.core d) ∧
    (s.ctx? c k = some x →
      let far := x.chkpt = true ∧ 2 ^ 20 ≤ ((s.core c).cyc - x.entered).toNat
      ((s.part x.part).quiesce = some why → far → exec (.handoverTimeout c k) s = .next (s.abort c k ⟨12, why⟩)) ∧
      (((s.part x.part).quiesce = none ∨ ¬far) → exec (.handoverTimeout c k) s = .next s)) ∧
    (s.memberCtx p tid role = none → exec (.streamInTile p ⟨tid, role⟩ r) s = .next s ∧ exec (.streamOutTile p ⟨tid, role⟩ r) s = .next s) ∧
    (∀ i : Image, s.resident p tid role = none → s.task? p tid = some t → t.images.find? (fun i => i.role == role) = some i →
      let q := Tab.get Ring.empty i.ctx.rings r
      q.takes i.ctx = true →
      (q.kind = 1 → q.begun = true ∨ q.inUse < q.slots → exec (.streamInTile p ⟨tid, role⟩ r) s =
        .next (((s.stageImage t i).fillSlot (256 + i.fromCore) 0 r (4 * q.lines + 1)).unstageImage t i)) ∧
      (q.kind = 2 → q.begun = true → exec (.streamOutTile p ⟨tid, role⟩ r) s =
        .next (((s.stageImage t i).drainSlot (256 + i.fromCore) 0 r (4 * q.lines + 1)).unstageImage t i))) ∧
    (s.resident p tid role = some (c, k, x) →
      let q := Tab.get Ring.empty x.rings r
      let a := q.tile + BitVec.ofNat 64 (64 * q.line)
      let slotAt := fun (i : Nat) => 256 * (q.lbase + i % q.slots * q.lines) + 64 * q.line
      let free := fun (s : State) => s.unlock (.stream x.part x.tid x.role r)
      (q.kind ≠ 1 ∨ q.takes x = false ∨ (q.begun = false ∧ q.slots ≤ q.inUse) → exec (.streamInTile p ⟨tid, role⟩ r) s = .next s) ∧
      (q.kind = 1 → q.takes x = true → q.begun = true ∨ q.inUse < q.slots →
        exec (.streamInTile p ⟨tid, role⟩ r) s = .next (s.fillSlot c k r (4 * q.lines + 1))) ∧
      (q.kind ≠ 2 ∨ q.takes x = false ∨ (q.begun = false ∧ q.filled = 0) → exec (.streamOutTile p ⟨tid, role⟩ r) s = .next s) ∧
      (q.kind = 2 → q.takes x = true →
        (q.begun = true → exec (.streamOutTile p ⟨tid, role⟩ r) s = .next (s.drainSlot c k r (4 * q.lines + 1))) ∧
        (q.begun = false → q.filled ≠ 0 → x.part = p → x.tid = tid → x.role = role → exec (.streamOutTile p ⟨tid, role⟩ r) s =
          .next ((s.updStream x r fun q => { q with claim := q.claim + 1 }).drainSlot c k r (4 * q.lines + 1)))) ∧
      (∀ f, 4 * q.lines ≤ q.line →
        s.fillSlot c k r (f + 1) = free (s.updStream x r fun q => { q with tail := q.tail + 1, pos := q.pos + 1, line := 0, done := q.pos + 1 == q.count }) ∧
        (q.acks = [] → s.drainSlot c k r (f + 1) =
          free (s.updStream x r fun q => { q with head := q.head + 1, pos := q.pos + 1, line := 0, done := q.pos + 1 == q.count }))) ∧
      (∀ f u v bs bad, q.line < 4 * q.lines → selectsG a = true →
        (q.got = [] → s.readPiece c k x false a 64 = .bytes u bs bad → u.slotWrite c k r x (slotAt q.tail.toNat) bs bad = .done v →
          s.fillSlot c k r (f + 1) = (v.updStream x r fun q => { q with line := q.line + 1, got := [] }).fillSlot c k r f) ∧
        (x.slotRead (slotAt (q.claim - 1).toNat) = (bs, bad) → s.inSlate c k x a = false → s.writePiece c k x false a bs bad (ackRing x r) = .done v →
          s.drainSlot c k r (f + 1) = (v.updStream x r fun q => { q with line := q.line + 1 }).drainSlot c k r f)) ∧
      (∀ f, q.line < 4 * q.lines → selectsG a = false → q.got = [] →
        s.fillSlot c k r (f + 1) = s.faultStream x r ∧ s.drainSlot c k r (f + 1) = s.faultStream x r))

/-! ## Memories -/

/-- R68, R113, R114, R284, R286, R290, R299, R312, R315 to R319, R339, R355: the steps of the memories. A fill brings its line or calls the pager; a request is
performed at its window port once, unless the check of R68 or a mark stops it; window pages and device pages move with their bytes, and their
leaves name the new place; a bounce slot goes into its page; the pager's answer frees what waits for it or ends it; the refresh passes its
window; a tier error ends its request.
The model's own: the first access to a resident page moves its bounce slot in (log 55). -/
def Obligations.MemorySteps : Prop :=
  ∀ (s t : State) (c k line p page die sl off idx id r pa at' n : Nat) (x : Ctx) (g : Nat) (bs : List Byte) (bad : List Bool) (q : PortReq) (op : AOp)
    (e : Cached) (m : TuCmd) (a : Word) (b : Bounce) (lat : BitVec 3) (ok : Bool) (tid : Word) (role d : Nat),
    let units := (List.range 4).map fun i => BitVec.ofNat 64 (g + 64 * i)
    ((∀ f ∈ s.fills, f.names c k line = false) → exec (.scratchpadRegionFill c k line) s = .next s) ∧
    (∀ f : Fill, s.fills.find? (fun f => f.names c k line) = some f → s.ctx? c k = some x → x.regionOf line = some g → (x.line line).rgf = false →
      s.fillCalled c k g = false → s.classUnfinished x ((x.regionClass line).getD 0) f.oldest = false →
      (s.fillUnits c k x units [] [] = .ok (t, bs, bad) → exec (.scratchpadRegionFill c k line) s =
        .next ((t.updCtx c k fun y => { y.filled line bs bad with got := y.got.filter fun q => !units.contains q.1 }).endFill c k line)) ∧
      (s.fillUnits c k x units [] [] = .error (.call a) →
        exec (.scratchpadRegionFill c k line) s = .next { s with pager := s.pager ++ [.fill c k a] })) ∧
    (bs.length = 256 → Memory.wf x.l = true → ∀ y, y = x.filled line bs bad → y.l.read (256 * line) 256 = bs ∧ (y.line line).rgf = true ∧ (y.line line).rgd = false ∧
      ∀ i, i < 256 * line ∨ 256 * line + 256 ≤ i → y.l.get i = x.l.get i) ∧
    (q.off = 0x40000 * sl + off → off < 0x40000 →
      (q.op = none → (off % 8 ≠ 0 ∨ 16 ≤ sl → exec (.windowPortRequest c q) s = .next s) ∧
        (off % 8 = 0 → sl < 16 → exec (.windowPortRequest c q) s = .next (s.storeWin c sl off (bytesOf 8 q.x.toNat) false))) ∧
      (q.op = some op → (off % aopAlign op ≠ 0 ∨ 16 ≤ sl → exec (.windowPortRequest c q) s = .next s) ∧
        (off % aopAlign op = 0 → sl < 16 →
          let key := q.det.map fun d => (d.1, d.2.toNat % 256)
          (s.detCheck key c sl off (!q.returning && aopCommutes op) = none → exec (.windowPortRequest c q) s = .next s) ∧
          (s.detCheck key c sl off (!q.returning && aopCommutes op) = some t → exec (.windowPortRequest c q) s =
            .next (if t.marksAt (.win c sl off) (aopWidth op) = [] then (t.port c sl off op q.x q.cmp).1 else t))))) ∧
    (s.leafOf p (65536 * page) = none → exec (.windowPageMigration p page c sl id) s = .next s ∧ exec (.pageMove p page pa lat) s = .next s) ∧
    (s.leafOf p (65536 * page) = some (at', e) →
      let body := entryBody e.entry
      (entryKind e.entry = 3 → body / 128 % 2 = 0 → (s.part p).ownsCore c = true → (s.die (dieOf c)).lost = false → sl < 16 → id < 4 →
        s.quarterFree c sl id = true → exec (.windowPageMigration p page c sl id) s =
          .next (((s.setSlice c sl ((s.slice c sl).copyQuarter (s.slice (body / 256) (body / 8 % 16)) (body / 2 % 4) id)).moveWaits
            (body / 256) (body / 8 % 16) (body / 2 % 4) c sl id).setLeaf p at' e (putBits e.entry 0 48 (c * 256 + sl * 8 + id * 2)))) ∧
      (entryKind e.entry = 1 → isSlate body = false → (∀ j, j < 8 → hdmEn (s.hdm j).1 = true → s.inDecoder j body = false) →
        (lat.toNat < 4 ∨ lat.toNat = 7) → s.targetFree p pa (2 ^ e.size) = true →
        s.tierMoveOk p e pa lat.toNat = true →
        let u := (s.copyRange body (2 ^ e.size) pa).setLeaf p at' e (putBits (putBits e.entry 0 48 pa) 57 3 lat.toNat)
        exec (.pageMove p page pa lat) s = .next { u with promoting := s.promoting.filter fun q =>
          !(q.part == p && e.base ≤ 65536 * q.page && 65536 * q.page < e.base + 2 ^ e.size) }) ∧
      (entryKind e.entry ≠ 1 ∨ isSlate body = true ∨ s.targetFree p pa (2 ^ e.size) = false ∨ s.tierMoveOk p e pa lat.toNat = false →
        exec (.pageMove p page pa lat) s = .next s)) ∧
    (Memory.wf s.mem = true → (∀ i, i < n → (s.copyRange off n pa).mem.get (pa + i) = s.mem.get (off + i)) ∧
      ∀ i, i < pa ∨ pa + n ≤ i → (s.copyRange off n pa).mem.get i = s.mem.get i) ∧
    (∀ (d w : Slice) (i j qs qd : Nat), Memory.wf d.bytes = true → Memory.wf w.bytes = true → i < 65536 → (j < 65536 * qd ∨ 65536 * qd + 65536 ≤ j) →
      (d.copyQuarter w qs qd).bytes.get (65536 * qd + i) = w.bytes.get (65536 * qs + i) ∧ (d.copyQuarter w qs qd).bytes.get j = d.bytes.get j) ∧
    ((s.die die).bounce[idx]? = none → exec (.bounceSlotMove die idx) s = .next s) ∧
    ((s.die die).bounce[idx]? = some b → (s.translate b.part (65536 * b.page) = none → exec (.bounceSlotMove die idx) s = .next s) ∧
      (s.translate b.part (65536 * b.page) = some e → entryKind e.entry = 1 →
        (isSlate (entryBody e.entry + 65536 * b.page % 2 ^ e.size) = true → s.slateOpen b.part = true) → ∃ v, exec (.bounceSlotMove die idx) s = .next v ∧
        v.mem = b.bytes.foldl (fun m q => m.set (entryBody e.entry + 65536 * b.page % 2 ^ e.size + q.1) q.2) s.mem ∧
        (v.die die).bounce = (s.die die).bounce.filter (· != b) ∧ v.cores = s.cores ∧ v.parts = s.parts ∧
        ∀ u ∈ b.pois, (entryBody e.entry + 65536 * b.page % 2 ^ e.size + 64 * u) / 64 ∈ v.memPois)) ∧
    (s.pager[idx]? = none → exec (.pagerResolve idx ok) s = .next s) ∧
    (let u : State := { s with pager := s.pager.eraseIdx idx };
      (s.pager[idx]? = some (.command c id a) → s.cmd? c id = some m → s.overdue c m = true → exec (.pagerResolve idx ok) s = .next (u.lateCmd c m)) ∧
      (s.pager[idx]? = some (.command c id a) → s.cmd? c id = some m → s.overdue c m = false →
        exec (.pagerResolve idx true) s = .next ((u.updCmd c id fun q => { q with held := false }).onMember m.part m.tid m.role fun x =>
          x.setTag (TuCmd.tag m) false 0) ∧
        (m.writesBack = false → exec (.pagerResolve idx false) s = .next (u.faultCmd c id reasonXlate)) ∧
        (m.writesBack = true → (u.faultCmd c id reasonXlate).resident m.part m.tid m.role = some (d, k, x) →
          exec (.pagerResolve idx false) s = .next ((u.faultCmd c id reasonXlate).abort d k ⟨3, a⟩))) ∧
      (s.pager[idx]? = some (.fill c k a) → exec (.pagerResolve idx true) s = .next u ∧ exec (.pagerResolve idx false) s = .next (u.fillFailed c k a)) ∧
      (s.pager[idx]? = some (.image c k a) →
        exec (.pagerResolve idx true) s = .next u ∧ exec (.pagerResolve idx false) s = .next (u.abort c k ⟨3, a⟩)) ∧
      (s.pager[idx]? = some (.stream p tid role r a) →
        let ring := fun (f : Ring → Ring) => u.onMember p tid role fun y => y.setRing r (f (Tab.get Ring.empty y.rings r))
        exec (.pagerResolve idx true) s = .next (ring fun q => { q with held := false, fault := q.fault || false }) ∧
        exec (.pagerResolve idx false) s = .next ((ring fun q => { q with held := false, fault := q.fault || true }).unlock (.stream p tid role r))) ∧
      (s.pager[idx]? = some (.chain c a) → exec (.pagerResolve idx ok) s = .next u)) ∧
    (let pos := (s.die die).pos.toNat;
      (128 ≤ pos % 256 → exec (.slateRefresh die) s = .next s) ∧
      (pos % 256 < 128 → (s.die die).lost = false → ∃ v, exec (.slateRefresh die) s = .next v ∧ (v.die die).pos.toNat = pos / 256 * 256 + 128 ∧
        (v.die die).qclk = (s.die die).qclk + BitVec.ofNat 64 (128 - pos % 256) ∧ v.mem = s.mem ∧ v.tasks = s.tasks ∧
        ∀ i, i < 256 → dieOf i = die → Tab.has s.cores i = true →
          v.core i = { s.core i with cyc := (s.core i).cyc + BitVec.ofNat 64 (128 - pos % 256) })) ∧
    (s.cmd? c id = some m → m.res = none → ∃ v q, exec (.tierError (.command c id)) s = .next v ∧ v.cmd? c id = some q ∧
      q.res = some (1, reasonTier, if m.isChain then m.step % 8 else 0) ∧ q.held = false ∧ q.asks = [] ∧ q.line = m.line ∧
      Tab.get 0 (v.die (dieOf c)).errors 11 = satAdd (Tab.get 0 (s.die (dieOf c)).errors 11) 1 ∧ v.mem = s.mem) ∧
    (s.cmd? c id = some m → m.res ≠ none → exec (.tierError (.command c id)) s = .next s) ∧
    (s.memberCtx p tid role = some (c, x) → exec (.tierError (.stream p tid role r)) s = .next ((s.faultStream x r).countError (dieOf c) 11)) ∧
    (s.leafOf p (65536 * page) = none → exec (.tierError (.move p page)) s = .next s) ∧
    (s.leafOf p (65536 * page) = some (at', e) → entryKind e.entry = 1 →
      ∃ v, exec (.tierError (.move p page)) s = .next v ∧ v.promoting = s.promoting.filter (fun q =>
        !(q.part == p && e.base ≤ 65536 * q.page && 65536 * q.page < e.base + 2 ^ e.size)) ∧
        v = { s with promoting := v.promoting }.countError (if isHost (entryBody e.entry) then 0 else dieOfPa (entryBody e.entry)) 11)

/-! ## Faults, resets and losses -/

/-- R26, R208, R282, R291, R309, R361, R370, R442, R461, R463, R483, R485, R496: ECC errors are counted and mark what they spoil. A power-on reset, or the
module's controller at 120 °C, leaves the reset state with the fuses and what is outside the device. A core reset clears the core but for
its mailbox, and its queue goes to the spill region; at the end of an isolation the core stays held in reset. A die sends its heartbeat
every 2^16 cc and samples its monitors every 4,096 cc, which withholds issue slots above 105 °C until all sensors read 100 °C or less, and
over each window by the power limit.
The model's own: tasks resident on a core that is reset end as a hand-over does (log 40). -/
def Obligations.ErrorsAndResets : Prop :=
  ∀ (s : State) (c die u k r : Nat) (w : EccSite) (x : Ctx) (vals : List Half) (watts : Nat),
    (eccValid w = true → exec (.eccCorrectable w) s = .next (s.countError (eccDie w) (eccItem w)) ∧
      exec (.eccUncorrectable w) s = .next ((s.eccMark w).countError (eccDie w) (eccItem w + 1))) ∧
    (eccValid w = false → exec (.eccCorrectable w) s = .next s ∧ exec (.eccUncorrectable w) s = .next s) ∧
    u ∈ (s.eccMark (.device u)).memPois ∧
    (s.ctx? c k = some x → Tab.find (s.core c).lineOwner (u / 4) = some k → ∃ y, (s.eccMark (.scratch c k u)).ctx? c k = some y ∧
      (y.line (u / 4)).pois.getLsbD (u % 4) = true ∧ y.l = x.l ∧ ∀ j, j ≠ u / 4 → y.line j = x.line j) ∧
    (Tab.get VReg.empty ((s.eccMark (.vreg c r)).core c).vrf r).poison.isSome = true ∧
    (∀ l ∈ ((s.eccMark (.imem c k r)).core c).imem, ¬(l.key.part = k ∧ l.key.handle = r)) ∧
    (∀ d i, Tab.get 0 ((s.countError d i).die d).errors i = satAdd (Tab.get 0 (s.die d).errors i) 1) ∧
    (let bare : State := { State.reset with
        tick := s.tick, turn := s.turn,
        mem := s.mem.filter fun q => isHost q.1, memPois := s.memPois.filter fun u => isHost (64 * u), fuses := s.fuses, serial := s.serial
        mgmt := { State.reset.mgmt with fsvn := s.fuses.svn } };
      exec .powerOnReset s = .next { bare with outbox := s.outbox ++ (s.tunars.filter fun q => q.2.up).map fun q => .notice q.1 } ∧
      exec .moduleOvertemp s = .next { bare with outbox := s.outbox }) ∧
    (256 ≤ c ∨ (s.die (dieOf c)).lost = true → exec (.coreReset c) s = .next s) ∧
    (c < 256 → (s.die (dieOf c)).lost = false →
      let last := (s.core c).isolated = true ∧ (s.core c).heldReset = false ∧ s.emptied c = true
      ∃ (v : State) (m : Mailbox), exec (.coreReset c) s = .next v ∧
        (last → v.core c = { Core.reset with heldReset := true, isolated := true, mbox := m }) ∧
        (¬last → v.core c = { Core.reset with heldReset := (s.coreOwner c).isNone, mbox := m }) ∧ ∀ t ∈ v.tasks, t.place ≠ .local c) ∧
    (let now := (s.die die).qclk.toNat / 2 ^ 16;
      ((s.die die).lost = true ∨ now = (s.die die).heartbeat → exec (.heartbeatSend die) s = .next s) ∧
      ((s.die die).lost = false → now ≠ (s.die die).heartbeat → exec (.heartbeatSend die) s =
        .next { s with dies := Tab.put s.dies die { s.die die with heartbeat := now }, outbox := s.outbox ++ [.heartbeat die] })) ∧
    (let now := (s.die die).qclk.toNat / 4096;
      ((s.die die).lost = true ∨ now = (s.die die).sampled → exec (.monitorSample die vals) s = .next s) ∧
      ((s.die die).lost = false → now ≠ (s.die die).sampled → ∃ v, exec (.monitorSample die vals) s = .next v ∧ (v.die die).sampled = now ∧
        (∀ i, Tab.get 0 (v.die die).monitors i = if i < 11 ∧ i < vals.length then vals.getD i 0 else Tab.get 0 (s.die die).monitors i) ∧
        ((v.die die).withheld = true ↔ (∃ t ∈ vals.take 8, 105 * 16 < t.toInt) ∨ ((s.die die).withheld = true ∧ ∃ t ∈ vals.take 8, 100 * 16 < t.toInt)) ∧
        v.mem = s.mem ∧ v.cores = s.cores ∧ v.tasks = s.tasks ∧ ∀ d, d ≠ die → v.die d = s.die d)) ∧
    ∃ v, exec (.powerLimitWindow watts) s = .next v ∧ (∀ d, d < 4 → v.die d = { s.die d with capped := !(s.die d).lost && s.mgmt.plim < watts }) ∧
      v.mem = s.mem ∧ v.cores = s.cores ∧ v.tasks = s.tasks

/-- R28, R29, R40, R405, R420, R472, R473, R485, R489: the losses of a die and of a peer. Every partition that the die touches is quiesced; what the die
held is gone; its records, directory and table entries are its mirror's. A lost peer's pages count as invalid, what waits for it ends, and the
partition is quiesced; a command that waits for it ends with reason TIER.
The model's own: what becomes of the lost die's bytes and of tasks that cannot move (log 27). -/
def Obligations.Losses : Prop :=
  ∀ (s : State) (die p dev : Nat),
    (4 ≤ die ∨ (s.die die).lost = true → exec (.dieLoss die) s = .next s) ∧
    (die < 4 → (s.die die).lost = false →
      let hit := partNums.filter fun p => (s.part p).touches die
      let stored := s.versions.filterMap fun e => if s.dieHolding e.part e.base.toNat = some die then some (e.part, e.nv) else none
      let struck := hit.flatMap s.struck
      let s1 := (s.updDie die fun d => { d with lost := true }).loseHostPort die
      let s2 := if (dieNums.find? fun d => !(s.die d).lost) = some die then s1.releaseOwner 3 else s1
      let s3 := (((hit.foldl (fun t p => t.enterQuiesce p (reasonDie die) none) s2).endCmdsOn die).endOnDie die).moveRecords die
      let s4 := (List.range 8).foldl (fun t i => if (t.tunar (8 * die + i)).up then t.closePort (8 * die + i) fun _ => false else t)
        (s3.loseVersions die (stored ++ struck))
      exec (.dieLoss die) s = .next (hit.foldl (fun t p => t.deliver p) (s4.clearDie die))) ∧
    (let u := s.clearDie die;
      (u.die die).lost = true ∧ (∀ c, dieOf c = die → u.core c = Core.reset) ∧ (∀ c, dieOf c ≠ die → u.core c = s.core c) ∧
      (∀ d, d ≠ die → u.die d = s.die d) ∧ ∀ a, u.mem.get a = if onDevice a = true ∧ dieOfPa a = die then 0 else s.mem.get a) ∧
    (let u := s.enterQuiesce p (reasonDie die) none;
      (u.part p).quiesce = some ((s.part p).quiesce.getD (BitVec.ofNat 64 (1 + die % 4 * 2 ^ 8))) ∧ (u.part p).regions = (s.part p).regions ∧
      u.tasks = s.tasks ∧ u.cores = s.cores) ∧
    ((s.part p).exists_ = false ∨ dev = (s.part p).devnum → exec (.peerLoss p dev) s = .next s) ∧
    ((s.part p).exists_ = true → dev ≠ (s.part p).devnum → exec (.peerLoss p dev) s =
      .next (((((s.cutOff p dev).loseFar p dev).freeParked p dev).updPart p fun q => { q with lostPages := (q.lostPages ++ s.pagesAt p dev).eraseDups }).startQuiesce p
        (BitVec.ofNat 64 (2 + dev % 4096 * 2 ^ 12)) (some dev))) ∧
    (∀ c id m, s.cmd? c id = some m → m.part = p → (∃ q ∈ m.asks, q.dev = dev) → ∃ q, (s.cutOff p dev).cmd? c id = some q ∧
      q.res = some (1, reasonTier, if m.isChain then m.step % 8 else 0) ∧ q.asks = [] ∧ q.held = false) ∧
    ∀ e ∈ (s.cutOff p dev).versions, e.part = p → e.repl = true → e.rdev ≠ dev

/-! ## Links -/

/-- R131, R373, R446, R484, R485, R508: the steps of the links. A flit in order is taken and acknowledged, and its packet is for this device or goes on;
a bad one is counted and replayed, slows the module at FTH, and resets it where it is slow already. A Tunar port checks a flit, takes its
acknowledgement and credits, and acts on its kind; replay requests repeat flits in order, the sixteenth in succession takes the port down.
The model's own: the steps of a link reset that the rules leave open (logs 30 and 31). -/
def Obligations.LinkSteps : Prop :=
  ∀ (s : State) (side : UcieSide) (seq : BitVec 8) (p : Packet) (po : Option Packet) (port cls vc n : Nat) (flit : BitVec 512) (crc : Bool),
    let far : UcieSide := ⟨side.peer, side.die, side.mod⟩
    let m := s.ucie side
    let sends := fun (x : UcieSide) (l : List (BitVec 8 × Option Packet)) => l.map fun q => Event.ucieFlitReceive (UcieSide.far x) q.1 true q.2
    let bad := (s.updUcie side fun u => u.bump 0 1).countError side.die 16
    (m.up = false ∨ m.retraining = true → exec (.ucieFlitReceive side seq crc po) s = .next s) ∧
    (m.up = true → m.retraining = false →
      (seq ≠ m.expect → exec (.ucieFlitReceive side seq true po) s = .next s) ∧
      (seq = m.expect →
        let u := (s.updUcie side fun u => { u with expect := u.expect + 1 }).post (.ucieFlitAck far seq)
        exec (.ucieFlitReceive side seq true none) s = .next u ∧
        exec (.ucieFlitReceive side seq true (some p)) s =
          .next (u.post (if Packet.dst p = (s.part (Packet.part p)).devnum then .remoteRequest p else .packetForward p))) ∧
      (Tab.get 0 m.items 0 + 1 < m.fth → exec (.ucieFlitReceive side seq false po) s = .next (bad.ucieReplay far seq)) ∧
      (m.fth ≤ Tab.get 0 m.items 0 + 1 →
        (m.width ≠ 64 → exec (.ucieFlitReceive side seq false po) s = .next (bad.ucieReset side)) ∧
        (m.width = 64 → side ≠ far → ∃ v, exec (.ucieFlitReceive side seq false po) s = .next v ∧ (v.ucie side).width = 32 ∧ (v.ucie far).width = 32 ∧
          (v.ucie side).retraining = true ∧ (v.ucie far).retraining = true ∧ Tab.get 0 (v.ucie side).items 0 = 0 ∧
          (∀ e ∈ s.inbox, e ∈ v.inbox) ∧ v.mem = s.mem ∧ v.cores = s.cores))) ∧
    ((s.ucieReplay side seq).inbox = s.inbox ++ sends side (m.replay.filter fun q => (q.1 - seq).toNat < 128) ∧
      Tab.get 0 ((s.ucieReplay side seq).ucie side).items 1 =
        Tab.get 0 m.items 1 + BitVec.ofNat 32 (m.replay.filter fun q => (q.1 - seq).toNat < 128).length) ∧
    (side ≠ far → let v := s.ucieReset side
      (v.ucie side).up = false ∧ (v.ucie far).up = false ∧ (v.ucie side).width = 64 ∧ Tab.get 0 (v.ucie side).items 6 = Tab.get 0 m.items 6 + 1 ∧
        Tab.get 0 (v.die side.die).errors 18 = satAdd (Tab.get 0 (s.die side.die).errors 18) 1) ∧
    (m.retraining = false → exec (.ucieRetrainComplete side) s = .next s) ∧
    (m.retraining = true → side ≠ far → ∃ v, exec (.ucieRetrainComplete side) s = .next v ∧ (v.ucie side).retraining = false ∧
      (v.ucie far).retraining = false ∧ v.cores = s.cores ∧ v.mem = s.mem ∧
      let from' := fun (l : List (BitVec 8 × Option Packet)) => match l with | [] => [] | q :: _ => l.filter fun r => (r.1 - q.1).toNat < 128
      v.inbox = s.inbox ++ sends side (from' m.replay) ++ sends far (from' (s.ucie far).replay)) ∧
    (∃ v, exec (.ucieFlitAck side seq) s = .next v ∧ (v.ucie side).replay = m.replay.filter (fun q => 128 ≤ (seq - q.1).toNat) ∧
      (v.ucie side).expect = m.expect ∧ v.inbox = s.inbox ∧ v.cores = s.cores ∧ v.mem = s.mem) ∧
    (let t := s.tunar port
      let b := fun (i : Nat) => (flitBytes flit).getD i 0
      let kind := (b 0).toNat % 16
      let u := (s.updTunar port fun t => (t.acked (b 2)).credited (5 * ((b 0).toNat / 128) + (b 3).toNat / 32) ((b 3).toNat % 32)).pump port;
      (t.up = false → exec (.tunarFlitReceive port flit) s = .next s ∧ exec (.tunarReplayRequest port seq) s = .next s) ∧
      (t.up = true →
        (flitGood flit = false → ∃ v, exec (.tunarFlitReceive port flit) s = .next v ∧ v.tunar port = { t with items := bumpTab t.items 1 1 } ∧
          v.outbox = s.outbox ++ [.flit port (mkFlit 0 0 3 t.expect (t.expect - 1) 0 [])] ∧ v.mem = s.mem ∧ v.cores = s.cores) ∧
        (flitGood flit = true →
          (4 < kind → exec (.tunarFlitReceive port flit) s = .next (s.updTunar port fun t => { t with items := bumpTab t.items 2 1 })) ∧
          (kind = 0 → exec (.tunarFlitReceive port flit) s = .next u) ∧
          (kind = 3 → exec (.tunarFlitReceive port flit) s = .next (u.post (.tunarReplayRequest port (b 1)))) ∧
          (kind = 4 → exec (.tunarFlitReceive port flit) s = .next (u.post (.tunarResetNotice port))) ∧
          (kind = 1 ∨ kind = 2 →
            (b 1 = t.expect → (b 0).toNat / 16 % 8 < 5 → exec (.tunarFlitReceive port flit) s =
              .next (u.packetFlit port ((b 0).toNat / 128) ((b 0).toNat / 16 % 8) flit)) ∧
            (b 1 ≠ t.expect → exec (.tunarFlitReceive port flit) s = .next u))) ∧
        ∃ v, exec (.tunarReplayRequest port seq) s = .next v ∧ v.tunar port = { t with replays := t.replays + 1, items := bumpTab t.items 3 1 } ∧
          (15 ≤ t.replays → v.inbox = s.inbox ++ [.tunarPortDown port] ∧ v.outbox = s.outbox) ∧
          (t.replays < 15 → v.inbox = s.inbox ∧
            v.outbox = s.outbox ++ (t.replay.filter fun q => (q.1 - seq).toNat < 128).map fun q => Msg.flit port q.2))) ∧
    exec (.tunarCreditReturn port cls vc n) s = .next ((s.updTunar port fun t => { t with
      credits := Tab.put t.credits (5 * cls + vc) (Tab.get 0 t.credits (5 * cls + vc) - n) }).pump port)

/-- R316, R336, R337, R372, R400, R401, R445, R475, R480, R485 to R487: packets, ports that are lost, requests, and the host link. A packet for another device
goes on with one more hop, or is discarded and counted. What lay behind a lost port goes by its alternate or its peer is lost. A request is
executed once and answered; a load reads, a store writes. When the host link is lost, its copies end with reason TIER.
The model's own: the operand codes of answers and messages (log 21). -/
def Obligations.PacketsAndPorts : Prop :=
  ∀ (s u : State) (p : Packet) (port dev n : Nat) (e : Half) (l : HostLink) (pa typ oparg : Nat) (data : List Byte),
    let part := Packet.part p
    let own := (s.part part).devnum
    let gone := s.discard (routePort (Tab.get 0 s.routes (Packet.dst p)))
    (Packet.ok p = false → exec (.packetForward p) s = .next gone ∧ exec (.remoteRequest p) s = .next (s.countError 0 12)) ∧
    (Packet.ok p = true → Packet.dst p ≠ own →
      (4 ≤ Packet.hops p → exec (.packetForward p) s = .next gone) ∧
      (Packet.hops p < 4 →
        (s.wayTo part (Packet.dst p) = .none → exec (.packetForward p) s = .next gone) ∧
        (s.wayTo part (Packet.dst p) = .down → exec (.packetForward p) s = .next (gone.post (.peerLoss part (Packet.dst p)))) ∧
        (s.wayTo part (Packet.dst p) = .via port n →
          exec (.packetForward p) s = .next (if s.portOpen port (Packet.cls p) (Packet.hops p + 1)
            then s.transmit port (Packet.hops p + 1) ⟨p.hdr + BitVec.ofNat 128 (2 ^ 9), p.data⟩ else s.post (.packetForward p))))) ∧
    (Packet.ok p = true → Packet.dst p = own → exec (.packetForward p) s = .next (s.post (.remoteRequest p))) ∧
    (let q : Packet := ⟨p.hdr + BitVec.ofNat 128 (2 ^ 9), p.data⟩;
      Packet.hops p < 7 → Packet.hops q = Packet.hops p + 1 ∧ Packet.dst q = Packet.dst p ∧ Packet.src q = Packet.src p ∧ Packet.addr q = Packet.addr p ∧
        Packet.rsn q = Packet.rsn p ∧ Packet.typ q = Packet.typ p ∧ Packet.oparg q = Packet.oparg p ∧ Packet.part q = part ∧ Packet.cls q = Packet.cls p) ∧
    (Packet.ok p = true → Packet.cls p = 1 → exec (.remoteRequest p) s = .next (s.takeReply p)) ∧
    (Packet.ok p = true → Packet.cls p = 0 →
      let r := s.responder (Packet.src p) part
      let header := fun typ oparg => packetHeader (Packet.addr p) oparg (Packet.rsn p).toNat (Packet.src p) own part 0 1 typ
      (0x80 ≤ Packet.typ p → exec (.remoteRequest p) s = .next (s.countError 0 12)) ∧
      (Packet.typ p < 0x80 → Packet.typ p ≠ 1 → r.duplicate (Packet.rsn p) = true → ∃ v, exec (.remoteRequest p) s = .next v ∧
        Tab.get 0 (v.die 0).errors 19 = satAdd (Tab.get 0 (s.die 0).errors 19) 1 ∧ v.mem = s.mem ∧ v.cores = s.cores ∧
        v.answers = s.answers ++ ((r.cache.find? fun c => c.1 == Packet.rsn p).map Prod.snd).toList) ∧
      (Packet.typ p = 1 → s.serve part p = .now u typ oparg data → (u.part part).devnum = own →
        exec (.remoteRequest p) s = .next { u with answers := u.answers ++ [⟨header typ oparg, data⟩] }) ∧
      (Packet.typ p < 0x80 → Packet.typ p ≠ 1 → r.duplicate (Packet.rsn p) = false → s.serve part p = .now u typ oparg data →
        (u.part part).devnum = own → ∃ v, exec (.remoteRequest p) s = .next v ∧ v.answers = u.answers ++ [⟨header typ oparg, data⟩] ∧ v.mem = u.mem ∧
          v.cores = u.cores ∧ v.tasks = u.tasks ∧ Packet.rsn p ∈ (v.responder (Packet.src p) part).seen) ∧
      (Packet.typ p < 0x80 → (Packet.typ p = 1 ∨ r.duplicate (Packet.rsn p) = false) → s.serve part p = .retry u →
        exec (.remoteRequest p) s = .next (u.post (.remoteRequest p))) ∧
      (let q := s.reachFor part (Packet.addr p);
        (s.part part).exists_ = true → q.t = .mem pa →
        (Packet.typ p = 1 → refusal q .read = none → s.bankBusy q.t = false → ∃ v, s.serve part p =
            .now v 0x80 (64 + if s.marksAt q.t (Packet.oparg p % 64 + 1) = [] then 0 else 128) (s.mem.read pa (Packet.oparg p % 64 + 1)) ∧
          v.mem = s.mem ∧ v.cores = s.cores) ∧
        (Packet.typ p = 1 → refusal q .read ≠ none → s.serve part p = .now s 0x80 65 []) ∧
        (Packet.typ p = 2 → refusal q .write = none → ∃ v, s.serve part p = .now v 0x81 0 [] ∧ v.mem = s.mem.write pa p.data ∧ v.cores = s.cores) ∧
        (Packet.typ p = 2 → refusal q .write ≠ none → s.serve part p = .now s 0x81 1 []))) ∧
    (let lost := fun (e : Half) => (routePort e == port && routeHops e == 1) || (routeAV e && routeAPort e == port && routeAHops e == 1)
      let t := s.updTunar port fun t => { Tunar.reset with items := t.items };
      (s.routesBy port = [] → exec (.tunarPortDown port) s = .next t ∧ exec (.tunarResetNotice port) s = .next t) ∧
      (s.routesBy port = [(dev, e)] →
        (∀ n q, t.wayTo (routePart e) dev = .via q n → exec (.tunarPortDown port) s = .next (t.moveStream (routePart e) dev q)) ∧
        (t.wayTo (routePart e) dev = .down → exec (.tunarPortDown port) s = .next (t.post (.peerLoss (routePart e) dev))) ∧
        (lost e = true → exec (.tunarResetNotice port) s = .next (t.post (.peerLoss (routePart e) dev))) ∧
        (lost e = false → exec (.tunarResetNotice port) s = exec (.tunarPortDown port) s))) ∧
    exec (.linkTraining l) s = .next (if (s.die 0).lost then s else { s with link := l }) ∧
    ∃ v, exec .hostLinkLoss s = .next v ∧ v.link = .none ∧ v.mem = s.mem ∧ v.tasks = s.tasks ∧ v.mown.owner = (if s.mown.owner = 1 then 0 else s.mown.owner) ∧
      ∀ c id m, s.cmd? c id = some m → ∃ q, v.cmd? c id = some q ∧ ((∀ tag a b cr od oc, m.word ≠ .cpyh tag a b cr od oc) → q = m) ∧
        ∀ tag a b cr od oc, m.word = .cpyh tag a b cr od oc → q.res = some (m.res.getD (1, reasonTier, 0)) ∧ q.line = m.line

/-! ## Management -/

/-- R3, R31, R33, R370, R463, R472, R476 to R478, R488 to R492: ownership and partitions. A read of MOWN clears DENY; claims, offers and releases change the
owner and interrupt PF0; a write of another master is discarded and counted in DENY. CREATE, DESTROY, RESET and QUIESCE act and report as
R490 and R491 say. A write to a register acts as its field says.
The model's own: the order within one MCLM write, the vectors of the interrupts and when an operation takes effect (logs 28 and 29). -/
def Obligations.OwnershipAndPartitions : Prop :=
  ∀ (s : State) (m p off c o which : Nat) (v w : Word) (b : BitVec 4) (q : Nat), 1 ≤ m → m ≤ 3 → (m = 1 → (s.die 0).lost = false) →
    let told := fun (u : State) (n : Nat) => if (s.die 0).lost then u else { u with outbox := u.outbox ++ [.msix 0 n] }
    let owned := fun (d : Mown) => (.next (told { s with mown := d } 0) : Out)
    let denied : Out := if s.mown.deny = min 255 (s.mown.deny + 1) then .next s else owned { s.mown with deny := min 255 (s.mown.deny + 1) }
    let released := fun (n : Nat) => if s.mown.owner = n then owned { s.mown with owner := 0, htgt := 0 } else .next s
    let ends := fun (t : State) (stat : Nat) => (.next (t.updPart p fun x => { x with busy := true, result := stat }) : Out)
    let x := s.part p
    exec (.mownRead m) s = .next { s with
      outbox := s.outbox ++ [.mown (BitVec.ofNat 64 (s.mown.deny * 2 ^ 32 + s.mown.htgt * 2 ^ 16 + s.mown.owner))], mown := { s.mown with deny := 0 } } ∧
    ((s.die 0).lost = true → ∀ i ∈ [Instr.mownRead 1, .mclmClaim 1, .mclmRelease 1, .mclmAccept 1, .htgtWrite 1 b, .pctlCreate 1 p, .svnrRaise 1, .hdmEnable 1 p w,
      .nvmeSlotEnable 1 p w, .registerWrite 1 (.mgmt off) v, .registerWrite m (.hostWindow p which) v, .registerWrite m (.mailbox p c off) v,
      .registerWrite m (.msix q off) v, .hostFunctionReset q], exec i s = .next s) ∧
    (s.mown.owner ≠ m → ∀ i ∈ [Instr.htgtWrite m b, .pctlCreate m p, .pctlDestroy m p, .pctlReset m p, .pctlQuiesce m p, .svnrRaise m, .hdmEnable m p w,
      .hdmDisable m p, .nvmeSlotEnable m p w, .nvmeSlotDisable m p, .registerWrite m (.mgmt 0x20) v], exec i s = denied) ∧
    (s.mown.owner = m → (b.toNat = m ∨ 3 < b.toNat ∨ b.toNat = s.mown.htgt → exec (.htgtWrite m b) s = .next s) ∧
      (b.toNat ≠ m → b.toNat ≤ 3 → b.toNat ≠ s.mown.htgt → exec (.htgtWrite m b) s = owned { s.mown with htgt := b.toNat })) ∧
    exec (.mclmClaim m) s = (if s.mown.owner = 0 then owned { s.mown with owner := m } else .next s) ∧
    exec (.mclmRelease m) s = released m ∧
    exec (.mclmAccept m) s = (if s.mown.htgt = m then owned { s.mown with owner := m, htgt := 0 } else .next s) ∧
    exec .managementInterfaceReset s = released 2 ∧
    (s.mown.owner = m → (8 ≤ p ∨ s.fwReady = false ∨ s.mgmt.recov = true ∨ x.busy = true →
      ∀ i ∈ [Instr.pctlCreate m p, .pctlDestroy m p, .pctlReset m p, .pctlQuiesce m p], exec i s = .next s)) ∧
    (s.mown.owner = m → p < 8 → s.fwReady = true → s.mgmt.recov = false → x.busy = false →
      (x.exists_ = true → x.inReset = false → exec (.pctlCreate m p) s = ends s 3) ∧
      (x.exists_ = false ∨ x.inReset = true →
        (x.wellFormed = false → exec (.pctlCreate m p) s = ends s 1) ∧
        (x.wellFormed = true → s.taken p x = true → exec (.pctlCreate m p) s = ends s 2) ∧
        (x.wellFormed = true → s.taken p x = false → s.absent x = true → exec (.pctlCreate m p) s = ends s 4) ∧
        (x.wellFormed = true → s.taken p x = false → s.absent x = false → exec (.pctlCreate m p) s = ends (s.create p) 0)) ∧
      (x.exists_ = false → exec (.pctlDestroy m p) s = ends s 3 ∧ exec (.pctlReset m p) s = ends s 3 ∧ exec (.pctlQuiesce m p) s = ends s 3) ∧
      (x.exists_ = true → exec (.pctlReset m p) s = ends (s.partReset p) 0 ∧
        exec (.pctlDestroy m p) s = ends ((s.partReset p).updPart p fun y => { y with exists_ := false, inReset := false }) 0 ∧
        (x.inReset = true → exec (.pctlQuiesce m p) s = ends s 3) ∧
        (x.inReset = false → exec (.pctlQuiesce m p) s = ends (s.requestQuiesce p) 0))) ∧
    (let u := s.create p;
      (u.part p).exists_ = true ∧ (u.part p).inReset = false ∧ (u.region p 0).st = .running ∧ (u.region p 0).rcb = x.rootRcb ∧
      (∀ c, c < 256 → x.ownsCore c = true → (u.core c).heldReset = false) ∧ u.outbox = s.outbox ++ [.ready (p + 1)] ∧
      (∀ q, q ≠ p → u.part q = s.part q) ∧ ∀ a, u.mem.get a = if x.ptroot ≤ a ∧ a < x.ptroot + 4096 then 0 else s.mem.get a) ∧
    (let u := s.partReset p;
      (u.part p).inReset = true ∧ (u.part p).exists_ = x.exists_ ∧ (u.part p).desc = x.desc ∧ (u.part p).regions = [] ∧ u.mem = s.mem ∧
      (∀ t, t ∈ u.tasks ↔ t ∈ s.tasks ∧ t.part ≠ p) ∧ (∀ e, e ∈ u.versions ↔ e ∈ s.versions ∧ e.part ≠ p) ∧
      (∀ c, x.ownsCore c = true → (u.core c).ctxs = [] ∧ (u.core c).heldReset = true ∧ (u.core c).mbox = Mailbox.zero) ∧
      (∀ c, x.ownsCore c = false → u.core c = s.core c) ∧ ∀ q, q ≠ p → u.part q = s.part q) ∧
    (exec (.pctlOperationEnd p) s = if x.busy then .next (told { s with
      parts := Tab.put s.parts p { x with busy := false, stat := BitVec.ofNat 8 x.result } } 1) else .next s) ∧
    (∀ r ∈ [RegAddr.mgmt 8, .mgmt 0x18, .mailbox p c 0x10], s.registerRead r = 0) ∧
    exec (.registerWrite m (.mgmt 0) v) s = exec (.htgtWrite m (v.extractLsb' 16 4)) s ∧
    (exec (.registerWrite m (.mgmt 8) 1) s = exec (.mclmClaim m) s ∧ exec (.registerWrite m (.mgmt 8) 2) s = exec (.mclmRelease m) s ∧
      exec (.registerWrite m (.mgmt 8) 4) s = exec (.mclmAccept m) s) ∧
    (p < 8 → exec (.registerWrite m (.mgmt (0x1000 + 8 * p)) 1) s = exec (.pctlCreate m p) s ∧
      exec (.registerWrite m (.mgmt (0x1000 + 8 * p)) 2) s = exec (.pctlDestroy m p) s ∧
      exec (.registerWrite m (.mgmt (0x1000 + 8 * p)) 3) s = exec (.pctlReset m p) s ∧
      exec (.registerWrite m (.mgmt (0x1000 + 8 * p)) 4) s = exec (.pctlQuiesce m p) s) ∧
    (mgmtListed off = false → off ≠ 0 → off ≠ 8 → exec (.registerWrite m (.mgmt off) v) s = .next s) ∧
    (p < 8 → o < 64 →
      (x.exists_ = true → x.inReset = false → exec (.registerWrite m (.mgmt (0x2000 + 0x200 * p + 8 * o)) v) s = .next s) ∧
      (x.exists_ = false ∨ x.inReset = true → s.mown.owner = m → s.mgmt.recov = false →
        exec (.registerWrite m (.mgmt (0x2000 + 0x200 * p + 8 * o)) v) s =
          .next (s.updPart p fun x => { x with desc := x.desc.write (8 * o) (bytesOf 8 v.toNat) }))) ∧
    ((s.die 0).lost = false → exec (.registerWrite m (.hostWindow p which) v) s = .next (s.updPart p fun x =>
      if which = 0 then { x with hwbase := v &&& ~~~0x1FFFFF#64 } else if which = 1 then { x with hwsize := v &&& ~~~0x1FFFFF#64 } else x)) ∧
    (x.exists_ = false ∨ x.ownsCore c = false → exec (.registerWrite m (.mailbox p c off) v) s = .next s) ∧
    ((s.die 0).lost = false → x.exists_ = true → x.ownsCore c = true → ∃ u, exec (.registerWrite m (.mailbox p c off) v) s = .next u ∧ u.mem = s.mem ∧ u.tasks = s.tasks ∧
      (∀ d, d ≠ c → u.core d = s.core d) ∧
      let z := (s.core c).mbox
      (z.busy = true → off < 0x18 → (u.core c).mbox = z) ∧
      (z.busy = false → (off = 0 → (u.core c).mbox = { z with handle := v.setWidth 20 }) ∧ (off = 8 → (u.core c).mbox = { z with arg := v }) ∧
        (off = 0x10 → (u.core c).mbox = if v.getLsbD 0 then { z with busy := true, check := 0 } else z)) ∧
      (off = 0x18 → (u.core c).mbox = { z with
        done := z.done && !v.getLsbD 1, fault := z.fault && !v.getLsbD 2, fcause := if v.getLsbD 2 then 0 else z.fcause })) ∧
    ((s.die 0).lost = false → 1 ≤ q → q ≤ 8 → o < 259 → ∃ u, exec (.registerWrite m (.msix q (16 * o + 8)) v) s = .next u ∧
      (v.getLsbD 32 = true → o ∉ (u.part (q - 1)).msixOpen ∧ u.outbox = s.outbox) ∧
      (v.getLsbD 32 = false → o ∈ (u.part (q - 1)).msixOpen ∧ o ∉ (u.part (q - 1)).msixPending ∧
        u.outbox = s.outbox ++ if (s.part (q - 1)).msixPending.contains o then [.msix q o] else []))

/-- R316, R475, R478 to R481, R484, R492 to R496: the rest of the management space. Fuses are only raised; a decoder is checked, emptied and then
enabled, and host accesses go through it; NVMe slots are handed over and taken back; the boot ROM's first failing check leaves the device in
recovery; resources train on their own; the reset of a function ends its copies and gives up what it owned.
The model's own: the reset contents of the MSI-X tables and the steps of the NVMe slots (logs 7 and 50). -/
def Obligations.ManagementRegisters : Prop :=
  ∀ (s : State) (m j pf req addr pa : Nat) (v w challenge : Word) (img : List Byte) (data : List Byte) (r : NvmeReq) (side : UcieSide) (ok : Bool),
    1 ≤ m → m ≤ 3 → (m = 1 → (s.die 0).lost = false) →
    let mg := s.mgmt
    let slot := Tab.get 0 mg.nvme j
    let taken := BitVec.ofNat 64 (bitsAt w 14 34 * 2 ^ 14) ||| (if bitsAt w 14 34 = 0 then (0 : Word) else 1#64 <<< 63)
    (s.mown.owner = m →
      exec (.svnrRaise m) s = .next (if mg.recov = false ∧ mg.fsvn < mg.rsvn then { s with mgmt := { mg with raising := true } } else s) ∧
      exec (.registerWrite m (.mgmt 0x18) 1) s = exec (.svnrRaise m) s ∧
      (mg.recov = false → exec (.registerWrite m (.mgmt 0x20) v) s =
        .next (if 1000 ≤ bitsAt v 0 12 ∧ bitsAt v 0 12 ≤ 3200 then { s with mgmt := { mg with plim := bitsAt v 0 12 } } else s)) ∧
      (j < 8 → mg.recov = false →
        (s.hdmLive.contains j = true → exec (.hdmEnable m j v) s = .next s) ∧
        (s.hdmLive.contains j = false → s.hdmOk j v (s.hdm j).2 = true → exec (.hdmEnable m j v) s = .next { s with mgmt := { mg with
          hdm0 := Tab.put mg.hdm0 j (BitVec.ofNat 64 (hdmPart v * 2 ^ 56 + hdmBase v)), emptying := mg.emptying ++ [j] } }) ∧
        (s.hdmLive.contains j = false → s.hdmOk j v (s.hdm j).2 = false → exec (.hdmEnable m j v) s = .next { s with mgmt := { mg with
          hdm0 := Tab.put mg.hdm0 j (BitVec.ofNat 64 (hdmPart v * 2 ^ 56 + hdmBase v) ||| 1#64 <<< 62) } }) ∧
        exec (.hdmDisable m j) s = .next { s with mgmt := { mg with
          hdm0 := Tab.put mg.hdm0 j ((s.hdm j).1 &&& ~~~(1#64 <<< 63)), emptying := mg.emptying.filter (· != j) } } ∧
        (hdmEn v = true → exec (.registerWrite m (.mgmt (0x400 + 16 * j)) v) s = exec (.hdmEnable m j v) s) ∧
        (s.hdmLive.contains j = true → hdmEn v = false → exec (.registerWrite m (.mgmt (0x400 + 16 * j)) v) s = exec (.hdmDisable m j) s) ∧
        (s.hdmLive.contains j = true → exec (.registerWrite m (.mgmt (0x408 + 16 * j)) v) s = .next s) ∧
        (slot.getLsbD 63 = true → exec (.nvmeSlotEnable m j w) s = .next s) ∧
        (slot.getLsbD 63 = false → exec (.nvmeSlotEnable m j w) s = .next { s with mgmt := { mg with nvme := Tab.put mg.nvme j taken } }) ∧
        (w.getLsbD 63 = true → exec (.registerWrite m (.mgmt (0x500 + 8 * j)) w) s = exec (.nvmeSlotEnable m j w) s) ∧
        (w.getLsbD 63 = false → slot.getLsbD 63 = true → exec (.registerWrite m (.mgmt (0x500 + 8 * j)) w) s = exec (.nvmeSlotDisable m j) s) ∧
        ∃ u, exec (.nvmeSlotDisable m j) s = .next u ∧ Tab.get 0 u.mgmt.nvme j = slot &&& ~~~(3#64 <<< 62) ∧ (∀ r ∈ u.nvmeReqs, r.slot ≠ j) ∧
          (∀ r ∈ s.nvmeReqs, r.slot ≠ j → r ∈ u.nvmeReqs) ∧ u.mem = s.mem ∧ u.cores = s.cores)) ∧
    exec .fuseRaiseComplete s = .next (if mg.raising then { s with
      mgmt := { mg with raising := false, fsvn := max mg.fsvn mg.rsvn }, fuses := { s.fuses with svn := max s.fuses.svn mg.rsvn } } else s) ∧
    (mg.emptying.contains j = false ∨ s.hdmBusy j = true → exec (.hdmSlicesEmptied j) s = .next s) ∧
    (mg.emptying.contains j = true → s.hdmBusy j = false → ∃ u, exec (.hdmSlicesEmptied j) s = .next u ∧ (u.hdm j).1 = (s.hdm j).1 ||| 1#64 <<< 63 ∧
      u.mgmt.emptying = mg.emptying.filter (· != j) ∧ u.cores = s.cores ∧ u.tasks = s.tasks) ∧
    (∀ i, (s.hdm i).1.getLsbD 63 = true → i < 8 → (∀ k, k < i → hdmEn (s.hdm k).1 = false) → hdmBase (s.hdm i).1 ≤ addr →
      addr < hdmBase (s.hdm i).1 + hdmCount (s.hdm i).2 * 2 ^ 30 →
      let slice := hdmFirst (s.hdm i).2 + (addr - hdmBase (s.hdm i).1) / 2 ^ 30
      s.hdmPa addr = some (slice / 48 * 0xC00000000 + slice % 48 * 2 ^ 30 + (addr - hdmBase (s.hdm i).1) % 2 ^ 30)) ∧
    ((s.link ≠ .cxl ∨ s.hdmPa addr = none → exec (.hostCxlMemAccess addr none) s = .next { s with outbox := s.outbox ++ [.cxlError] } ∧
        exec (.hostCxlMemAccess addr (some data)) s = .next { s with outbox := s.outbox ++ [.cxlError] }) ∧
      (s.link = .cxl → s.hdmPa addr = some pa → s.present pa = true →
        (∃ u, exec (.hostCxlMemAccess addr none) s = .next u ∧
          u.outbox = s.outbox ++ [.cxlData (s.mem.read (pa / 64 * 64) 64) (s.memPois.contains (pa / 64))] ∧ u.mem = s.mem ∧ u.memPois = s.memPois) ∧
        (pa % 64 + data.length ≤ 64 → ∃ u, exec (.hostCxlMemAccess addr (some data)) s = .next u ∧ u.mem = s.mem.write pa data ∧ u.outbox = s.outbox ∧
          (data.length = 64 → pa / 64 ∉ u.memPois) ∧ ∀ l, l ≠ pa / 64 → (l ∈ u.memPois ↔ l ∈ s.memPois)))) ∧
    (j < 8 → slot.getLsbD 63 = true → slot.getLsbD 62 = false →
      ((s.die 0).lost = false →
        exec (.nvmeInitialisationEnd j true) s = .next { s with mgmt := { mg with nvme := Tab.put mg.nvme j (slot ||| 1#64 <<< 62) } }) ∧
      ((s.die 0).lost = true → exec (.nvmeInitialisationEnd j true) s = exec (.nvmeInitialisationEnd j false) s) ∧
      exec (.nvmeInitialisationEnd j false) s =
        .next { s with mgmt := { mg with nvme := Tab.put mg.nvme j ((slot &&& ~~~(1#64 <<< 63)) ||| 1#64 <<< 61) } }) ∧
    (8 ≤ j ∨ slot.getLsbD 63 = false ∨ slot.getLsbD 62 = true → exec (.nvmeInitialisationEnd j ok) s = .next s) ∧
    exec (.controllerFatalStatus j) s = .next (if slot.getLsbD 63 then { s with mgmt := { mg with nvme := Tab.put mg.nvme j (slot ||| 1#64 <<< 61) } } else s) ∧
    (s.nvmeReqs.find? (fun q => q.id == req) = none → exec (.nvmeCompletion req ok) s = .next s ∧ exec (.nvmeTimeout req) s = .next s) ∧
    (s.nvmeReqs.find? (fun q => q.id == req) = some r →
      let left := s.nvmeReqs.filter (· != r)
      let failed := { s with nvmeReqs := left, promoting := s.promoting.filter fun x => !(x.part == r.part && x.page == r.page) }.countError 0 11
      exec (.nvmeCompletion req true) s = .next { s with nvmeReqs := left } ∧ exec (.nvmeCompletion req false) s = .next failed ∧
        exec (.nvmeTimeout req) s = .next failed) ∧
    (s.fwReady = true → exec (.bootRomStart img) s = .next s) ∧
    (s.fwReady = false → ∃ u, exec (.bootRomStart img) s = .next u ∧ u.outbox = s.outbox ++ [.ready 0] ∧ u.fwReady = (bootCheck s.fuses img == 0) ∧
      u.mgmt.recov = (bootCheck s.fuses img != 0) ∧ u.mgmt.step = bootCheck s.fuses img ∧ u.mgmt.fsvn = s.fuses.svn ∧ u.fuses = s.fuses ∧
      (bootCheck s.fuses img = 0 → u.mgmt.rsvn = ofBytes ((img.drop 8).take 4)) ∧ u.cores = s.cores ∧ u.parts = s.parts ∧ u.mem = s.mem) ∧
    (bootCheck s.fuses img = 0 → s.fuses.svn ≤ ofBytes ((img.drop 8).take 4) ∧
      Config.rsaVerify ((img.drop 0x40).take 0x180) (img.take 0x200) ((img.drop 0x200).take 0x180) = true ∧
      Config.slhVerify ((img.drop 0x1C0).take 48) (img.take 0x200) ((img.drop 0x380).take 16224) = true) ∧
    (side.die ≠ side.peer → ∃ u, exec (.resourceTraining (.ucie side) ok) s = .next u ∧
      (u.ucie side).up = (ok && !(s.die side.die).lost && !(s.die side.peer).lost) ∧ u.mem = s.mem ∧ u.cores = s.cores) ∧
    (∃ u, exec (.resourceTraining (.hbm j) ok) s = .next u ∧ (j ∈ u.hbmUp ↔ ok = true ∧ j < 8 ∧ (s.die (j / 2)).lost = false) ∧
      (∀ i, i ≠ j → (i ∈ u.hbmUp ↔ i ∈ s.hbmUp)) ∧ u.mem = s.mem) ∧
    (∃ u, exec (.resourceTraining (.tunar j) ok) s = .next u ∧
      u.tunar j = { s.tunar j with trained := ok && j < 32 && !(s.die (j / 8)).lost } ∧ u.mem = s.mem) ∧
    exec (.identityChallenge challenge) s = .next { s with outbox := s.outbox ++ [.identity (Config.identityReport challenge)] } ∧
    ((s.die 0).lost = false → ∃ u, exec (.hostFunctionReset pf) s = .next u ∧ u.mem = s.mem ∧ u.tasks = s.tasks ∧
      u.mown.owner = (if pf = 0 ∧ s.mown.owner = 1 then 0 else s.mown.owner) ∧
      (1 ≤ pf → pf ≤ 8 → u.part (pf - 1) = { s.part (pf - 1) with hwbase := 0, hwsize := 0, msix := [], msixOpen := [], msixPending := [] }) ∧
      ∀ c id q, s.cmd? c id = some q → ∃ z, u.cmd? c id = some z ∧ z.line = q.line ∧
        ∀ tag a b cr od oc, q.word = .cpyh tag a b cr od oc → z.res = some (q.res.getD (1, reasonTier, 0)))

/-! ## Reset, steps and words -/

/-- R4, R18, R31, R370, R441, R442, R463, R488, R492: what power-on reset leaves. Every core is held in reset with its counters and its mailbox at 0 and nothing
resident; no partition, task, version, route or request exists; no master owns the device; PLIM is 3,200 W. The model's own: the turn is
idle (log 3), and memory lists nothing, so that every byte reads 0 (log 5). -/
def Obligations.ResetState : Prop :=
  let s := State.reset
  core.reset = s ∧ (∀ c, (s.core c).heldReset = true ∧ (s.core c).isolated = false ∧ (s.core c).cyc = 0 ∧ (s.core c).ctxs = [] ∧ (s.core c).active = none ∧
    (s.core c).mbox = Mailbox.zero ∧ (s.core c).imem = [] ∧ (s.core c).cmds = [] ∧ ∀ i, Tab.get 0 (s.core c).perf i = 0) ∧
  (∀ p, (s.part p).exists_ = false ∧ (s.part p).busy = false ∧ (s.part p).hwbase = 0 ∧ (s.part p).hwsize = 0 ∧ ∀ i, Tab.get 0 (s.part p).exc i = 0) ∧
  (∀ d, (s.die d).lost = false ∧ (s.die d).qclk = 0 ∧ (s.die d).events = [] ∧ ∀ i, Tab.get 0 (s.die d).errors i = 0 ∧ Tab.get 0 (s.die d).monitors i = 0) ∧
  (∀ dev, Tab.get 0 s.routes dev = 0) ∧ s.tasks = [] ∧ s.versions = [] ∧ s.streams = [] ∧ s.responders = [] ∧ s.homeMsgs = [] ∧ s.answers = [] ∧ s.ucieHeld = [] ∧ s.memPois = [] ∧ s.mown = ⟨0, 0, 0⟩ ∧ s.mgmt.plim = 3200 ∧
  (∀ j, Tab.get 0 s.mgmt.hdm0 j = 0 ∧ Tab.get 0 s.mgmt.hdm1 j = 0 ∧ Tab.get 0 s.mgmt.nvme j = 0) ∧ s.fwReady = false ∧ s.link = .none ∧
  (∀ a, s.mem.get a = 0) ∧ Memory.wf s.mem = true ∧ s.turnOk

/-- R18, R26, R134, R136, R154, R155, R347, R396, R426, R427, R472: a step runs the decoded instruction. The sequencer's step runs what the word at its pc
decodes to, with the row that a register's value selects; a word that decodes to nothing, and a pc beyond the section, raise ILLOP. An
engine's step runs the words at its entry's place, or fails its entry with ENGILL. A command's, an event's and the inbox's step runs its
instruction. A word that waits for a port's answer, or for its image, runs
nothing; a word that had stalled at a fill that cannot be had aborts its task once it has issued. A withheld issue slot is counted and runs nothing. Every step then counts waits at WFILL, passes the time, and takes the next
turn.
The model's own: the step in which a word counts as issued, and which parts of a step are one (logs 16, 17 and 72). -/
def Obligations.StepRunsInstruction : Prop :=
  ∀ (s : State) (c k id o : Nat) (x : Ctx) (l : Loaded) (w : Half) (ws : List Half) (i : Instr) (e : Eng) (n : Entry) (m : TuCmd) (ev : Event) (evs : List Event),
    let ends := fun (r : Out) => Out.settle (Out.countWfill r s) s
    (SqTurn s c k x → x.awaitsPort = false → x.pend = none → (s.core c).loaded x.image = some l →
      (l.sq[x.pc.toNat]? = some w → decodeSq w = some i →
        (∀ t, exec (refine x i) s = .next t → step s = ends (.next (s.doomSq (s.countIssue t c k (refine x i)) c k (refine x i)))) ∧
        (∀ r, exec (refine x i) s = .fault r → step s = .fault r)) ∧
      (l.sq[x.pc.toNat]? = some w → decodeSq w = none → step s = ends (.next (s.trap c k 1 (w.setWidth 64)))) ∧
      (l.sq[x.pc.toNat]? = none → step s = ends (.next (s.trap c k 1 (x.pc.setWidth 64))))) ∧
    (SqTurn s c k x → x.awaitsPort = true ∨ (x.pend = none ∧ (s.core c).loaded x.image = none) → step s = ends (.next s)) ∧
    (∀ (t : State) y a q, t.ctx? c k = some y → y.doomed.find? (fun d => d.1.isNone) = some (a, q) →
      s.doomSq t c k i = if s.sqIssued t c k i then t.abort c k q else t) ∧
    (∀ (t : State) y, t.ctx? c k = some y → y.doomed.find? (fun d => d.1.isNone) = none → s.doomSq t c k i = t) ∧
    (∀ q, SqTurn s c k x → x.awaitsPort = false → x.pend = some q → step s = ends (.next (s.deliverPend c k x q))) ∧
    (∀ d a b g, refine x (.rlaunchStart d a b g) = (if bitsAt (x.reg b) 12 2 = 1 then .rlaunchUpdate d a b g
        else if bitsAt (x.reg b) 12 2 = 2 then .rlaunchStop d a b g else .rlaunchStart d a b g) ∧
      refine x (.rcvrVer d a b g) = (if a = 0 ∧ x.reg b = 1 then .rcvrHand d b g else .rcvrVer d a b g) ∧
      refine x (.trimSync d a b g) = (if x.reg b = 2 then .trimForce d a b g else .trimSync d a b g)) ∧
    (s.wordTurn e = some (c, n, x) → s.entryWords c x e n = w :: ws → (e ≠ .tu → s.slotWithheld c = false) →
      (∀ len t, decodeEngine e w ws = .ok i len → exec i s = .next t →
        step s = ends (.next (if t.wordIssued e n then t.countPerf c (1 + (engIdx e).val) else t))) ∧
      (decodeEngine e w ws = .bad o → step s = ends (.next (s.failEntry c e
        ⟨9, BitVec.ofNat 64 (n.start * 2 ^ 32 + (engIdx e).val * 2 ^ 30 + (n.pos + o) % 4096)⟩)))) ∧
    (s.turn = .ve c ∨ s.turn = .me c → s.slotWithheld c = true → step s = ends (.next (s.countPerf c 4))) ∧
    (s.turn = .cmd c id → s.cmd? c id = some m → step s = ends (exec m.word s)) ∧
    (s.turn = .event ev → Turn.slot s.turn = none → step s = ends (runEvent ev s)) ∧
    (s.turn = .idle → s.inbox = ev :: evs → step s = ends (runEvent ev { s with inbox := evs, turn := .event ev })) ∧
    (s.turn = .idle → s.inbox = [] → step s = ends (.next s)) ∧
    ∀ t, ∃ u : State, u.tick = s.tick + 1 ∧ u.turnOk ∧ ends (.next t) = .next u

/-- R137 to R153, R327: words written out from the tables of the encodings decode to the instructions that they stand for. -/
def Obligations.DecodeWords : Prop :=
  decodeSq 0x38200080 = some (.movi 1 16 0) ∧ decodeSq 0x74A62010 = some (.ldN32 5 6 2 2 0) ∧ decodeSq 0x986A2218 = some (.acas 3 10 4 4 0) ∧
  decodeSq 0xC4C84800 = some (.publ 6 8 9 0) ∧ decodeSq 0xFC040028 = some (.trap 5 0) ∧
  decodeVe 0xB430E612 [] = .ok (.vldx 6 7 12 1 2) 1 ∧ decodeMe 0x9C0A6000 [0x3A000000] = .ok (.msamp 5 6 7 8) 2 ∧
  decodeTu 0x045CEF41 [] = .ok (.cpy 5 25 27 26 false 1) 1

/-- R134, R137, R138, R145, R147 to R155, R253, R327: decoding and encoding agree. For every well-formed word, with every operand at every value that its
encoding admits, the words of its encoding decode in its stream to it, and take their own number of words, whatever follows them; a DEP is
followed by a word that is not one. Rows that differ from another by a register's value only are that row's words. -/
def Obligations.DecodeEncode : Prop :=
  ∀ (i : Instr) (rest : List Half), i.wf = true → i.isEvent = false → i.wordRow = i →
    ((∃ t0 t1 t2, i = .dep t0 t1 t2) → ∃ w l, rest = w :: l ∧ isDep w = false) →
    decodeStream i.stream (encode i ++ rest) = .ok i (encode i).length

/-- R18, R50, R57: every step keeps the turn one that the device offers, from every state; ticks count steps. -/
def Obligations.TurnOffered : Prop :=
  ∀ s t : State, step s = .next t → t.turnOk ∧ t.tick = s.tick + 1

/-- R18, R134, R155: no step ends the device. A word of the SQ at its turn, an engine's word at its own, an accepted command's word and every event have a next
state; so a step has one, whenever the accepted commands are words of the TU. -/
def Obligations.EveryStepGoesOn : Prop :=
  (∀ (s : State) (c k : Nat) (x : Ctx) (i : Instr), SqTurn s c k x → i.stream = none → i.isEvent = false → Out.goesOn (exec i s)) ∧
  (∀ (s : State) (e : Eng) (c : Nat) (n : Entry) (x : Ctx) (i : Instr), s.wordTurn e = some (c, n, x) → i.stream = some e → Out.goesOn (exec i s)) ∧
  (∀ (s : State) (c id : Nat) (m : TuCmd), s.turn = .cmd c id → s.cmd? c id = some m → m.word.stream = some .tu → Out.goesOn (exec m.word s)) ∧
  (∀ (s : State) (i : Instr), i.isEvent = true → Out.goesOn (exec i s)) ∧
  ∀ s : State, (∀ c id m, s.cmd? c id = some m → m.word.stream = some .tu) → Out.goesOn (step s)

/-- R106, R110, R205, R292, R295: what storing leaves. Every store of the device keeps memory in its canonical form and changes the bytes that it names and
no other; a VE word that computes changes its core's registers and nothing in memory, in other cores, or in the tasks. -/
def Obligations.StoresAndFrames : Prop :=
  (∀ (m : Memory) (a : Nat) (bs : List Byte), Memory.wf m = true → Memory.wf (m.write a bs) = true ∧
    ∀ j, (m.write a bs).get j = if a ≤ j ∧ j < a + bs.length then bs.getD (j - a) 0 else m.get j) ∧
  (∀ (s : State) (t : Target) (bs : List Byte), Memory.wf s.mem = true → Memory.wf (s.writeAt t bs).mem = true ∧ (s.poisonAt t).mem = s.mem ∧
    ((∀ pa, t ≠ .mem pa ∧ t ≠ .host pa) → (s.writeAt t bs).mem = s.mem) ∧ ∀ pa, t = .mem pa ∨ t = .host pa → (s.writeAt t bs).mem = s.mem.write pa bs) ∧
  (∀ (s : State) (n src dst p at' die : Nat) (x : Cached) (e : Word), Memory.wf s.mem = true → Memory.wf (s.copyRange src n dst).mem = true ∧
    Memory.wf (s.setLeaf p at' x e).mem = true ∧ Memory.wf (s.clearDie die).mem = true ∧ Memory.wf (s.create p).mem = true ∧ Memory.wf s.powerOn.mem = true) ∧
  ∀ (s : State) (c : Nat) (n : Entry) (x : Ctx) (w : VEnv), (s.veDone c n x w).mem = s.mem ∧ (s.veDone c n x w).tasks = s.tasks ∧
    (∀ d, d ≠ c → (s.veDone c n x w).core d = s.core d) ∧
    ∀ y, s.ctx? c n.slot = some y → ∃ z, (s.veDone c n x w).ctx? c n.slot = some z ∧ z.a = y.a ∧ z.p = y.p ∧ z.pc = y.pc ∧ z.l = y.l ∧ z.win = y.win ∧
      ∀ k, k ≠ n.slot → (s.veDone c n x w).ctx? c k = s.ctx? c k
end

