-- ==== Sys2Proof/Laws/Tab.lean ====
section
/-! SUPPORT. Sparse tables: reading after writing and removing, and the order of the keys. -/

namespace Sys2Proof.Machine

variable {α : Type}

@[simp] theorem Tab.find_nil (k : Nat) : Tab.find ([] : Tab α) k = none := rfl
@[simp] theorem Tab.get_nil (d : α) (k : Nat) : Tab.get d [] k = d := rfl

/-- Writing a key is read back, and every other key is left alone. -/
theorem Tab.find_put (t : Tab α) (k j : Nat) (v : α) : Tab.find (Tab.put t k v) j = if k = j then some v else Tab.find t j := by
  induction t with
  | nil => simp [Tab.put, Tab.find]
  | cons e l ih =>
    obtain ⟨i, w⟩ := e
    by_cases h : i = k
    · subst h; by_cases hj : i = j <;> simp [Tab.put, Tab.find, hj]
    · by_cases hl : k < i
      · simp only [Tab.put, h, hl, if_true, if_false, Tab.find]
      · by_cases hi : i = j
        · subst hi; simp [Tab.put, Tab.find, h, hl, Ne.symm h]
        · simp [Tab.put, Tab.find, h, hl, hi, ih]

@[simp] theorem Tab.find_put_self (t : Tab α) (k : Nat) (v : α) : Tab.find (Tab.put t k v) k = some v := by simp [Tab.find_put]

theorem Tab.find_put_of_ne (t : Tab α) {k j : Nat} (v : α) (h : k ≠ j) : Tab.find (Tab.put t k v) j = Tab.find t j := by
  simp [Tab.find_put, h]

theorem Tab.get_put (d : α) (t : Tab α) (k j : Nat) (v : α) : Tab.get d (Tab.put t k v) j = if k = j then v else Tab.get d t j := by
  unfold Tab.get; rw [Tab.find_put]; split <;> rfl

@[simp] theorem Tab.get_put_self (d : α) (t : Tab α) (k : Nat) (v : α) : Tab.get d (Tab.put t k v) k = v := by simp [Tab.get_put]

/-- A removed key is absent, and every other key is left alone. -/
theorem Tab.find_del (t : Tab α) (k j : Nat) : Tab.find (Tab.del t k) j = if k = j then none else Tab.find t j := by
  induction t with
  | nil => simp [Tab.del, Tab.find]
  | cons e l ih =>
    obtain ⟨i, w⟩ := e
    by_cases h : i = k
    · subst h; simp only [Tab.del, if_true, Tab.find, ih]; split <;> rfl
    · by_cases hi : i = j
      · subst hi; simp [Tab.del, Tab.find, h, Ne.symm h]
      · simp [Tab.del, Tab.find, h, hi, ih]

theorem Tab.get_del (d : α) (t : Tab α) (k j : Nat) : Tab.get d (Tab.del t k) j = if k = j then d else Tab.get d t j := by
  unfold Tab.get; rw [Tab.find_del]; split <;> rfl

theorem Tab.mem_put_key (t : Tab α) (k : Nat) (v : α) {p : Nat × α} (h : p ∈ Tab.put t k v) : p = (k, v) ∨ p ∈ t := by
  induction t with
  | nil => exact .inl (by simpa [Tab.put] using h)
  | cons e l ih =>
    obtain ⟨i, w⟩ := e
    unfold Tab.put at h
    split at h
    · rcases List.mem_cons.mp h with h | h
      · exact .inl h
      · exact .inr (List.mem_cons_of_mem _ h)
    · split at h
      · rcases List.mem_cons.mp h with h | h
        · exact .inl h
        · exact .inr h
      · rcases List.mem_cons.mp h with h | h
        · exact .inr (h ▸ List.mem_cons_self ..)
        · exact (ih h).imp id (List.mem_cons_of_mem _)

theorem Tab.mem_del (t : Tab α) (k : Nat) {p : Nat × α} (h : p ∈ Tab.del t k) : p ∈ t := by
  induction t with
  | nil => exact h
  | cons e l ih =>
    obtain ⟨i, w⟩ := e
    unfold Tab.del at h
    split at h
    · exact List.mem_cons_of_mem _ (ih h)
    · rcases List.mem_cons.mp h with h | h
      · exact h ▸ List.mem_cons_self ..
      · exact List.mem_cons_of_mem _ (ih h)

/-- The keys of a table rise. -/
abbrev Tab.Rising (t : Tab α) : Prop := t.Pairwise fun p q => p.1 < q.1

theorem Tab.rising_put (t : Tab α) (k : Nat) (v : α) (h : Tab.Rising t) : Tab.Rising (Tab.put t k v) := by
  induction t with
  | nil => simp [Tab.put]
  | cons e l ih =>
    obtain ⟨i, w⟩ := e
    obtain ⟨hi, hl⟩ := List.pairwise_cons.mp h
    unfold Tab.put
    split
    · rename_i hk
      subst hk
      exact List.pairwise_cons.mpr ⟨hi, hl⟩
    · split
      · rename_i hk
        exact List.pairwise_cons.mpr ⟨fun p hp => by
          rcases List.mem_cons.mp hp with rfl | hp
          · exact hk
          · exact Nat.lt_trans hk (hi p hp), h⟩
      · rename_i hne hlt
        refine List.pairwise_cons.mpr ⟨fun p hp => ?_, ih hl⟩
        rcases Tab.mem_put_key l k v hp with rfl | hp
        · exact Nat.lt_of_le_of_ne (Nat.le_of_not_lt hlt) hne
        · exact hi p hp

theorem Tab.rising_del (t : Tab α) (k : Nat) (h : Tab.Rising t) : Tab.Rising (Tab.del t k) := by
  induction t with
  | nil => exact h
  | cons e l ih =>
    obtain ⟨i, w⟩ := e
    obtain ⟨hi, hl⟩ := List.pairwise_cons.mp h
    unfold Tab.del
    split
    · exact ih hl
    · exact List.pairwise_cons.mpr ⟨fun p hp => hi p (Tab.mem_del l k hp), ih hl⟩

end Sys2Proof.Machine
end

