-- ==== Sys2Proof/Laws/Memory.lean ====
section
/-! SUPPORT. Memory: reading after writing, and the canonical form that every operation keeps. -/

namespace Sys2Proof.Machine

@[simp] theorem Memory.get_nil (a : Nat) : Memory.get [] a = 0 := rfl

theorem Memory.get_set (m : Memory) (a b : Nat) (v : Byte) : (m.set a v).get b = if a = b then v else m.get b := by
  unfold Memory.set Memory.get
  split
  · rename_i h; rw [Tab.get_del]; simp [h]
  · rw [Tab.get_put]

@[simp] theorem Memory.get_set_self (m : Memory) (a : Nat) (v : Byte) : (m.set a v).get a = v := by simp [Memory.get_set]

/-- A write leaves every byte outside it alone. -/
theorem Memory.get_write_outside (m : Memory) (a b : Nat) (bs : List Byte) (h : b < a ∨ a + bs.length ≤ b) :
    (m.write a bs).get b = m.get b := by
  induction bs generalizing m a with
  | nil => rfl
  | cons v l ih =>
    simp only [List.length_cons] at h
    rw [Memory.write, ih _ _ (by omega), Memory.get_set, if_neg (by omega)]

/-- A write is read back. -/
theorem Memory.get_write_inside (m : Memory) (a i : Nat) (bs : List Byte) (h : i < bs.length) :
    (m.write a bs).get (a + i) = bs.getD i 0 := by
  induction bs generalizing m a i with
  | nil => simp at h
  | cons v l ih =>
    rw [Memory.write]
    cases i with
    | zero => rw [Memory.get_write_outside _ _ _ _ (by omega)]; simp
    | succ j =>
      have := ih (m.set a v) (a + 1) j (by simpa using h)
      simpa [Nat.add_assoc, Nat.add_comm 1 j] using this

theorem Memory.read_write (m : Memory) (a : Nat) (bs : List Byte) : (m.write a bs).read a bs.length = bs := by
  apply List.ext_getElem
  · simp [Memory.read]
  · intro i h1 h2
    simp only [Memory.read, List.getElem_map, List.getElem_range]
    rw [Memory.get_write_inside _ _ _ _ h2]
    simp [List.getD, h2]

/-- The canonical form: rising addresses, and no listed zero. -/
theorem Memory.wf_iff (m : Memory) : m.wf = true ↔ Tab.Rising m ∧ ∀ p ∈ m, p.2 ≠ 0 := by
  induction m with
  | nil => simp [Memory.wf]
  | cons e l ih =>
    obtain ⟨a, v⟩ := e
    cases l with
    | nil => simp [Memory.wf]
    | cons f l =>
      obtain ⟨b, w⟩ := f
      simp only [Memory.wf, Bool.and_eq_true, bne_iff_ne, ne_eq, decide_eq_true_eq, ih]
      constructor
      · rintro ⟨⟨hv, hab⟩, hr, hz⟩
        refine ⟨List.pairwise_cons.mpr ⟨fun p hp => ?_, hr⟩, fun p hp => ?_⟩
        · rcases List.mem_cons.mp hp with rfl | hp
          · exact hab
          · exact Nat.lt_trans hab ((List.pairwise_cons.mp hr).1 p hp)
        · rcases List.mem_cons.mp hp with rfl | hp
          · exact hv
          · exact hz p hp
      · rintro ⟨hr, hz⟩
        obtain ⟨h1, h2⟩ := List.pairwise_cons.mp hr
        exact ⟨⟨hz _ (List.mem_cons_self ..), h1 _ (List.mem_cons_self ..)⟩, h2, fun p hp => hz p (List.mem_cons_of_mem _ hp)⟩

theorem Memory.wf_set (m : Memory) (a : Nat) (v : Byte) (h : m.wf = true) : (m.set a v).wf = true := by
  obtain ⟨hr, hz⟩ := (Memory.wf_iff m).mp h
  refine (Memory.wf_iff _).mpr ?_
  unfold Memory.set
  split
  · exact ⟨Tab.rising_del m a hr, fun p hp => hz p (Tab.mem_del m a hp)⟩
  · rename_i hv
    exact ⟨Tab.rising_put m a v hr, fun p hp => (Tab.mem_put_key m a v hp).elim (fun e => e ▸ hv) (hz p)⟩

/-- Every write keeps the canonical form. -/
theorem Memory.wf_write (m : Memory) (a : Nat) (bs : List Byte) (h : m.wf = true) : (m.write a bs).wf = true := by
  induction bs generalizing m a with
  | nil => exact h
  | cons v l ih => exact ih _ _ (Memory.wf_set m a v h)

theorem Memory.wf_put (m : Memory) (a : Nat) (v : Byte) (hv : v ≠ 0) (h : m.wf = true) : Memory.wf (Tab.put m a v) = true := by
  have := Memory.wf_set m a v h
  rwa [Memory.set, if_neg hv] at this

/-- Dropping bytes keeps it: the loss of a die, power-on, the clearing of a page table. -/
theorem Memory.wf_filter (m : Memory) (f : Host.Cell → Bool) (h : m.wf = true) : Memory.wf (m.filter f) = true := by
  obtain ⟨hr, hz⟩ := (Memory.wf_iff m).mp h
  exact (Memory.wf_iff _).mpr ⟨hr.filter f, fun p hp => hz p (List.mem_filter.mp hp).1⟩

/-- A page move keeps it. -/
theorem Memory.wf_replaceKeys (m : Memory) (lo n dst : Nat) (h : m.wf = true) :
    Memory.wf (replaceKeys m (moveKeys m lo n dst) dst n) = true := by
  have hz : ∀ p ∈ moveKeys m lo n dst, p.2 ≠ 0 := by
    intro p hp
    obtain ⟨⟨i, v⟩, hm, he⟩ := List.mem_filterMap.mp hp
    dsimp only at he
    split at he
    · cases he; exact ((Memory.wf_iff m).mp h).2 (i, v) hm
    · cases he
  have hf := Memory.wf_filter m (fun c => !(decide (dst ≤ c.1) && decide (c.1 < dst + n))) h
  unfold replaceKeys
  generalize moveKeys m lo n dst = l at hz
  generalize List.filter _ m = b at hf
  induction l generalizing b with
  | nil => exact hf
  | cons e l ih =>
    exact ih (fun p hp => hz p (List.mem_cons_of_mem _ hp)) _ (Memory.wf_put b e.1 e.2 (hz e (List.mem_cons_self ..)) hf)

theorem State.reset_mem_wf : State.reset.mem.wf = true := rfl

end Sys2Proof.Machine
end

