-- ==== Sys2Proof/Laws/State.lean ====
section
/-! SUPPORT. What each update of the state leaves: one lemma per field per update, by rfl. -/

namespace Sys2Proof.Machine


/-! ## Cores and contexts -/

@[simp] theorem State.setCore_tick (s : State) (c : Nat) (r : Core) : (s.setCore c r).tick = s.tick := rfl
@[simp] theorem State.setCore_turn (s : State) (c : Nat) (r : Core) : (s.setCore c r).turn = s.turn := rfl
@[simp] theorem State.setCore_inbox (s : State) (c : Nat) (r : Core) : (s.setCore c r).inbox = s.inbox := rfl
@[simp] theorem State.setCore_outbox (s : State) (c : Nat) (r : Core) : (s.setCore c r).outbox = s.outbox := rfl
@[simp] theorem State.setCore_mem (s : State) (c : Nat) (r : Core) : (s.setCore c r).mem = s.mem := rfl
@[simp] theorem State.setCore_memPois (s : State) (c : Nat) (r : Core) : (s.setCore c r).memPois = s.memPois := rfl
@[simp] theorem State.setCore_stamps (s : State) (c : Nat) (r : Core) : (s.setCore c r).stamps = s.stamps := rfl
@[simp] theorem State.setCore_promoting (s : State) (c : Nat) (r : Core) : (s.setCore c r).promoting = s.promoting := rfl
@[simp] theorem State.setCore_parts (s : State) (c : Nat) (r : Core) : (s.setCore c r).parts = s.parts := rfl
@[simp] theorem State.setCore_dies (s : State) (c : Nat) (r : Core) : (s.setCore c r).dies = s.dies := rfl
@[simp] theorem State.setCore_tasks (s : State) (c : Nat) (r : Core) : (s.setCore c r).tasks = s.tasks := rfl
@[simp] theorem State.setCore_flats (s : State) (c : Nat) (r : Core) : (s.setCore c r).flats = s.flats := rfl
@[simp] theorem State.setCore_versions (s : State) (c : Nat) (r : Core) : (s.setCore c r).versions = s.versions := rfl
@[simp] theorem State.setCore_routes (s : State) (c : Nat) (r : Core) : (s.setCore c r).routes = s.routes := rfl
@[simp] theorem State.setCore_streams (s : State) (c : Nat) (r : Core) : (s.setCore c r).streams = s.streams := rfl
@[simp] theorem State.setCore_responders (s : State) (c : Nat) (r : Core) : (s.setCore c r).responders = s.responders := rfl
@[simp] theorem State.setCore_ucies (s : State) (c : Nat) (r : Core) : (s.setCore c r).ucies = s.ucies := rfl
@[simp] theorem State.setCore_ucieHeld (s : State) (c : Nat) (r : Core) : (s.setCore c r).ucieHeld = s.ucieHeld := rfl
@[simp] theorem State.setCore_tunars (s : State) (c : Nat) (r : Core) : (s.setCore c r).tunars = s.tunars := rfl
@[simp] theorem State.setCore_hbmUp (s : State) (c : Nat) (r : Core) : (s.setCore c r).hbmUp = s.hbmUp := rfl
@[simp] theorem State.setCore_pager (s : State) (c : Nat) (r : Core) : (s.setCore c r).pager = s.pager := rfl
@[simp] theorem State.setCore_fills (s : State) (c : Nat) (r : Core) : (s.setCore c r).fills = s.fills := rfl
@[simp] theorem State.setCore_nvmeReqs (s : State) (c : Nat) (r : Core) : (s.setCore c r).nvmeReqs = s.nvmeReqs := rfl
@[simp] theorem State.setCore_answers (s : State) (c : Nat) (r : Core) : (s.setCore c r).answers = s.answers := rfl
@[simp] theorem State.setCore_homeMsgs (s : State) (c : Nat) (r : Core) : (s.setCore c r).homeMsgs = s.homeMsgs := rfl
@[simp] theorem State.setCore_mown (s : State) (c : Nat) (r : Core) : (s.setCore c r).mown = s.mown := rfl
@[simp] theorem State.setCore_mgmt (s : State) (c : Nat) (r : Core) : (s.setCore c r).mgmt = s.mgmt := rfl
@[simp] theorem State.setCore_fuses (s : State) (c : Nat) (r : Core) : (s.setCore c r).fuses = s.fuses := rfl
@[simp] theorem State.setCore_link (s : State) (c : Nat) (r : Core) : (s.setCore c r).link = s.link := rfl
@[simp] theorem State.setCore_fwReady (s : State) (c : Nat) (r : Core) : (s.setCore c r).fwReady = s.fwReady := rfl
@[simp] theorem State.setCore_serial (s : State) (c : Nat) (r : Core) : (s.setCore c r).serial = s.serial := rfl
@[simp] theorem State.updCore_tick (s : State) (c : Nat) (f : Core → Core) : (s.updCore c f).tick = s.tick := rfl
@[simp] theorem State.updCore_turn (s : State) (c : Nat) (f : Core → Core) : (s.updCore c f).turn = s.turn := rfl
@[simp] theorem State.updCore_inbox (s : State) (c : Nat) (f : Core → Core) : (s.updCore c f).inbox = s.inbox := rfl
@[simp] theorem State.updCore_outbox (s : State) (c : Nat) (f : Core → Core) : (s.updCore c f).outbox = s.outbox := rfl
@[simp] theorem State.updCore_mem (s : State) (c : Nat) (f : Core → Core) : (s.updCore c f).mem = s.mem := rfl
@[simp] theorem State.updCore_memPois (s : State) (c : Nat) (f : Core → Core) : (s.updCore c f).memPois = s.memPois := rfl
@[simp] theorem State.updCore_stamps (s : State) (c : Nat) (f : Core → Core) : (s.updCore c f).stamps = s.stamps := rfl
@[simp] theorem State.updCore_promoting (s : State) (c : Nat) (f : Core → Core) : (s.updCore c f).promoting = s.promoting := rfl
@[simp] theorem State.updCore_parts (s : State) (c : Nat) (f : Core → Core) : (s.updCore c f).parts = s.parts := rfl
@[simp] theorem State.updCore_dies (s : State) (c : Nat) (f : Core → Core) : (s.updCore c f).dies = s.dies := rfl
@[simp] theorem State.updCore_tasks (s : State) (c : Nat) (f : Core → Core) : (s.updCore c f).tasks = s.tasks := rfl
@[simp] theorem State.updCore_flats (s : State) (c : Nat) (f : Core → Core) : (s.updCore c f).flats = s.flats := rfl
@[simp] theorem State.updCore_versions (s : State) (c : Nat) (f : Core → Core) : (s.updCore c f).versions = s.versions := rfl
@[simp] theorem State.updCore_routes (s : State) (c : Nat) (f : Core → Core) : (s.updCore c f).routes = s.routes := rfl
@[simp] theorem State.updCore_streams (s : State) (c : Nat) (f : Core → Core) : (s.updCore c f).streams = s.streams := rfl
@[simp] theorem State.updCore_responders (s : State) (c : Nat) (f : Core → Core) : (s.updCore c f).responders = s.responders := rfl
@[simp] theorem State.updCore_ucies (s : State) (c : Nat) (f : Core → Core) : (s.updCore c f).ucies = s.ucies := rfl
@[simp] theorem State.updCore_ucieHeld (s : State) (c : Nat) (f : Core → Core) : (s.updCore c f).ucieHeld = s.ucieHeld := rfl
@[simp] theorem State.updCore_tunars (s : State) (c : Nat) (f : Core → Core) : (s.updCore c f).tunars = s.tunars := rfl
@[simp] theorem State.updCore_hbmUp (s : State) (c : Nat) (f : Core → Core) : (s.updCore c f).hbmUp = s.hbmUp := rfl
@[simp] theorem State.updCore_pager (s : State) (c : Nat) (f : Core → Core) : (s.updCore c f).pager = s.pager := rfl
@[simp] theorem State.updCore_fills (s : State) (c : Nat) (f : Core → Core) : (s.updCore c f).fills = s.fills := rfl
@[simp] theorem State.updCore_nvmeReqs (s : State) (c : Nat) (f : Core → Core) : (s.updCore c f).nvmeReqs = s.nvmeReqs := rfl
@[simp] theorem State.updCore_answers (s : State) (c : Nat) (f : Core → Core) : (s.updCore c f).answers = s.answers := rfl
@[simp] theorem State.updCore_homeMsgs (s : State) (c : Nat) (f : Core → Core) : (s.updCore c f).homeMsgs = s.homeMsgs := rfl
@[simp] theorem State.updCore_mown (s : State) (c : Nat) (f : Core → Core) : (s.updCore c f).mown = s.mown := rfl
@[simp] theorem State.updCore_mgmt (s : State) (c : Nat) (f : Core → Core) : (s.updCore c f).mgmt = s.mgmt := rfl
@[simp] theorem State.updCore_fuses (s : State) (c : Nat) (f : Core → Core) : (s.updCore c f).fuses = s.fuses := rfl
@[simp] theorem State.updCore_link (s : State) (c : Nat) (f : Core → Core) : (s.updCore c f).link = s.link := rfl
@[simp] theorem State.updCore_fwReady (s : State) (c : Nat) (f : Core → Core) : (s.updCore c f).fwReady = s.fwReady := rfl
@[simp] theorem State.updCore_serial (s : State) (c : Nat) (f : Core → Core) : (s.updCore c f).serial = s.serial := rfl
@[simp] theorem State.setCtx_tick (s : State) (c k : Nat) (x : Ctx) : (s.setCtx c k x).tick = s.tick := rfl
@[simp] theorem State.setCtx_turn (s : State) (c k : Nat) (x : Ctx) : (s.setCtx c k x).turn = s.turn := rfl
@[simp] theorem State.setCtx_inbox (s : State) (c k : Nat) (x : Ctx) : (s.setCtx c k x).inbox = s.inbox := rfl
@[simp] theorem State.setCtx_outbox (s : State) (c k : Nat) (x : Ctx) : (s.setCtx c k x).outbox = s.outbox := rfl
@[simp] theorem State.setCtx_mem (s : State) (c k : Nat) (x : Ctx) : (s.setCtx c k x).mem = s.mem := rfl
@[simp] theorem State.setCtx_memPois (s : State) (c k : Nat) (x : Ctx) : (s.setCtx c k x).memPois = s.memPois := rfl
@[simp] theorem State.setCtx_stamps (s : State) (c k : Nat) (x : Ctx) : (s.setCtx c k x).stamps = s.stamps := rfl
@[simp] theorem State.setCtx_promoting (s : State) (c k : Nat) (x : Ctx) : (s.setCtx c k x).promoting = s.promoting := rfl
@[simp] theorem State.setCtx_parts (s : State) (c k : Nat) (x : Ctx) : (s.setCtx c k x).parts = s.parts := rfl
@[simp] theorem State.setCtx_dies (s : State) (c k : Nat) (x : Ctx) : (s.setCtx c k x).dies = s.dies := rfl
@[simp] theorem State.setCtx_tasks (s : State) (c k : Nat) (x : Ctx) : (s.setCtx c k x).tasks = s.tasks := rfl
@[simp] theorem State.setCtx_flats (s : State) (c k : Nat) (x : Ctx) : (s.setCtx c k x).flats = s.flats := rfl
@[simp] theorem State.setCtx_versions (s : State) (c k : Nat) (x : Ctx) : (s.setCtx c k x).versions = s.versions := rfl
@[simp] theorem State.setCtx_routes (s : State) (c k : Nat) (x : Ctx) : (s.setCtx c k x).routes = s.routes := rfl
@[simp] theorem State.setCtx_streams (s : State) (c k : Nat) (x : Ctx) : (s.setCtx c k x).streams = s.streams := rfl
@[simp] theorem State.setCtx_responders (s : State) (c k : Nat) (x : Ctx) : (s.setCtx c k x).responders = s.responders := rfl
@[simp] theorem State.setCtx_ucies (s : State) (c k : Nat) (x : Ctx) : (s.setCtx c k x).ucies = s.ucies := rfl
@[simp] theorem State.setCtx_ucieHeld (s : State) (c k : Nat) (x : Ctx) : (s.setCtx c k x).ucieHeld = s.ucieHeld := rfl
@[simp] theorem State.setCtx_tunars (s : State) (c k : Nat) (x : Ctx) : (s.setCtx c k x).tunars = s.tunars := rfl
@[simp] theorem State.setCtx_hbmUp (s : State) (c k : Nat) (x : Ctx) : (s.setCtx c k x).hbmUp = s.hbmUp := rfl
@[simp] theorem State.setCtx_pager (s : State) (c k : Nat) (x : Ctx) : (s.setCtx c k x).pager = s.pager := rfl
@[simp] theorem State.setCtx_fills (s : State) (c k : Nat) (x : Ctx) : (s.setCtx c k x).fills = s.fills := rfl
@[simp] theorem State.setCtx_nvmeReqs (s : State) (c k : Nat) (x : Ctx) : (s.setCtx c k x).nvmeReqs = s.nvmeReqs := rfl
@[simp] theorem State.setCtx_answers (s : State) (c k : Nat) (x : Ctx) : (s.setCtx c k x).answers = s.answers := rfl
@[simp] theorem State.setCtx_homeMsgs (s : State) (c k : Nat) (x : Ctx) : (s.setCtx c k x).homeMsgs = s.homeMsgs := rfl
@[simp] theorem State.setCtx_mown (s : State) (c k : Nat) (x : Ctx) : (s.setCtx c k x).mown = s.mown := rfl
@[simp] theorem State.setCtx_mgmt (s : State) (c k : Nat) (x : Ctx) : (s.setCtx c k x).mgmt = s.mgmt := rfl
@[simp] theorem State.setCtx_fuses (s : State) (c k : Nat) (x : Ctx) : (s.setCtx c k x).fuses = s.fuses := rfl
@[simp] theorem State.setCtx_link (s : State) (c k : Nat) (x : Ctx) : (s.setCtx c k x).link = s.link := rfl
@[simp] theorem State.setCtx_fwReady (s : State) (c k : Nat) (x : Ctx) : (s.setCtx c k x).fwReady = s.fwReady := rfl
@[simp] theorem State.setCtx_serial (s : State) (c k : Nat) (x : Ctx) : (s.setCtx c k x).serial = s.serial := rfl

/-! ## Partitions, dies, tasks, what leaves -/

@[simp] theorem State.updPart_tick (s : State) (p : Nat) (f : Part → Part) : (s.updPart p f).tick = s.tick := rfl
@[simp] theorem State.updPart_turn (s : State) (p : Nat) (f : Part → Part) : (s.updPart p f).turn = s.turn := rfl
@[simp] theorem State.updPart_inbox (s : State) (p : Nat) (f : Part → Part) : (s.updPart p f).inbox = s.inbox := rfl
@[simp] theorem State.updPart_outbox (s : State) (p : Nat) (f : Part → Part) : (s.updPart p f).outbox = s.outbox := rfl
@[simp] theorem State.updPart_mem (s : State) (p : Nat) (f : Part → Part) : (s.updPart p f).mem = s.mem := rfl
@[simp] theorem State.updPart_memPois (s : State) (p : Nat) (f : Part → Part) : (s.updPart p f).memPois = s.memPois := rfl
@[simp] theorem State.updPart_stamps (s : State) (p : Nat) (f : Part → Part) : (s.updPart p f).stamps = s.stamps := rfl
@[simp] theorem State.updPart_promoting (s : State) (p : Nat) (f : Part → Part) : (s.updPart p f).promoting = s.promoting := rfl
@[simp] theorem State.updPart_cores (s : State) (p : Nat) (f : Part → Part) : (s.updPart p f).cores = s.cores := rfl
@[simp] theorem State.updPart_dies (s : State) (p : Nat) (f : Part → Part) : (s.updPart p f).dies = s.dies := rfl
@[simp] theorem State.updPart_tasks (s : State) (p : Nat) (f : Part → Part) : (s.updPart p f).tasks = s.tasks := rfl
@[simp] theorem State.updPart_flats (s : State) (p : Nat) (f : Part → Part) : (s.updPart p f).flats = s.flats := rfl
@[simp] theorem State.updPart_versions (s : State) (p : Nat) (f : Part → Part) : (s.updPart p f).versions = s.versions := rfl
@[simp] theorem State.updPart_routes (s : State) (p : Nat) (f : Part → Part) : (s.updPart p f).routes = s.routes := rfl
@[simp] theorem State.updPart_streams (s : State) (p : Nat) (f : Part → Part) : (s.updPart p f).streams = s.streams := rfl
@[simp] theorem State.updPart_responders (s : State) (p : Nat) (f : Part → Part) : (s.updPart p f).responders = s.responders := rfl
@[simp] theorem State.updPart_ucies (s : State) (p : Nat) (f : Part → Part) : (s.updPart p f).ucies = s.ucies := rfl
@[simp] theorem State.updPart_ucieHeld (s : State) (p : Nat) (f : Part → Part) : (s.updPart p f).ucieHeld = s.ucieHeld := rfl
@[simp] theorem State.updPart_tunars (s : State) (p : Nat) (f : Part → Part) : (s.updPart p f).tunars = s.tunars := rfl
@[simp] theorem State.updPart_hbmUp (s : State) (p : Nat) (f : Part → Part) : (s.updPart p f).hbmUp = s.hbmUp := rfl
@[simp] theorem State.updPart_pager (s : State) (p : Nat) (f : Part → Part) : (s.updPart p f).pager = s.pager := rfl
@[simp] theorem State.updPart_fills (s : State) (p : Nat) (f : Part → Part) : (s.updPart p f).fills = s.fills := rfl
@[simp] theorem State.updPart_nvmeReqs (s : State) (p : Nat) (f : Part → Part) : (s.updPart p f).nvmeReqs = s.nvmeReqs := rfl
@[simp] theorem State.updPart_answers (s : State) (p : Nat) (f : Part → Part) : (s.updPart p f).answers = s.answers := rfl
@[simp] theorem State.updPart_homeMsgs (s : State) (p : Nat) (f : Part → Part) : (s.updPart p f).homeMsgs = s.homeMsgs := rfl
@[simp] theorem State.updPart_mown (s : State) (p : Nat) (f : Part → Part) : (s.updPart p f).mown = s.mown := rfl
@[simp] theorem State.updPart_mgmt (s : State) (p : Nat) (f : Part → Part) : (s.updPart p f).mgmt = s.mgmt := rfl
@[simp] theorem State.updPart_fuses (s : State) (p : Nat) (f : Part → Part) : (s.updPart p f).fuses = s.fuses := rfl
@[simp] theorem State.updPart_link (s : State) (p : Nat) (f : Part → Part) : (s.updPart p f).link = s.link := rfl
@[simp] theorem State.updPart_fwReady (s : State) (p : Nat) (f : Part → Part) : (s.updPart p f).fwReady = s.fwReady := rfl
@[simp] theorem State.updPart_serial (s : State) (p : Nat) (f : Part → Part) : (s.updPart p f).serial = s.serial := rfl
@[simp] theorem State.updDie_tick (s : State) (d : Nat) (f : Die → Die) : (s.updDie d f).tick = s.tick := rfl
@[simp] theorem State.updDie_turn (s : State) (d : Nat) (f : Die → Die) : (s.updDie d f).turn = s.turn := rfl
@[simp] theorem State.updDie_inbox (s : State) (d : Nat) (f : Die → Die) : (s.updDie d f).inbox = s.inbox := rfl
@[simp] theorem State.updDie_outbox (s : State) (d : Nat) (f : Die → Die) : (s.updDie d f).outbox = s.outbox := rfl
@[simp] theorem State.updDie_mem (s : State) (d : Nat) (f : Die → Die) : (s.updDie d f).mem = s.mem := rfl
@[simp] theorem State.updDie_memPois (s : State) (d : Nat) (f : Die → Die) : (s.updDie d f).memPois = s.memPois := rfl
@[simp] theorem State.updDie_stamps (s : State) (d : Nat) (f : Die → Die) : (s.updDie d f).stamps = s.stamps := rfl
@[simp] theorem State.updDie_promoting (s : State) (d : Nat) (f : Die → Die) : (s.updDie d f).promoting = s.promoting := rfl
@[simp] theorem State.updDie_cores (s : State) (d : Nat) (f : Die → Die) : (s.updDie d f).cores = s.cores := rfl
@[simp] theorem State.updDie_parts (s : State) (d : Nat) (f : Die → Die) : (s.updDie d f).parts = s.parts := rfl
@[simp] theorem State.updDie_tasks (s : State) (d : Nat) (f : Die → Die) : (s.updDie d f).tasks = s.tasks := rfl
@[simp] theorem State.updDie_flats (s : State) (d : Nat) (f : Die → Die) : (s.updDie d f).flats = s.flats := rfl
@[simp] theorem State.updDie_versions (s : State) (d : Nat) (f : Die → Die) : (s.updDie d f).versions = s.versions := rfl
@[simp] theorem State.updDie_routes (s : State) (d : Nat) (f : Die → Die) : (s.updDie d f).routes = s.routes := rfl
@[simp] theorem State.updDie_streams (s : State) (d : Nat) (f : Die → Die) : (s.updDie d f).streams = s.streams := rfl
@[simp] theorem State.updDie_responders (s : State) (d : Nat) (f : Die → Die) : (s.updDie d f).responders = s.responders := rfl
@[simp] theorem State.updDie_ucies (s : State) (d : Nat) (f : Die → Die) : (s.updDie d f).ucies = s.ucies := rfl
@[simp] theorem State.updDie_ucieHeld (s : State) (d : Nat) (f : Die → Die) : (s.updDie d f).ucieHeld = s.ucieHeld := rfl
@[simp] theorem State.updDie_tunars (s : State) (d : Nat) (f : Die → Die) : (s.updDie d f).tunars = s.tunars := rfl
@[simp] theorem State.updDie_hbmUp (s : State) (d : Nat) (f : Die → Die) : (s.updDie d f).hbmUp = s.hbmUp := rfl
@[simp] theorem State.updDie_pager (s : State) (d : Nat) (f : Die → Die) : (s.updDie d f).pager = s.pager := rfl
@[simp] theorem State.updDie_fills (s : State) (d : Nat) (f : Die → Die) : (s.updDie d f).fills = s.fills := rfl
@[simp] theorem State.updDie_nvmeReqs (s : State) (d : Nat) (f : Die → Die) : (s.updDie d f).nvmeReqs = s.nvmeReqs := rfl
@[simp] theorem State.updDie_answers (s : State) (d : Nat) (f : Die → Die) : (s.updDie d f).answers = s.answers := rfl
@[simp] theorem State.updDie_homeMsgs (s : State) (d : Nat) (f : Die → Die) : (s.updDie d f).homeMsgs = s.homeMsgs := rfl
@[simp] theorem State.updDie_mown (s : State) (d : Nat) (f : Die → Die) : (s.updDie d f).mown = s.mown := rfl
@[simp] theorem State.updDie_mgmt (s : State) (d : Nat) (f : Die → Die) : (s.updDie d f).mgmt = s.mgmt := rfl
@[simp] theorem State.updDie_fuses (s : State) (d : Nat) (f : Die → Die) : (s.updDie d f).fuses = s.fuses := rfl
@[simp] theorem State.updDie_link (s : State) (d : Nat) (f : Die → Die) : (s.updDie d f).link = s.link := rfl
@[simp] theorem State.updDie_fwReady (s : State) (d : Nat) (f : Die → Die) : (s.updDie d f).fwReady = s.fwReady := rfl
@[simp] theorem State.updDie_serial (s : State) (d : Nat) (f : Die → Die) : (s.updDie d f).serial = s.serial := rfl
@[simp] theorem State.updTask_tick (s : State) (p : Nat) (i : Word) (f : Task → Task) : (s.updTask p i f).tick = s.tick := rfl
@[simp] theorem State.updTask_turn (s : State) (p : Nat) (i : Word) (f : Task → Task) : (s.updTask p i f).turn = s.turn := rfl
@[simp] theorem State.updTask_inbox (s : State) (p : Nat) (i : Word) (f : Task → Task) : (s.updTask p i f).inbox = s.inbox := rfl
@[simp] theorem State.updTask_outbox (s : State) (p : Nat) (i : Word) (f : Task → Task) : (s.updTask p i f).outbox = s.outbox := rfl
@[simp] theorem State.updTask_mem (s : State) (p : Nat) (i : Word) (f : Task → Task) : (s.updTask p i f).mem = s.mem := rfl
@[simp] theorem State.updTask_memPois (s : State) (p : Nat) (i : Word) (f : Task → Task) : (s.updTask p i f).memPois = s.memPois := rfl
@[simp] theorem State.updTask_stamps (s : State) (p : Nat) (i : Word) (f : Task → Task) : (s.updTask p i f).stamps = s.stamps := rfl
@[simp] theorem State.updTask_promoting (s : State) (p : Nat) (i : Word) (f : Task → Task) : (s.updTask p i f).promoting = s.promoting := rfl
@[simp] theorem State.updTask_cores (s : State) (p : Nat) (i : Word) (f : Task → Task) : (s.updTask p i f).cores = s.cores := rfl
@[simp] theorem State.updTask_parts (s : State) (p : Nat) (i : Word) (f : Task → Task) : (s.updTask p i f).parts = s.parts := rfl
@[simp] theorem State.updTask_dies (s : State) (p : Nat) (i : Word) (f : Task → Task) : (s.updTask p i f).dies = s.dies := rfl
@[simp] theorem State.updTask_flats (s : State) (p : Nat) (i : Word) (f : Task → Task) : (s.updTask p i f).flats = s.flats := rfl
@[simp] theorem State.updTask_versions (s : State) (p : Nat) (i : Word) (f : Task → Task) : (s.updTask p i f).versions = s.versions := rfl
@[simp] theorem State.updTask_routes (s : State) (p : Nat) (i : Word) (f : Task → Task) : (s.updTask p i f).routes = s.routes := rfl
@[simp] theorem State.updTask_streams (s : State) (p : Nat) (i : Word) (f : Task → Task) : (s.updTask p i f).streams = s.streams := rfl
@[simp] theorem State.updTask_responders (s : State) (p : Nat) (i : Word) (f : Task → Task) : (s.updTask p i f).responders = s.responders := rfl
@[simp] theorem State.updTask_ucies (s : State) (p : Nat) (i : Word) (f : Task → Task) : (s.updTask p i f).ucies = s.ucies := rfl
@[simp] theorem State.updTask_ucieHeld (s : State) (p : Nat) (i : Word) (f : Task → Task) : (s.updTask p i f).ucieHeld = s.ucieHeld := rfl
@[simp] theorem State.updTask_tunars (s : State) (p : Nat) (i : Word) (f : Task → Task) : (s.updTask p i f).tunars = s.tunars := rfl
@[simp] theorem State.updTask_hbmUp (s : State) (p : Nat) (i : Word) (f : Task → Task) : (s.updTask p i f).hbmUp = s.hbmUp := rfl
@[simp] theorem State.updTask_pager (s : State) (p : Nat) (i : Word) (f : Task → Task) : (s.updTask p i f).pager = s.pager := rfl
@[simp] theorem State.updTask_fills (s : State) (p : Nat) (i : Word) (f : Task → Task) : (s.updTask p i f).fills = s.fills := rfl
@[simp] theorem State.updTask_nvmeReqs (s : State) (p : Nat) (i : Word) (f : Task → Task) : (s.updTask p i f).nvmeReqs = s.nvmeReqs := rfl
@[simp] theorem State.updTask_answers (s : State) (p : Nat) (i : Word) (f : Task → Task) : (s.updTask p i f).answers = s.answers := rfl
@[simp] theorem State.updTask_homeMsgs (s : State) (p : Nat) (i : Word) (f : Task → Task) : (s.updTask p i f).homeMsgs = s.homeMsgs := rfl
@[simp] theorem State.updTask_mown (s : State) (p : Nat) (i : Word) (f : Task → Task) : (s.updTask p i f).mown = s.mown := rfl
@[simp] theorem State.updTask_mgmt (s : State) (p : Nat) (i : Word) (f : Task → Task) : (s.updTask p i f).mgmt = s.mgmt := rfl
@[simp] theorem State.updTask_fuses (s : State) (p : Nat) (i : Word) (f : Task → Task) : (s.updTask p i f).fuses = s.fuses := rfl
@[simp] theorem State.updTask_link (s : State) (p : Nat) (i : Word) (f : Task → Task) : (s.updTask p i f).link = s.link := rfl
@[simp] theorem State.updTask_fwReady (s : State) (p : Nat) (i : Word) (f : Task → Task) : (s.updTask p i f).fwReady = s.fwReady := rfl
@[simp] theorem State.updTask_serial (s : State) (p : Nat) (i : Word) (f : Task → Task) : (s.updTask p i f).serial = s.serial := rfl
@[simp] theorem State.dropTask_tick (s : State) (p : Nat) (i : Word) : (s.dropTask p i).tick = s.tick := rfl
@[simp] theorem State.dropTask_turn (s : State) (p : Nat) (i : Word) : (s.dropTask p i).turn = s.turn := rfl
@[simp] theorem State.dropTask_inbox (s : State) (p : Nat) (i : Word) : (s.dropTask p i).inbox = s.inbox := rfl
@[simp] theorem State.dropTask_outbox (s : State) (p : Nat) (i : Word) : (s.dropTask p i).outbox = s.outbox := rfl
@[simp] theorem State.dropTask_mem (s : State) (p : Nat) (i : Word) : (s.dropTask p i).mem = s.mem := rfl
@[simp] theorem State.dropTask_memPois (s : State) (p : Nat) (i : Word) : (s.dropTask p i).memPois = s.memPois := rfl
@[simp] theorem State.dropTask_stamps (s : State) (p : Nat) (i : Word) : (s.dropTask p i).stamps = s.stamps := rfl
@[simp] theorem State.dropTask_promoting (s : State) (p : Nat) (i : Word) : (s.dropTask p i).promoting = s.promoting := rfl
@[simp] theorem State.dropTask_cores (s : State) (p : Nat) (i : Word) : (s.dropTask p i).cores = s.cores := rfl
@[simp] theorem State.dropTask_parts (s : State) (p : Nat) (i : Word) : (s.dropTask p i).parts = s.parts := rfl
@[simp] theorem State.dropTask_dies (s : State) (p : Nat) (i : Word) : (s.dropTask p i).dies = s.dies := rfl
@[simp] theorem State.dropTask_flats (s : State) (p : Nat) (i : Word) : (s.dropTask p i).flats = s.flats := rfl
@[simp] theorem State.dropTask_versions (s : State) (p : Nat) (i : Word) : (s.dropTask p i).versions = s.versions := rfl
@[simp] theorem State.dropTask_routes (s : State) (p : Nat) (i : Word) : (s.dropTask p i).routes = s.routes := rfl
@[simp] theorem State.dropTask_streams (s : State) (p : Nat) (i : Word) : (s.dropTask p i).streams = s.streams := rfl
@[simp] theorem State.dropTask_responders (s : State) (p : Nat) (i : Word) : (s.dropTask p i).responders = s.responders := rfl
@[simp] theorem State.dropTask_ucies (s : State) (p : Nat) (i : Word) : (s.dropTask p i).ucies = s.ucies := rfl
@[simp] theorem State.dropTask_ucieHeld (s : State) (p : Nat) (i : Word) : (s.dropTask p i).ucieHeld = s.ucieHeld := rfl
@[simp] theorem State.dropTask_tunars (s : State) (p : Nat) (i : Word) : (s.dropTask p i).tunars = s.tunars := rfl
@[simp] theorem State.dropTask_hbmUp (s : State) (p : Nat) (i : Word) : (s.dropTask p i).hbmUp = s.hbmUp := rfl
@[simp] theorem State.dropTask_pager (s : State) (p : Nat) (i : Word) : (s.dropTask p i).pager = s.pager := rfl
@[simp] theorem State.dropTask_fills (s : State) (p : Nat) (i : Word) : (s.dropTask p i).fills = s.fills := rfl
@[simp] theorem State.dropTask_nvmeReqs (s : State) (p : Nat) (i : Word) : (s.dropTask p i).nvmeReqs = s.nvmeReqs := rfl
@[simp] theorem State.dropTask_answers (s : State) (p : Nat) (i : Word) : (s.dropTask p i).answers = s.answers := rfl
@[simp] theorem State.dropTask_homeMsgs (s : State) (p : Nat) (i : Word) : (s.dropTask p i).homeMsgs = s.homeMsgs := rfl
@[simp] theorem State.dropTask_mown (s : State) (p : Nat) (i : Word) : (s.dropTask p i).mown = s.mown := rfl
@[simp] theorem State.dropTask_mgmt (s : State) (p : Nat) (i : Word) : (s.dropTask p i).mgmt = s.mgmt := rfl
@[simp] theorem State.dropTask_fuses (s : State) (p : Nat) (i : Word) : (s.dropTask p i).fuses = s.fuses := rfl
@[simp] theorem State.dropTask_link (s : State) (p : Nat) (i : Word) : (s.dropTask p i).link = s.link := rfl
@[simp] theorem State.dropTask_fwReady (s : State) (p : Nat) (i : Word) : (s.dropTask p i).fwReady = s.fwReady := rfl
@[simp] theorem State.dropTask_serial (s : State) (p : Nat) (i : Word) : (s.dropTask p i).serial = s.serial := rfl
@[simp] theorem State.emit_tick (s : State) (m : Msg) : (s.emit m).tick = s.tick := rfl
@[simp] theorem State.emit_turn (s : State) (m : Msg) : (s.emit m).turn = s.turn := rfl
@[simp] theorem State.emit_inbox (s : State) (m : Msg) : (s.emit m).inbox = s.inbox := rfl
@[simp] theorem State.emit_mem (s : State) (m : Msg) : (s.emit m).mem = s.mem := rfl
@[simp] theorem State.emit_memPois (s : State) (m : Msg) : (s.emit m).memPois = s.memPois := rfl
@[simp] theorem State.emit_stamps (s : State) (m : Msg) : (s.emit m).stamps = s.stamps := rfl
@[simp] theorem State.emit_promoting (s : State) (m : Msg) : (s.emit m).promoting = s.promoting := rfl
@[simp] theorem State.emit_cores (s : State) (m : Msg) : (s.emit m).cores = s.cores := rfl
@[simp] theorem State.emit_parts (s : State) (m : Msg) : (s.emit m).parts = s.parts := rfl
@[simp] theorem State.emit_dies (s : State) (m : Msg) : (s.emit m).dies = s.dies := rfl
@[simp] theorem State.emit_tasks (s : State) (m : Msg) : (s.emit m).tasks = s.tasks := rfl
@[simp] theorem State.emit_flats (s : State) (m : Msg) : (s.emit m).flats = s.flats := rfl
@[simp] theorem State.emit_versions (s : State) (m : Msg) : (s.emit m).versions = s.versions := rfl
@[simp] theorem State.emit_routes (s : State) (m : Msg) : (s.emit m).routes = s.routes := rfl
@[simp] theorem State.emit_streams (s : State) (m : Msg) : (s.emit m).streams = s.streams := rfl
@[simp] theorem State.emit_responders (s : State) (m : Msg) : (s.emit m).responders = s.responders := rfl
@[simp] theorem State.emit_ucies (s : State) (m : Msg) : (s.emit m).ucies = s.ucies := rfl
@[simp] theorem State.emit_ucieHeld (s : State) (m : Msg) : (s.emit m).ucieHeld = s.ucieHeld := rfl
@[simp] theorem State.emit_tunars (s : State) (m : Msg) : (s.emit m).tunars = s.tunars := rfl
@[simp] theorem State.emit_hbmUp (s : State) (m : Msg) : (s.emit m).hbmUp = s.hbmUp := rfl
@[simp] theorem State.emit_pager (s : State) (m : Msg) : (s.emit m).pager = s.pager := rfl
@[simp] theorem State.emit_fills (s : State) (m : Msg) : (s.emit m).fills = s.fills := rfl
@[simp] theorem State.emit_nvmeReqs (s : State) (m : Msg) : (s.emit m).nvmeReqs = s.nvmeReqs := rfl
@[simp] theorem State.emit_answers (s : State) (m : Msg) : (s.emit m).answers = s.answers := rfl
@[simp] theorem State.emit_homeMsgs (s : State) (m : Msg) : (s.emit m).homeMsgs = s.homeMsgs := rfl
@[simp] theorem State.emit_mown (s : State) (m : Msg) : (s.emit m).mown = s.mown := rfl
@[simp] theorem State.emit_mgmt (s : State) (m : Msg) : (s.emit m).mgmt = s.mgmt := rfl
@[simp] theorem State.emit_fuses (s : State) (m : Msg) : (s.emit m).fuses = s.fuses := rfl
@[simp] theorem State.emit_link (s : State) (m : Msg) : (s.emit m).link = s.link := rfl
@[simp] theorem State.emit_fwReady (s : State) (m : Msg) : (s.emit m).fwReady = s.fwReady := rfl
@[simp] theorem State.emit_serial (s : State) (m : Msg) : (s.emit m).serial = s.serial := rfl
@[simp] theorem State.reply_tick (s : State) (r : FarReply) (q : Nat) (d : List Byte) : (s.reply r q d).tick = s.tick := rfl
@[simp] theorem State.reply_turn (s : State) (r : FarReply) (q : Nat) (d : List Byte) : (s.reply r q d).turn = s.turn := rfl
@[simp] theorem State.reply_inbox (s : State) (r : FarReply) (q : Nat) (d : List Byte) : (s.reply r q d).inbox = s.inbox := rfl
@[simp] theorem State.reply_outbox (s : State) (r : FarReply) (q : Nat) (d : List Byte) : (s.reply r q d).outbox = s.outbox := rfl
@[simp] theorem State.reply_mem (s : State) (r : FarReply) (q : Nat) (d : List Byte) : (s.reply r q d).mem = s.mem := rfl
@[simp] theorem State.reply_memPois (s : State) (r : FarReply) (q : Nat) (d : List Byte) : (s.reply r q d).memPois = s.memPois := rfl
@[simp] theorem State.reply_stamps (s : State) (r : FarReply) (q : Nat) (d : List Byte) : (s.reply r q d).stamps = s.stamps := rfl
@[simp] theorem State.reply_promoting (s : State) (r : FarReply) (q : Nat) (d : List Byte) : (s.reply r q d).promoting = s.promoting := rfl
@[simp] theorem State.reply_cores (s : State) (r : FarReply) (q : Nat) (d : List Byte) : (s.reply r q d).cores = s.cores := rfl
@[simp] theorem State.reply_parts (s : State) (r : FarReply) (q : Nat) (d : List Byte) : (s.reply r q d).parts = s.parts := rfl
@[simp] theorem State.reply_dies (s : State) (r : FarReply) (q : Nat) (d : List Byte) : (s.reply r q d).dies = s.dies := rfl
@[simp] theorem State.reply_tasks (s : State) (r : FarReply) (q : Nat) (d : List Byte) : (s.reply r q d).tasks = s.tasks := rfl
@[simp] theorem State.reply_flats (s : State) (r : FarReply) (q : Nat) (d : List Byte) : (s.reply r q d).flats = s.flats := rfl
@[simp] theorem State.reply_versions (s : State) (r : FarReply) (q : Nat) (d : List Byte) : (s.reply r q d).versions = s.versions := rfl
@[simp] theorem State.reply_routes (s : State) (r : FarReply) (q : Nat) (d : List Byte) : (s.reply r q d).routes = s.routes := rfl
@[simp] theorem State.reply_streams (s : State) (r : FarReply) (q : Nat) (d : List Byte) : (s.reply r q d).streams = s.streams := rfl
@[simp] theorem State.reply_responders (s : State) (r : FarReply) (q : Nat) (d : List Byte) : (s.reply r q d).responders = s.responders := rfl
@[simp] theorem State.reply_ucies (s : State) (r : FarReply) (q : Nat) (d : List Byte) : (s.reply r q d).ucies = s.ucies := rfl
@[simp] theorem State.reply_ucieHeld (s : State) (r : FarReply) (q : Nat) (d : List Byte) : (s.reply r q d).ucieHeld = s.ucieHeld := rfl
@[simp] theorem State.reply_tunars (s : State) (r : FarReply) (q : Nat) (d : List Byte) : (s.reply r q d).tunars = s.tunars := rfl
@[simp] theorem State.reply_hbmUp (s : State) (r : FarReply) (q : Nat) (d : List Byte) : (s.reply r q d).hbmUp = s.hbmUp := rfl
@[simp] theorem State.reply_pager (s : State) (r : FarReply) (q : Nat) (d : List Byte) : (s.reply r q d).pager = s.pager := rfl
@[simp] theorem State.reply_fills (s : State) (r : FarReply) (q : Nat) (d : List Byte) : (s.reply r q d).fills = s.fills := rfl
@[simp] theorem State.reply_nvmeReqs (s : State) (r : FarReply) (q : Nat) (d : List Byte) : (s.reply r q d).nvmeReqs = s.nvmeReqs := rfl
@[simp] theorem State.reply_homeMsgs (s : State) (r : FarReply) (q : Nat) (d : List Byte) : (s.reply r q d).homeMsgs = s.homeMsgs := rfl
@[simp] theorem State.reply_mown (s : State) (r : FarReply) (q : Nat) (d : List Byte) : (s.reply r q d).mown = s.mown := rfl
@[simp] theorem State.reply_mgmt (s : State) (r : FarReply) (q : Nat) (d : List Byte) : (s.reply r q d).mgmt = s.mgmt := rfl
@[simp] theorem State.reply_fuses (s : State) (r : FarReply) (q : Nat) (d : List Byte) : (s.reply r q d).fuses = s.fuses := rfl
@[simp] theorem State.reply_link (s : State) (r : FarReply) (q : Nat) (d : List Byte) : (s.reply r q d).link = s.link := rfl
@[simp] theorem State.reply_fwReady (s : State) (r : FarReply) (q : Nat) (d : List Byte) : (s.reply r q d).fwReady = s.fwReady := rfl
@[simp] theorem State.reply_serial (s : State) (r : FarReply) (q : Nat) (d : List Byte) : (s.reply r q d).serial = s.serial := rfl
@[simp] theorem State.fresh_tick (s : State) : s.fresh.2.tick = s.tick := rfl
@[simp] theorem State.fresh_turn (s : State) : s.fresh.2.turn = s.turn := rfl
@[simp] theorem State.fresh_inbox (s : State) : s.fresh.2.inbox = s.inbox := rfl
@[simp] theorem State.fresh_outbox (s : State) : s.fresh.2.outbox = s.outbox := rfl
@[simp] theorem State.fresh_mem (s : State) : s.fresh.2.mem = s.mem := rfl
@[simp] theorem State.fresh_memPois (s : State) : s.fresh.2.memPois = s.memPois := rfl
@[simp] theorem State.fresh_stamps (s : State) : s.fresh.2.stamps = s.stamps := rfl
@[simp] theorem State.fresh_promoting (s : State) : s.fresh.2.promoting = s.promoting := rfl
@[simp] theorem State.fresh_cores (s : State) : s.fresh.2.cores = s.cores := rfl
@[simp] theorem State.fresh_parts (s : State) : s.fresh.2.parts = s.parts := rfl
@[simp] theorem State.fresh_dies (s : State) : s.fresh.2.dies = s.dies := rfl
@[simp] theorem State.fresh_tasks (s : State) : s.fresh.2.tasks = s.tasks := rfl
@[simp] theorem State.fresh_flats (s : State) : s.fresh.2.flats = s.flats := rfl
@[simp] theorem State.fresh_versions (s : State) : s.fresh.2.versions = s.versions := rfl
@[simp] theorem State.fresh_routes (s : State) : s.fresh.2.routes = s.routes := rfl
@[simp] theorem State.fresh_streams (s : State) : s.fresh.2.streams = s.streams := rfl
@[simp] theorem State.fresh_responders (s : State) : s.fresh.2.responders = s.responders := rfl
@[simp] theorem State.fresh_ucies (s : State) : s.fresh.2.ucies = s.ucies := rfl
@[simp] theorem State.fresh_ucieHeld (s : State) : s.fresh.2.ucieHeld = s.ucieHeld := rfl
@[simp] theorem State.fresh_tunars (s : State) : s.fresh.2.tunars = s.tunars := rfl
@[simp] theorem State.fresh_hbmUp (s : State) : s.fresh.2.hbmUp = s.hbmUp := rfl
@[simp] theorem State.fresh_pager (s : State) : s.fresh.2.pager = s.pager := rfl
@[simp] theorem State.fresh_fills (s : State) : s.fresh.2.fills = s.fills := rfl
@[simp] theorem State.fresh_nvmeReqs (s : State) : s.fresh.2.nvmeReqs = s.nvmeReqs := rfl
@[simp] theorem State.fresh_answers (s : State) : s.fresh.2.answers = s.answers := rfl
@[simp] theorem State.fresh_homeMsgs (s : State) : s.fresh.2.homeMsgs = s.homeMsgs := rfl
@[simp] theorem State.fresh_mown (s : State) : s.fresh.2.mown = s.mown := rfl
@[simp] theorem State.fresh_mgmt (s : State) : s.fresh.2.mgmt = s.mgmt := rfl
@[simp] theorem State.fresh_fuses (s : State) : s.fresh.2.fuses = s.fuses := rfl
@[simp] theorem State.fresh_link (s : State) : s.fresh.2.link = s.link := rfl
@[simp] theorem State.fresh_fwReady (s : State) : s.fresh.2.fwReady = s.fwReady := rfl
@[simp] theorem State.fresh_serial (s : State) : s.fresh.2.serial = s.serial + 1 := rfl
@[simp] theorem State.fresh_fst (s : State) : s.fresh.1 = s.serial := rfl

/-! ## A context -/

@[simp] theorem Ctx.step_life (x : Ctx) : x.step.life = x.life := rfl
@[simp] theorem Ctx.step_part (x : Ctx) : x.step.part = x.part := rfl
@[simp] theorem Ctx.step_tid (x : Ctx) : x.step.tid = x.tid := rfl
@[simp] theorem Ctx.step_role (x : Ctx) : x.step.role = x.role := rfl
@[simp] theorem Ctx.step_record (x : Ctx) : x.step.record = x.record := rfl
@[simp] theorem Ctx.step_image (x : Ctx) : x.step.image = x.image := rfl
@[simp] theorem Ctx.step_a (x : Ctx) : x.step.a = x.a := rfl
@[simp] theorem Ctx.step_apois (x : Ctx) : x.step.apois = x.apois := rfl
@[simp] theorem Ctx.step_p (x : Ctx) : x.step.p = x.p := rfl
@[simp] theorem Ctx.step_inline (x : Ctx) : x.step.inline = x.inline := rfl
@[simp] theorem Ctx.step_recomp (x : Ctx) : x.step.recomp = x.recomp := rfl
@[simp] theorem Ctx.step_inh (x : Ctx) : x.step.inh = x.inh := rfl
@[simp] theorem Ctx.step_sys (x : Ctx) : x.step.sys = x.sys := rfl
@[simp] theorem Ctx.step_tvec (x : Ctx) : x.step.tvec = x.tvec := rfl
@[simp] theorem Ctx.step_epc (x : Ctx) : x.step.epc = x.epc := rfl
@[simp] theorem Ctx.step_trapc (x : Ctx) : x.step.trapc = x.trapc := rfl
@[simp] theorem Ctx.step_trapv (x : Ctx) : x.step.trapv = x.trapv := rfl
@[simp] theorem Ctx.step_tscr (x : Ctx) : x.step.tscr = x.tscr := rfl
@[simp] theorem Ctx.step_ocls (x : Ctx) : x.step.ocls = x.ocls := rfl
@[simp] theorem Ctx.step_chkpt (x : Ctx) : x.step.chkpt = x.chkpt := rfl
@[simp] theorem Ctx.step_entered (x : Ctx) : x.step.entered = x.entered := rfl
@[simp] theorem Ctx.step_window (x : Ctx) : x.step.window = x.window := rfl
@[simp] theorem Ctx.step_vwb (x : Ctx) : x.step.vwb = x.vwb := rfl
@[simp] theorem Ctx.step_vshp (x : Ctx) : x.step.vshp = x.vshp := rfl
@[simp] theorem Ctx.step_rstrm (x : Ctx) : x.step.rstrm = x.rstrm := rfl
@[simp] theorem Ctx.step_masks (x : Ctx) : x.step.masks = x.masks := rfl
@[simp] theorem Ctx.step_maskDirty (x : Ctx) : x.step.maskDirty = x.maskDirty := rfl
@[simp] theorem Ctx.step_held (x : Ctx) : x.step.held = x.held := rfl
@[simp] theorem Ctx.step_win (x : Ctx) : x.step.win = x.win := rfl
@[simp] theorem Ctx.step_phys (x : Ctx) : x.step.phys = x.phys := rfl
@[simp] theorem Ctx.step_tileTag (x : Ctx) : x.step.tileTag = x.tileTag := rfl
@[simp] theorem Ctx.step_rowDirty (x : Ctx) : x.step.rowDirty = x.rowDirty := rfl
@[simp] theorem Ctx.step_me (x : Ctx) : x.step.me = x.me := rfl
@[simp] theorem Ctx.step_l (x : Ctx) : x.step.l = x.l := rfl
@[simp] theorem Ctx.step_lines (x : Ctx) : x.step.lines = x.lines := rfl
@[simp] theorem Ctx.step_srm (x : Ctx) : x.step.srm = x.srm := rfl
@[simp] theorem Ctx.step_hlc (x : Ctx) : x.step.hlc = x.hlc := rfl
@[simp] theorem Ctx.step_binding (x : Ctx) : x.step.binding = x.binding := rfl
@[simp] theorem Ctx.step_nocommit (x : Ctx) : x.step.nocommit = x.nocommit := rfl
@[simp] theorem Ctx.step_loads (x : Ctx) : x.step.loads = x.loads := rfl
@[simp] theorem Ctx.step_stores (x : Ctx) : x.step.stores = x.stores := rfl
@[simp] theorem Ctx.step_tiles (x : Ctx) : x.step.tiles = x.tiles := rfl
@[simp] theorem Ctx.step_tags (x : Ctx) : x.step.tags = x.tags := rfl
@[simp] theorem Ctx.step_tagStatus (x : Ctx) : x.step.tagStatus = x.tagStatus := rfl
@[simp] theorem Ctx.step_appended (x : Ctx) : x.step.appended = x.appended := rfl
@[simp] theorem Ctx.step_done (x : Ctx) : x.step.done = x.done := rfl
@[simp] theorem Ctx.step_det (x : Ctx) : x.step.det = x.det := rfl
@[simp] theorem Ctx.step_creg (x : Ctx) : x.step.creg = x.creg := rfl
@[simp] theorem Ctx.step_ctl (x : Ctx) : x.step.ctl = x.ctl := rfl
@[simp] theorem Ctx.step_kern (x : Ctx) : x.step.kern = x.kern := rfl
@[simp] theorem Ctx.step_phase (x : Ctx) : x.step.phase = x.phase := rfl
@[simp] theorem Ctx.step_rings (x : Ctx) : x.step.rings = x.rings := rfl
@[simp] theorem Ctx.step_slateReader (x : Ctx) : x.step.slateReader = x.slateReader := rfl
@[simp] theorem Ctx.step_enqw (x : Ctx) : x.step.enqw = x.enqw := rfl
@[simp] theorem Ctx.step_asks (x : Ctx) : x.step.asks = x.asks := rfl
@[simp] theorem Ctx.step_got (x : Ctx) : x.step.got = x.got := rfl
@[simp] theorem Ctx.step_writing (x : Ctx) : x.step.writing = x.writing := rfl
@[simp] theorem Ctx.step_savedEntries (x : Ctx) : x.step.savedEntries = x.savedEntries := rfl
@[simp] theorem Ctx.step_savedJobs (x : Ctx) : x.step.savedJobs = x.savedJobs := rfl
@[simp] theorem Ctx.step_pend (x : Ctx) : x.step.pend = x.pend := rfl
@[simp] theorem Ctx.step_doomed (x : Ctx) : x.step.doomed = x.doomed := rfl
@[simp] theorem Ctx.step_order (x : Ctx) : x.step.order = x.order := rfl
@[simp] theorem Ctx.step_carried (x : Ctx) : x.step.carried = x.carried := rfl
@[simp] theorem Ctx.step_pc (x : Ctx) : x.step.pc = x.pc + 1 := rfl
@[simp] theorem Ctx.setReg_life (x : Ctx) (r : Reg) (v : Word) : (x.setReg r v).life = x.life := by
  unfold Ctx.setReg; split <;> rfl
@[simp] theorem Ctx.setReg_part (x : Ctx) (r : Reg) (v : Word) : (x.setReg r v).part = x.part := by
  unfold Ctx.setReg; split <;> rfl
@[simp] theorem Ctx.setReg_tid (x : Ctx) (r : Reg) (v : Word) : (x.setReg r v).tid = x.tid := by
  unfold Ctx.setReg; split <;> rfl
@[simp] theorem Ctx.setReg_role (x : Ctx) (r : Reg) (v : Word) : (x.setReg r v).role = x.role := by
  unfold Ctx.setReg; split <;> rfl
@[simp] theorem Ctx.setReg_record (x : Ctx) (r : Reg) (v : Word) : (x.setReg r v).record = x.record := by
  unfold Ctx.setReg; split <;> rfl
@[simp] theorem Ctx.setReg_image (x : Ctx) (r : Reg) (v : Word) : (x.setReg r v).image = x.image := by
  unfold Ctx.setReg; split <;> rfl
@[simp] theorem Ctx.setReg_p (x : Ctx) (r : Reg) (v : Word) : (x.setReg r v).p = x.p := by
  unfold Ctx.setReg; split <;> rfl
@[simp] theorem Ctx.setReg_pc (x : Ctx) (r : Reg) (v : Word) : (x.setReg r v).pc = x.pc := by
  unfold Ctx.setReg; split <;> rfl
@[simp] theorem Ctx.setReg_inline (x : Ctx) (r : Reg) (v : Word) : (x.setReg r v).inline = x.inline := by
  unfold Ctx.setReg; split <;> rfl
@[simp] theorem Ctx.setReg_recomp (x : Ctx) (r : Reg) (v : Word) : (x.setReg r v).recomp = x.recomp := by
  unfold Ctx.setReg; split <;> rfl
@[simp] theorem Ctx.setReg_inh (x : Ctx) (r : Reg) (v : Word) : (x.setReg r v).inh = x.inh := by
  unfold Ctx.setReg; split <;> rfl
@[simp] theorem Ctx.setReg_sys (x : Ctx) (r : Reg) (v : Word) : (x.setReg r v).sys = x.sys := by
  unfold Ctx.setReg; split <;> rfl
@[simp] theorem Ctx.setReg_tvec (x : Ctx) (r : Reg) (v : Word) : (x.setReg r v).tvec = x.tvec := by
  unfold Ctx.setReg; split <;> rfl
@[simp] theorem Ctx.setReg_epc (x : Ctx) (r : Reg) (v : Word) : (x.setReg r v).epc = x.epc := by
  unfold Ctx.setReg; split <;> rfl
@[simp] theorem Ctx.setReg_trapc (x : Ctx) (r : Reg) (v : Word) : (x.setReg r v).trapc = x.trapc := by
  unfold Ctx.setReg; split <;> rfl
@[simp] theorem Ctx.setReg_trapv (x : Ctx) (r : Reg) (v : Word) : (x.setReg r v).trapv = x.trapv := by
  unfold Ctx.setReg; split <;> rfl
@[simp] theorem Ctx.setReg_tscr (x : Ctx) (r : Reg) (v : Word) : (x.setReg r v).tscr = x.tscr := by
  unfold Ctx.setReg; split <;> rfl
@[simp] theorem Ctx.setReg_ocls (x : Ctx) (r : Reg) (v : Word) : (x.setReg r v).ocls = x.ocls := by
  unfold Ctx.setReg; split <;> rfl
@[simp] theorem Ctx.setReg_chkpt (x : Ctx) (r : Reg) (v : Word) : (x.setReg r v).chkpt = x.chkpt := by
  unfold Ctx.setReg; split <;> rfl
@[simp] theorem Ctx.setReg_entered (x : Ctx) (r : Reg) (v : Word) : (x.setReg r v).entered = x.entered := by
  unfold Ctx.setReg; split <;> rfl
@[simp] theorem Ctx.setReg_window (x : Ctx) (r : Reg) (v : Word) : (x.setReg r v).window = x.window := by
  unfold Ctx.setReg; split <;> rfl
@[simp] theorem Ctx.setReg_vwb (x : Ctx) (r : Reg) (v : Word) : (x.setReg r v).vwb = x.vwb := by
  unfold Ctx.setReg; split <;> rfl
@[simp] theorem Ctx.setReg_vshp (x : Ctx) (r : Reg) (v : Word) : (x.setReg r v).vshp = x.vshp := by
  unfold Ctx.setReg; split <;> rfl
@[simp] theorem Ctx.setReg_rstrm (x : Ctx) (r : Reg) (v : Word) : (x.setReg r v).rstrm = x.rstrm := by
  unfold Ctx.setReg; split <;> rfl
@[simp] theorem Ctx.setReg_masks (x : Ctx) (r : Reg) (v : Word) : (x.setReg r v).masks = x.masks := by
  unfold Ctx.setReg; split <;> rfl
@[simp] theorem Ctx.setReg_maskDirty (x : Ctx) (r : Reg) (v : Word) : (x.setReg r v).maskDirty = x.maskDirty := by
  unfold Ctx.setReg; split <;> rfl
@[simp] theorem Ctx.setReg_held (x : Ctx) (r : Reg) (v : Word) : (x.setReg r v).held = x.held := by
  unfold Ctx.setReg; split <;> rfl
@[simp] theorem Ctx.setReg_win (x : Ctx) (r : Reg) (v : Word) : (x.setReg r v).win = x.win := by
  unfold Ctx.setReg; split <;> rfl
@[simp] theorem Ctx.setReg_phys (x : Ctx) (r : Reg) (v : Word) : (x.setReg r v).phys = x.phys := by
  unfold Ctx.setReg; split <;> rfl
@[simp] theorem Ctx.setReg_tileTag (x : Ctx) (r : Reg) (v : Word) : (x.setReg r v).tileTag = x.tileTag := by
  unfold Ctx.setReg; split <;> rfl
@[simp] theorem Ctx.setReg_rowDirty (x : Ctx) (r : Reg) (v : Word) : (x.setReg r v).rowDirty = x.rowDirty := by
  unfold Ctx.setReg; split <;> rfl
@[simp] theorem Ctx.setReg_me (x : Ctx) (r : Reg) (v : Word) : (x.setReg r v).me = x.me := by
  unfold Ctx.setReg; split <;> rfl
@[simp] theorem Ctx.setReg_l (x : Ctx) (r : Reg) (v : Word) : (x.setReg r v).l = x.l := by
  unfold Ctx.setReg; split <;> rfl
@[simp] theorem Ctx.setReg_lines (x : Ctx) (r : Reg) (v : Word) : (x.setReg r v).lines = x.lines := by
  unfold Ctx.setReg; split <;> rfl
@[simp] theorem Ctx.setReg_srm (x : Ctx) (r : Reg) (v : Word) : (x.setReg r v).srm = x.srm := by
  unfold Ctx.setReg; split <;> rfl
@[simp] theorem Ctx.setReg_hlc (x : Ctx) (r : Reg) (v : Word) : (x.setReg r v).hlc = x.hlc := by
  unfold Ctx.setReg; split <;> rfl
@[simp] theorem Ctx.setReg_binding (x : Ctx) (r : Reg) (v : Word) : (x.setReg r v).binding = x.binding := by
  unfold Ctx.setReg; split <;> rfl
@[simp] theorem Ctx.setReg_nocommit (x : Ctx) (r : Reg) (v : Word) : (x.setReg r v).nocommit = x.nocommit := by
  unfold Ctx.setReg; split <;> rfl
@[simp] theorem Ctx.setReg_loads (x : Ctx) (r : Reg) (v : Word) : (x.setReg r v).loads = x.loads := by
  unfold Ctx.setReg; split <;> rfl
@[simp] theorem Ctx.setReg_stores (x : Ctx) (r : Reg) (v : Word) : (x.setReg r v).stores = x.stores := by
  unfold Ctx.setReg; split <;> rfl
@[simp] theorem Ctx.setReg_tiles (x : Ctx) (r : Reg) (v : Word) : (x.setReg r v).tiles = x.tiles := by
  unfold Ctx.setReg; split <;> rfl
@[simp] theorem Ctx.setReg_tags (x : Ctx) (r : Reg) (v : Word) : (x.setReg r v).tags = x.tags := by
  unfold Ctx.setReg; split <;> rfl
@[simp] theorem Ctx.setReg_tagStatus (x : Ctx) (r : Reg) (v : Word) : (x.setReg r v).tagStatus = x.tagStatus := by
  unfold Ctx.setReg; split <;> rfl
@[simp] theorem Ctx.setReg_appended (x : Ctx) (r : Reg) (v : Word) : (x.setReg r v).appended = x.appended := by
  unfold Ctx.setReg; split <;> rfl
@[simp] theorem Ctx.setReg_done (x : Ctx) (r : Reg) (v : Word) : (x.setReg r v).done = x.done := by
  unfold Ctx.setReg; split <;> rfl
@[simp] theorem Ctx.setReg_det (x : Ctx) (r : Reg) (v : Word) : (x.setReg r v).det = x.det := by
  unfold Ctx.setReg; split <;> rfl
@[simp] theorem Ctx.setReg_creg (x : Ctx) (r : Reg) (v : Word) : (x.setReg r v).creg = x.creg := by
  unfold Ctx.setReg; split <;> rfl
@[simp] theorem Ctx.setReg_ctl (x : Ctx) (r : Reg) (v : Word) : (x.setReg r v).ctl = x.ctl := by
  unfold Ctx.setReg; split <;> rfl
@[simp] theorem Ctx.setReg_kern (x : Ctx) (r : Reg) (v : Word) : (x.setReg r v).kern = x.kern := by
  unfold Ctx.setReg; split <;> rfl
@[simp] theorem Ctx.setReg_phase (x : Ctx) (r : Reg) (v : Word) : (x.setReg r v).phase = x.phase := by
  unfold Ctx.setReg; split <;> rfl
@[simp] theorem Ctx.setReg_rings (x : Ctx) (r : Reg) (v : Word) : (x.setReg r v).rings = x.rings := by
  unfold Ctx.setReg; split <;> rfl
@[simp] theorem Ctx.setReg_slateReader (x : Ctx) (r : Reg) (v : Word) : (x.setReg r v).slateReader = x.slateReader := by
  unfold Ctx.setReg; split <;> rfl
@[simp] theorem Ctx.setReg_enqw (x : Ctx) (r : Reg) (v : Word) : (x.setReg r v).enqw = x.enqw := by
  unfold Ctx.setReg; split <;> rfl
@[simp] theorem Ctx.setReg_asks (x : Ctx) (r : Reg) (v : Word) : (x.setReg r v).asks = x.asks := by
  unfold Ctx.setReg; split <;> rfl
@[simp] theorem Ctx.setReg_got (x : Ctx) (r : Reg) (v : Word) : (x.setReg r v).got = x.got := by
  unfold Ctx.setReg; split <;> rfl
@[simp] theorem Ctx.setReg_writing (x : Ctx) (r : Reg) (v : Word) : (x.setReg r v).writing = x.writing := by
  unfold Ctx.setReg; split <;> rfl
@[simp] theorem Ctx.setReg_savedEntries (x : Ctx) (r : Reg) (v : Word) : (x.setReg r v).savedEntries = x.savedEntries := by
  unfold Ctx.setReg; split <;> rfl
@[simp] theorem Ctx.setReg_savedJobs (x : Ctx) (r : Reg) (v : Word) : (x.setReg r v).savedJobs = x.savedJobs := by
  unfold Ctx.setReg; split <;> rfl
@[simp] theorem Ctx.setReg_pend (x : Ctx) (r : Reg) (v : Word) : (x.setReg r v).pend = x.pend := by
  unfold Ctx.setReg; split <;> rfl
@[simp] theorem Ctx.setReg_doomed (x : Ctx) (r : Reg) (v : Word) : (x.setReg r v).doomed = x.doomed := by
  unfold Ctx.setReg; split <;> rfl
@[simp] theorem Ctx.setReg_order (x : Ctx) (r : Reg) (v : Word) : (x.setReg r v).order = x.order := by
  unfold Ctx.setReg; split <;> rfl
@[simp] theorem Ctx.setReg_carried (x : Ctx) (r : Reg) (v : Word) : (x.setReg r v).carried = x.carried := by
  unfold Ctx.setReg; split <;> rfl
@[simp] theorem Ctx.markReg_life (x : Ctx) (r : Reg) (v : Word) : (x.markReg r v).life = x.life := by
  unfold Ctx.markReg; split <;> rfl
@[simp] theorem Ctx.markReg_part (x : Ctx) (r : Reg) (v : Word) : (x.markReg r v).part = x.part := by
  unfold Ctx.markReg; split <;> rfl
@[simp] theorem Ctx.markReg_tid (x : Ctx) (r : Reg) (v : Word) : (x.markReg r v).tid = x.tid := by
  unfold Ctx.markReg; split <;> rfl
@[simp] theorem Ctx.markReg_role (x : Ctx) (r : Reg) (v : Word) : (x.markReg r v).role = x.role := by
  unfold Ctx.markReg; split <;> rfl
@[simp] theorem Ctx.markReg_record (x : Ctx) (r : Reg) (v : Word) : (x.markReg r v).record = x.record := by
  unfold Ctx.markReg; split <;> rfl
@[simp] theorem Ctx.markReg_image (x : Ctx) (r : Reg) (v : Word) : (x.markReg r v).image = x.image := by
  unfold Ctx.markReg; split <;> rfl
@[simp] theorem Ctx.markReg_a (x : Ctx) (r : Reg) (v : Word) : (x.markReg r v).a = x.a := by
  unfold Ctx.markReg; split <;> rfl
@[simp] theorem Ctx.markReg_p (x : Ctx) (r : Reg) (v : Word) : (x.markReg r v).p = x.p := by
  unfold Ctx.markReg; split <;> rfl
@[simp] theorem Ctx.markReg_pc (x : Ctx) (r : Reg) (v : Word) : (x.markReg r v).pc = x.pc := by
  unfold Ctx.markReg; split <;> rfl
@[simp] theorem Ctx.markReg_inline (x : Ctx) (r : Reg) (v : Word) : (x.markReg r v).inline = x.inline := by
  unfold Ctx.markReg; split <;> rfl
@[simp] theorem Ctx.markReg_recomp (x : Ctx) (r : Reg) (v : Word) : (x.markReg r v).recomp = x.recomp := by
  unfold Ctx.markReg; split <;> rfl
@[simp] theorem Ctx.markReg_inh (x : Ctx) (r : Reg) (v : Word) : (x.markReg r v).inh = x.inh := by
  unfold Ctx.markReg; split <;> rfl
@[simp] theorem Ctx.markReg_sys (x : Ctx) (r : Reg) (v : Word) : (x.markReg r v).sys = x.sys := by
  unfold Ctx.markReg; split <;> rfl
@[simp] theorem Ctx.markReg_tvec (x : Ctx) (r : Reg) (v : Word) : (x.markReg r v).tvec = x.tvec := by
  unfold Ctx.markReg; split <;> rfl
@[simp] theorem Ctx.markReg_epc (x : Ctx) (r : Reg) (v : Word) : (x.markReg r v).epc = x.epc := by
  unfold Ctx.markReg; split <;> rfl
@[simp] theorem Ctx.markReg_trapc (x : Ctx) (r : Reg) (v : Word) : (x.markReg r v).trapc = x.trapc := by
  unfold Ctx.markReg; split <;> rfl
@[simp] theorem Ctx.markReg_trapv (x : Ctx) (r : Reg) (v : Word) : (x.markReg r v).trapv = x.trapv := by
  unfold Ctx.markReg; split <;> rfl
@[simp] theorem Ctx.markReg_tscr (x : Ctx) (r : Reg) (v : Word) : (x.markReg r v).tscr = x.tscr := by
  unfold Ctx.markReg; split <;> rfl
@[simp] theorem Ctx.markReg_ocls (x : Ctx) (r : Reg) (v : Word) : (x.markReg r v).ocls = x.ocls := by
  unfold Ctx.markReg; split <;> rfl
@[simp] theorem Ctx.markReg_chkpt (x : Ctx) (r : Reg) (v : Word) : (x.markReg r v).chkpt = x.chkpt := by
  unfold Ctx.markReg; split <;> rfl
@[simp] theorem Ctx.markReg_entered (x : Ctx) (r : Reg) (v : Word) : (x.markReg r v).entered = x.entered := by
  unfold Ctx.markReg; split <;> rfl
@[simp] theorem Ctx.markReg_window (x : Ctx) (r : Reg) (v : Word) : (x.markReg r v).window = x.window := by
  unfold Ctx.markReg; split <;> rfl
@[simp] theorem Ctx.markReg_vwb (x : Ctx) (r : Reg) (v : Word) : (x.markReg r v).vwb = x.vwb := by
  unfold Ctx.markReg; split <;> rfl
@[simp] theorem Ctx.markReg_vshp (x : Ctx) (r : Reg) (v : Word) : (x.markReg r v).vshp = x.vshp := by
  unfold Ctx.markReg; split <;> rfl
@[simp] theorem Ctx.markReg_rstrm (x : Ctx) (r : Reg) (v : Word) : (x.markReg r v).rstrm = x.rstrm := by
  unfold Ctx.markReg; split <;> rfl
@[simp] theorem Ctx.markReg_masks (x : Ctx) (r : Reg) (v : Word) : (x.markReg r v).masks = x.masks := by
  unfold Ctx.markReg; split <;> rfl
@[simp] theorem Ctx.markReg_maskDirty (x : Ctx) (r : Reg) (v : Word) : (x.markReg r v).maskDirty = x.maskDirty := by
  unfold Ctx.markReg; split <;> rfl
@[simp] theorem Ctx.markReg_held (x : Ctx) (r : Reg) (v : Word) : (x.markReg r v).held = x.held := by
  unfold Ctx.markReg; split <;> rfl
@[simp] theorem Ctx.markReg_win (x : Ctx) (r : Reg) (v : Word) : (x.markReg r v).win = x.win := by
  unfold Ctx.markReg; split <;> rfl
@[simp] theorem Ctx.markReg_phys (x : Ctx) (r : Reg) (v : Word) : (x.markReg r v).phys = x.phys := by
  unfold Ctx.markReg; split <;> rfl
@[simp] theorem Ctx.markReg_tileTag (x : Ctx) (r : Reg) (v : Word) : (x.markReg r v).tileTag = x.tileTag := by
  unfold Ctx.markReg; split <;> rfl
@[simp] theorem Ctx.markReg_rowDirty (x : Ctx) (r : Reg) (v : Word) : (x.markReg r v).rowDirty = x.rowDirty := by
  unfold Ctx.markReg; split <;> rfl
@[simp] theorem Ctx.markReg_me (x : Ctx) (r : Reg) (v : Word) : (x.markReg r v).me = x.me := by
  unfold Ctx.markReg; split <;> rfl
@[simp] theorem Ctx.markReg_l (x : Ctx) (r : Reg) (v : Word) : (x.markReg r v).l = x.l := by
  unfold Ctx.markReg; split <;> rfl
@[simp] theorem Ctx.markReg_lines (x : Ctx) (r : Reg) (v : Word) : (x.markReg r v).lines = x.lines := by
  unfold Ctx.markReg; split <;> rfl
@[simp] theorem Ctx.markReg_srm (x : Ctx) (r : Reg) (v : Word) : (x.markReg r v).srm = x.srm := by
  unfold Ctx.markReg; split <;> rfl
@[simp] theorem Ctx.markReg_hlc (x : Ctx) (r : Reg) (v : Word) : (x.markReg r v).hlc = x.hlc := by
  unfold Ctx.markReg; split <;> rfl
@[simp] theorem Ctx.markReg_binding (x : Ctx) (r : Reg) (v : Word) : (x.markReg r v).binding = x.binding := by
  unfold Ctx.markReg; split <;> rfl
@[simp] theorem Ctx.markReg_nocommit (x : Ctx) (r : Reg) (v : Word) : (x.markReg r v).nocommit = x.nocommit := by
  unfold Ctx.markReg; split <;> rfl
@[simp] theorem Ctx.markReg_loads (x : Ctx) (r : Reg) (v : Word) : (x.markReg r v).loads = x.loads := by
  unfold Ctx.markReg; split <;> rfl
@[simp] theorem Ctx.markReg_stores (x : Ctx) (r : Reg) (v : Word) : (x.markReg r v).stores = x.stores := by
  unfold Ctx.markReg; split <;> rfl
@[simp] theorem Ctx.markReg_tiles (x : Ctx) (r : Reg) (v : Word) : (x.markReg r v).tiles = x.tiles := by
  unfold Ctx.markReg; split <;> rfl
@[simp] theorem Ctx.markReg_tags (x : Ctx) (r : Reg) (v : Word) : (x.markReg r v).tags = x.tags := by
  unfold Ctx.markReg; split <;> rfl
@[simp] theorem Ctx.markReg_tagStatus (x : Ctx) (r : Reg) (v : Word) : (x.markReg r v).tagStatus = x.tagStatus := by
  unfold Ctx.markReg; split <;> rfl
@[simp] theorem Ctx.markReg_appended (x : Ctx) (r : Reg) (v : Word) : (x.markReg r v).appended = x.appended := by
  unfold Ctx.markReg; split <;> rfl
@[simp] theorem Ctx.markReg_done (x : Ctx) (r : Reg) (v : Word) : (x.markReg r v).done = x.done := by
  unfold Ctx.markReg; split <;> rfl
@[simp] theorem Ctx.markReg_det (x : Ctx) (r : Reg) (v : Word) : (x.markReg r v).det = x.det := by
  unfold Ctx.markReg; split <;> rfl
@[simp] theorem Ctx.markReg_creg (x : Ctx) (r : Reg) (v : Word) : (x.markReg r v).creg = x.creg := by
  unfold Ctx.markReg; split <;> rfl
@[simp] theorem Ctx.markReg_ctl (x : Ctx) (r : Reg) (v : Word) : (x.markReg r v).ctl = x.ctl := by
  unfold Ctx.markReg; split <;> rfl
@[simp] theorem Ctx.markReg_kern (x : Ctx) (r : Reg) (v : Word) : (x.markReg r v).kern = x.kern := by
  unfold Ctx.markReg; split <;> rfl
@[simp] theorem Ctx.markReg_phase (x : Ctx) (r : Reg) (v : Word) : (x.markReg r v).phase = x.phase := by
  unfold Ctx.markReg; split <;> rfl
@[simp] theorem Ctx.markReg_rings (x : Ctx) (r : Reg) (v : Word) : (x.markReg r v).rings = x.rings := by
  unfold Ctx.markReg; split <;> rfl
@[simp] theorem Ctx.markReg_slateReader (x : Ctx) (r : Reg) (v : Word) : (x.markReg r v).slateReader = x.slateReader := by
  unfold Ctx.markReg; split <;> rfl
@[simp] theorem Ctx.markReg_enqw (x : Ctx) (r : Reg) (v : Word) : (x.markReg r v).enqw = x.enqw := by
  unfold Ctx.markReg; split <;> rfl
@[simp] theorem Ctx.markReg_asks (x : Ctx) (r : Reg) (v : Word) : (x.markReg r v).asks = x.asks := by
  unfold Ctx.markReg; split <;> rfl
@[simp] theorem Ctx.markReg_got (x : Ctx) (r : Reg) (v : Word) : (x.markReg r v).got = x.got := by
  unfold Ctx.markReg; split <;> rfl
@[simp] theorem Ctx.markReg_writing (x : Ctx) (r : Reg) (v : Word) : (x.markReg r v).writing = x.writing := by
  unfold Ctx.markReg; split <;> rfl
@[simp] theorem Ctx.markReg_savedEntries (x : Ctx) (r : Reg) (v : Word) : (x.markReg r v).savedEntries = x.savedEntries := by
  unfold Ctx.markReg; split <;> rfl
@[simp] theorem Ctx.markReg_savedJobs (x : Ctx) (r : Reg) (v : Word) : (x.markReg r v).savedJobs = x.savedJobs := by
  unfold Ctx.markReg; split <;> rfl
@[simp] theorem Ctx.markReg_pend (x : Ctx) (r : Reg) (v : Word) : (x.markReg r v).pend = x.pend := by
  unfold Ctx.markReg; split <;> rfl
@[simp] theorem Ctx.markReg_doomed (x : Ctx) (r : Reg) (v : Word) : (x.markReg r v).doomed = x.doomed := by
  unfold Ctx.markReg; split <;> rfl
@[simp] theorem Ctx.markReg_order (x : Ctx) (r : Reg) (v : Word) : (x.markReg r v).order = x.order := by
  unfold Ctx.markReg; split <;> rfl
@[simp] theorem Ctx.markReg_carried (x : Ctx) (r : Reg) (v : Word) : (x.markReg r v).carried = x.carried := by
  unfold Ctx.markReg; split <;> rfl
@[simp] theorem Ctx.setPred_life (x : Ctx) (r : Pred) (v : Bool) : (x.setPred r v).life = x.life := by
  unfold Ctx.setPred; split <;> rfl
@[simp] theorem Ctx.setPred_part (x : Ctx) (r : Pred) (v : Bool) : (x.setPred r v).part = x.part := by
  unfold Ctx.setPred; split <;> rfl
@[simp] theorem Ctx.setPred_tid (x : Ctx) (r : Pred) (v : Bool) : (x.setPred r v).tid = x.tid := by
  unfold Ctx.setPred; split <;> rfl
@[simp] theorem Ctx.setPred_role (x : Ctx) (r : Pred) (v : Bool) : (x.setPred r v).role = x.role := by
  unfold Ctx.setPred; split <;> rfl
@[simp] theorem Ctx.setPred_record (x : Ctx) (r : Pred) (v : Bool) : (x.setPred r v).record = x.record := by
  unfold Ctx.setPred; split <;> rfl
@[simp] theorem Ctx.setPred_image (x : Ctx) (r : Pred) (v : Bool) : (x.setPred r v).image = x.image := by
  unfold Ctx.setPred; split <;> rfl
@[simp] theorem Ctx.setPred_a (x : Ctx) (r : Pred) (v : Bool) : (x.setPred r v).a = x.a := by
  unfold Ctx.setPred; split <;> rfl
@[simp] theorem Ctx.setPred_apois (x : Ctx) (r : Pred) (v : Bool) : (x.setPred r v).apois = x.apois := by
  unfold Ctx.setPred; split <;> rfl
@[simp] theorem Ctx.setPred_pc (x : Ctx) (r : Pred) (v : Bool) : (x.setPred r v).pc = x.pc := by
  unfold Ctx.setPred; split <;> rfl
@[simp] theorem Ctx.setPred_inline (x : Ctx) (r : Pred) (v : Bool) : (x.setPred r v).inline = x.inline := by
  unfold Ctx.setPred; split <;> rfl
@[simp] theorem Ctx.setPred_recomp (x : Ctx) (r : Pred) (v : Bool) : (x.setPred r v).recomp = x.recomp := by
  unfold Ctx.setPred; split <;> rfl
@[simp] theorem Ctx.setPred_inh (x : Ctx) (r : Pred) (v : Bool) : (x.setPred r v).inh = x.inh := by
  unfold Ctx.setPred; split <;> rfl
@[simp] theorem Ctx.setPred_sys (x : Ctx) (r : Pred) (v : Bool) : (x.setPred r v).sys = x.sys := by
  unfold Ctx.setPred; split <;> rfl
@[simp] theorem Ctx.setPred_tvec (x : Ctx) (r : Pred) (v : Bool) : (x.setPred r v).tvec = x.tvec := by
  unfold Ctx.setPred; split <;> rfl
@[simp] theorem Ctx.setPred_epc (x : Ctx) (r : Pred) (v : Bool) : (x.setPred r v).epc = x.epc := by
  unfold Ctx.setPred; split <;> rfl
@[simp] theorem Ctx.setPred_trapc (x : Ctx) (r : Pred) (v : Bool) : (x.setPred r v).trapc = x.trapc := by
  unfold Ctx.setPred; split <;> rfl
@[simp] theorem Ctx.setPred_trapv (x : Ctx) (r : Pred) (v : Bool) : (x.setPred r v).trapv = x.trapv := by
  unfold Ctx.setPred; split <;> rfl
@[simp] theorem Ctx.setPred_tscr (x : Ctx) (r : Pred) (v : Bool) : (x.setPred r v).tscr = x.tscr := by
  unfold Ctx.setPred; split <;> rfl
@[simp] theorem Ctx.setPred_ocls (x : Ctx) (r : Pred) (v : Bool) : (x.setPred r v).ocls = x.ocls := by
  unfold Ctx.setPred; split <;> rfl
@[simp] theorem Ctx.setPred_chkpt (x : Ctx) (r : Pred) (v : Bool) : (x.setPred r v).chkpt = x.chkpt := by
  unfold Ctx.setPred; split <;> rfl
@[simp] theorem Ctx.setPred_entered (x : Ctx) (r : Pred) (v : Bool) : (x.setPred r v).entered = x.entered := by
  unfold Ctx.setPred; split <;> rfl
@[simp] theorem Ctx.setPred_window (x : Ctx) (r : Pred) (v : Bool) : (x.setPred r v).window = x.window := by
  unfold Ctx.setPred; split <;> rfl
@[simp] theorem Ctx.setPred_vwb (x : Ctx) (r : Pred) (v : Bool) : (x.setPred r v).vwb = x.vwb := by
  unfold Ctx.setPred; split <;> rfl
@[simp] theorem Ctx.setPred_vshp (x : Ctx) (r : Pred) (v : Bool) : (x.setPred r v).vshp = x.vshp := by
  unfold Ctx.setPred; split <;> rfl
@[simp] theorem Ctx.setPred_rstrm (x : Ctx) (r : Pred) (v : Bool) : (x.setPred r v).rstrm = x.rstrm := by
  unfold Ctx.setPred; split <;> rfl
@[simp] theorem Ctx.setPred_masks (x : Ctx) (r : Pred) (v : Bool) : (x.setPred r v).masks = x.masks := by
  unfold Ctx.setPred; split <;> rfl
@[simp] theorem Ctx.setPred_maskDirty (x : Ctx) (r : Pred) (v : Bool) : (x.setPred r v).maskDirty = x.maskDirty := by
  unfold Ctx.setPred; split <;> rfl
@[simp] theorem Ctx.setPred_held (x : Ctx) (r : Pred) (v : Bool) : (x.setPred r v).held = x.held := by
  unfold Ctx.setPred; split <;> rfl
@[simp] theorem Ctx.setPred_win (x : Ctx) (r : Pred) (v : Bool) : (x.setPred r v).win = x.win := by
  unfold Ctx.setPred; split <;> rfl
@[simp] theorem Ctx.setPred_phys (x : Ctx) (r : Pred) (v : Bool) : (x.setPred r v).phys = x.phys := by
  unfold Ctx.setPred; split <;> rfl
@[simp] theorem Ctx.setPred_tileTag (x : Ctx) (r : Pred) (v : Bool) : (x.setPred r v).tileTag = x.tileTag := by
  unfold Ctx.setPred; split <;> rfl
@[simp] theorem Ctx.setPred_rowDirty (x : Ctx) (r : Pred) (v : Bool) : (x.setPred r v).rowDirty = x.rowDirty := by
  unfold Ctx.setPred; split <;> rfl
@[simp] theorem Ctx.setPred_me (x : Ctx) (r : Pred) (v : Bool) : (x.setPred r v).me = x.me := by
  unfold Ctx.setPred; split <;> rfl
@[simp] theorem Ctx.setPred_l (x : Ctx) (r : Pred) (v : Bool) : (x.setPred r v).l = x.l := by
  unfold Ctx.setPred; split <;> rfl
@[simp] theorem Ctx.setPred_lines (x : Ctx) (r : Pred) (v : Bool) : (x.setPred r v).lines = x.lines := by
  unfold Ctx.setPred; split <;> rfl
@[simp] theorem Ctx.setPred_srm (x : Ctx) (r : Pred) (v : Bool) : (x.setPred r v).srm = x.srm := by
  unfold Ctx.setPred; split <;> rfl
@[simp] theorem Ctx.setPred_hlc (x : Ctx) (r : Pred) (v : Bool) : (x.setPred r v).hlc = x.hlc := by
  unfold Ctx.setPred; split <;> rfl
@[simp] theorem Ctx.setPred_binding (x : Ctx) (r : Pred) (v : Bool) : (x.setPred r v).binding = x.binding := by
  unfold Ctx.setPred; split <;> rfl
@[simp] theorem Ctx.setPred_nocommit (x : Ctx) (r : Pred) (v : Bool) : (x.setPred r v).nocommit = x.nocommit := by
  unfold Ctx.setPred; split <;> rfl
@[simp] theorem Ctx.setPred_loads (x : Ctx) (r : Pred) (v : Bool) : (x.setPred r v).loads = x.loads := by
  unfold Ctx.setPred; split <;> rfl
@[simp] theorem Ctx.setPred_stores (x : Ctx) (r : Pred) (v : Bool) : (x.setPred r v).stores = x.stores := by
  unfold Ctx.setPred; split <;> rfl
@[simp] theorem Ctx.setPred_tiles (x : Ctx) (r : Pred) (v : Bool) : (x.setPred r v).tiles = x.tiles := by
  unfold Ctx.setPred; split <;> rfl
@[simp] theorem Ctx.setPred_tags (x : Ctx) (r : Pred) (v : Bool) : (x.setPred r v).tags = x.tags := by
  unfold Ctx.setPred; split <;> rfl
@[simp] theorem Ctx.setPred_tagStatus (x : Ctx) (r : Pred) (v : Bool) : (x.setPred r v).tagStatus = x.tagStatus := by
  unfold Ctx.setPred; split <;> rfl
@[simp] theorem Ctx.setPred_appended (x : Ctx) (r : Pred) (v : Bool) : (x.setPred r v).appended = x.appended := by
  unfold Ctx.setPred; split <;> rfl
@[simp] theorem Ctx.setPred_done (x : Ctx) (r : Pred) (v : Bool) : (x.setPred r v).done = x.done := by
  unfold Ctx.setPred; split <;> rfl
@[simp] theorem Ctx.setPred_det (x : Ctx) (r : Pred) (v : Bool) : (x.setPred r v).det = x.det := by
  unfold Ctx.setPred; split <;> rfl
@[simp] theorem Ctx.setPred_creg (x : Ctx) (r : Pred) (v : Bool) : (x.setPred r v).creg = x.creg := by
  unfold Ctx.setPred; split <;> rfl
@[simp] theorem Ctx.setPred_ctl (x : Ctx) (r : Pred) (v : Bool) : (x.setPred r v).ctl = x.ctl := by
  unfold Ctx.setPred; split <;> rfl
@[simp] theorem Ctx.setPred_kern (x : Ctx) (r : Pred) (v : Bool) : (x.setPred r v).kern = x.kern := by
  unfold Ctx.setPred; split <;> rfl
@[simp] theorem Ctx.setPred_phase (x : Ctx) (r : Pred) (v : Bool) : (x.setPred r v).phase = x.phase := by
  unfold Ctx.setPred; split <;> rfl
@[simp] theorem Ctx.setPred_rings (x : Ctx) (r : Pred) (v : Bool) : (x.setPred r v).rings = x.rings := by
  unfold Ctx.setPred; split <;> rfl
@[simp] theorem Ctx.setPred_slateReader (x : Ctx) (r : Pred) (v : Bool) : (x.setPred r v).slateReader = x.slateReader := by
  unfold Ctx.setPred; split <;> rfl
@[simp] theorem Ctx.setPred_enqw (x : Ctx) (r : Pred) (v : Bool) : (x.setPred r v).enqw = x.enqw := by
  unfold Ctx.setPred; split <;> rfl
@[simp] theorem Ctx.setPred_asks (x : Ctx) (r : Pred) (v : Bool) : (x.setPred r v).asks = x.asks := by
  unfold Ctx.setPred; split <;> rfl
@[simp] theorem Ctx.setPred_got (x : Ctx) (r : Pred) (v : Bool) : (x.setPred r v).got = x.got := by
  unfold Ctx.setPred; split <;> rfl
@[simp] theorem Ctx.setPred_writing (x : Ctx) (r : Pred) (v : Bool) : (x.setPred r v).writing = x.writing := by
  unfold Ctx.setPred; split <;> rfl
@[simp] theorem Ctx.setPred_savedEntries (x : Ctx) (r : Pred) (v : Bool) : (x.setPred r v).savedEntries = x.savedEntries := by
  unfold Ctx.setPred; split <;> rfl
@[simp] theorem Ctx.setPred_savedJobs (x : Ctx) (r : Pred) (v : Bool) : (x.setPred r v).savedJobs = x.savedJobs := by
  unfold Ctx.setPred; split <;> rfl
@[simp] theorem Ctx.setPred_pend (x : Ctx) (r : Pred) (v : Bool) : (x.setPred r v).pend = x.pend := by
  unfold Ctx.setPred; split <;> rfl
@[simp] theorem Ctx.setPred_doomed (x : Ctx) (r : Pred) (v : Bool) : (x.setPred r v).doomed = x.doomed := by
  unfold Ctx.setPred; split <;> rfl
@[simp] theorem Ctx.setPred_order (x : Ctx) (r : Pred) (v : Bool) : (x.setPred r v).order = x.order := by
  unfold Ctx.setPred; split <;> rfl
@[simp] theorem Ctx.setPred_carried (x : Ctx) (r : Pred) (v : Bool) : (x.setPred r v).carried = x.carried := by
  unfold Ctx.setPred; split <;> rfl

/-! ## Reset -/

@[simp] theorem State.reset_tick : State.reset.tick = 0 := rfl
@[simp] theorem State.reset_turn : State.reset.turn = .idle := rfl
@[simp] theorem State.reset_inbox : State.reset.inbox = [] := rfl
@[simp] theorem State.reset_outbox : State.reset.outbox = [] := rfl
@[simp] theorem State.reset_mem : State.reset.mem = [] := rfl
@[simp] theorem State.reset_memPois : State.reset.memPois = [] := rfl
@[simp] theorem State.reset_stamps : State.reset.stamps = [] := rfl
@[simp] theorem State.reset_promoting : State.reset.promoting = [] := rfl
@[simp] theorem State.reset_cores : State.reset.cores = [] := rfl
@[simp] theorem State.reset_parts : State.reset.parts = [] := rfl
@[simp] theorem State.reset_dies : State.reset.dies = [] := rfl
@[simp] theorem State.reset_tasks : State.reset.tasks = [] := rfl
@[simp] theorem State.reset_flats : State.reset.flats = [] := rfl
@[simp] theorem State.reset_versions : State.reset.versions = [] := rfl
@[simp] theorem State.reset_routes : State.reset.routes = [] := rfl
@[simp] theorem State.reset_streams : State.reset.streams = [] := rfl
@[simp] theorem State.reset_responders : State.reset.responders = [] := rfl
@[simp] theorem State.reset_ucies : State.reset.ucies = [] := rfl
@[simp] theorem State.reset_ucieHeld : State.reset.ucieHeld = [] := rfl
@[simp] theorem State.reset_tunars : State.reset.tunars = [] := rfl
@[simp] theorem State.reset_hbmUp : State.reset.hbmUp = [] := rfl
@[simp] theorem State.reset_pager : State.reset.pager = [] := rfl
@[simp] theorem State.reset_fills : State.reset.fills = [] := rfl
@[simp] theorem State.reset_nvmeReqs : State.reset.nvmeReqs = [] := rfl
@[simp] theorem State.reset_answers : State.reset.answers = [] := rfl
@[simp] theorem State.reset_homeMsgs : State.reset.homeMsgs = [] := rfl

end Sys2Proof.Machine
end

