-- ==== Sys2Proof/Laws/Run.lean ====
section
/-! SUPPORT. What running a word can do: one lemma per shared operation, and what the reads of cores and contexts give after an update. -/

namespace Sys2Proof.Machine

/-! ## Reading cores and contexts after an update -/

theorem State.core_setCore (s : State) (c d : Nat) (r : Core) : (s.setCore c r).core d = if c = d then r else s.core d :=
  Tab.get_put _ _ _ _ _

@[simp] theorem State.core_setCore_self (s : State) (c : Nat) (r : Core) : (s.setCore c r).core c = r := by simp [State.core_setCore]

theorem State.core_setCore_of_ne (s : State) {c d : Nat} (r : Core) (h : c ≠ d) : (s.setCore c r).core d = s.core d := by
  simp [State.core_setCore, h]

theorem State.core_updCore (s : State) (c d : Nat) (f : Core → Core) : (s.updCore c f).core d = if c = d then f (s.core c) else s.core d :=
  State.core_setCore _ _ _ _

@[simp] theorem State.core_updCore_self (s : State) (c : Nat) (f : Core → Core) : (s.updCore c f).core c = f (s.core c) := by
  simp [State.core_updCore]

theorem State.core_updCore_of_ne (s : State) {c d : Nat} (f : Core → Core) (h : c ≠ d) : (s.updCore c f).core d = s.core d := by
  simp [State.core_updCore, h]

theorem State.core_setCtx_of_ne (s : State) {c d : Nat} (k : Nat) (x : Ctx) (h : c ≠ d) : (s.setCtx c k x).core d = s.core d := by
  simp [State.setCtx, State.core_updCore, h]

theorem State.core_setCtx_self (s : State) (c k : Nat) (x : Ctx) :
    (s.setCtx c k x).core c = { s.core c with ctxs := Tab.put (s.core c).ctxs k x } := by simp [State.setCtx]

@[simp] theorem State.ctx?_setCtx_self (s : State) (c k : Nat) (x : Ctx) : (s.setCtx c k x).ctx? c k = some x := by
  simp [State.ctx?, State.core_setCtx_self]

theorem State.ctx?_setCtx (s : State) (c k d j : Nat) (x : Ctx) :
    (s.setCtx c k x).ctx? d j = if c = d ∧ k = j then some x else s.ctx? d j := by
  by_cases h : c = d
  · subst h; simp [State.ctx?, State.core_setCtx_self, Tab.find_put]
  · simp [State.ctx?, State.core_setCtx_of_ne, h]

theorem State.ctx?_updCore (s : State) (c d j : Nat) (f : Core → Core) (h : (f (s.core c)).ctxs = (s.core c).ctxs) :
    (s.updCore c f).ctx? d j = s.ctx? d j := by
  by_cases e : c = d
  · subst e; simp [State.ctx?, h]
  · simp [State.ctx?, State.core_updCore, e]

theorem State.updCtx_of_some {s : State} {c k : Nat} {x : Ctx} (h : s.ctx? c k = some x) (f : Ctx → Ctx) :
    s.updCtx c k f = s.setCtx c k (f x) := by simp [State.updCtx, h]

theorem State.updCtx_of_none {s : State} {c k : Nat} (h : s.ctx? c k = none) (f : Ctx → Ctx) : s.updCtx c k f = s := by
  simp [State.updCtx, h]

/-- Writing a context twice leaves the second. -/
theorem Tab.put_put {α : Type} (t : Tab α) (k : Nat) (v w : α) : Tab.put (Tab.put t k v) k w = Tab.put t k w := by
  induction t with
  | nil => simp [Tab.put]
  | cons p t ih =>
    obtain ⟨j, u⟩ := p
    by_cases h : j = k
    · simp [Tab.put, h]
    · by_cases h2 : k < j
      · simp [Tab.put, h, h2]
      · simp [Tab.put, h, h2, ih]

@[simp] theorem State.setCtx_setCtx (s : State) (c k : Nat) (x y : Ctx) : (s.setCtx c k x).setCtx c k y = s.setCtx c k y := by
  simp only [State.setCtx, State.updCore, State.setCore, State.core, Tab.get_put_self, Tab.put_put]

/-! ## Registers, predicates and marks -/

@[simp] theorem Ctx.reg_zero (x : Ctx) : x.reg 0 = 0 := rfl

theorem Ctx.reg_setReg (x : Ctx) (d r : Reg) (v : Word) : (x.setReg d v).reg r = if d = r ∧ r ≠ 0 then v else x.reg r := by
  unfold Ctx.setReg Ctx.reg
  by_cases h0 : r = 0
  · rw [if_pos h0, if_pos h0, if_neg (fun h : d = r ∧ r ≠ 0 => h.2 h0)]
  · rw [if_neg h0, if_neg h0]
    by_cases hd : d = 0
    · rw [if_pos hd, if_neg (fun h : d = r ∧ r ≠ 0 => h0 (h.1 ▸ hd))]
    · rw [if_neg hd]
      by_cases h : d = r
      · subst h; rw [if_pos ⟨rfl, h0⟩]; exact Vector.getElem_set_self _
      · rw [if_neg (fun e : d = r ∧ r ≠ 0 => h e.1)]
        exact Vector.getElem_set_ne d.isLt _ (fun e => h (BitVec.eq_of_toNat_eq e))

@[simp] theorem Ctx.reg_step (x : Ctx) (r : Reg) : x.step.reg r = x.reg r := rfl

theorem Ctx.reg_setReg_self (x : Ctx) {d : Reg} (v : Word) (h : d ≠ 0) : (x.setReg d v).reg d = v := by
  rw [Ctx.reg_setReg, if_pos ⟨rfl, h⟩]

theorem Ctx.reg_setReg_of_ne (x : Ctx) {d r : Reg} (v : Word) (h : d ≠ r) : (x.setReg d v).reg r = x.reg r := by
  rw [Ctx.reg_setReg, if_neg (fun e => h e.1)]

@[simp] theorem Ctx.pred_zero (x : Ctx) : x.pred 0 = true := by simp [Ctx.pred]

theorem pred_bits (b : BitVec 8) (i j : Nat) (hj : j < 8) :
    (b ||| (1#8 <<< i)).getLsbD j = (b.getLsbD j || decide (i = j)) ∧
    (b &&& ~~~(1#8 <<< i)).getLsbD j = (b.getLsbD j && !decide (i = j)) := by
  have : (1#8 <<< i).getLsbD j = decide (i = j) := by
    rw [BitVec.getLsbD_shiftLeft, BitVec.getLsbD_one]
    rcases Nat.lt_trichotomy j i with h | h | h
    · simp [h, Nat.ne_of_gt h]
    · subst h; simp [hj]
    · have : ¬ j < i := by omega
      have : i ≠ j := by omega
      have : j - i ≠ 0 := by omega
      simp [*]
  exact ⟨by rw [BitVec.getLsbD_or, this], by rw [BitVec.getLsbD_and, BitVec.getLsbD_not, this]; simp [hj]⟩

theorem Ctx.pred_setPred (x : Ctx) (p q : Pred) (v : Bool) : (x.setPred p v).pred q = if p = q ∧ q ≠ 0 then v else x.pred q := by
  unfold Ctx.setPred
  by_cases hp : p = 0
  · rw [if_pos hp, if_neg (fun h : p = q ∧ q ≠ 0 => h.2 (h.1 ▸ hp))]
  · rw [if_neg hp]
    by_cases hq : q = 0
    · subst hq; rw [if_neg (fun h : p = 0 ∧ (0 : Pred) ≠ 0 => h.2 rfl), Ctx.pred_zero, Ctx.pred_zero]
    · have k := pred_bits x.p p.toNat q.toNat q.isLt
      have e : ∀ y : Ctx, y.pred q = y.p.getLsbD q.toNat := by
        intro y; unfold Ctx.pred; rw [beq_eq_false_iff_ne.mpr hq, Bool.false_or]
      rw [e, e]
      by_cases h : p = q
      · subst h
        rw [if_pos (show p = p ∧ p ≠ 0 from ⟨rfl, hq⟩)]
        cases v
        · simp only [Bool.false_eq_true, if_false]; rw [k.2]; simp
        · simp only [if_true]; rw [k.1]; simp
      · have hn : p.toNat ≠ q.toNat := fun e => h (BitVec.eq_of_toNat_eq e)
        rw [if_neg (fun e : p = q ∧ q ≠ 0 => h e.1)]
        cases v
        · simp only [Bool.false_eq_true, if_false]; rw [k.2]; simp [hn]
        · simp only [if_true]; rw [k.1]; simp [hn]

/-! ## Running an SQ word -/

theorem SqAt.sqTurn {s : State} {c k : Nat} {x : Ctx} {g : Pred} {srcs : List Reg} (h : SqAt s c k x g srcs) :
    s.sqTurn = some (c, k, x) := by simp [State.sqTurn, h.turn, h.ctx, h.life]

/-- A word that runs does what its body says. -/
theorem sqRun_at {s : State} {c k : Nat} {x : Ctx} {g : Pred} {srcs : List Reg} (h : SqAt s c k x g srcs)
    (body : Nat → Nat → Ctx → State) : sqRun g srcs s body = .next (body c k x) := by
  simp [sqRun, h.sqTurn, h.guard, h.clean]

theorem sqValue_at {s : State} {c k : Nat} {x : Ctx} {g : Pred} {srcs : List Reg} (h : SqAt s c k x g srcs) (d : Reg) (f : Ctx → Word) :
    sqValue g srcs d f s = .next (s.setCtx c k (x.step.setReg d (f x))) := sqRun_at h _

theorem sqPred_at {s : State} {c k : Nat} {x : Ctx} {g : Pred} {srcs : List Reg} (h : SqAt s c k x g srcs) (pd : Pred) (f : Ctx → Bool) :
    sqPred g srcs pd f s = .next (s.setCtx c k (x.step.setPred pd (f x))) := sqRun_at h _

/-- Everything that an SQ word can do: its turn names a running context, and it is skipped, aborts for a mark, or does what its body
says. -/
theorem sqRun_cases {g : Pred} {srcs : List Reg} {s t : State} {body : Nat → Nat → Ctx → State} (h : sqRun g srcs s body = .next t) :
    ∃ c k x, s.sqTurn = some (c, k, x) ∧
      ((x.pred g = false ∧ t = s.setCtx c k x.step) ∨
       (x.pred g = true ∧ ∃ a, x.marked srcs = some a ∧ t = s.abort c k ⟨10, a⟩) ∨
       (x.pred g = true ∧ x.marked srcs = none ∧ t = body c k x)) := by
  unfold sqRun at h
  split at h
  · cases h
  · rename_i c k x e
    refine ⟨c, k, x, e, ?_⟩
    by_cases hg : x.pred g = true
    · simp only [hg, Bool.not_true, Bool.false_eq_true, if_false] at h
      split at h
      · exact .inr (.inl ⟨hg, _, by assumption, by simpa using h.symm⟩)
      · exact .inr (.inr ⟨hg, by assumption, by simpa using h.symm⟩)
    · simp [hg] at h
      exact .inl ⟨by simpa using hg, h.symm⟩

theorem State.sqTurn_eq {s : State} {c k : Nat} {x : Ctx} (h : s.sqTurn = some (c, k, x)) :
    s.turn = .sq c k ∧ s.ctx? c k = some x ∧ x.life = .running := by
  unfold State.sqTurn at h
  split at h
  · split at h
    · split at h
      · simp at h; obtain ⟨rfl, rfl, rfl⟩ := h; exact ⟨by assumption, by assumption, by assumption⟩
      · cases h
    · cases h
  · cases h

/-- A word without a turn of the sequencer stops, and only then. -/
theorem sqRun_fault {g : Pred} {srcs : List Reg} {s : State} {body : Nat → Nat → Ctx → State} {r : Fault} :
    sqRun g srcs s body = .fault r ↔ s.sqTurn = none := by
  unfold sqRun
  split
  · cases r; simp_all
  · split
    · simp_all
    · split <;> simp_all

/-! ## Traps and aborts -/

/-- A handler that can take a trap is entered (R194). -/
theorem State.takeTrap_handler {s : State} {c k : Nat} {x : Ctx} {w : Cause} {sw bnd : Bool} {epc : Half} (h : s.ctx? c k = some x)
    (hh : x.inh = false) (hv : x.tvec.getLsbD 63 = true) (ht : s.validTarget c x (x.tvec.setWidth 32).toNat = true) :
    s.takeTrap c k w sw bnd epc = s.setCtx c k { x with
      epc := epc
      trapc := BitVec.ofBool sw ++ BitVec.ofBool bnd ++ BitVec.ofNat 30 (if sw then 0 else w.code)
      trapv := w.value
      inh := true
      chkpt := w.code == 12
      entered := (s.core c).cyc
      asks := []
      got := []
      writing := none
      pc := x.tvec.setWidth 32 } := by
  unfold State.takeTrap
  rw [h]
  dsimp only
  rw [if_neg (by rw [hh, hv, ht]; decide)]

/-- Without such a handler the task aborts (R194). -/
theorem State.takeTrap_abort {s : State} {c k : Nat} {x : Ctx} {w : Cause} {sw bnd : Bool} {epc : Half} (h : s.ctx? c k = some x)
    (hh : x.inh = true ∨ x.tvec.getLsbD 63 = false ∨ s.validTarget c x (x.tvec.setWidth 32).toNat = false) :
    s.takeTrap c k w sw bnd epc = s.abort c k w := by
  unfold State.takeTrap
  rw [h]
  dsimp only
  rw [if_pos (by rcases hh with hh | hh | hh <;> rw [hh] <;> simp)]

theorem State.trap_of_some {s : State} {c k : Nat} {x : Ctx} (h : s.ctx? c k = some x) (code : Nat) (v : Word) :
    s.trap c k code v = s.takeTrap c k ⟨code, v⟩ false false x.pc := by simp [State.trap, h]

end Sys2Proof.Machine
end

