-- ==== Sys2Proof/Tests/Slice0.lean ====
section
/-! SUPPORT. Tests of the model: ill-formed terms for each check, decodings of words written out from the spec, a state and operands that meet
the hypotheses of each statement, and small runs of single words with results from the spec's own tables and listings. -/

namespace Sys2Proof.Tests

open Sys2Proof Sys2Proof.Machine

-- Many evaluations at once would need more threads than the memory limit allows.
set_option Elab.async false

/-! ## Well-formed terms -/

/-- One ill-formed word for each check of words (R154, R155). -/
theorem test_ill_formed_words : ∀ i ∈ [Instr.loop 0 5 0, .viota 1 .fp32 0, .vmsk .not 1 2 3, .vmsk .first 1 2 3, .vmsk .len 1 2 0, .vmsk .len 1 0 3,
    .vcvt ⟨false, .rne⟩ 1 2 .empty 0, .vcvtw ⟨false, .rne⟩ 2 4 .fp32 0, .vcvtn ⟨false, .rne⟩ 4 5 .fp16 0, .vpack ⟨false, .rne⟩ 1 4 2,
    .vpack ⟨false, .rne⟩ 4 1 2, .vpack ⟨false, .rne⟩ 4 8 3, .vunpk ⟨false, .rne⟩ 6 8 2, .vunpk ⟨false, .rne⟩ 8 6 4, .vunpk ⟨false, .rne⟩ 8 4 0,
    .verrf ⟨false, .rne⟩ 3 1 2 0, .vchain ⟨false, .rne⟩ 0 [], .vchain ⟨false, .rne⟩ 0 (List.replicate 9 (some ⟨.vadd, 1, 2, 3, 0⟩)),
    .vchain ⟨false, .rne⟩ 0 [none], .vchain ⟨false, .rne⟩ 0 [some ⟨.vabs, 1, 2, 3, 0⟩], .vchain ⟨false, .rne⟩ 0 [some ⟨.vcls, 8, 2, 3, 0⟩],
    .vchain ⟨false, .rne⟩ 0 [some ⟨.vcvt, 1, 2, 16, 0⟩], .vchain ⟨false, .rne⟩ 0 [some ⟨.verrf, 1, 2, 3, 0⟩], .mgath 1 2 3 5, .msp 3],
    i.wf = false := by decide

/-- Their neighbours that the checks let through. -/
theorem test_well_formed_words : ∀ i ∈ [Instr.loop 1 5 0, .viota 1 .i16 0, .vmsk .not 1 2 0, .vmsk .first 1 2 0, .vmsk .len 1 0 0, .vmsk .and 1 2 3,
    .vcvt ⟨false, .rne⟩ 1 2 .fp32 0, .vcvtw ⟨false, .rne⟩ 4 2 .fp32 0, .vcvtn ⟨false, .rne⟩ 5 4 .fp16 0, .vpack ⟨false, .rne⟩ 4 8 2,
    .vunpk ⟨false, .rne⟩ 8 4 4, .verrf ⟨false, .rne⟩ 2 1 2 0, .vchain ⟨false, .rne⟩ 0 [some ⟨.vabs, 56, 2, 0, 0⟩], .mgath 1 2 2 5, .msp 12],
    i.wf = true := by decide

/-- One event for each check of what an event names: cores, slots, rings, lines, partitions, regions, dies, devices, links, ports, functions,
masters, decoders. -/
theorem test_ill_formed_events : ∀ i ∈ [Instr.dieQueuePop 256, .taskDispatch 256, .preemption 256, .shadowStoreDrain 256, .contextRestore 256,
    .tuAccept 256, .msgoBatchEnd 256, .coreReset 256, .overlayLoadComplete 0 16, .taskCommit 256 0, .taskAbort 0 16, .movedReply 0 16,
    .handoverTimeout 0 16, .remoteReply 0 16 0 false, .accessCompletion 256 0 .load 0, .streamInTile 0 ⟨0, 0⟩ 8, .streamOutTile 0 ⟨0, 0⟩ 8,
    .scratchpadRegionFill 0 0 4096, .gangStart 8 0, .dmuRelease 8 0, .replicationComplete 8 0, .recoveryWalk 8 0, .versionRestoreComplete 8 0,
    .agingTick 8 0, .pctlOperationEnd 8, .phaseBegin 0 4096, .bootGo 0 256, .stageBalancer 4, .slateRefresh 4, .bounceSlotMove 4 0, .dieLoss 4,
    .heartbeatSend 4, .monitorSample 4 [], .windowPortRequest 256 ⟨0, none, 0, 0, none, false⟩, .windowPageMigration 0 0 0 16 0,
    .windowPageMigration 0 0 0 0 4, .pageMove 8 0 0 0, .tuCommandFinish 256 0, .copyDeadline 256 0, .chainStep 256 0, .chainReply 256 0,
    .meStepComplete 256 0, .engineEntryStart 256 .ve, .engineWordComplete 256 .ve, .engineErrorReport 256 .ve, .engineFault 256 .sq,
    .veRemoteResume 256 [], .peerLoss 0 4096, .ucieFlitReceive ⟨0, 0, 0⟩ 0 true none, .ucieRetrainComplete ⟨0, 1, 4⟩, .ucieFlitAck ⟨0, 4, 0⟩ 0,
    .tunarFlitReceive 32 0, .tunarReplayRequest 32 0, .tunarResetNotice 32, .tunarPortDown 32, .tunarCreditReturn 0 2 0 1,
    .tunarCreditReturn 0 0 5 1, .tunarCreditReturn 0 0 0 32, .hostFunctionReset 9, .mownRead 4, .htgtWrite 0 0, .mclmClaim 4, .mclmRelease 4,
    .mclmAccept 4, .svnrRaise 4, .pctlCreate 1 8, .pctlDestroy 4 0, .pctlReset 1 8, .pctlQuiesce 1 8, .hdmEnable 1 8 0, .nvmeSlotEnable 1 8 0,
    .hdmDisable 1 8, .nvmeSlotDisable 1 8, .hdmSlicesEmptied 8, .nvmeInitialisationEnd 8 true, .controllerFatalStatus 8],
    i.wf = false := by decide

/-! ## Decoding -/

theorem test_decode_sq_1 : List.map decodeSq
    [0x057F2807, 0x06A21808, 0x05931011, 0x0443701F, 0x04681827, 0x045B9828, 0x07E8A830, 0x06736838, 0x05029041, 0x054E2880, 0x066A9089,
     0x04939891, 0x058490C0, 0x0662A0C9, 0x061690D7, 0x072B0107, 0x067E010F, 0x058A0111, 0x0746B941, 0x0473514F, 0x07ABC157, 0x05541958,
     0x062E0181, 0x072B0189] =
    [some (.add 11 31 5 7), some (.sub 21 2 3 0), some (.mul 12 19 2 1), some (.mulh 2 3 14 7), some (.mulhn 3 8 3 7),
     some (.div 2 27 19 0), some (.divn 31 8 21 0), some (.rem 19 19 13 0), some (.remn 8 2 18 1), some (.and 10 14 5 0),
     some (.or 19 10 18 1), some (.xor 4 19 19 1), some (.shl 12 4 18 0), some (.shr 19 2 20 1), some (.sra 16 22 18 7),
     some (.clz 25 11 7), some (.ctz 19 30 7), some (.popc 12 10 1), some (.min 26 6 23 1), some (.max 3 19 10 7),
     some (.minn 29 11 24 7), some (.maxn 10 20 3 0), some (.sext8 17 14 1), some (.sext16 25 11 1)] := by decide

theorem test_decode_sq_2 : List.map decodeSq
    [0x07D00197, 0x045F01A0, 0x073201AD, 0x057701B5, 0x069099FF, 0x0463FFFD, 0x0897B000, 0x0838B80D, 0x08D3B017, 0x0877681D, 0x083F7825,
     0x0854202F, 0x0C223805, 0x0C46100F, 0x0C872010, 0x0C44001F, 0x1249E229, 0x176EDD35, 0x1AEEFC95, 0x1EDD6169, 0x20A30061, 0x25160078,
     0x2A1B0131, 0x2C6A0111] =
    [some (.sext32 30 16 7), some (.zext8 2 31 0), some (.zext16 25 18 5), some (.zext32 11 23 5), some (.lea 20 16 19 7 7),
     some (.sel 3 7 3 31 5), some (.cmpeq 4 23 22 0), some (.cmpne 1 24 23 5), some (.cmplt 6 19 22 7), some (.cmple 3 23 13 5),
     some (.cmpltn 1 31 15 5), some (.cmplen 2 20 4 7), some (.pand 1 2 7 5), some (.por 2 6 2 7), some (.pxor 4 7 4 0),
     some (.pnot 2 4 7), some (.addi 18 9 7237 1), some (.andi 27 14 7078 5), some (.ori 23 14 8082 5), some (.xori 22 29 3117 1),
     some (.shli 5 3 12 1), some (.shri 8 22 15 0), some (.srai 16 27 38 1), some (.cmpeqi 3 10 34 1)] := by decide

theorem test_decode_sq_3 : List.map decodeSq
    [0x30925E8D, 0x37E02028, 0x39FCC907, 0x3DACC477, 0x40E89834, 0x460C32F3, 0x48030001, 0x4C000007, 0x500531A5, 0x56800008, 0x58130001,
     0x624469D8, 0x647C49DF, 0x68B55F55, 0x6E8C81F8, 0x739087B7, 0x754331AD, 0x7B098D49, 0x82214F3D, 0x84B79EA8, 0x8B315FA8, 0x8EFC5855,
     0x93C60331, 0x969A06AF] =
    [some (.cmplti 4 18 3025 5), some (.loop 31 1029 0), some (.movi 15 235808 7), some (.sethi 13 104590 7), some (.br 1 true 2660404),
     some (.call 4 false 799475), some (.jmp 3 1), some (.ret 7), some (.fence 10637 .core 5), some (.rdc 20 .ctxid 0),
     some (.wrc .cyc 19 1), some (.ldI8 18 4 6 315 0), some (.ldN8 3 28 4 315 7), some (.ldI16 5 21 5 490 5), some (.ldN16 20 12 8 63 0),
     some (.ldI32 28 16 8 246 7), some (.ldN32 10 3 3 53 5), some (.ld64 24 9 8 425 1), some (.st8 17 1 4 487 5),
     some (.st16 5 23 9 469 0), some (.st32 25 17 5 501 0), some (.st64 23 28 5 266 5), some (.lda 30 6 6 .die .b32 1),
     some (.stl 20 26 13 .die .b16 7)] := by decide

theorem test_decode_sq_4 : List.map decodeSq
    [0x9B1A4207, 0x9998088D, 0x9A093E15, 0x99FAF61D, 0x9BEC1A20, 0x99103B29, 0x9A14ED30, 0x9A1E05BD, 0x9B551F40, 0x9BCDD649, 0x9A1D01D7,
     0x9B55595F, 0x99ED0660, 0x9C183181, 0x9C012D0F, 0x9C1AA997, 0x9EDE6199, 0x9C010EA0, 0x9C11C7A9, 0x9C0EE231, 0x9C0102B9, 0x9C0A8A45,
     0x9C0993C9, 0x9C0207D5] =
    [some (.aadd 24 26 8 4 7), some (.aaddf 12 24 1 1 5), some (.axchg 16 9 7 12 5), some (.acas 15 26 30 12 5), some (.amax 31 12 3 4 0),
     some (.amin 8 16 7 6 1), some (.amaxf 16 20 29 10 0), some (.aclrmax 16 30 11 5), some (.aincb 26 21 3 14 0),
     some (.aincw 30 13 26 12 1), some (.adecz 16 29 3 7), some (.aaddl 26 21 11 2 7), some (.axrd 15 13 12 0), some (.aaddN 24 6 3 1),
     some (.aaddfN 1 5 10 7), some (.axchgN 26 21 3 7), some (.acasN 22 30 12 3 1), some (.amaxN 1 1 13 0), some (.aminN 17 24 15 1),
     some (.amaxfN 14 28 4 1), some (.aclrmaxN 1 5 1), some (.aincbN 10 17 4 5), some (.aincwN 9 18 7 1),
     some (.adeczN 2 15 5)] := by decide

theorem test_decode_sq_5 : List.map decodeSq
    [0x9C1D7DDF, 0x9C1BF7E1, 0xA2458C80, 0xA38FC988, 0xA33A2991, 0xA214C118, 0xA00B05A7, 0xA01A06A8, 0xA6120001, 0xA9164000, 0xAD782080,
     0xB1C83938, 0xB5780001, 0xBAE97807, 0xBA200009, 0xB8170015, 0xBBD20019, 0xBB6F2827, 0xB88D002F, 0xB963B041, 0xBDC31005, 0xBF443809,
     0xBFF73015, 0xBCA9101F] =
    [some (.aaddlN 29 15 11 7), some (.axadd 27 30 15 1), some (.waitwEq 18 5 17 9 0), some (.waitwNe 28 15 25 3 0),
     some (.waitwGe 25 26 5 3 1), some (.waitwLt 16 20 24 2 0), some (.alock 11 11 7), some (.aunlk 26 13 0), some (.enq .tu 2 8 1),
     some (.enqw .me 2 25 0), some (.mcw 1040 15 0), some (.mcrd 25 1831 0), some (.rdseq 15 .me 1), some (.spawn 23 9 15 7),
     some (.popt 17 1), some (.join 23 5), some (.qput 30 18 1), some (.qget 27 15 5 7), some (.rclm 4 13 7), some (.evreg 11 3 22 1),
     some (.rpush 14 3 2 5), some (.rpop 26 4 7 1), some (.wfill 31 23 6 5), some (.wfree 5 9 2 7)] := by decide

theorem test_decode_sq_6 : List.map decodeSq
    [0xBD180827, 0xC3B03001, 0xC0D7700F, 0xC00B7011, 0xC18B181D, 0xC02B9027, 0xC5F70807, 0xC571A00D, 0xC63F1810, 0xC7DA4018, 0xC4694820,
     0xC7B9302D, 0xCB250007, 0xCB9E000D, 0xC9A50017, 0xCAEB0018, 0xC9220021, 0xC9DD182D, 0xCFE15235, 0xD074E001, 0xD0690008, 0xD1E10015,
     0xFC000007, 0xFC010005] =
    [some (.subscr 8 24 1 7), some (.otw 29 16 6 1), some (.gbind 6 23 14 7), some (.ptinv 11 14 1), some (.rlaunchStart 12 11 3 5),
     some (.routw 1 11 18 7), some (.publ 15 23 1 7), some (.tvq 11 17 20 5), some (.retain 17 31 3 0), some (.repl 30 26 8 0),
     some (.rcvrVer 3 9 9 0), some (.trimSync 29 25 6 5), some (.twaitAny 25 5 7), some (.twaitAll 28 30 5), some (.tffr 13 5 7),
     some (.tclr 23 11 0), some (.cntrd 9 2 1), some (.cntset 14 29 3 5), some (.waitc 31 2 41 6 5), some (.ctxs 3 20 28 1),
     some (.ctxr 3 9 0), some (.poisq 15 1 5), some (.nop 7), some (.halt 5)] := by decide

theorem test_decode_sq_7 : List.map decodeSq
    [0xFC020001, 0xFC030B11, 0xFC04F030, 0xFC050001, 0xFC060005] =
    [some (.yield 1), some (.bkpt 354 1), some (.trap 7686 0), some (.eret 1), some (.phase 5)] := by decide

theorem test_decode_ve_1 : List.map (decodeVe · [])
    [0x026F8A61, 0x0589C9CC, 0x06BE8132, 0x0815F0D0, 0x0AFA1E44, 0x0D5C11F3, 0x0EA5A72C, 0x11B73769, 0x12BFE013, 0x142D2060, 0x21CA2E20,
     0x2220D5F0, 0x24CF10E0, 0x27FA6050, 0x2885A990, 0x2AF185B0, 0x2CE828B0, 0x2FF2DF20, 0x3122A7E0, 0x321FDC40] =
    [.ok (.vadd ⟨false, .rtz⟩ 13 60 20 6) 1, .ok (.vsub ⟨true, .sr⟩ 49 14 19 4) 1, .ok (.vmul ⟨false, .rdn⟩ 23 52 2 3) 1,
     .ok (.vfma ⟨false, .rne⟩ 2 47 33 5) 1, .ok (.vfms ⟨false, .sr⟩ 31 16 60 4) 1, .ok (.vnfma ⟨false, .rup⟩ 43 32 35 7) 1,
     .ok (.vmin ⟨true, .sr⟩ 20 45 14 2) 1, .ok (.vmax ⟨true, .rtz⟩ 54 57 46 6) 1, .ok (.vabs ⟨false, .rup⟩ 23 63 1) 1, .ok (.vneg ⟨false,
     .rne⟩ 5 41 6) 1, .ok (.vand 57 17 28 2) 1, .ok (.vor 4 6 43 7) 1, .ok (.vxor 25 56 33 6) 1, .ok (.vnot 63 19 5) 1,
     .ok (.vshl 16 45 19 1) 1, .ok (.vshr 30 12 11 3) 1, .ok (.vsra 29 1 17 3) 1, .ok (.vshlImm 62 22 498) 1, .ok (.vshrImm 36 21 126) 1,
     .ok (.vsraImm 3 62 452) 1] := by decide

theorem test_decode_ve_2 : List.map (decodeVe · [])
    [0x4012E614, 0x42B32340, 0x4428C102, 0x46143910, 0x483004A0, 0x501B40BC, 0x5244C4F9, 0x54CE8364, 0x56A60109, 0x59638104, 0x60304094,
     0x63F0ECF2, 0x6425216C, 0x711D87E0, 0x71000881, 0x7009E002, 0x73A0A060, 0x75E43D50, 0x763570E0, 0x762E17A1] =
    [.ok (.vcmp .gt 2 23 12 1) 1, .ok (.vsel 22 25 6 4) 1, .ok (.vmsk .xor 5 6 2) 1, .ok (.vcls 2 33 50 1) 1, .ok (.viota 6 .i8 2) 1,
     .ok (.vcvt ⟨true, .sr⟩ 3 26 .fp32 3) 1, .ok (.vcvtw ⟨true, .rtz⟩ 8 38 .i8 7) 1, .ok (.vcvtn ⟨false, .sr⟩ 25 52 .e3m2 6) 1,
     .ok (.vpack ⟨true, .rtz⟩ 20 48 2) 1, .ok (.vunpk ⟨false, .sr⟩ 44 28 2) 1, .ok (.vred ⟨false, .sr⟩ .min 6 2 1) 1, .ok (.vamax ⟨false,
     .rdn⟩ 62 7 25 7) 1, .ok (.vdot ⟨true, .sr⟩ 4 41 2 6) 1, .ok (.vsplat 35 44 126) 1, .ok (.vsplatImm 32 136) 1,
     .ok (.vsplatReg 1 15) 1, .ok (.vmov 52 5 6) 1, .ok (.vperm 60 33 58 5) 1, .ok (.vslide 6 43 270) 1,
     .ok (.vslideRot 5 48 378) 1] := by decide

theorem test_decode_ve_3 : List.map (decodeVe · [])
    [0x81A0A07A, 0x837E2029, 0x8506E043, 0x87DD8033, 0x894D4024, 0x8A52C8E4, 0x8D29201C, 0x8F024068, 0x916409E1, 0x92F3D91B, 0x94478F92,
     0xA0014000, 0xA2F0A700, 0xB10FFFB8, 0xB2934D7F, 0xB5EF839A, 0xB6314C55] =
    [.ok (.vexp2 ⟨true, .rdn⟩ 52 5 7) 1, .ok (.vlog2 ⟨true, .rtz⟩ 47 49 2) 1, .ok (.vrcp ⟨false, .rup⟩ 32 55 4) 1, .ok (.vrsq ⟨false,
     .rup⟩ 59 44 3) 1, .ok (.vsqrt ⟨false, .sr⟩ 41 42 2) 1, .ok (.vdiv ⟨false, .sr⟩ 10 22 17 6) 1, .ok (.vtanh ⟨true, .sr⟩ 37 9 1) 1,
     .ok (.vsig ⟨true, .rne⟩ 32 18 6) 1, .ok (.vscl ⟨false, .rtz⟩ 44 32 19 6) 1, .ok (.vqnt ⟨true, .rup⟩ 30 30 50 1) 1,
     .ok (.verrf ⟨false, .rdn⟩ 8 60 31 1) 1, .ok (.vshp 10) 1, .ok (.vtag 30 5 .n16) 1, .ok (.vld 33 31 1019 8) 1,
     .ok (.vst 18 13 215 15) 1, .ok (.vldx 61 60 7 1 10) 1, .ok (.vstx 6 10 24 5 5) 1] := by decide

theorem test_decode_me_1 : List.map (decodeMe · [])
    [0x042808C0, 0x08120E40, 0x0FC00400, 0x13000800, 0x14110165, 0x18000006, 0x20400000, 0x243F0080, 0x2EDED9C0, 0x359AB002, 0x3B961000,
     0x3D800001, 0x40360000, 0x441A0000, 0x48000001] =
    [.ok (.mldw 2 .fp16 20) 1, .ok (.mldwt 3 .i8 9) 1, .ok (.mgo 15 1) 1, .ok (.mgob 12 2) 1, .ok (.mgath 8 16 1 101) 1, .ok (.msp 6) 1,
     .ok (.msgo 1) 1, .ok (.mnorm false .fp32 31 16) 1, .ok (.mdrain 11 15 13 true false .e2m3) 1, .ok (.mdrainx 6 13 11 2) 1,
     .ok (.mrda 14 11 1) 1, .ok (.mzero 6 true) 1, .ok (.mvar 27) 1, .ok (.mstat 13) 1, .ok (.mmode .half) 1] := by decide

theorem test_decode_tu_1 : List.map (decodeTu · [])
    [0x07DF1EEF, 0x1B052587, 0x219E4C66, 0x23C7653E, 0x24448081, 0x276B0015, 0x2A9F1505, 0x29C8ACFD, 0x2D8D03E7] =
    [.ok (.cpy 61 30 7 23 false 15) 1, .ok (.cpyh 48 10 9 12 false 7) 1, .ok (.pfch 25 28 19 3 6) 1, .ok (.pfchMap 60 14 25 9 14) 1,
     .ok (.evct 4 9 4 1) 1, .ok (.evctUnmap 54 22 5) 1, .ok (.ctrb 41 30 5 8 5) 1, .ok (.ctrbXa 28 17 11 7 13) 1,
     .ok (.rdyw 24 26 31 7) 1] := by decide

/-- The words with extension words, a chain with its words, and a DEP before its word (R147, R148, R150, R268, R270, R327). -/
theorem test_decode_long :
    decodeMe 0x9C0A6000 [0x3A000000] = .ok (.msamp 5 6 7 8) 2 ∧ decodeMe 0xA812A000 [0x58000000] = .ok (.malias 9 10 11) 2 ∧
    decodeMe 0xB0C85807 [0x30000000] = .ok (.mdraina 3 4 5 6 true 7) 2 ∧
    decodeTu 0x884298E3 [0x42540000] = .ok (.cpys 4 5 6 7 8 9 10 3) 2 ∧ decodeTu 0x8C252D80 [0x6B800000] = .ok (.cpyd 2 10 11 12 13 14 0) 2 ∧
    decodeTu 0x90110C87 [0x29800002] = .ok (.cpyt 1 2 3 4 5 6 2 7) 2 ∧ decodeTu 0x94110C87 [0x298E0025] = .ok (.cpyp 1 2 3 4 5 6 7 9 1 7) 2 ∧
    decodeTu 0x9C7A56C3 [0x0000015A] = .ok (.chld 7 20 21 22 2 3 5 3) 2 ∧
    decodeVe 0xB84004A4 [0x03C02130, 0x06270280] =
      .ok (.vchain ⟨true, .rtz⟩ 0x12 [some ⟨.vadd, 56, 1, 2, 3⟩, some ⟨.vmul, 4, 56, 5, 0⟩]) 3 ∧
    decodeVe 0xC05AAF00 [0x02000000] = .ok (.dep (some (.ve, 5)) (some (.tu, 0xAB)) none) 1 := by decide

/-- The rows that share a word with another: its word decodes to the first of them, which a step refines by the register b (R396, R426,
R427). -/
theorem test_word_rows : encode (.rlaunchUpdate 5 8 9 0) = [0xC0A84818] ∧ encode (.rlaunchStop 5 8 9 0) = [0xC0A84818] ∧
    encode (.rcvrHand 0 14 0) = [0xC4007020] ∧ encode (.trimForce 5 8 9 0) = [0xC4A84828] ∧
    decodeSq 0xC0A84818 = some (.rlaunchStart 5 8 9 0) ∧ decodeSq 0xC4007020 = some (.rcvrVer 0 0 14 0) ∧
    decodeSq 0xC4A84828 = some (.trimSync 5 8 9 0) := by decide

/-- Words that the spec writes out beside their assembly: the examples of R179, R180, R188, R194, R197, R293, R298, R305 and others. -/
theorem test_decode_examples : List.map decodeSq
    [0x38200080, 0x1041FFE8, 0x08420810, 0xA00A0120, 0x74A62010, 0xAAA54000, 0xB5280000, 0xAD480200, 0xB1500810, 0xCC000400, 0xC8A80008,
     0xBD470010, 0xC4C84800, 0xFC060000, 0x55800040, 0x580A0020, 0x500000C8, 0x904900D8, 0x948900D8, 0x986A2218, 0xFC040028, 0xFC050000,
     0x3F100000, 0xC8A84828, 0xD0A80010] =
    [some (.movi 1 16 0), some (.addi 2 1 0x1FFD 0), some (.cmplt 2 2 1 0), some (.alock 10 2 0), some (.ldN32 5 6 2 2 0),
     some (.enqw .tu 20 21 0), some (.rdseq 5 .me 0), some (.mcw 0x40 9 0), some (.mcrd 10 0x102 0), some (.waitc 0 0 2 0 0),
     some (.twaitAll 5 8 0), some (.wfill 10 7 0 0), some (.publ 6 8 9 0), some (.phase 0), some (.rdc 12 .tscr 0),
     some (.wrc .tvec 10 0), some (.fence 6 .die 0), some (.lda 2 9 1 .device .b64 0), some (.stl 4 9 1 .device .b64 0),
     some (.acas 3 10 4 4 0), some (.trap 5 0), some (.eret 0), some (.sethi 24 0x20000 0), some (.cntset 5 8 9 0),
     some (.poisq 5 8 0)] := by decide

theorem test_decode_engine_examples : decodeVe 0xB0160001 [] = .ok (.vld 2 24 0 1) 1 ∧ decodeVe 0xB430E612 [] = .ok (.vldx 6 7 12 1 2) 1 ∧
    decodeMe 0x0CC00000 [] = .ok (.mgo 3 0) 1 ∧ decodeMe 0x04080500 [] = .ok (.mldw 1 .e4m3 4) 1 ∧
    decodeTu 0x045CEF41 [] = .ok (.cpy 5 25 27 26 false 1) 1 ∧ decodeTu 0x9C7A56C3 [0x00000001] = .ok (.chld 7 20 21 22 1 0 0 3) 2 := by decide

/-- Words that the checks of R154 and R155 refuse: a must-be-zero field, an unassigned number, a zero loop counter, a DEP before a DEP, a
missing extension word, a wrong x. -/
theorem test_decode_refuses : List.map decodeSq [0x04000100#32 ||| 0x800#32, 0x34000008, 0x55600050, 0x00000000, 0xFC080000, 0x09000000] =
      [none, none, none, none, none, none] ∧
    decodeVe 0x00000000 [] = .bad 0 ∧ decodeVe 0xC0000000 [0xC0000000] = .bad 0 ∧ decodeVe 0xC0000000 [] = .bad 0 ∧
    decodeMe 0x1C0A6000 [0x3A000000] = .bad 0 ∧ decodeMe 0x9C0A6000 [] = .bad 0 ∧ decodeTu 0xB0000000 [0] = .bad 0 := by decide

/-! ## States for the witnesses -/

/-- The context that a placed program starts with, changed by f. -/
def cx (f : Ctx → Ctx) : Ctx := f (bareCtx placedKey)

/-- The reset state with a program of the SQ placed in slot 0 of core 0, whose context f has changed. -/
def here (ws : List Half) (f : Ctx → Ctx) : State := (State.reset.place none ws).updCtx 0 0 f

/-- A context with registers set. -/
def regs (l : List (Reg × Word)) (x : Ctx) : Ctx := l.foldl (fun y q => y.setReg q.1 q.2) x

/-- The context in slot 0 of core 0 after an outcome. -/
def after (o : Out) : Option Ctx := match o with
  | .next t => t.ctx? 0 0
  | _ => none

/-- A register of that context. -/
def areg (o : Out) (r : Reg) : Option Word := (after o).map fun x => x.reg r

/-- A word at which that context's SQ has its turn, with a true guard and unmarked sources. -/
theorem at_here (ws : List Half) (f : Ctx → Ctx) (g : Pred) (srcs : List Reg)
    (h : (cx f).life = .running ∧ (cx f).pred g = true ∧ (cx f).marked srcs = none) : SqAt (here ws f) 0 0 (cx f) g srcs :=
  ⟨⟨rfl, rfl, h.1⟩, h.2.1, h.2.2⟩

/-! ## The sequencer -/

def divs : Ctx → Ctx := regs [(1, 0x8000000000000000), (2, -1), (3, 64), (4, -7), (5, 2), (6, 7)]

/-- ScalarValues: the words' turn, with the dividend and divisor of the overflow, a zero divisor and a count of 64. -/
theorem witness_ScalarValues : SqAt (here [0] divs) 0 0 (cx divs) 0 [1, 2] ∧ SqAt (here [0] divs) 0 0 (cx divs) 0 [1] ∧
    ((cx divs).reg 1).toInt = -2 ^ 63 ∧ ((cx divs).reg 2).toInt = -1 ∧ (cx divs).reg 0 = 0 ∧ ((cx divs).reg 3).toNat = 64 :=
  ⟨at_here _ _ _ _ (by decide), at_here _ _ _ _ (by decide), by decide, by decide, by decide, by decide⟩

/-- The worked values of R177. -/
theorem test_division_table : areg (exec (.div 7 4 5 0) (here [0] divs)) 7 = some (-3) ∧ areg (exec (.rem 7 4 5 0) (here [0] divs)) 7 = some (-1) ∧
    areg (exec (.divn 7 6 0 0) (here [0] divs)) 7 = some 0xFFFFFFFFFFFFFFFF ∧ areg (exec (.remn 7 6 0 0) (here [0] divs)) 7 = some 7 ∧
    areg (exec (.div 7 1 2 0) (here [0] divs)) 7 = some 0x8000000000000000 ∧ areg (exec (.rem 7 1 2 0) (here [0] divs)) 7 = some 0 ∧
    areg (exec (.mulh 7 2 5 0) (here [0] divs)) 7 = some 0xFFFFFFFFFFFFFFFF ∧ areg (exec (.mulhn 7 2 5 0) (here [0] divs)) 7 = some 1 := by decide

/-- R180: MOVI a24, 0x4000 and then SETHI a24, 0x2_0000. -/
theorem test_sethi : areg (exec (.sethi 24 0x20000 0) (here [0x3F100000] (regs [(24, 0x4000)]))) 24 = some 0x8000000000004000 := by decide

theorem witness_ImmediatesAndPredicates : SqAt (here [0] divs) 0 0 (cx divs) 0 [4, 5] ∧ SqAt (here [0] divs) 0 0 (cx divs) 0 [4] ∧
    SqAt (here [0] divs) 0 0 (cx divs) 0 [] :=
  ⟨at_here _ _ _ _ (by decide), at_here _ _ _ _ (by decide), at_here _ _ _ _ (by decide)⟩

def marked1 : Ctx → Ctx := fun x => { x with apois := [(1, 0x40)], p := 0 }

/-- WordsThatDoNotExecute: a guard p1 that reads false, and a source that carries a mark. -/
theorem witness_WordsThatDoNotExecute : guardOf (.add 3 1 2 1) = some 1 ∧ SqTurn (here [0] marked1) 0 0 (cx marked1) ∧ (cx marked1).pred 1 = false ∧
    guardOf (.add 3 1 2 0) = some 0 ∧ (cx marked1).pred 0 = true ∧ (cx marked1).marked (sourcesOf (.add 3 1 2 0)) = some 0x40 :=
  ⟨rfl, ⟨rfl, rfl, rfl⟩, rfl, rfl, rfl, rfl⟩

/-- A program of four words with a handler at word 3. -/
def handled (pc : Half) (l : List (Reg × Word)) : Ctx → Ctx := fun x => { regs l x with pc := pc, tvec := 0x8000000000000003 }

def four : List Half := [0, 0, 0, 0]

/-- TransfersOfControl: targets at the program's two ends and just beyond, for words taken and not taken. -/
theorem witness_TransfersOfControl : SqAt (here four (handled 1 [(1, 3), (2, 4), (3, 1), (4, 2)])) 0 0 (cx (handled 1 [(1, 3), (2, 4), (3, 1), (4, 2)])) 0 [1] ∧
    ((here four (handled 1 [(1, 3), (2, 4), (3, 1), (4, 2)])).sqWords 0 (cx (handled 1 [(1, 3), (2, 4), (3, 1), (4, 2)]))).length = 4 ∧
    (cx (handled 1 [(1, 3), (2, 4), (3, 1), (4, 2)])).reg 1 = 3 ∧ (cx (handled 1 [(1, 3), (2, 4), (3, 1), (4, 2)])).reg 2 = 4 ∧
    (cx (handled 1 [(1, 3), (2, 4), (3, 1), (4, 2)])).reg 3 = 1 ∧ 1 < ((cx (handled 1 [(1, 3), (2, 4), (3, 1), (4, 2)])).reg 4).toNat ∧
    (here four (handled 1 [(1, 3), (2, 4), (3, 1), (4, 2)])).handlerReady 0 (cx (handled 1 [(1, 3), (2, 4), (3, 1), (4, 2)])) :=
  ⟨at_here _ _ _ _ (by decide), by decide, by decide, by decide, by decide, by decide, by decide, by decide, by decide⟩

theorem test_branch_back : (after (exec (.br 0 false (-1)) (here four (handled 1 [])))).map (·.pc) = some 0 ∧
    (after (exec (.br 0 false (-2)) (here four (handled 1 [])))).map (fun x => (x.pc, x.epc, x.trapc, x.trapv)) = some (3, 1, 1, -1) ∧
    (after (exec (.br 0 true (-2)) (here four (handled 1 [])))).map (·.pc) = some 2 := by decide

/-- SoftwareTraps: a handler that can be entered; no handler; inside it. -/
theorem witness_SoftwareTraps : SqAt (here four (handled 0 [])) 0 0 (cx (handled 0 [])) 0 [] ∧ (here four (handled 0 [])).handlerReady 0 (cx (handled 0 [])) ∧
    SqAt (here four id) 0 0 (cx id) 0 [] ∧ (cx id).tvec.getLsbD 63 = false :=
  ⟨at_here _ _ _ _ (by decide), ⟨rfl, rfl, rfl⟩, at_here _ _ _ _ (by decide), by decide⟩

/-- R197's listing: TRAP 5 at offset 5 with a handler at 7 leaves EPC 6, TRAPC 0x8000_0000, TRAPV 5, and goes on at 7; ERET resumes at 6. -/
theorem test_trap_listing :
    (after (exec (.trap 5 0) (here (List.replicate 9 0) fun x => { x with pc := 5, tvec := 0x8000000000000007 }))).map
      (fun x => (x.epc, x.trapc, x.trapv, x.inh, x.pc)) = some (6, 0x80000000, 5, true, 7) ∧
    (after (exec (.eret 0) (here (List.replicate 9 0) fun x => { x with pc := 8, epc := 6, inh := true, tvec := 0x8000000000000007 }))).map
      (fun x => (x.inh, x.pc)) = some (false, 6) := by decide

theorem witness_ReturnFromHandler : SqAt (here four fun x => { x with inh := true, epc := 3 }) 0 0 (cx fun x => { x with inh := true, epc := 3 }) 0 [] ∧
    ((here four fun x => { x with inh := true, epc := 3 }).sqWords 0 (cx fun x => { x with inh := true, epc := 3 })).length = 4 ∧
    SqAt (here four fun x => { x with inh := true, epc := 4 }) 0 0 (cx fun x => { x with inh := true, epc := 4 }) 0 [] ∧
    SqAt (here four (handled 1 [])) 0 0 (cx (handled 1 [])) 0 [] ∧ (here four (handled 1 [])).handlerReady 0 (cx (handled 1 [])) :=
  ⟨at_here _ _ _ _ (by decide), by decide, at_here _ _ _ _ (by decide), at_here _ _ _ _ (by decide), ⟨rfl, rfl, rfl⟩⟩

/-! ## A small partition

Partition 0 with cores 0 to 3, two HBM slices and a page table: G address 0 leads to HBM at 0x4000_0000, 2^30 to slice 3 of core 0's accumulator
SRAM, 2^31 to device 7. Region 0 runs, with every core and 4 slices; region 1 is free. Object 1, at G 0x120, is an image; object 2 is data of 512 bytes at 0. -/

def leafWord (kind body : Nat) : List Byte := bytesOf 8 (2 ^ 63 + kind * 2 ^ 60 + 2 * 2 ^ 57 + 2 ^ 56 + 2 ^ 55 + body)

/-- Memory with bytes written at some addresses. -/
def poke (l : List (Nat × List Byte)) : Memory := l.foldl (fun m q => Memory.write m q.1 q.2) []

def pages : Memory :=
  poke [(0x1000, bytesOf 8 (2 ^ 63 + 0x2000)), (0x2000, bytesOf 8 (2 ^ 63 + 0x3000)), (0x3000, leafWord 1 0x40000000),
    (0x3008, bytesOf 8 (2 ^ 63 + 0x4000)), (0x3010, leafWord 4 7), (0x4000, bytesOf 8 (2 ^ 63 + 0x5000)), (0x5000, leafWord 3 24),
    (0x40000087, [0x30]), (0x40000127, [0x92]),
    (0x40000147, [0xA8]), (0x40000151, [2])]

/-- What the context's L holds: records of code 1 at 0 and, with MGMT, at 0x80; object entries without V, without a kind and of kind 4 at 0x100, 0x120 and 0x140; a
binding of core 2 at 0x160; the descriptor of a local ring at 0x180; an RCB below region 0 with one core at 0x200; entries of rings whose descriptors are well formed, malformed and not resident at 0x300, 0x320
and 0x340; the same RCB with an entry record, and that record, at 0x400 and 0x580. -/
def notes : Memory :=
  poke [(0, [1]), (0x80, [1]), (0x86, [2]), (0x127, [0x80]), (0x147, [0xC0]), (0x150, [1]), (0x160, [2]), (0x170, [1]), (0x18C, [1]), (0x203, [4]), (0x210, [1]), (0x241, [2]),
    (0x307, [0xC0, 0x40]), (0x310, [32]), (0x327, [0xC0, 0x80]), (0x330, [32]), (0x347, [0xC0]), (0x34D, [1]), (0x350, [32]),
    (0x403, [4]), (0x410, [1]), (0x430, bytesOf 8 0x8000000000000580), (0x441, [2]), (0x580, [1, 0, 0x10])]

def rootRcb : List Word :=
  [0x4000000, 0, 0x40100, 0x10000000000, 0x10000000000, 0xFFFFFFFF, 0, 0, 0x00F20000, 0, 0, 0, 0, 0, 0, 0,
    0, 0, 0, 0, 0, 0, 0, 0, 0, 0, 0, 0, 0, 0, 0, 0]

def part0 : Part := { Part.reset with
  exists_ := true
  desc := poke [(0x8, [0, 1]), (0x10, [64]), (0x18, bytesOf 8 0x1000), (0x80, [15]), (0xA0, [3])]
  regions := [(0, ⟨.running, rootRcb, 0, 0, [(0, 0), (1, 0)]⟩)] }

def atask (tid : Word) (record : Rec) (st : TState) : Task where
  part := 0
  record := record
  tid := tid
  st := st
  place := .local 0
  die := 0
  core := 0
  phase := 0
  recomp := false
  readyAt := 0
  aged := 0
  waitPri := 0
  reruns := 0
  excl := []
  parent := none
  bySpawn := false
  waits := []
  replWaits := []
  deltas := []
  images := []
  areas := []
  members := []
  halted := []
  stop := none
  boot := none
  since := 0
  depth := 0
  ranOn := none

/-- The small partition, with the context of core 0 as task 1 of tasks l. -/
def world (f : Ctx → Ctx) (l : List Task) : State :=
  { (here [0] fun x => f { x with tid := 1, held := 1, win := 1, phys := [2], l := notes }).updCore 0 fun r =>
      { r with heldReset := false, lineOwner := [(0, 0), (1, 0), (2, 0), (3, 0), (4, 0), (5, 0)], sliceOwner := [(2, 0)] } with
    parts := [(0, part0)], mem := pages, tasks := l }

/-- Its context. -/
def wx (f : Ctx → Ctx) : Ctx := cx fun x => f { x with tid := 1, held := 1, win := 1, phys := [2], l := notes }

theorem at_world (f : Ctx → Ctx) (l : List Task) (g : Pred) (srcs : List Reg)
    (h : (wx f).life = .running ∧ (wx f).pred g = true ∧ (wx f).marked srcs = none) : SqAt (world f l) 0 0 (wx f) g srcs :=
  ⟨⟨rfl, rfl, h.1⟩, h.2.1, h.2.2⟩

/-- What a device read of n bytes at a gives, where it gives bytes. -/
def readsOf (s : State) (x : Ctx) (a : Word) (n : Nat) : Option (State × List Byte) := match s.readPieces 0 0 x (devPieces a n) with
  | .bytes u bs => some (u.updCtx 0 0 fun y => { y with asks := [], got := [] }, bs)
  | _ => none

theorem reads_with {s : State} {x : Ctx} {a : Word} {n : Nat} {P : State → List Byte → Prop} [∀ t bs, Decidable (P t bs)]
    (h : (readsOf s x a n).any (fun q => decide (P q.1 q.2)) = true) : ∃ t bs, s.Reads 0 0 x a n t bs ∧ P t bs := by
  unfold readsOf at h
  cases e : s.readPieces 0 0 x (devPieces a n) with
  | bytes u bs => rw [e] at h; exact ⟨_, bs, ⟨u, e, rfl⟩, of_decide_eq_true h⟩
  | _ => rw [e] at h; cases h

/-- The bytes that the pieces of a device read give, and what the state has then noted. -/
def piecesOf (s : State) (x : Ctx) (a : Word) (n : Nat) : Option (State × List Byte) := match s.readPieces 0 0 x (devPieces a n) with
  | .bytes u bs => some (u, bs)
  | _ => none

theorem pieces_with {s : State} {x : Ctx} {a : Word} {n : Nat} {P : State → List Byte → Prop} [∀ t bs, Decidable (P t bs)]
    (h : (piecesOf s x a n).any (fun q => decide (P q.1 q.2)) = true) :
    ∃ t bs, s.readPieces 0 0 x (devPieces a n) = .bytes t bs ∧ P t bs := by
  unfold piecesOf at h
  cases e : s.readPieces 0 0 x (devPieces a n) with
  | bytes u bs => rw [e] at h; exact ⟨u, bs, rfl, of_decide_eq_true h⟩
  | _ => rw [e] at h; cases h

/-- The state of a record that is admitted. -/
def freshOf (a : Admit) : Option State := match a with
  | .fresh t => some t
  | _ => none

/-- SystemWordsAndYield: a task alone, and one beside a ready task that core 0 may take. -/
theorem witness_SystemWordsAndYield :
    (SqAt (world id [atask 1 0 .running]) 0 0 (wx id) 0 [] ∧ (wx id).stores = [] ∧ (wx id).loads = [] ∧
      (world id [atask 1 0 .running]).task? 0 1 = some (atask 1 0 .running) ∧
      ∀ u ∈ (world id [atask 1 0 .running]).tasks, u.st = .ready → (world id [atask 1 0 .running]).effPri u < 0) ∧
    (SqAt (world id [atask 1 0 .running, atask 2 0 .ready]) 0 0 (wx id) 0 [] ∧
      (world id [atask 1 0 .running, atask 2 0 .ready]).task? 0 1 = some (atask 1 0 .running) ∧ recGang (atask 1 0 .running).record = 0 ∧
      (wx id).inline = false ∧ (wx id).inh = false ∧ (world id [atask 1 0 .running, atask 2 0 .ready]).canSave 0 0 = true ∧
      ((world id [atask 1 0 .running, atask 2 0 .ready]).part 0).quiesce = none ∧
      (world id [atask 1 0 .running, atask 2 0 .ready]).eligible 0 (atask 2 0 .ready) = true ∧
      (world id [atask 1 0 .running, atask 2 0 .ready]).effPri (atask 1 0 .running) ≤
        (world id [atask 1 0 .running, atask 2 0 .ready]).effPri (atask 2 0 .ready)) :=
  ⟨⟨at_world _ _ _ _ (by decide), rfl, rfl, rfl, by decide⟩,
    at_world _ _ _ _ (by decide), rfl, by decide +kernel, rfl, rfl, by decide +kernel, rfl, by decide +kernel, by decide +kernel⟩

/-! ## Control registers -/

theorem witness_ControlRegisterReads : SqAt (world id [atask 1 0 .running]) 0 0 (wx id) 0 [] ∧ (wx id).part < 8 ∧
    (world id [atask 1 0 .running]).task? (wx id).part (wx id).tid = some (atask 1 0 .running) ∧ (wx id).held < 2 ^ 48 ∧
    (wx id).loads.length < 2 ^ 14 ∧ (world id [atask 1 0 .running]).copies (wx id) < 2 ^ 7 ∧ (wx id).creg < 2 ^ 12 :=
  ⟨at_world _ _ _ _ (by decide), by decide, rfl, by decide, by decide, by decide, by decide⟩

def sysAt (l : List (Reg × Word)) : Ctx → Ctx := fun x => { regs l x with sys := true }

/-- ControlRegisterWrites: at system level with a window of the partition, and at user level with a handler. -/
theorem witness_ControlRegisterWrites :
    (SqAt ((world (sysAt [(1, 5)]) []).updCore 0 fun r => { r with windows := [(5, .held 0)] }) 0 0 (wx (sysAt [(1, 5)])) 0 [1] ∧
      (wx (sysAt [(1, 5)])).sys = true ∧
      ((world (sysAt [(1, 5)]) []).updCore 0 fun r => { r with windows := [(5, .held 0)] }).windowOf 0 0 5 = true ∧
      ((world (sysAt [(1, 5)]) []).updCore 0 fun r => { r with windows := [(5, .held 0)] }).accIdle 0 0 (wx (sysAt [(1, 5)])) = true) ∧
    (SqAt (here four (handled 0 [(1, 5)])) 0 0 (cx (handled 0 [(1, 5)])) 0 [1] ∧ (cx (handled 0 [(1, 5)])).sys = false ∧
      (here four (handled 0 [(1, 5)])).handlerReady 0 (cx (handled 0 [(1, 5)]))) :=
  ⟨⟨⟨⟨rfl, rfl, rfl⟩, rfl, rfl⟩, rfl, by decide, by decide⟩, at_here _ _ _ _ (by decide), rfl, rfl, rfl, rfl⟩

/-- RegisterWordFrame: an ADD, a CMPEQ and a BR each have a next state. -/
theorem witness_RegisterWordFrame : SqTurn (here four id) 0 0 (cx id) ∧ (∃ t, exec (.add 3 1 2 0) (here four id) = .next t) ∧
    valueDest (.add 3 1 2 0) = some 3 ∧ (∃ t, exec (.cmpeq 3 1 2 0) (here four id) = .next t) ∧ predDest (.cmpeq 3 1 2 0) = some 3 ∧
    (∃ t, exec (.br 0 false 1) (here four id) = .next t) ∧ transfers (.br 0 false 1) = true :=
  ⟨⟨rfl, rfl, rfl⟩, ⟨_, rfl⟩, rfl, ⟨_, rfl⟩, rfl, ⟨_, rfl⟩, rfl⟩

theorem test_wrc_tvec_keeps_en : (after (exec (.wrc .tvec 1 0) (here four (regs [(1, -1)])))).map (·.tvec) = some 0x80000000FFFFFFFF := by decide

/-! ## Memory words -/

/-- ScalarLoads: a doubleword of HBM through G, and one of L. -/
theorem witness_ScalarLoads : (SqAt (world (regs [(1, 0x10)]) []) 0 0 (wx (regs [(1, 0x10)])) 0 [1] ∧
      ∃ t, (world (regs [(1, 0x10)]) []).openSq 0 0 (wx (regs [(1, 0x10)])) 0 0x10 8 .read = .go t (.mem 0x40000010)) ∧
    (SqAt (world (regs [(1, 0x8000000000000010)]) []) 0 0 (wx (regs [(1, 0x8000000000000010)])) 0 [1] ∧
      ∃ t, (world (regs [(1, 0x8000000000000010)]) []).openSq 0 0 (wx (regs [(1, 0x8000000000000010)])) 0 0x8000000000000010 8 .read = .go t (.l 0 0 0x10)) :=
  ⟨⟨at_world _ _ _ _ (by decide), _, rfl⟩, at_world _ _ _ _ (by decide), _, rfl⟩

theorem witness_ScalarStoresAndReadBack : (SqAt (world (regs [(1, 0x10), (2, 9)]) []) 0 0 (wx (regs [(1, 0x10), (2, 9)])) 0 [2, 1] ∧
      (∃ t, (world (regs [(1, 0x10), (2, 9)]) []).openSq 0 0 (wx (regs [(1, 0x10), (2, 9)])) 0 0x10 8 .write = .go t (.mem 0x40000010)) ∧
      (wx (regs [(1, 0x10), (2, 9)])).sqPending = [] ∧
      (world (regs [(1, 0x10), (2, 9)]) []).bounceSlot 0 0 = none) ∧ (world id []).ctx? 0 0 = some (wx id) :=
  ⟨⟨at_world _ _ _ _ (by decide), ⟨_, rfl⟩, rfl, rfl⟩, rfl⟩

/-- R292: a stored word lies lowest byte first, and a signed byte load extends its sign. -/
theorem test_store_bytes : ((match exec (.st32 2 1 1 0 0) (world (regs [(1, 0x10), (2, 0x11223384)]) []) with
      | .next t => t.mem.read 0x40000010 4
      | _ => []) = [0x84, 0x33, 0x22, 0x11]) ∧
    (areg (exec (.ldI8 3 1 1 0 0) { world (regs [(1, 0x10)]) [] with mem := Memory.write pages 0x40000010 [0x84] }) 3 = some 0xFFFFFFFFFFFFFF84) := by decide

/-- SelectorsAndMemoryTraps: an owned line of L at the ends of its range, a slice of A inside and outside the window, the other selectors; a
misaligned load and a refused one with a handler. -/
theorem witness_SelectorsAndMemoryTraps :
    (world id []).ctx? 0 0 = some (wx id) ∧ Tab.find ((world id []).core 0).lineOwner (255 / 256) = some 0 ∧ (wx id).regionOf 0 = none ∧
    (wx id).held = 1 ∧ (wx id).win.getLsbD 0 = true ∧ (wx id).phys.length = 1 ∧
    (SqTurn (here four (handled 0 [(1, 4)])) 0 0 (cx (handled 0 [(1, 4)])) ∧ (cx (handled 0 [(1, 4)])).pred 0 = true ∧
      (here four (handled 0 [(1, 4)])).handlerReady 0 (cx (handled 0 [(1, 4)])) ∧ (cx (handled 0 [(1, 4)])).marked [1] = none ∧
      ((cx (handled 0 [(1, 4)])).reg 1).toNat % 8 ≠ 0) ∧
    (here four (handled 0 [(1, 0x8200000000000000)])).openAt 0 0 (cx (handled 0 [(1, 0x8200000000000000)])) 0x8200000000000000 8 .read = .deny 2 :=
  ⟨rfl, rfl, rfl, rfl, rfl, rfl, ⟨⟨rfl, rfl, rfl⟩, rfl, ⟨rfl, rfl, rfl⟩, rfl, by decide⟩, rfl⟩

/-- RemoteScalarAccesses: the page at G 2^31 lies on device 7, and a route leads to it by port 0. -/
def far (l : List (Reg × Word)) : State :=
  { world (regs l) [] with routes := [(7, 0x88000000)], tunars := [(0, { Tunar.reset with up := true })] }

theorem at_far (l : List (Reg × Word)) (srcs : List Reg) (h : (wx (regs l)).life = .running ∧ (wx (regs l)).pred 0 = true ∧ (wx (regs l)).marked srcs = none) :
    SqAt (far l) 0 0 (wx (regs l)) 0 srcs := ⟨⟨rfl, rfl, h.1⟩, h.2.1, h.2.2⟩

theorem witness_RemoteScalarAccesses :
    (SqAt (far [(1, 0x80000000)]) 0 0 (wx (regs [(1, 0x80000000)])) 0 [1] ∧ ∃ t u y i, t.requestRoom 0 1 = true ∧ u.ctx? 0 0 = some y ∧
      (far [(1, 0x80000000)]).openSq 0 0 (wx (regs [(1, 0x80000000)])) 0 0x80000000 8 .read = .go t (.remote 7) ∧
      t.sendRemote 0 7 1 7 0x80000000 [] = .sent u [i]) ∧
    (SqAt (far [(1, 0x80000000)]) 0 0 (wx (regs [(1, 0x80000000)])) 0 [2, 1] ∧ ∃ t u y i, t.requestRoom 0 1 = true ∧ u.ctx? 0 0 = some y ∧
      (far [(1, 0x80000000)]).openSq 0 0 (wx (regs [(1, 0x80000000)])) 0 0x80000000 8 .write = .go t (.remote 7) ∧
      t.sendRemote 0 7 2 7 0x80000000 (List.replicate 8 0) = .sent u [i]) :=
  ⟨⟨at_far _ _ (by decide), _, _, _, _, by decide +kernel, rfl, rfl, rfl⟩, at_far _ _ (by decide), _, _, _, _, by decide +kernel, rfl, rfl, rfl⟩

/-! ## Windows -/

/-- A context with a1 at word 0 of its window slice, whose physical slice 2 has word 0 at v, word 1 at 9 and the given poisoned units. -/
def winx (f : Ctx → Ctx) (l : List (Reg × Word)) : Ctx → Ctx := fun x => f (regs ((1, 0x8100000000000000) :: l) x)

def win (f : Ctx → Ctx) (l : List (Reg × Word)) (v : Nat) (pois : List Nat) : State :=
  (world (winx f l) [atask 1 0 .running]).updCore 0 fun r =>
    { r with slices := [(2, { Slice.zero with bytes := poke [(0, bytesOf 8 v), (8, [9])], pois := pois })] }

theorem at_win (f : Ctx → Ctx) (l : List (Reg × Word)) (v : Nat) (pois : List Nat) (srcs : List Reg)
    (h : (wx (winx f l)).life = .running ∧ (wx (winx f l)).pred 0 = true ∧ (wx (winx f l)).marked srcs = none) :
    SqAt (win f l v pois) 0 0 (wx (winx f l)) 0 srcs := ⟨⟨rfl, rfl, h.1⟩, h.2.1, h.2.2⟩

theorem witness_IntegerAtomics : SqAt (win id [(2, 5), (3, 7)] 7 []) 0 0 (wx (winx id [(2, 5), (3, 7)])) 0 [3, 1, 2] ∧
    SqAt (win id [(2, 5), (3, 7)] 7 []) 0 0 (wx (winx id [(2, 5), (3, 7)])) 0 [1, 2] ∧
    ((wx (winx id [(2, 5), (3, 7)])).reg 1).toNat % 16 = 0 ∧ ∃ t u v,
      (win id [(2, 5), (3, 7)] 7 []).openSq 0 0 (wx (winx id [(2, 5), (3, 7)])) 0 0x8100000000000000 16 .atomic = .go t (.win 0 2 0) ∧
      t.marksAt (.win 0 2 0) 8 = [] ∧ (t.crossed 0 (.win 0 2 0)).detCheck (wx (winx id [(2, 5), (3, 7)])).detKey 0 2 0 false = some u ∧
      (t.crossed 0 (.win 0 2 0)).detCheck (wx (winx id [(2, 5), (3, 7)])).detKey 0 2 0 true = some v ∧
      (win id [(2, 5), (3, 7)] 7 []).openSq 0 0 (wx (winx id [(2, 5), (3, 7)])) 0 0x8100000000000000 8 .atomic = .go t (.win 0 2 0) :=
  ⟨at_win _ _ _ _ _ (by decide), at_win _ _ _ _ _ (by decide), by decide, _, _, _, rfl, by decide, rfl, rfl, rfl⟩

/-- The word at a1 after an outcome, and a3. -/
def wordAnd3 (o : Out) : Option (Word × Word) := match o with
  | .next t => (t.ctx? 0 0).map fun x => ((t.slice 0 2).word 0, x.reg 3)
  | _ => none

/-- R299's table on the word 7: AADD 5, ACAS with 7 and 5, AMAX −1, AINCW 7, ADECZ, AADDL 5 against the limit 9. -/
theorem test_atomics : wordAnd3 (exec (.aadd 3 1 2 0 0) (win id [(2, 5)] 7 [])) = some (12, 7) ∧
    wordAnd3 (exec (.acas 3 1 2 0 0) (win id [(2, 5), (3, 7)] 7 [])) = some (5, 7) ∧
    wordAnd3 (exec (.acas 3 1 2 0 0) (win id [(2, 5), (3, 6)] 7 [])) = some (7, 7) ∧
    wordAnd3 (exec (.amax 3 1 2 0 0) (win id [(2, -1)] 7 [])) = some (7, 7) ∧
    wordAnd3 (exec (.aincw 3 1 2 0 0) (win id [(2, 8)] 7 [])) = some (0, 7) ∧
    wordAnd3 (exec (.adecz 3 1 0 0) (win id [] 0 [])) = some (0, 0) ∧
    wordAnd3 (exec (.aaddl 3 1 2 0 0) (win id [(2, 5)] 7 [])) = some (7, 7) ∧
    wordAnd3 (exec (.aaddl 3 1 2 0 0) (win id [(2, 2)] 7 [])) = some (9, 7) := by decide +kernel

theorem witness_FloatAtomics : SqAt (win id [(2, 0x3F800000)] 0x3F800000 []) 0 0 (wx (winx id [(2, 0x3F800000)])) 0 [1, 2] ∧
    ((wx (winx id [(2, 0x3F800000)])).reg 1).toNat % 64 = 0 ∧ ∃ t u v,
      (win id [(2, 0x3F800000)] 0x3F800000 []).openSq 0 0 (wx (winx id [(2, 0x3F800000)])) 0 0x8100000000000000 64 .atomic = .go t (.win 0 2 0) ∧
      t.marksAt (.win 0 2 0) 64 = [] ∧ (t.crossed 0 (.win 0 2 0)).detCheck (wx (winx id [(2, 0x3F800000)])).detKey 0 2 0 false = some u ∧
      (t.crossed 0 (.win 0 2 0)).detCheck (wx (winx id [(2, 0x3F800000)])).detKey 0 2 0 true = some v ∧
      (win id [(2, 0x3F800000)] 0x3F800000 []).openSq 0 0 (wx (winx id [(2, 0x3F800000)])) 0 0x8100000000000000 4 .atomic = .go t (.win 0 2 0) :=
  ⟨at_win _ _ _ _ _ (by decide), by decide, _, _, _, rfl, by decide, rfl, rfl, rfl⟩

/-- 1.0 + 1.0 = 2.0, and of −3.0 and 1.0 AMAXF keeps 3.0. -/
theorem test_float_atomics : wordAnd3 (exec (.aaddf 3 1 2 0 0) (win id [(2, 0x3F800000)] 0x3F800000 [])) = some (0x40000000, 0x3F800000) ∧
    wordAnd3 (exec (.amaxf 3 1 2 0 0) (win id [(2, 0x3F800000)] 0xC0400000 [])) = some (0x40400000, 0xC0400000) := by decide +kernel

def detOn (x : Ctx) : Ctx := { x with det := true }

/-- A state in a deterministic region whose word 0 of the window slice has R68 bits. -/
def bits (b : DetBits) : State := (win detOn [] 7 []).updCore 0 fun r => { r with slices := [(2, { Slice.zero with bits := [(0, b)] })] }

/-- WindowChecks: bits of this phase that refuse each kind, bits of another phase, and none; a poisoned unit; a misaligned address. -/
theorem witness_WindowChecks :
    Tab.find ((bits ⟨true, true, 0, 0⟩).slice 0 2).bits (0 / 8) = some ⟨true, true, 0, 0⟩ ∧
    Tab.find ((bits ⟨true, true, 0, 1⟩).slice 0 2).bits (0 / 8) = some ⟨true, true, 0, 1⟩ ∧ Tab.find ((win id [] 7 []).slice 0 2).bits (0 / 8) = none ∧
    (∃ t, SqAt (bits ⟨true, true, 0, 0⟩) 0 0 (wx (winx detOn [])) 0 [3, 1, 2] ∧
      (bits ⟨true, true, 0, 0⟩).openSq 0 0 (wx (winx detOn [])) 0 0x8100000000000000 8 .atomic = .go t (.win 0 2 0) ∧
      (t.crossed 0 (.win 0 2 0)).detCheck (wx (winx detOn [])).detKey 0 2 0 false = none ∧ (t.crossed 0 (.win 0 2 0)).detCheck (wx (winx detOn [])).detKey 0 2 0 true = none) ∧
    (∃ t y, (win id [] 7 [0]).openSq 0 0 (wx (winx id [])) 0 0x8100000000000000 8 .atomic = .go t (.win 0 2 0) ∧
      ((t.crossed 0 (.win 0 2 0)).detCheck (wx (winx id [])).detKey 0 2 0 false).isSome = true ∧ t.marksAt (.win 0 2 0) 8 ≠ [] ∧ t.ctx? 0 0 = some y) ∧
    ((cx (regs [(1, 4)])).reg 1).toNat % 8 ≠ 0 :=
  ⟨rfl, rfl, rfl, ⟨_, ⟨⟨rfl, rfl, rfl⟩, rfl, rfl⟩, rfl, by decide +kernel, by decide +kernel⟩, ⟨_, _, rfl, by decide, by decide, rfl⟩, by decide⟩

def lockMe : Nat := 0x8000000000000000

/-- WordWaitsAndLocks: a word whose condition holds and one whose does not; a free word, another's and the context's own. -/
theorem witness_WordWaitsAndLocks :
    (SqAt (win id [(2, 5)] 7 []) 0 0 (wx (winx id [(2, 5)])) 0 [1, 2] ∧ ∃ t u,
      (win id [(2, 5)] 7 []).openSq 0 0 (wx (winx id [(2, 5)])) 0 0x8100000000000000 8 .atomic = .go t (.win 0 2 0) ∧ t.marksAt (.win 0 2 0) 8 = [] ∧
      (t.crossed 0 (.win 0 2 0)).detCheck (wx (winx id [(2, 5)])).detKey 0 2 0 false = some u ∧ (t.slice 0 2).word 0 = 7 ∧ (u.ctx? 0 0).isSome = true) ∧
    (SqAt (win id [] 0 []) 0 0 (wx (winx id [])) 0 [1] ∧ ∃ t u,
      (win id [] 0 []).openSq 0 0 (wx (winx id [])) 0 0x8100000000000000 8 .atomic = .go t (.win 0 2 0) ∧ t.marksAt (.win 0 2 0) 8 = [] ∧
      (t.crossed 0 (.win 0 2 0)).detCheck (wx (winx id [])).detKey 0 2 0 false = some u ∧ (wx (winx id [])).hlc < 0xFFFF ∧ (t.slice 0 2).word 0 = 0) ∧
    (∃ t, (win id [] lockMe []).openSq 0 0 (wx (winx id [])) 0 0x8100000000000000 8 .atomic = .go t (.win 0 2 0) ∧ (wx (winx id [])).sqPending = [] ∧ (t.slice 0 2).word 0 = 1#1 ++ BitVec.ofNat 36 0 ++ BitVec.ofNat 12 (t.part 0).devnum ++ BitVec.ofNat 15 (0 * 4096 + 0 * 16 + 0)) ∧
    ((win id [] 7 []).core 0).lockq.find? (fun q => q.slice == 2 && q.off == 0) = none :=
  ⟨⟨at_win _ _ _ _ _ (by decide), _, _, rfl, by decide, rfl, by decide, by decide⟩,
    ⟨at_win _ _ _ _ _ (by decide), _, _, rfl, by decide, rfl, by decide, by decide⟩, ⟨_, rfl, rfl, by decide⟩, rfl⟩

theorem test_alock_takes : wordAnd3 (exec (.alock 1 0 0) (win id [] 0 [])) = some (0x8000000000000000, 0) := by decide +kernel

/-! ## Engines, tasks, rings -/

def engImage : Loaded := ⟨placedKey, 0, [0], [0x02000000, 0x02000000], [0x0CC00000, 0x0CC00000], [], 0⟩

/-- A context with a1 = 0 and a2 = 2, and with whatever f sets; its image has two VADDs and two MGOs; the chains hold the given entries. -/
def engs (f : Ctx → Ctx) (ve me : List Entry) : State :=
  (world (fun x => f (regs [(2, 2), (3, 0), (4, 4097)] x)) []).updCore 0 fun r => { r with imem := [engImage], ve := ve, me := me }

def ex (f : Ctx → Ctx) : Ctx := wx fun x => f (regs [(2, 2), (3, 0), (4, 4097)] x)

theorem at_engs (f : Ctx → Ctx) (ve me : List Entry) (srcs : List Reg)
    (h : (ex f).life = .running ∧ (ex f).pred 0 = true ∧ (ex f).marked srcs = none) : SqAt (engs f ve me) 0 0 (ex f) 0 srcs :=
  ⟨⟨rfl, rfl, h.1⟩, h.2.1, h.2.2⟩

def entryOf (e : Eng) : Entry := mkEntry (ex id) 0 e 0 2 []

def waiting (x : Ctx) : Ctx := { x with enqw := [(0, (.ve, 0, 1))] }

/-- EnqueueWords: a block that fits, with room; a context with 16 entries; blocks of no words and of 4,097; an ENQW whose entry has ended and
one whose entry has not. -/
theorem witness_EnqueueWords :
    (SqAt (engs id [] []) 0 0 (ex id) 0 [1, 2] ∧ ((ex id).reg 1).toNat = 0 ∧ ((ex id).reg 2).toNat = 2 ∧
      ((engs id [] []).section 0 (ex id) .ve).length = 2 ∧
      ((engs id [] []).core 0).entriesOf .ve 0 = [] ∧ (engs id [] []).blockMark 0 (ex id) .ve 0 2 = none ∧
      Tab.find (ex id).enqw (ex id).pc.toNat = none ∧ (engs id [] []).section 0 (ex id) .ve = [0x02000000, 0x02000000] ∧
      isDep 0x02000000 = false ∧ followers .ve 0x02000000 = 0) ∧
    (SqAt (engs id (List.replicate 16 (entryOf .ve)) []) 0 0 (ex id) 0 [1, 2] ∧
      (((engs id (List.replicate 16 (entryOf .ve)) []).core 0).entriesOf .ve 0).length = 16) ∧
    ((ex id).reg 3).toNat = 0 ∧ ((ex id).reg 4).toNat = 4097 ∧
    (Tab.find (ex waiting).enqw (ex waiting).pc.toNat = some (.ve, 0, 1) ∧ (engs waiting [] []).entryEnded 0 0 (ex waiting) .ve 0 1 = true ∧
      (engs waiting [entryOf .ve] []).entryEnded 0 0 (ex waiting) .ve 0 1 = false) := by
  refine ⟨⟨at_engs _ _ _ _ (by decide), ?_, ?_, ?_, ?_, ?_, ?_, ?_, ?_, ?_⟩, ⟨at_engs _ _ _ _ (by decide), ?_⟩, ?_, ?_, ?_, ?_, ?_⟩ <;> decide +kernel

/-- A context whose VE executes a DEP and the words after it. -/
def depState (ws : List Half) (f : Ctx → Ctx) : State := (State.reset.place (some .ve) ws).updCtx 0 0 f

def appended1 (x : Ctx) : Ctx := { x with appended := x.appended.set 1 1 }

/-- EngineRegistersAndDepWaits: shadow register 0x40 with and without an MGO left to run, a number outside the table, the active copy, the
status registers; a DEP whose token is satisfied, one whose word of the ME has not completed, one before a DEP, and one at its block's end. -/
theorem witness_EngineRegistersAndDepWaits :
    (SqAt (engs id [] []) 0 0 (ex id) 0 [1] ∧ ((engs id [] []).core 0).entriesOf .me 0 = [] ∧
      SqAt (engs id [] [entryOf .me]) 0 0 (ex id) 0 [1] ∧
      (((engs id [] [entryOf .me]).core 0).entriesOf .me 0).any (fun q => anyLatch ((engs id [] [entryOf .me]).unrun 0 (ex id) q) 0) = true ∧
      ¬ (((0x7FF#11).toNat < 48 ∧ (0x7FF#11).toNat % 8 ≤ 5) ∨ (0x40 ≤ (0x7FF#11).toNat ∧ (0x7FF#11).toNat ≤ 0x48) ∨
        (0x80 ≤ (0x7FF#11).toNat ∧ (0x7FF#11).toNat ≤ 0x83) ∨ (0x90 ≤ (0x7FF#11).toNat ∧ (0x7FF#11).toNat ≤ 0x9F))) ∧
    (∃ n x w0 w1 l, (depState [0xC10C0300, 0x02000000] id).engineTurn = some (0, .ve, n, x) ∧
      (depState [0xC10C0300, 0x02000000] id).entryWords 0 x .ve n = w0 :: w1 :: l ∧ isDep w1 = false) ∧
    (∃ n x, (depState [0xD01C0300, 0x02000000] appended1).engineTurn = some (0, .ve, n, x) ∧
      (depState [0xD01C0300, 0x02000000] appended1).tokenDone 0 0 x .me 1 = false) ∧
    (∃ n x w0 w1 l, (depState [0xC10C0300, 0xC10C0300] id).engineTurn = some (0, .ve, n, x) ∧
      (depState [0xC10C0300, 0xC10C0300] id).entryWords 0 x .ve n = w0 :: w1 :: l ∧ isDep w1 = true) ∧
    (∃ n x, (depState [0xC10C0300] id).engineTurn = some (0, .ve, n, x) ∧ ((depState [0xC10C0300] id).entryWords 0 x .ve n).length = 1) :=
  ⟨⟨at_engs _ _ _ _ (by decide), by decide, at_engs _ _ _ _ (by decide), by decide, by decide⟩, ⟨_, _, _, _, _, rfl, rfl, by decide⟩,
    ⟨_, _, rfl, by decide⟩, ⟨_, _, _, _, _, rfl, rfl, by decide⟩, ⟨_, _, rfl, by decide⟩⟩

/-- The context's task and a child that it has spawned. -/
def parent : Task := atask 1 0 .running
def child : Task := { atask 2 0 .ready with parent := some 1, bySpawn := true }
def message : Task := { atask 3 0 .ready with place := .stage 0 0 0 }

def tasksx (l : List (Reg × Word)) : Ctx → Ctx := regs l

/-- TaskWords: a child to pop and none; a join counter at 0 and above; a record to queue, with room; a message and none; a child to withdraw. -/
theorem witness_TaskWords :
    (SqAt (world id [parent, child]) 0 0 (wx id) 0 [] ∧ recGang (wx id).record = 0 ∧ (wx id).inh = false ∧
      (world id [parent, child]).poppable (wx id) 0 = some child ∧ (world id [parent, child]).canSave 0 0 = true ∧
      (world id [parent, child]).task? 0 1 = some parent ∧ (world id [parent, child]).task? 0 2 = some child ∧ child.tid ≠ 1 ∧ recGang parent.record = 0) ∧
    (world id [parent]).poppable (wx id) 0 = none ∧
    (SqAt (world (regs [(1, 0x40000000)]) []) 0 0 (wx (regs [(1, 0x40000000)])) 0 [1] ∧
      (world (regs [(1, 0x40000000)]) []).joinWord (wx (regs [(1, 0x40000000)])) 0x40000000 = some (0, 3, 0) ∧
      (wx (regs [(1, 0x40000000)])).inOrder (wx (regs [(1, 0x40000000)])).ocls.toNat none = true ∧
      (world (regs [(1, 0x40000000)]) []).marksAt (.win 0 3 0) 8 = [] ∧ ((world (regs [(1, 0x40000000)]) []).slice 0 3).word 0 = 0 ∧
      ((((world (regs [(1, 0x40000000)]) []).setSlice 0 3 { Slice.zero with bytes := [(0, 2)] }).slice 0 3).word 0 ≠ 0)) ∧
    (SqAt (world (regs [(1, 0x8000000000000000)]) []) 0 0 (wx (regs [(1, 0x8000000000000000)])) 0 [1] ∧ ∃ v bs,
      (world (regs [(1, 0x8000000000000000)]) []).readPieces 0 0 (wx (regs [(1, 0x8000000000000000)])) (devPieces 0x8000000000000000 128) = .bytes v bs ∧
      v.recordCheck ⟨0, false, 0, true⟩ (BitVec.ofNat 1024 (ofBytes bs)) = none ∧ recJoin (BitVec.ofNat 1024 (ofBytes bs)) = 0 ∧
      (freshOf (v.enterRecord 0 0 (wx (regs [(1, 0x8000000000000000)])) (BitVec.ofNat 1024 (ofBytes bs)) none)).any (fun t =>
        !(t.stageFull 0 0 0 || !t.queueRoom 0 0) &&
        (t.insertTask 0 (BitVec.ofNat 1024 (ofBytes bs)) ⟨0, 0, .stage 0 0 0, 0, none, false, none, none, 0⟩).toOption.isSome) = true) ∧
    ((world (regs [(1, 0x400)]) [message]).message (wx (regs [(1, 0x400)])) 0 0 = some message ∧
      (world (regs [(1, 0x400)]) []).message (wx (regs [(1, 0x400)])) 0 0 = none ∧ recRegion (wx (regs [(1, 0x400)])).record = 0 ∧
      0 < (world (regs [(1, 0x400)]) []).stageCount 0 0) ∧
    ((world id [parent, child]).task? 0 2 = some child ∧ child.undispatched = true ∧ child.place = .local 0 ∧ (world id [parent, child]).task? 0 9 = none) :=
  ⟨⟨at_world _ _ _ _ (by decide), by decide +kernel, rfl, by decide +kernel, by decide +kernel, rfl, rfl, by decide, by decide +kernel⟩, by decide +kernel,
    ⟨at_world _ _ _ _ (by decide), by decide +kernel, by decide +kernel, by decide +kernel, by decide +kernel, by decide +kernel⟩,
    ⟨at_world _ _ _ _ (by decide), pieces_with (by decide +kernel)⟩,
    ⟨by decide +kernel, by decide +kernel, by decide +kernel, by decide +kernel⟩, ⟨rfl, by decide +kernel, rfl, rfl⟩⟩

def atL (off : Nat) : Word := BitVec.ofNat 64 (2 ^ 63 + off)

/-- The small partition whose root region may queue no record, with tasks l. -/
def noQueue (f : Ctx → Ctx) (l : List Task) : State :=
  { world f l with parts := [(0, { part0 with regions := [(0, ⟨.running, rootRcb.set 5 0, 0, 0, [(0, 0)]⟩)] })] }

/-- As many tasks as die 0's spill region holds, beside the context's. -/
def spilled : List Task := parent :: List.replicate 4096 { child with place := .spill 0 }

theorem at_noQueue (l : List Task) : SqAt (noQueue (regs [(1, atL 0), (2, 0x40000000)]) l) 0 0 (wx (regs [(1, atL 0), (2, 0x40000000)])) 0 [1, 2] :=
  ⟨⟨rfl, rfl, rfl⟩, rfl, rfl⟩

/-- SpawnAndEvents: a record for the core's queue, and one that its parent must run; registering a management record at system level with a free
entry and with one of the same event, removing, and the user level. -/
theorem witness_SpawnAndEvents :
    (SqAt (world (regs [(1, atL 0), (2, 0x40000000)]) [parent]) 0 0 (wx (regs [(1, atL 0), (2, 0x40000000)])) 0 [1, 2] ∧
      (world (regs [(1, atL 0), (2, 0x40000000)]) [parent]).joinWord (wx (regs [(1, atL 0), (2, 0x40000000)])) 0x40000000 = some (0, 3, 0) ∧
      (wx (regs [(1, atL 0), (2, 0x40000000)])).inOrder (wx (regs [(1, atL 0), (2, 0x40000000)])).ocls.toNat none = true ∧
      ∃ v bs, (world (regs [(1, atL 0), (2, 0x40000000)]) [parent]).readPieces 0 0 (wx (regs [(1, atL 0), (2, 0x40000000)])) (devPieces (atL 0) 128) = .bytes v bs ∧
        v.recordCheck ⟨0, false, 0, true⟩ (recSet (BitVec.ofNat 1024 (ofBytes bs)) 15 0x40000000) = none ∧ v.adopts 0 (recSet (BitVec.ofNat 1024 (ofBytes bs)) 15 0x40000000) = false ∧
        (recResults (recSet (BitVec.ofNat 1024 (ofBytes bs)) 15 0x40000000)).all (v.homeLocal 0) = true ∧
        (freshOf (v.enterRecord 0 0 (wx (regs [(1, atL 0), (2, 0x40000000)])) (recSet (BitVec.ofNat 1024 (ofBytes bs)) 15 0x40000000) none)).any (fun t => t.spawnPlace 0 0 (recSet (BitVec.ofNat 1024 (ofBytes bs)) 15 0x40000000) 1 == .local 0 &&
          (t.insertTask 0 (recSet (BitVec.ofNat 1024 (ofBytes bs)) 15 0x40000000) ⟨0, 0, .local 0, 0, some 1, true, none, none, 0⟩).toOption.isSome) = true) ∧
    (SqAt (noQueue (regs [(1, atL 0), (2, 0x40000000)]) spilled) 0 0 (wx (regs [(1, atL 0), (2, 0x40000000)])) 0 [1, 2] ∧
      ∃ v bs, (noQueue (regs [(1, atL 0), (2, 0x40000000)]) spilled).readPieces 0 0 (wx (regs [(1, atL 0), (2, 0x40000000)])) (devPieces (atL 0) 128) = .bytes v bs ∧
        (freshOf (v.enterRecord 0 0 (wx (regs [(1, atL 0), (2, 0x40000000)])) (recSet (BitVec.ofNat 1024 (ofBytes bs)) 15 0x40000000) none)).any (fun t => t.spawnPlace 0 0 (recSet (BitVec.ofNat 1024 (ofBytes bs)) 15 0x40000000) 1 == .inline 1 &&
          (t.insertTask 0 (recSet (BitVec.ofNat 1024 (ofBytes bs)) 15 0x40000000) ⟨0, 0, .inline 1, 0, some 1, true, none, none, 0⟩).toOption.isSome && t.canSave 0 0) = true) ∧
    (SqAt (world (sysAt [(1, atL 0x80), (2, 5)]) []) 0 0 (wx (sysAt [(1, atL 0x80), (2, 5)])) 0 [1, 2] ∧
      ∃ t bs, (world (sysAt [(1, atL 0x80), (2, 5)]) []).Reads 0 0 (wx (sysAt [(1, atL 0x80), (2, 5)])) (atL 0x80) 128 t bs ∧
        recMgmt (BitVec.ofNat 1024 (ofBytes bs)) = true ∧ t.recordCheck ⟨0, true, 0, true⟩ (BitVec.ofNat 1024 (ofBytes bs)) = none ∧
        (t.die 0).events = []) ∧
    (wx (regs [(2, 5)])).sys = false ∧ (wx (sysAt [(2, 5)])).reg 1 = 0 :=
  ⟨⟨⟨⟨rfl, rfl, rfl⟩, rfl, rfl⟩, by decide +kernel, by decide, pieces_with (by decide +kernel)⟩, ⟨at_noQueue _, pieces_with (by decide +kernel)⟩,
    ⟨⟨⟨rfl, rfl, rfl⟩, rfl, rfl⟩, reads_with (by decide +kernel)⟩, rfl, rfl⟩

/-- A local ring of 4 slots with one claimed slot and one filled one. -/
def ring0 : Ring := { Ring.empty with valid := true, nslot := 3, tail := 2, claim := 1 }
def ringx (l : List (Reg × Word)) (q : Ring) : Ctx → Ctx := fun x => { regs l x with rings := [(0, q)] }

/-- RingWords: numbers of slots at both ends of what the ring has, a quiet context and one with a store outstanding, a ring that is done, none,
and one to install. -/
theorem witness_RingWords :
    (SqAt (world (ringx [(1, 2)] ring0) []) 0 0 (wx (ringx [(1, 2)] ring0)) 0 [1] ∧ ((wx (ringx [(1, 2)] ring0)).ring 0) = ring0 ∧
      (ring0.tail - ring0.head).toNat + 2 = ring0.nslot + 1 ∧ (ring0.claim - ring0.head).toNat = 1 ∧ (ring0.tail - ring0.claim).toNat = 1 ∧
      (world (ringx [(1, 2)] ring0) []).quiet 0 0 (wx (ringx [(1, 2)] ring0)) = true) ∧
    (world id []).quiet 0 0 { wx (ringx [(1, 2)] ring0) with stores := [⟨0, false, [], none, none, 0, false⟩] } = false ∧
    ((wx (ringx [(1, 2)] { ring0 with done := true })).ring 0).done = true ∧
    (SqAt (world (regs []) []) 0 0 (wx (regs [])) 0 [1] ∧ ((wx (regs [])).ring 0).valid = false ∧ (wx (regs [])).reg 1 = 0 ∧ ((wx (regs [])).ring 0).inFlight = false) ∧
    (SqAt (world (regs [(1, atL 0x180)]) []) 0 0 (wx (regs [(1, atL 0x180)])) 0 [1] ∧
      ∃ t bs, (world (regs [(1, atL 0x180)]) []).Reads 0 0 (wx (regs [(1, atL 0x180)])) (atL 0x180) 32 t bs ∧
        (wx (regs [(1, atL 0x180)])).ringBad 0 (BitVec.ofNat 64 (ofBytes (bs.take 8))) 0 0 0 = false ∧
        bitsAt (BitVec.ofNat 64 (ofBytes (bs.take 8))) 62 2 = 0) :=
  ⟨⟨⟨⟨rfl, rfl, rfl⟩, rfl, rfl⟩, rfl, by decide, by decide, by decide, by decide⟩, by decide +kernel, rfl,
    ⟨⟨⟨rfl, rfl, rfl⟩, rfl, rfl⟩, rfl, rfl, rfl⟩, ⟨⟨⟨rfl, rfl, rfl⟩, rfl, rfl⟩, reads_with (by decide +kernel)⟩⟩

/-- R357: RPUSH of one slot moves TAIL to 3, and the status word shows VALID, TAIL, CLAIM and HEAD. -/
theorem test_rpush : areg (exec (.rpush 2 1 0 0) (world (ringx [(1, 1)] ring0) [])) 2 = some 0x0001000300010000 := by decide +kernel

/-- A system-level word over the naming tables, with a1 and a2. -/
abbrev nx (a b : Word) : Ctx := wx (sysAt [(1, a), (2, b)])
abbrev ns (a b : Word) : State := world (sysAt [(1, a), (2, b)]) []

/-- Whether an object's contents pass their kind's check, where they are resident and can be read; none where the kind asks for none. -/
def contentsOk (s : State) (x : Ctx) (w : Nat → Word) : Option (Option Bool) := match kindCheck (w 0) (w 1) (w 2) (w 3) with
  | (true, some (m, f)) => some (if s.residentG 0 (bitsAt (w 1) 0 56) m then (readsOf s x (w 1) m).map fun q => f q.2 else none)
  | _ => none

/-- NamingWords: object entries that are free, malformed and refused by their kind's check; a binding that is malformed, one that is not, and
none; contents that pass, fail and are not resident; a page to invalidate; a route of the partition to set; the user level. -/
theorem witness_NamingWords :
    (SqAt (ns (atL 0x100) 2) 0 0 (nx (atL 0x100) 2) 0 [1, 2] ∧ 2 < ((ns (atL 0x100) 2).part 0).otsize ∧
      (∃ t bs, (ns (atL 0x100) 2).Reads 0 0 (nx (atL 0x100) 2) (atL 0x100) 32 t bs ∧ objV (wordAt bs 0) = false ∧
        t.runsFrom ⟨0, 2, 1⟩ = false ∧ (nx (atL 0x100) 2).accessesDone = true) ∧
      (∃ t bs, (ns (atL 0x120) 2).Reads 0 0 (nx (atL 0x120) 2) (atL 0x120) 32 t bs ∧ objV (wordAt bs 0) = true ∧
        objBad (wordAt bs 0) (wordAt bs 1) (wordAt bs 2) = true) ∧
      (∃ t bs, (ns (atL 0x140) 2).Reads 0 0 (nx (atL 0x140) 2) (atL 0x140) 32 t bs ∧ objBad (wordAt bs 0) (wordAt bs 1) (wordAt bs 2) = false ∧
        (kindCheck (wordAt bs 0) (wordAt bs 1) (wordAt bs 2) (wordAt bs 3)).1 = false) ∧
      (∃ t bs, (ns (atL 0x300) 2).Reads 0 0 (nx (atL 0x300) 2) (atL 0x300) 32 t bs ∧ objBad (wordAt bs 0) (wordAt bs 1) (wordAt bs 2) = false ∧
        contentsOk t (nx (atL 0x300) 2) (wordAt bs) = some (some true)) ∧
      (∃ t bs, (ns (atL 0x320) 2).Reads 0 0 (nx (atL 0x320) 2) (atL 0x320) 32 t bs ∧ objBad (wordAt bs 0) (wordAt bs 1) (wordAt bs 2) = false ∧
        contentsOk t (nx (atL 0x320) 2) (wordAt bs) = some (some false)) ∧
      (∃ t bs, (ns (atL 0x340) 2).Reads 0 0 (nx (atL 0x340) 2) (atL 0x340) 32 t bs ∧ objBad (wordAt bs 0) (wordAt bs 1) (wordAt bs 2) = false ∧
        contentsOk t (nx (atL 0x340) 2) (wordAt bs) = some none)) ∧
    (SqAt (ns (atL 0x160) 1) 0 0 (nx (atL 0x160) 1) 0 [1, 2] ∧ (ns (atL 0x160) 1).running 0 0 = true ∧ (ns (atL 0x160) 1).isImage 0 1 = true ∧
      (∃ t bs, (ns (atL 0x160) 1).Reads 0 0 (nx (atL 0x160) 1) (atL 0x160) 32 t bs ∧ t.bindingOf 0 bs = some [2] ∧ (t.part 0).bindings = []) ∧
      (∃ t bs, (ns (atL 0x100) 1).Reads 0 0 (nx (atL 0x100) 1) (atL 0x100) 32 t bs ∧ t.bindingOf 0 bs = none) ∧ (nx 0 1).reg 1 = 0) ∧
    (selectsG ((nx 0x10000 1).reg 1) = true ∧ (nx 0x10000 1).accessesDone = true ∧
      ((ns 0x10000 1).dropEntries 0 0x10000 0x10000).partBusy 0 0x10000 0x10000 = false) ∧
    (7 ≠ ((ns 0x88000000 7).part 0).devnum ∧ routeBad 0x88000000 = false ∧ routeV (Tab.get 0 (ns 0x88000000 7).routes 7) = false ∧
      routeV 0x88000000 = true ∧ routePart 0x88200000 = 1) ∧
    (wx (regs [])).sys = false :=
  ⟨⟨⟨⟨rfl, rfl, rfl⟩, rfl, rfl⟩, by decide +kernel, reads_with (by decide +kernel), reads_with (by decide +kernel), reads_with (by decide +kernel),
      reads_with (by decide +kernel), reads_with (by decide +kernel), reads_with (by decide +kernel)⟩,
    ⟨⟨⟨rfl, rfl, rfl⟩, rfl, rfl⟩, by decide +kernel, by decide +kernel, reads_with (by decide +kernel), reads_with (by decide +kernel), rfl⟩,
    ⟨by decide +kernel, rfl, by decide +kernel⟩, ⟨by decide +kernel, by decide, by decide, by decide, by decide⟩, rfl⟩

/-! ## Regions, versions, counters -/

/-- The words of the RCB in L. -/
def oneCore : List Word := [0x4000000, 0, 1, 0, 0, 0, 0, 0, 0x200] ++ List.replicate 23 0
def withEntry : List Word := oneCore.set 6 0x8000000000000580

/-- The small partition with region 1 running under that RCB. -/
def twoRegions (f : Ctx → Ctx) (l : List Task) : State :=
  { world f l with parts := [(0, { part0 with regions := [(0, ⟨.running, rootRcb, 0, 0, [(1, 0)]⟩), (1, ⟨.running, oneCore, 0, 0, [(0, 0)]⟩)] })] }

/-- RegionLaunches: an RCB to start region 1 with, one with an entry record that is admitted, the same where region 1 is not free, to replace region 0's, and region 1 to stop when it is
free, when it runs and nothing of it is left, and when a task of it is. -/
theorem witness_RegionLaunches :
    (SqAt (ns (atL 0x200) 1) 0 0 (nx (atL 0x200) 1) 0 [1, 2] ∧ (nx (atL 0x200) 1).sys = true ∧
      ∃ t bs, (ns (atL 0x200) 1).Reads 0 0 (nx (atL 0x200) 1) (atL 0x200) 256 t bs ∧ (List.range 32).map (wordAt bs) = oneCore ∧
        (t.region 0 1).st = .free ∧ t.running 0 (rcbParent oneCore) = true ∧ rcbOk oneCore (t.rcbChain 0 4096 0) = true ∧
        (t.startRegion 0 1 oneCore).sumsHold 0 0 = true) ∧
    (∃ t bs, (ns (atL 0x400) 1).Reads 0 0 (nx (atL 0x400) 1) (atL 0x400) 256 t bs ∧ (List.range 32).map (wordAt bs) = withEntry ∧
      (t.region 0 1).st = .free ∧ rcbOk withEntry (t.rcbChain 0 4096 0) = true ∧
      (piecesOf t (nx (atL 0x400) 1) (atL 0x580) 128).any (fun v =>
        let e : Rec := BitVec.ofNat 1024 (ofBytes v.2)
        recRegionField e == 1 && recStage e == 0 && (t.startRegion 0 1 withEntry).recordCheck ⟨0, true, 0, true⟩ e == none &&
          (freshOf (v.1.enterRecord 0 0 (nx (atL 0x400) 1) e none)).any fun q => (q.startRegion 0 1 withEntry).sumsHold 0 0 &&
            ((q.startRegion 0 1 withEntry).insertEntry 0 (nx (atL 0x400) 1) 1 e).toOption.isSome) = true) ∧
    ((twoRegions id []).region 0 1).st ≠ .free ∧
    (SqAt (ns (atL 0x200) 0x1000) 0 0 (nx (atL 0x200) 0x1000) 0 [1, 2] ∧ bitsAt ((nx (atL 0x200) 0x1000).reg 2) 12 2 = 1 ∧
      (∃ t bs, (ns (atL 0x200) 0x1000).Reads 0 0 (nx (atL 0x200) 0x1000) (atL 0x200) 256 t bs ∧ (List.range 32).map (wordAt bs) = oneCore ∧
        (t.region 0 0).st = .running ∧ rcbOk oneCore [] = true ∧ t.stageFill 0 0 0 = 0 ∧ t.stageCount 0 0 = 1 ∧
        (t.updPart 0 fun q => { q with regions := Tab.adjust q.regions 0 fun y => { y with rcb := oneCore } }).stageCount 0 0 = 1 ∧
        (t.updPart 0 fun q => { q with regions := Tab.adjust q.regions 0 fun y => { y with rcb := oneCore } }).sumsHold 0 0 = true)) ∧
    (bitsAt ((nx 0 0x2001).reg 2) 12 2 = 2 ∧ (nx 0 0x2001).reg 1 = 0 ∧ ((ns 0 0x2001).region 0 1).st = .free ∧
      (twoRegions (sysAt [(2, 0x2001)]) [atask 5 0x100001 .ready]).tasks.any (fun q => recRegion q.record == 1) = true) ∧
    1 ≠ rcbParent oneCore :=
  ⟨⟨⟨⟨rfl, rfl, rfl⟩, rfl, rfl⟩, rfl, reads_with (by decide +kernel)⟩, reads_with (by decide +kernel), by decide, ⟨⟨⟨rfl, rfl, rfl⟩, rfl, rfl⟩, by decide, reads_with (by decide +kernel)⟩,
    ⟨by decide, rfl, by decide, by decide +kernel⟩, by decide⟩

/-- R395: a START with a well-formed RCB writes 0. -/
theorem test_start : areg (exec (.rlaunchStart 3 1 2 0) (ns (atL 0x200) 1)) 3 = some 0 := by decide +kernel

/-- A version named 0x10000, and a record whose one result it is. -/
def verRec : Rec := recSet (1#1024 <<< 47) 8 0x10000
def ver (st : VState) : DirEntry := { DirEntry.fresh 0 0x10000 0 with st := st }

/-- A context with that record, with D, the version and B in a1 to a3, and a directory. -/
def vx (D B : Word) (sys : Bool) : Ctx → Ctx := fun x => { regs [(1, D), (2, 0x10000), (3, B)] x with record := verRec, sys := sys }
def vs (D B : Word) (sys : Bool) (l : List DirEntry) : State := { world (vx D B sys) [parent] with versions := l }

def someMark : PubMark := ⟨1, 0x40, 64, 0, 0, false, false⟩

/-- VersionWords: a version to publish without a mark, with the same, with another, and with a range that overlaps; the states of an entry; no
entry; a user level that asks for system effects; a hand-over in a quiesce, and outside one. -/
theorem witness_VersionWords :
    (SqAt (vs 0x40 64 false []) 0 0 (wx (vx 0x40 64 false)) 0 [1, 2, 3] ∧ nameOk 0x10000 = true ∧ (vs 0x40 64 false []).homeLocal 0 0x10000 = true ∧
      ((vs 0x40 64 false []).homeDie 0 0x10000).isSome = true ∧ 0x10000 ∈ recResults (wx (vx 0x40 64 false)).record ∧
      bitsAt 0x40 3 3 = 0 ∧ bitsAt 64 32 32 = 0 ∧ ((vs 0x40 64 false []).version? 0 0x10000).bind DirEntry.mark = none ∧
      (vs 0x40 64 false []).pubOverlaps 0 0x10000 someMark = false ∧ ((vs 0x40 64 false []).ensureVersion 0 0x10000).isSome = true) ∧
    (((vs 0x40 64 false [{ ver .pending with mark := some someMark }]).version? 0 0x10000).bind DirEntry.mark = some someMark ∧
      (vs 0x40 64 false [{ DirEntry.fresh 0 0x20000 0 with base := 0x40, size := 64 }]).pubOverlaps 0 0x10000 someMark = true ∧
      0x10000 ∉ recResults (wx id).record) ∧
    ((vs 0 0 false []).version? 0 0x10000 = none ∧ (vs 0 3 false [ver .current]).version? 0 0x10000 = some (ver .current) ∧
      (ver .current).taking = false ∧ ((vs 0 3 false [{ ver .current with taking := true }]).version? 0 0x10000).map DirEntry.taking = some true ∧
      (4 : Word).toNat = 4) ∧
    (SqAt (vs 0 1 true [ver .current]) 0 0 (wx (vx 0 1 true)) 0 [2, 3] ∧ (vs 0 1 true [ver .current]).task? 0 1 = some parent ∧
      bitsAt 0x10001 17 47 = 0 ∧ (0x10001 : Word).getLsbD 16 = true ∧ (wx (vx 0 1 true)).sys = true ∧ (wx (vx 0 1 false)).sys = false ∧
      (0 : Int) ≤ (ver .current).hold + parent.marked 0x10000 + (0xFFFF#16).toInt + 1) ∧
    (((vs 0 0x4000 false [ver .current]).nextDie 0 0).isNone = true ∧ (vs 0 0 false [ver .current]).replicaTarget 0 (ver .current) 9 0 = false ∧
      (vs 0 0x1000 false [ver .lost]).replicaTarget 0 { ver .current with base := 0xC0000000 } 0 0 = true ∧
      (vs 0 0 false []).replicaFits 0 { ver .current with size := 64 } 0 0 = true ∧
      (vs 0 0 false []).replicaFits 0 { ver .current with size := 0xFFFFFFFF } 0 0 = false) ∧
    (∃ why, ({ vs 0 1 false [] with parts := [(0, { part0 with quiesce := some 7 })] }.part 0).quiesce = some why ∧
      (wx fun x => { x with inh := true, chkpt := true }).inh = true ∧ (wx fun x => { x with inh := true, chkpt := true }).chkpt = true) ∧
    ((vs 0 1 false []).part 0).quiesce = none :=
  ⟨⟨⟨⟨rfl, rfl, rfl⟩, rfl, rfl⟩, by decide, by decide +kernel, by decide +kernel, by decide +kernel, by decide, by decide, rfl, by decide +kernel,
      by decide +kernel⟩, ⟨rfl, by decide +kernel, by decide +kernel⟩, ⟨rfl, rfl, rfl, rfl, rfl⟩,
    ⟨⟨⟨rfl, rfl, rfl⟩, rfl, rfl⟩, rfl, by decide, by decide, rfl, rfl, by decide +kernel⟩, ⟨by decide +kernel, by decide +kernel, by decide +kernel, by decide +kernel, by decide +kernel⟩,
    ⟨_, rfl, rfl, rfl⟩, rfl⟩

/-- A context with tags 1 and 3 set, in a deterministic root region. -/
def tagx (f : Ctx → Ctx) : Ctx → Ctx := fun x => f { regs [(1, 10), (2, 4), (3, 0)] x with tags := 2 }
def detWorld (f : Ctx → Ctx) (open' begun : Half) : State :=
  { world f [] with parts := [(0, { part0 with regions := [(0, ⟨.running, rootRcb.set 0 0x44000000, open', begun, [(0, 0)]⟩)] })] }

/-- TagsPhaseAndCounters: tags of which one and all and none are set; limits that hold and that do not; a region whose open phase has begun and
one whose has not; counters that a partition reaches, that it does not, numbers of none, and lines of a window. -/
theorem witness_TagsPhaseAndCounters :
    (SqAt (world (tagx id) []) 0 0 (wx (tagx id)) 0 [1] ∧ (wx (tagx id)).tags &&& 10 = 2 ∧ (wx (tagx id)).tags &&& 4 = 0 ∧ (wx (tagx id)).tags &&& 2 = 2 ∧
      (wx (tagx id)).reg 3 = 0 ∧ (wx (tagx id)).loads.length ≤ 0 ∧ (world (tagx id) []).copies (wx (tagx id)) ≤ 0 ∧
      ¬ ([(⟨0, false, [], none, none, 0, false⟩ : Osc)].length ≤ 0)) ∧
    (SqAt (detWorld id 0 0) 0 0 (wx id) 0 [] ∧ (wx id).recomp = false ∧ (detWorld id 0 0).running 0 0 = true ∧ (detWorld id 0 0).det 0 0 = true ∧
      (wx id).phase = ((detWorld id 0 0).region 0 0).openPhase ∧ ((detWorld id 0 0).region 0 0).begun = ((detWorld id 0 0).region 0 0).openPhase ∧
      ((detWorld id 1 0).region 0 0).begun ≠ ((detWorld id 1 0).region 0 0).openPhase ∧ (wx id).phase ≠ ((detWorld id 1 0).region 0 0).openPhase) ∧
    (SqAt (world (sysAt [(1, 0xC000000003000000)]) []) 0 0 (wx (sysAt [(1, 0xC000000003000000)])) 0 [1, 2] ∧
      lineForm 0xC000000003000000 = false ∧ numberForm 0xC000000003000000 = true ∧ counterOf 0xC000000003000000 = some (.perf 0 0) ∧
      counterOf 0xC000000003000009 = none ∧ counterOf 0xC000000001000005 = some (.tag 5) ∧ counterOf 0xC000000004000000 = some (.error 0 0) ∧
      counterOf 0xC000000006000001 = some (.threshold 0 0 1) ∧ counterOf 0xC000000008000104 = some (.ucie ⟨0, 1, 0⟩ 4) ∧
      (world (sysAt [(1, 0xC000000003000000)]) []).counterMine 0 (.perf 0 0) = true ∧
      (world (sysAt [(1, 0xC000000003000000)]) []).counterMine 0 (.perf 200 0) = false ∧
      (world (sysAt [(1, 0xC000000003000000)]) []).setRefused 0 0xC000000003000000 0 (.perf 0 0) = none) ∧
    (SqAt (win id [(2, 3)] 7 []) 0 0 (wx (winx id [(2, 3)])) 0 [1, 2] ∧ lineForm ((wx (winx id [(2, 3)])).reg 1) = true ∧ bitsAt 3 16 48 = 0 ∧
      (∃ t, (win id [(2, 3)] 7 []).openSq 0 0 (wx (winx id [(2, 3)])) 0 (unitOf 0x8100000000000000) 64 .read = .go t (.win 0 2 0)) ∧
      (∃ t u, (win id [(2, 3)] 7 []).openSq 0 0 (wx (winx id [(2, 3)])) 0 (unitOf 0x8100000000000000) 64 .write = .go t (.win 0 2 0) ∧
        t.detCheck (wx (winx id [(2, 3)])).detKey 0 2 0 false = some u)) :=
  ⟨⟨⟨⟨rfl, rfl, rfl⟩, rfl, rfl⟩, by decide, by decide, by decide, by decide, by decide, by decide, by decide⟩,
    ⟨⟨⟨rfl, rfl, rfl⟩, rfl, rfl⟩, rfl, by decide, by decide +kernel, rfl, rfl, by decide +kernel, by decide +kernel⟩,
    ⟨⟨⟨rfl, rfl, rfl⟩, rfl, rfl⟩, by decide, by decide, by decide, by decide, by decide, by decide, by decide, by decide, by decide +kernel, by decide +kernel, rfl⟩,
    ⟨⟨⟨rfl, rfl, rfl⟩, rfl, rfl⟩, by decide, by decide, ⟨_, rfl⟩, ⟨_, _, rfl, rfl⟩⟩⟩

/-- R435: TCLR of tags 1 and 3 clears both and writes no busy one. -/
theorem test_tclr : (after (exec (.tclr 5 1 0) (world (tagx id) []))).map (fun x => (x.tags, x.reg 5)) = some (0, 0) := by decide +kernel

/-- ContextImages: a unit of L to ask about; CTXS with its refusals (another context at user level, a misaligned place, a gang, its own CTXID) and
a context to image; CTXR with a bad header and a good one. -/
theorem witness_ContextImages :
    (SqAt (world (regs [(1, atL 0)]) [parent]) 0 0 (wx (regs [(1, atL 0)])) 0 [1] ∧
      ∃ t, (world (regs [(1, atL 0)]) [parent]).openSq 0 0 (wx (regs [(1, atL 0)])) 0 (unitOf (atL 0)) 64 .read = .go t (.l 0 0 0)) ∧
    (SqAt (world (regs [(1, 0x100), (2, 0)]) [parent]) 0 0 (wx (regs [(1, 0x100), (2, 0)])) 0 [1, 2] ∧ (wx (regs [(1, 0x100), (2, 0)])).writing = none ∧
      (world (regs [(1, 0x100), (2, 0)]) [parent]).task? 0 1 = some parent ∧ recGang parent.record = 0 ∧ recGang (1#1024 <<< 40) ≠ 0 ∧
      (wx (regs [(1, 0x100), (2, 0)])).accessesDone = true ∧ (world (regs [(1, 0x100), (2, 0)]) [parent]).canSave 0 0 = true ∧
      (((world (regs [(1, 0x100), (2, 0)]) [parent]).setCtx 0 0 ((wx (regs [(1, 0x100), (2, 0)])).step.setReg 3 1)).imageOf 0 0
        (wx (regs [(1, 0x100), (2, 0)]))).isSome = true) ∧
    ((wx (regs [(2, 5)])).sys = false ∧ (wx (sysAt [(2, 0)])).sys = true ∧ ctxid 0 0 0 = 0 ∧ ctxid 0 0 1 = 1) ∧
    (SqAt (world (sysAt [(1, atL 0)]) [parent]) 0 0 (wx (sysAt [(1, atL 0)])) 0 [1] ∧
      (match (world (sysAt [(1, atL 0)]) [parent]).readPieces 0 0 (wx (sysAt [(1, atL 0)])) (devPieces (atL 0) 256) with
        | .bytes _ hd => flatBad hd
        | _ => false) = true) ∧
    flatBad ([0x43, 0x54, 0x58, 0x31, 1, 0, 0, 0, 0, 1, 0, 0, 0, 0, 0, 0] ++ List.replicate 240 0) = false :=
  ⟨⟨⟨⟨rfl, rfl, rfl⟩, rfl, rfl⟩, ⟨_, rfl⟩⟩,
    ⟨⟨⟨rfl, rfl, rfl⟩, rfl, rfl⟩, rfl, rfl, by decide +kernel, by decide +kernel, by decide, by decide +kernel, by decide +kernel⟩, ⟨rfl, rfl, rfl, rfl⟩,
    ⟨⟨⟨rfl, rfl, rfl⟩, rfl, rfl⟩, by decide +kernel⟩, by decide +kernel⟩

/-- R467: POISQ of a unit that is poisoned writes 1, of its neighbour 0. -/
theorem test_poisq : areg (exec (.poisq 3 1 0) (win id [] 7 [0])) 3 = some 1 ∧
    areg (exec (.poisq 3 1 0) (win (regs [(1, 0x8100000000000040)]) [] 7 [0])) 3 = some 0 := by decide +kernel

/-! ## Vector words -/

/-- An executing entry of the VE with a shape and with a1 at the start of L. -/
def veN (shape : Word) : Entry :=
  { mkEntry (regs [(1, atL 0)] (bareCtx placedKey)) 0 .ve 0 1 [] with started := true, shape := shape }

/-- A VE word's turn on some registers; the context's first lines of L are its own. -/
def veS (shape : Word) (vrf : Tab VReg) : State :=
  (State.reset.place (some .ve) [0x02000000]).updCore 0 fun r => { r with vrf := vrf, ve := [veN shape], lineOwner := [(0, 0), (1, 0)] }

abbrev vX : Ctx := bareCtx placedKey

def full : Word := 0x4000001
def vr (t : Fmt) (b : BitVec 4096) : VReg := ⟨t, b, false, none⟩

/-- Three FP32 registers, and four of I32. -/
def floats : Tab VReg := [(1, vr .fp32 0x3F800000), (2, vr .fp32 0x40000000), (3, vr .fp32 0)]
def ints : Tab VReg := [(1, vr .i32 7), (2, vr .i32 5), (3, vr .i32 0), (4, vr .i32 0)]

theorem witness_VectorArithmetic :
    (VeAt (veS full floats) 0 (veN full) vX [1, 2, 3] ∧ (((veS full floats).veEnv 0 vX (veN full)).reg 1).tag = .fp32 ∧
      (((veS full floats).veEnv 0 vX (veN full)).reg 2).tag = .fp32 ∧ (((veS full floats).veEnv 0 vX (veN full)).reg 3).tag = .fp32) ∧
    (VeAt (veS full ints) 0 (veN full) vX [1, 2, 3] ∧ (((veS full ints).veEnv 0 vX (veN full)).reg 1).tag = .i32 ∧
      (((veS full ints).veEnv 0 vX (veN full)).reg 2).tag = .i32 ∧ (((veS full ints).veEnv 0 vX (veN full)).reg 3).tag = .i32) ∧
    VeAt (veS full ints) 0 (veN full) vX [1] ∧ Fmt.isFloat .fp32 = true ∧ Fmt.isInt .i32 = true :=
  ⟨⟨⟨rfl, by decide⟩, rfl, rfl, rfl⟩, ⟨⟨rfl, by decide⟩, rfl, rfl, rfl⟩, ⟨rfl, by decide⟩, rfl, rfl⟩

/-- Element 0 of a register after an outcome. -/
def elem0 (o : Out) (f : Fmt) (r : Nat) : Option Nat := match o with
  | .next t => some (elem f (Tab.get .empty (t.core 0).vrf r).bytes 0)
  | _ => none

/-- 1.0 + 2.0 = 3.0 in FP32, 7 − 5 = 2 and −7 in I32. -/
theorem test_vector : elem0 (exec (.vadd ⟨false, .rne⟩ 3 1 2 0) (veS 0x10001 floats)) .fp32 3 = some 0x40400000 ∧
    elem0 (exec (.vsub ⟨false, .rne⟩ 3 1 2 0) (veS 0x10001 ints)) .i32 3 = some 2 ∧
    elem0 (exec (.vneg ⟨false, .rne⟩ 3 1 0) (veS 0x10001 ints)) .i32 3 = some 0xFFFFFFF9 := by decide +kernel

theorem witness_VectorLogicAndMasks : VeAt (veS full ints) 0 (veN full) vX [1, 2] ∧ (((veS full ints).veEnv 0 vX (veN full)).reg 1).tag ≠ .empty ∧
    (((veS full ints).veEnv 0 vX (veN full)).reg 2).tag = (((veS full ints).veEnv 0 vX (veN full)).reg 1).tag ∧
    Fmt.isInt (((veS full ints).veEnv 0 vX (veN full)).reg 1).tag = true ∧ VeAt (veS full floats) 0 (veN full) vX [1] ∧
    Fmt.isFloat (((veS full floats).veEnv 0 vX (veN full)).reg 1).tag = true ∧ VeAt (veS full ints) 0 (veN full) vX [] :=
  ⟨⟨rfl, by decide⟩, by decide +kernel, by decide +kernel, by decide +kernel, ⟨rfl, by decide⟩, by decide +kernel, ⟨rfl, by decide⟩⟩

/-- A group of four registers of I8, one of I32 and a group of four of I32. -/
def groups : Tab VReg := [(4, vr .i8 1), (5, vr .i8 2), (6, vr .i8 3), (7, vr .i8 4), (9, vr .i32 0), (12, vr .i32 1), (13, vr .i32 2),
  (14, vr .i32 3), (15, vr .i32 4)]

theorem witness_VectorConversionsAndSums :
    (VeAt (veS full groups) 0 (veN full) vX [4] ∧ (((veS full groups).veEnv 0 vX (veN full)).reg 4).tag = .i8 ∧ groupWidth .i8 .i32 = some 4) ∧
    (VeAt (veS full groups) 0 (veN full) vX [12, 13, 14, 15] ∧ groupWidth .i8 .i32 = some 4 ∧
      ∀ q ∈ [12, 13, 14, 15], (((veS full groups).veEnv 0 vX (veN full)).reg q).tag = .i32) ∧
    (VeAt (veS full floats) 0 (veN full) vX [1, 2] ∧ Fmt.isFloat (((veS full floats).veEnv 0 vX (veN full)).reg 1).tag = true ∧
      (((veS full floats).veEnv 0 vX (veN full)).reg 2).tag = .fp32) ∧
    (VeAt (veS full groups) 0 (veN full) vX [4, 5, 9] ∧ pairing .i8 .i8 = some .i32 ∧ (((veS full groups).veEnv 0 vX (veN full)).reg 9).tag = .i32) :=
  ⟨⟨⟨rfl, by decide⟩, rfl, by decide⟩, ⟨⟨rfl, by decide⟩, by decide, by decide⟩, ⟨⟨rfl, by decide⟩, rfl, rfl⟩, ⟨rfl, by decide⟩, by decide, rfl⟩

theorem witness_VectorMovesAndFunctions :
    (VeAt (veS full floats) 0 (veN full) vX [1] ∧ (127 : BitVec 9).toNat < Fmt.count .fp32 ∧
      VeAt (veS full (ints ++ [(5, vr .fp32 0)])) 0 (veN full) vX [5, 1] ∧ Fmt.isInt (((veS full ints).veEnv 0 vX (veN full)).reg 1).tag = true ∧
      VeAt (veS full floats) 0 (veN full) vX [] ∧ ((veS full floats).veEnv 0 vX (veN full)).tag = .fp32) ∧
    (VeAt (veS full floats) 0 (veN full) vX [1, 2, 3] ∧ (((veS full floats).veEnv 0 vX (veN full)).reg 1).tag = .fp32 ∧
      (((veS full floats).veEnv 0 vX (veN full)).reg 2).tag = .fp32 ∧ (((veS full floats).veEnv 0 vX (veN full)).reg (2 + 1)).tag = .fp32) :=
  ⟨⟨⟨rfl, by decide⟩, by decide, ⟨rfl, by decide⟩, rfl, ⟨rfl, by decide⟩, rfl⟩, ⟨rfl, by decide⟩, rfl, rfl, rfl⟩

/-- An opened list of places, all of this device. -/
def openedHere (o : Opened) : Bool := match o with
  | .go t l => (l.all fun p => p.remote == none) && t.core 0 == (veS 0x10001 ints).core 0 && t.ctx? 0 0 == some vX
  | _ => false

/-- VectorMemory: a load and a store of one line of L, and of one element at index 0. -/
theorem witness_VectorMemory : VeAt (veS 0x10001 ints) 0 (veN 0x10001) vX [3, 4] ∧ ((veS 0x10001 ints).veEnv 0 vX (veN 0x10001)).tag = .fp32 ∧
    ((veN 0x10001).reg 1 + sext (0 : BitVec 10) * 64).toNat % 64 = 0 ∧
    openedHere ((veS 0x10001 ints).openBy 0 0 vX .read (veN 0x10001).pages (lineParts (atL 0) (byteSpan .fp32 (min (Fmt.count .fp32) 1)))) = true ∧
    openedHere ((veS 0x10001 ints).openBy 0 0 vX .write (veN 0x10001).pages (lineParts (atL 0) (byteSpan .i32 (min (Fmt.count .i32) 1)))) = true ∧
    Fmt.isInt (((veS 0x10001 ints).veEnv 0 vX (veN 0x10001)).reg 4).tag = true ∧
    ((veS 0x10001 ints).veEnv 0 vX (veN 0x10001)).active (min (Fmt.count .fp32) (Fmt.count .i32)) 0 = [0] ∧
    openedHere ((veS 0x10001 ints).openBy 0 0 vX .read (veN 0x10001).pages [(atL 0, 4)]) = true ∧ openedHere ((veS 0x10001 ints).openBy 0 0 vX .write (veN 0x10001).pages [(atL 0, 4)]) = true := by
  refine ⟨⟨rfl, by decide⟩, rfl, by decide, ?_, ?_, rfl, ?_, ?_, ?_⟩ <;> decide +kernel

def poisoned : Tab VReg := [(1, ⟨.fp32, 0, false, some 0x40⟩), (2, vr .i32 0), (3, vr .fp32 0)]

theorem witness_VectorChainsAndErrors : (veS full floats).wordTurn .ve = some (0, veN full, vX) ∧
    (match ({ (veS full floats).veEnv 0 vX (veN full) with chain := true }).clean (ChainWord.reads ⟨.vadd, 56, 1, 2, 0⟩)
      (veChainWord ⟨false, .rne⟩ ⟨.vadd, 56, 1, 2, 0⟩) with | .ok _ => true | .error _ => false) = true ∧
    (match veChainGo ⟨false, .rne⟩ 1 [some ⟨.vadd, 56, 1, 2, 0⟩] { (veS full poisoned).veEnv 0 vX (veN full) with chain := true } with
      | .error (i, _) => i == 1 | .ok _ => false) = true ∧
    (veS full poisoned).wordTurn .ve = some (0, veN full, vX) ∧ (((veS full poisoned).veEnv 0 vX (veN full)).reg 1).poison = some 0x40 ∧
    (((veS full poisoned).veEnv 0 vX (veN full)).reg 2).poison = none ∧ (((veS full poisoned).veEnv 0 vX (veN full)).reg 3).poison = none ∧
    (((veS full poisoned).veEnv 0 vX (veN full)).reg 2).tag ≠ (((veS full poisoned).veEnv 0 vX (veN full)).reg 3).tag ∧
    { veS full floats with parts := [(0, part0)], mem := pages }.wordTurn .ve = some (0, veN full, vX) ∧
    ({ veS full floats with parts := [(0, part0)], mem := pages }.chainObject vX 2 .fp32).any
      (fun q : VReg × List Target => !q.2.any { veS full floats with parts := [(0, part0)], mem := pages }.bankBusy) = true ∧
    { veS full floats with parts := [(0, part0)], mem := pages }.chainObject vX 3 .fp32 = none := by
  refine ⟨rfl, ?_, ?_, rfl, rfl, rfl, rfl, ?_, rfl, ?_, ?_⟩ <;> decide +kernel

/-! ## Matrix words -/

/-- An executing entry of the ME, and its word's turn; f changes its context, which owns the first nine lines of L, and jobs are in flight. -/
def meN (l : List (Reg × Word)) : Entry := { mkEntry (regs l (bareCtx placedKey)) 0 .me 0 1 [] with started := true }

def meS (l : List (Reg × Word)) (f : Ctx → Ctx) (jobs : List MeJob) : State :=
  ((State.reset.place (some .me) [0x02000000]).updCore 0 fun r => { r with
    me := [meN l], jobs := jobs, lineOwner := (List.range 9).map fun i => (i, 0) }).updCtx 0 0 f

def meX (f : Ctx → Ctx) : Ctx := f (bareCtx placedKey)

theorem at_me (l : List (Reg × Word)) (f : Ctx → Ctx) (jobs : List MeJob) (w : Needs)
    (h : (meS l f jobs).wordTurn .me = some (0, meN l, meX f) ∧ jobs.any w.clash = false) : MeAt (meS l f jobs) 0 (meN l) (meX f) w := ⟨h.1, h.2⟩

/-- What opening ranges of L gives, where it goes on. -/
def meGo (s : State) (x : Ctx) (seq : Nat) (reads writes : List (Word × Nat)) : Option State := match s.meOpen 0 0 x seq reads writes with
  | .go t => some t
  | _ => none

theorem me_go {s : State} {x : Ctx} {seq : Nat} {reads writes : List (Word × Nat)} {P : State → Prop} [∀ t, Decidable (P t)]
    (h : (meGo s x seq reads writes).any (fun t => decide (P t)) = true) : ∃ t, s.meOpen 0 0 x seq reads writes = .go t ∧ P t := by
  unfold meGo at h
  cases e : s.meOpen 0 0 x seq reads writes with
  | go t => rw [e] at h; exact ⟨_, rfl, of_decide_eq_true h⟩
  | _ => rw [e] at h; cases h

/-- A context with a tile in physical slice 2 and a window slice in 3, and some ME state. -/
def tiled (m : MeState) : Ctx → Ctx := fun x => { x with held := 2, win := 2, phys := [2, 3], tileTag := [(0, .fp32)], me := m }

def quarters (w : Tab Weights) (act : Tab Word) : MeState := { MeState.reset with mode := .quarter, weights := w, shadow := act, active := act }

/-- A step word of I8 weights, one row, in flight for tile 0 and sub-array 1. -/
def oneRow : Tab Word := [(0x40, atL 0), (0x45, 1), (0x46, 9), (0x47, 1)]
def flying : MeJob := ⟨5, 0, .mgo 0 1, 0, 1, 0, 0, 1, latchSet nestSet (quarters [] oneRow), List.replicate 6 0, 0⟩

/-- MatrixOperands: sub-array 3 is the last of quarter mode; E2M1 takes 16,392 bytes there, which need 65 lines. -/
def manyLines (s : State) : State := s.updCore 0 fun r => { r with lineOwner := (List.range 66).map fun i => (i, 0) }

theorem witness_MatrixOperands :
    (MeAt (manyLines (meS [(1, atL 0)] (tiled (quarters [] [])) [])) 0 (meN [(1, atL 0)]) (meX (tiled (quarters [] []))) { Needs.nothing with sub := some 3 } ∧
      3 < subCount .quarter ∧ arrayShape .quarter .e2m1 = some (256, 128) ∧
      ∃ t, (manyLines (meS [(1, atL 0)] (tiled (quarters [] [])) [])).meOpen 0 0 (meX (tiled (quarters [] []))) (meN [(1, atL 0)]).seq [(atL 0, weightBytes .e2m1 256 128 0)] [] = .go t ∧ True) ∧
    arrayShape .quarter .bf16 = none ∧
    (MeAt (meS [] id []) 0 (meN []) (meX id) { Needs.nothing with sub := some 1 } ∧ subCount (meX id).me.mode ≤ 1) ∧
    MeAt (meS [] id []) 0 (meN []) (meX id) { Needs.nothing with array := true } ∧
    ((meS [] id [flying]).wordTurn .me = some (0, meN [], meX id) ∧ ((meS [] id [flying]).core 0).jobs ≠ []) ∧
    (MeAt (meS [(1, atL 0), (2, atL 0)] id []) 0 (meN [(1, atL 0), (2, atL 0)]) (meX id) { Needs.nothing with latch := true } ∧
      ∃ t, (meS [(1, atL 0), (2, atL 0)] id []).meOpen 0 0 (meX id) (meN [(1, atL 0), (2, atL 0)]).seq [(atL 0, 8)] [] = .go t ∧
        (meGo t (meX id) (meN [(1, atL 0), (2, atL 0)]).seq ((List.range 2).map fun i => (atL 0 + BitVec.ofNat 64 (t.lWord 0 0 (atL 0 + BitVec.ofNat 64 (4 * i)) 4), 256)) []).isSome = true) := by
  refine ⟨⟨⟨rfl, rfl⟩, by decide, by decide, me_go (by decide +kernel)⟩, by decide, ⟨at_me _ _ _ _ ⟨rfl, rfl⟩, by decide⟩, at_me _ _ _ _ ⟨rfl, rfl⟩,
    ⟨rfl, by decide +kernel⟩, at_me _ _ _ _ ⟨rfl, rfl⟩, me_go (by decide +kernel)⟩

def eights : Tab Weights := [(0, ⟨.i8, 0, false, []⟩), (1, ⟨.i8, 0, false, []⟩)]

/-- MatrixNests: MGO and MGOB on I8 weights of 128 rows; a step of a word in flight. -/
theorem witness_MatrixNests :
    (MeAt (meS [] (tiled (quarters eights oneRow)) []) 0 (meN []) (meX (tiled (quarters eights oneRow)))
        (Needs.nest (meX (tiled (quarters eights oneRow))) 0 1) ∧
      1 < subCount (meX (tiled (quarters eights oneRow))).me.mode ∧ (meX (tiled (quarters eights oneRow))).tile? 0 = some 2 ∧
      arrayShape .quarter .i8 = some (128, 128) ∧ pairing (fmtAtag (latchSet nestSet (quarters eights oneRow))) .i8 = some .i32 ∧
      geomRows (latchSet nestSet (quarters eights oneRow)) = 1) ∧
    (((meS [] (tiled (quarters eights oneRow)) [flying]).core 0).jobs.find? (fun q => q.id == 5) = some flying ∧
      (meS [] (tiled (quarters eights oneRow)) [flying]).ctx? 0 0 = some (meX (tiled (quarters eights oneRow))) ∧ flying.idx ≠ [] ∧
      pairing (fmtAtag flying.act) .i8 = some .i32 ∧ stepRow0 flying.act flying.idx = some 0 ∧ reloads flying.act flying.idx = false ∧
      (meX (tiled (quarters eights oneRow))).tagOf 1 = .empty) ∧
    ∃ t, (meS [] (tiled (quarters eights oneRow)) [flying]).meOpen 0 0 (meX (tiled (quarters eights oneRow))) flying.seq
      (stepReads flying.act flying.idx false false 128 128) [] = .go t ∧ t.tileMark 0 2 0 [0] = none :=
  ⟨⟨at_me _ _ _ _ ⟨rfl, rfl⟩, by decide, by decide, by decide, by decide +kernel, by decide +kernel⟩,
    ⟨by decide +kernel, rfl, by decide, by decide +kernel, by decide +kernel, by decide +kernel, by decide⟩, me_go (by decide +kernel)⟩

/-- A window word at slice 1's start, for drains of one element of tile 0. -/
def drainRegs : List (Reg × Word) := [(1, 0x8100000000040000), (2, 0), (3, atL 0), (4, atL 0x40000)]

/-- The word that they name has been changed in order in phase 0 of region 0. -/
def orderedWord (s : State) : State := s.updCore 0 fun r => { r with slices := [(3, { Slice.zero with bits := [(0, ⟨true, true, 0, 0⟩)] })] }

theorem witness_MatrixDrains :
    (MeAt (meS drainRegs (tiled MeState.reset) []) 0 (meN drainRegs) (meX (tiled MeState.reset)) { Needs.nothing with tile := some 0 } ∧
      (meX (tiled MeState.reset)).tile? 0 = some 2 ∧ (regionOfReg 0).fits = true ∧ (meS drainRegs (tiled MeState.reset) []).tileMark 0 2 0 [0] = none ∧
      drainsTo .fp32 .bf16 = true ∧ (∃ t, (meS drainRegs (tiled MeState.reset) []).meOpen 0 0 (meX (tiled MeState.reset)) (meN drainRegs).seq [] [(atL 0, 2)] = .go t ∧ True) ∧
      (meX (tiled MeState.reset)).tagOf 0 = .fp32 ∧ (meX (tiled MeState.reset)).det = false ∧ (meN drainRegs).row = 0 ∧ (meN drainRegs).osc = [] ∧
      (meX (tiled MeState.reset)).tiles = [] ∧ ((meN drainRegs).reg 1).toNat % 64 = 0 ∧
      ((match (meS drainRegs (tiled MeState.reset) []).windowSpots 0 0 (meX (tiled MeState.reset)) [(0x8100000000040000, 4)] with
        | .ok (t, spots) => spots.all (fun q => q.remote == none) && (t.firstMark spots).isNone
        | .error _ => false) = true) ∧
      (match (meS drainRegs (tiled MeState.reset) []).windowSpots 0 0 (meX (tiled MeState.reset)) [(0x8100000000040000, 64)] with
        | .ok (t, spots) => spots.all (fun q => q.remote == none) && (t.firstMark spots).isNone &&
          ((t.crossedRow 0 (spots.map fun q => (q, 0))).addRow none (spots.map fun q => (q, 0))).isSome
        | .error _ => false) = true) ∧
    MeAt (meS drainRegs (fun x => { tiled MeState.reset x with det := true }) []) 0 (meN drainRegs) (meX fun x => { tiled MeState.reset x with det := true })
      { Needs.nothing with tile := some 0 } ∧
    (match (orderedWord (meS drainRegs (fun x => { tiled MeState.reset x with det := true }) [])).windowSpots 0 0
        (meX fun x => { tiled MeState.reset x with det := true }) [(0x8100000000040000, 64)] with
      | .ok (t, spots) => ((t.crossedRow 0 (spots.map fun q => (q, 0))).addRow (meX fun x => { tiled MeState.reset x with det := true }).detKey
          (spots.map fun q => (q, 0))).isNone
      | .error _ => false) = true ∧
    (MeAt (meS drainRegs (tiled (quarters [] [])) [flying]) 0 (meN drainRegs) (meX (tiled (quarters [] []))) Needs.nothing ∧
      (meX (tiled (quarters [] []))).inAccBusy = false ∧
      ((meS drainRegs (tiled (quarters [] [])) [flying]).core 0).jobs.find? (fun j => j.slot == 0 && j.tile == 0) = some flying ∧ MMode.quarter ≠ .full) ∧
    MeAt (meS drainRegs id []) 0 (meN drainRegs) (meX id) Needs.nothing ∧
    ∃ t, (meS [(1, atL 0)] id []).meOpen 0 0 (meX id) (meN [(1, atL 0)]).seq [] [(atL 0, 64)] = .go t ∧ True :=
  ⟨⟨at_me _ _ _ _ ⟨rfl, rfl⟩, by decide, by decide, by decide +kernel, by decide, me_go (by decide +kernel), by decide, rfl, rfl, rfl, rfl, by decide, by decide +kernel,
    by decide +kernel⟩, at_me _ _ _ _ ⟨rfl, rfl⟩, by decide +kernel, ⟨at_me _ _ _ _ ⟨rfl, rfl⟩, by decide, by decide +kernel, by decide⟩, at_me _ _ _ _ ⟨rfl, rfl⟩,
    me_go (by decide +kernel)⟩

/-- A valid table of one column; each operand is one BF16 element. -/
def sampled (inval : Bool) : MeState :=
  { MeState.reset with active := [(0x80, atL 0x100), (0x81, atL 0x200), (0x83, 0x22)], tabA := atL 0, tabB := atL 0, tabE := atL 0, tabK := 1, tvalid := true, inval := inval }

def drawing : MeJob := ⟨5, 0, .msgo 0, 0, 1, 0, 0, 0, [], [0], 0⟩

def meRegs : List (Reg × Word) := [(1, atL 0), (2, atL 0x100), (3, atL 0x200)]

theorem witness_MatrixSampling :
    (MeAt (meS meRegs (tiled (sampled false)) []) 0 (meN meRegs) (meX (tiled (sampled false))) { Needs.nothing with array := true } ∧
      (∃ t, (meS meRegs (tiled (sampled false)) []).meOpen 0 0 (meX (tiled (sampled false))) (meN meRegs).seq [(atL 0, 4), (atL 0x100, 4)] [(atL 0x200, 5)] = .go t ∧ True)) ∧
    (MeAt (meS meRegs (tiled (sampled false)) []) 0 (meN meRegs) (meX (tiled (sampled false))) Needs.nothing ∧
      (∃ t, (meS meRegs (tiled (sampled false)) []).meOpen 0 0 (meX (tiled (sampled false))) (meN meRegs).seq [(atL 0, 2)] [(atL 0x100, 4)] = .go t ∧ True)) ∧
    (∀ b, MeAt (meS meRegs (tiled (sampled b)) []) 0 (meN meRegs) (meX (tiled (sampled b))) ⟨true, none, false, some 0⟩) ∧
    ((sampled true).mode = .full ∧ (sampled true).sparse = 0 ∧ (sampled true).tabK = dimK (sampled true) ∧ sampleTag (tagA (sampled true)) = true ∧
      sampleTag (tagB (sampled true)) = true ∧ (meX (tiled (sampled true))).tagOf 0 = .fp32 ∧ ∀ p, p < 16 → probeOn (sampled true) p = false) ∧
    (((meS meRegs (tiled (sampled false)) [drawing]).core 0).jobs.find? MeJob.whole = some drawing ∧ (pairing (tagA (sampled false)) (tagB (sampled false))).isSome = true ∧
      ∃ t, (meS meRegs (tiled (sampled false)) [drawing]).meOpen 0 0 (meX (tiled (sampled false))) drawing.seq
        ((List.range 256).map fun i => (atL 0 + BitVec.ofNat 64 (5 * (drawColumn 0 1 i).1), 5)) [] = .go t ∧
        (t.lWord 0 0 (atL 3) 2 = 0 ∧ (drawColumn 0 1 255).1 = 0) ∧
        ((meGo t (meX (tiled (sampled false))) drawing.seq [(atL 0, 4), (atL 0, 4), (atL 0x200, 2), (atL 0x100, 2)] []).any fun u => (u.tileMark 0 2 0 [0]).isNone) = true) :=
  ⟨⟨at_me _ _ _ _ ⟨rfl, rfl⟩, me_go (by decide +kernel)⟩, ⟨at_me _ _ _ _ ⟨rfl, rfl⟩, me_go (by decide +kernel)⟩,
    fun b => at_me _ _ _ _ (by cases b <;> exact ⟨rfl, rfl⟩), ⟨rfl, rfl, by decide, by decide, by decide, by decide, by decide⟩, by decide +kernel, by decide,
    me_go (by decide +kernel)⟩

/-! ## Transfers -/

/-- The context's task with its one member, and a command of it that is word w with some captured registers. -/
def tuTask : Task := { atask 1 0 .running with members := [(0, 0, 0)] }

def tuM (w : Instr) (l : List (Reg × Word)) : TuCmd :=
  ⟨7, 0, 0, 1, 0, w, (regs l (bareCtx placedKey)).a, none, 0, none, false, 0, 0, 0, 0, [], [], 0, [], [], [], [], 0, 0, 1, 1, []⟩

/-- The command's turn in the small partition; f changes its context, g it. -/
def tuS (f : Ctx → Ctx) (g : TuCmd → TuCmd) (w : Instr) (l : List (Reg × Word)) : State :=
  { (world f [tuTask]).updCore 0 fun r => { r with cmds := [g (tuM w l)] } with turn := .cmd 0 7 }

/-- A context that owns the first sixteen lines of L. -/
def tuT (w : Instr) (l : List (Reg × Word)) : State :=
  (tuS id id w l).updCore 0 fun r => { r with lineOwner := (List.range 16).map fun i => (i, 0) }

/-- The next lines of a command, where all of them can be moved. -/
def movesTo (c id d k : Nat) (host : Bool) (line : Nat → Line) : Nat → State → Option State
  | 0, s => some s
  | n + 1, s => match s.cmd? c id, s.ctx? d k with
    | some m, some x => match s.moveLine d k x host (line m.line) m.got (ackCmd c id) with
      | .done u => movesTo c id d k host line n (u.updCmd c id fun m => { m with line := m.line + 1, got := [] })
      | _ => none
    | _, _ => none

theorem moves_of {c id d k : Nat} {host : Bool} {line : Nat → Line} : ∀ {n : Nat} {s t : State},
    movesTo c id d k host line n s = some t → State.Moves c id d k host line n s t
  | 0, s, t, h => (Option.some.inj h).symm
  | n + 1, s, t, h => by
    unfold movesTo at h
    split at h
    · rename_i m x hm hx
      split at h
      · rename_i u hu; exact ⟨m, x, u, hm, hx, hu, moves_of h⟩
      · cases h
    · cases h

theorem moves_ex {c id d k : Nat} {host : Bool} {line : Nat → Line} {n : Nat} {s : State} (h : (movesTo c id d k host line n s).isSome = true) :
    ∃ t, State.Moves c id d k host line n s t :=
  let ⟨t, e⟩ := Option.isSome_iff_exists.mp h
  ⟨t, moves_of e⟩

/-- A CHLD of one step whose list lies at L 0x100. -/
def chN : Entry := { mkEntry (regs [(3, atL 0x100)] (bareCtx placedKey)) 0 .tu 0 2 [] with started := true }
def chS : State := (State.reset.place (some .tu) [0x9C508860, 0]).updCore 0 fun r => { r with tu := [chN], lineOwner := [(0, 0), (1, 0)] }

/-- TransferCommands: a CPY and a CHLD to accept; a command that has ended, one whose store is not answered, one past its deadline, one
at it and one before it. -/
def tuN : Entry := { mkEntry (bareCtx placedKey) 0 .tu 0 1 [] with started := true }

theorem witness_TransferCommands :
    (((State.reset.place (some .tu) [0x045CEF41]).core 0).current .tu = some tuN ∧ (State.reset.place (some .tu) [0x045CEF41]).ctx? 0 0 = some (bareCtx placedKey) ∧
      (State.reset.place (some .tu) [0x045CEF41]).entryWords 0 (bareCtx placedKey) .tu tuN = [0x045CEF41] ∧ tuN.busy = false ∧ isDep 0x045CEF41 = false ∧
      decodeTu 0x045CEF41 [] = .ok (.cpy 5 25 27 26 false 1) 1 ∧
      (State.reset.place (some .tu) [0x045CEF41]).acceptable 0 (bareCtx placedKey) (.cpy 5 25 27 26 false 1) = true ∧
      (tuS id id (.cpy 5 1 2 3 false 0) []).acceptable 0 (wx id) (.cpy 5 25 27 26 false 1) = false ∧
      Instr.stepList 0 tuN (.cpy 5 25 27 26 false 1) = none) ∧
    ((chS.core 0).current .tu = some chN ∧ chS.ctx? 0 0 = some (bareCtx placedKey) ∧ chS.entryWords 0 (bareCtx placedKey) .tu chN = [0x9C508860, 0] ∧
      decodeTu 0x9C508860 [0] = .ok (.chld 5 1 2 3 0 0 0 0) 2 ∧ chS.acceptable 0 (bareCtx placedKey) (.chld 5 1 2 3 0 0 0 0) = true ∧
      Instr.stepList 0 chN (.chld 5 1 2 3 0 0 0 0) = some (atL 0x100, 16) ∧
      (match chS.readSegs 0 0 (bareCtx placedKey) false [] (unitPieces 4 (atL 0x100) 16) with
        | .ok (v, bs, _, []) => bs.length == 16 && (v.ctx? 0 0).any fun y => y.tags == 0
        | _ => false) = true) ∧
    (∀ g ∈ [fun m : TuCmd => { m with res := some (1, 3, 0) }, fun m => { m with res := some (1, 3, 0), acks := [(7, 1)] },
        fun m => { m with res := some (0, 0, 0), dl := 64, accepted := -65 }, fun m => { m with dl := 64, accepted := -64 }, fun m => { m with dl := 64 }],
      (tuS id g (.cpy 63 1 2 3 false 0) []).cmd? 0 (g (tuM (.cpy 63 1 2 3 false 0) [])).id = some (g (tuM (.cpy 63 1 2 3 false 0) [])) ∧
      (tuS id g (.cpy 63 1 2 3 false 0) []).resident 0 1 0 = some (0, 0, wx id) ∧ TuCmd.tag (g (tuM (.cpy 63 1 2 3 false 0) [])) = 63) ∧
    64 ≤ (((tuS id id (.cpy 63 1 2 3 false 0) []).core 0).cyc - (-64)).toNat ∧ (((tuS id id (.cpy 63 1 2 3 false 0) []).core 0).cyc - 0).toNat < 64 := by
  refine ⟨⟨by decide +kernel, rfl, by decide +kernel, rfl, by decide, by decide +kernel, by decide +kernel, by decide +kernel, rfl⟩,
    ⟨by decide +kernel, rfl, by decide +kernel, by decide +kernel, by decide +kernel, by decide +kernel, by decide +kernel⟩, ?_, by decide +kernel, by decide +kernel⟩
  intro g h
  simp only [List.mem_cons, List.not_mem_nil, or_false] at h
  rcases h with rfl | rfl | rfl | rfl | rfl <;> exact ⟨by decide +kernel, by decide +kernel, by decide⟩

theorem at_tu (f : Ctx → Ctx) (w : Instr) (l : List (Reg × Word)) (h : (tuS f id w l).classWaits (tuM w l) = false) :
    TuAt (tuS f id w l) 0 (tuM w l) 0 0 (wx f) w := ⟨rfl, rfl, rfl, ⟨rfl, rfl, rfl⟩, rfl, h, rfl⟩

/-- a1 to a6 of the copies: from L 0 to L 0x100, 64 bytes; one row; pitches 0. -/
def cpRegs : List (Reg × Word) := [(1, atL 0x100), (2, atL 0), (3, 64), (6, 1)]

/-- Sixteen by sixteen elements of four bytes; all rows of a matrix lie at one place. -/
def matRegs : List (Reg × Word) := [(1, atL 0x100), (2, atL 0), (3, 0x100010), (4, atL 0x200)]

/-- A CPYP whose plain lines have been moved, with some of them not answered. -/
def halfway (acks : List (Nat × Nat)) : State :=
  (tuS id (fun m => { m with line := 48, acks := acks }) (.cpyp 5 1 2 3 4 0 0 1 2 0) matRegs).updCore 0 fun r =>
    { r with lineOwner := (List.range 16).map fun i => (i, 0) }

/-- From L to the host's memory, through the leaf at G 3 · 2^30. -/
def hostRegs : List (Reg × Word) := [(1, 0xC0000000), (2, atL 0), (3, 64)]

def hostSide (w : Instr) : State :=
  { tuS id id w hostRegs with
    link := .cxl, parts := [(0, { part0 with hwsize := 0x200000 })], mem := Memory.write pages 0x3018 (leafWord 1 0x100000000000) }

/-- The source is the storage, at G 0, of a version homed here. -/
def tvRegs : List (Reg × Word) := [(1, atL 0x100), (2, 0x10000), (3, 64)]
def tvS (st : VState) : State := { tuS id id (.cpy 5 1 2 3 true 0) tvRegs with versions := [{ ver st with size := 64 }] }

theorem witness_Copies :
    (TuAt (tuS id id (.cpy 5 1 2 3 false 0) cpRegs) 0 (tuM (.cpy 5 1 2 3 false 0) cpRegs) 0 0 (wx id) (.cpy 5 1 2 3 false 0) ∧
      lenBad 64 = false ∧ lenOf 64 = 64 ∧ (wx id).rangeBad (atL 0x100) 64 = false ∧ (wx id).rangeBad (atL 0) 64 = false ∧
      ∃ t, State.Moves 0 7 0 0 false (copyLine (atL 0x100) (atL 0) 64) 3 (tuS id id (.cpy 5 1 2 3 false 0) cpRegs) t) ∧
    (lenBad 0x100000000 = true ∧ lenOf 0 = 0 ∧ TuAt (tuS id id (.cpyh 5 1 2 3 true 0) []) 0 (tuM (.cpyh 5 1 2 3 true 0) []) 0 0 (wx id) (.cpyh 5 1 2 3 true 0)) ∧
    TuAt (tuS id (fun m => { m with step := 1, ptr := atL 0 }) (.cpy 5 1 2 3 true 0) cpRegs) 0
      { tuM (.cpy 5 1 2 3 true 0) cpRegs with step := 1, ptr := atL 0 } 0 0 (wx id) (.cpy 5 1 2 3 true 0) ∧
    (TuAt (tvS .current) 0 (tuM (.cpy 5 1 2 3 true 0) tvRegs) 0 0 (wx id) (.cpy 5 1 2 3 true 0) ∧ (tvS .current).homeLocal 0 0x10000 = true ∧
      (tvS .current).version? 0 0x10000 = some { ver .current with size := 64 } ∧ (tvS .pending).version? 0 0x10000 = some { ver .pending with size := 64 } ∧
      ∃ t, State.Moves 0 7 0 0 false (copyLine (atL 0x100) 0 64) 3
        ((tvS .current).updCmd 0 7 fun m => { m with step := 1, ptr := 0, got := [] }) t) ∧
    (TuAt (tuS id id (.cpys 5 1 2 3 4 5 6 0) cpRegs) 0 (tuM (.cpys 5 1 2 3 4 5 6 0) cpRegs) 0 0 (wx id) (.cpys 5 1 2 3 4 5 6 0) ∧
      ((tuM (.cpys 5 1 2 3 4 5 6 0) cpRegs).reg 6).toNat = 1 ∧
      ∃ t, State.Moves 0 7 0 0 false (rowLine (atL 0x100) (atL 0) 64 0 0) 3 (tuS id id (.cpys 5 1 2 3 4 5 6 0) cpRegs) t) ∧
    (TuAt (tuS id id (.cpyt 5 1 2 3 0 0 2 0) matRegs) 0 (tuM (.cpyt 5 1 2 3 0 0 2 0) matRegs) 0 0 (wx id) (.cpyt 5 1 2 3 0 0 2 0) ∧
      aligned64 [atL 0x100, atL 0, 0, 0] = true ∧ dimsBad 2 0x100010 = false ∧ (wx id).matrixBad (atL 0) 0 16 64 = false ∧
      (wx id).matrixBad (atL 0x100) 0 16 64 = false ∧
      ∃ t, State.Moves 0 7 0 0 false (transLine (atL 0x100) (atL 0) 0 0 16 4) 16 (tuS id id (.cpyt 5 1 2 3 0 0 2 0) matRegs) t) ∧
    (TuAt (tuT (.cpyp 5 1 2 3 4 0 0 1 2 0) matRegs) 0 (tuM (.cpyp 5 1 2 3 4 0 0 1 2 0) matRegs) 0 0 (wx id) (.cpyp 5 1 2 3 4 0 0 1 2 0) ∧
      selectsL (atL 0) = true ∧ (wx id).matrixBad (atL 0x200) 64 16 64 = false) ∧
    (∃ t, State.Moves 0 7 0 0 false (fun i => if i < 48 then rowLine (atL 0x100) (atL 0) 64 0 0 i else transLine (atL 0x200) (atL 0) 64 0 16 4 (i - 48)) 48
      (tuT (.cpyp 5 1 2 3 4 0 0 1 2 0) matRegs) t) ∧
    (TuAt (halfway []) 0 { tuM (.cpyp 5 1 2 3 4 0 0 1 2 0) matRegs with line := 48 } 0 0 (wx id) (.cpyp 5 1 2 3 4 0 0 1 2 0) ∧
      TuAt (halfway [(7, 1)]) 0 { tuM (.cpyp 5 1 2 3 4 0 0 1 2 0) matRegs with line := 48, acks := [(7, 1)] } 0 0 (wx id) (.cpyp 5 1 2 3 4 0 0 1 2 0) ∧
      ∃ t, State.Moves 0 7 0 0 false (fun i => if i < 48 then rowLine (atL 0x100) (atL 0) 64 0 0 i else transLine (atL 0x200) (atL 0) 64 0 16 4 (i - 48)) 16
        (halfway []) t) ∧
    (TuAt (hostSide (.cpyh 5 1 2 3 true 0)) 0 (tuM (.cpyh 5 1 2 3 true 0) hostRegs) 0 0 (wx id) (.cpyh 5 1 2 3 true 0) ∧
      (∀ o ∈ (hostSide (.cpyh 5 1 2 3 true 0)).cmdsOf 0 1 0, 1 ≤ o.seq) ∧
      (hostSide (.cpyh 5 1 2 3 true 0)).oneHostSide 0 0 (wx id) 0xC0000000 (atL 0) 64 = true ∧
      ∃ t, State.Moves 0 7 0 0 true (copyLine 0xC0000000 (atL 0) 64) 3 (hostSide (.cpyh 5 1 2 3 true 0)) t) ∧
    (((world id []).reach 0 0 (wx id) true 0x10).t = .mem 0x40000010 ∧ ((world id []).reach 0 0 (wx id) true 0x10).r = true ∧
      ((world id []).reach 0 0 (wx id) true 0x10).w = true ∧ isSlate 0x40000010 = false ∧ (world id []).bounceSlot 0 0 = none ∧
      (match (world id []).readPiece 0 0 (wx id) false (atL 0) 8 with
        | .bytes u _ _ => u.reach 0 0 (wx id) true 0x10 == (world id []).reach 0 0 (wx id) true 0x10
        | _ => false) = true) := by
  refine ⟨⟨at_tu _ _ _ rfl, by decide, by decide, by decide, by decide, moves_ex (by decide +kernel)⟩, ⟨by decide, by decide, at_tu _ _ _ rfl⟩,
    ⟨rfl, rfl, rfl, ⟨rfl, rfl, rfl⟩, rfl, rfl, rfl⟩,
    ⟨⟨rfl, rfl, rfl, ⟨rfl, rfl, rfl⟩, rfl, rfl, rfl⟩, by decide +kernel, rfl, rfl, moves_ex (by decide +kernel)⟩, ⟨at_tu _ _ _ rfl, by decide, moves_ex (by decide +kernel)⟩,
    ⟨at_tu _ _ _ rfl, by decide, by decide, by decide +kernel, by decide +kernel, moves_ex (by decide +kernel)⟩,
    ⟨⟨rfl, rfl, rfl, ⟨rfl, rfl, rfl⟩, rfl, rfl, rfl⟩, by decide, by decide +kernel⟩, moves_ex (by decide +kernel),
    ⟨⟨rfl, rfl, rfl, ⟨rfl, rfl, rfl⟩, rfl, rfl, rfl⟩, ⟨rfl, rfl, rfl, ⟨rfl, rfl, rfl⟩, rfl, rfl, rfl⟩, moves_ex (by decide +kernel)⟩,
    ⟨⟨rfl, rfl, rfl, ⟨rfl, rfl, rfl⟩, rfl, rfl, rfl⟩, by decide +kernel, by decide +kernel, moves_ex (by decide +kernel)⟩,
    ⟨by decide +kernel, by decide +kernel, by decide +kernel, by decide, rfl, by decide +kernel⟩⟩

/-- CPYD: an empty table and four bytes of a stream in L. -/
def dRegs : List (Reg × Word) := [(1, atL 0), (2, atL 0x100), (3, 4), (4, atL 0x200), (5, 4)]

/-- A context with a mapped scratchpad region of one line. -/
def mapped : Ctx → Ctx := fun x => { x with srm := [(3, (0x8000000000000000, 0x100000))] }

/-- What readSegs gives, where it gives bytes that ask for nothing and are not marked. -/
def segsOf (s : State) (x : Ctx) (l : List (Word × Nat)) : Option (State × List Byte) := match s.readSegs 0 0 x false [] l with
  | .ok (t, bs, false, []) => some (t, bs)
  | _ => none

theorem segs_with {s : State} {x : Ctx} {l : List (Word × Nat)} {P : State → List Byte → Prop} [∀ t bs, Decidable (P t bs)]
    (h : (segsOf s x l).any (fun q => decide (P q.1 q.2)) = true) : ∃ t bs, s.readSegs 0 0 x false [] l = .ok (t, bs, false, []) ∧ P t bs := by
  unfold segsOf at h
  split at h
  · rename_i t bs e; exact ⟨t, bs, e, of_decide_eq_true h⟩
  · cases h

theorem witness_OtherTransfers :
    (TuAt (tuS id id (.cpyd 5 1 2 3 4 5 0) dRegs) 0 (tuM (.cpyd 5 1 2 3 4 5 0) dRegs) 0 0 (wx id) (.cpyd 5 1 2 3 4 5 0) ∧ (wx id).rangeBad (atL 0) 4 = false ∧ (wx id).rangeBad (atL 0x100) 4 = false ∧
      (wx id).rangeBad (atL 0x200) 256 = false ∧
      (∃ t bs, (tuS id id (.cpyd 5 1 2 3 4 5 0) dRegs).readSegs 0 0 (wx id) false []
        (unitPieces 6 (atL 0x200) 256 ++ unitPieces 2 (atL 0x100) 4) = .ok (t, bs, false, []) ∧ codeWords ((bs.take 256).map BitVec.toNat) = none) ∧
      (codeWords (List.replicate 256 8)).isSome = true) ∧
    (TuAt (tuS id (fun m => { m with out := List.replicate 16 0 }) (.chld 5 1 2 3 0 0 0 0) [(1, atL 0), (2, 0x10), (3, atL 0x100)]) 0
        { tuM (.chld 5 1 2 3 0 0 0 0) [(1, atL 0), (2, 0x10), (3, atL 0x100)] with out := List.replicate 16 0 } 0 0 (wx id) (.chld 5 1 2 3 0 0 0 0) ∧
      (wx id).rangeBad (atL 0x100) 16 = false ∧ (wx id).rangeBad (atL 0) 128 = false ∧
      (match stepsOf (List.replicate 16 0) 8 0 with | .ok l => l.length == 1 | .error _ => false) = true) ∧
    (∀ l ∈ [[((-1 : Word), (0 : Word), 0)], [(-1, 8, 0), (0, 0, 0)]],
      (tuS id (fun m => { m with ptr := 0x10, list := l }) (.chld 5 1 2 3 0 0 0 0) []).cmd? 0 7 =
          some { tuM (.chld 5 1 2 3 0 0 0 0) [] with ptr := 0x10, list := l } ∧
        (tuS id (fun m => { m with ptr := 0x10, list := l }) (.chld 5 1 2 3 0 0 0 0) []).resident 0 1 0 = some (0, 0, wx id) ∧
        ((tuS id (fun m => { m with ptr := 0x10, list := l }) (.chld 5 1 2 3 0 0 0 0) []).reach 0 0 (wx id) false 0x10).t = .mem 0x40000010 ∧
        (tuS id (fun m => { m with ptr := 0x10, list := l }) (.chld 5 1 2 3 0 0 0 0) []).bounceSlot 0 0 = none ∧
        (tuS id (fun m => { m with ptr := 0x10, list := l }) (.chld 5 1 2 3 0 0 0 0) []).marksAt (.mem 0x40000010) 8 = []) ∧
    ((match (tuS id id (.chld 5 1 2 3 0 0 0 0) [(1, atL 0)]).writePiece 0 0 (wx id) false (atL 0) (List.replicate 64 0) false (ackCmd 0 7) with
        | .done u => (match u.writePiece 0 0 (wx id) false (atL 64) (List.replicate 64 0) false (ackCmd 0 7) with | .done _ => true | _ => false)
        | _ => false) = true) ∧
    (TuAt (tuS id id (.pfch 5 1 2 3 0) [(2, 3), (3, 64)]) 0 (tuM (.pfch 5 1 2 3 0) [(2, 3), (3, 64)]) 0 0 (wx id) (.pfch 5 1 2 3 0) ∧
      (∀ q ∈ (tuS id id (.pfch 5 1 2 3 0) [(2, 3), (3, 64)]).pagesOf 0 0 64, (match q.2 with | some e => entryKind e.entry | none => 0) = 1) ∧
      tierClass 0x40000000 0 = 2 ∧ TuAt (tuS id id (.pfch 5 1 2 3 0) [(2, 1), (3, 64)]) 0 (tuM (.pfch 5 1 2 3 0) [(2, 1), (3, 64)]) 0 0 (wx id) (.pfch 5 1 2 3 0)) ∧
    (TuAt (tuS id id (.pfchMap 5 1 2 3 0) [(1, atL 0), (3, 1)]) 0 (tuM (.pfchMap 5 1 2 3 0) [(1, atL 0), (3, 1)]) 0 0 (wx id) (.pfchMap 5 1 2 3 0) ∧
      bitsAt (atL 0) 20 36 = 0 ∧ (atL 0).toNat % 256 = 0 ∧ bitsAt 1 0 13 = 1 ∧ (wx id).srm = []) ∧
    (TuAt (tuS id id (.evct 5 1 3 0) [(3, 64)]) 0 (tuM (.evct 5 1 3 0) [(3, 64)]) 0 0 (wx id) (.evct 5 1 3 0) ∧ (wx id).rangeBad 0 64 = false ∧
      TuAt (tuS id id (.evct 5 1 3 0) [(1, atL 0), (3, 64)]) 0 (tuM (.evct 5 1 3 0) [(1, atL 0), (3, 64)]) 0 0 (wx id) (.evct 5 1 3 0) ∧
      (wx id).dirtyLines 0 1 = []) ∧
    (TuAt (tuS mapped id (.evctUnmap 5 1 0) [(1, 3)]) 0 (tuM (.evctUnmap 5 1 0) [(1, 3)]) 0 0 (wx mapped) (.evctUnmap 5 1 0) ∧
      Tab.find (wx mapped).srm 3 = some (0x8000000000000000, 0x100000) ∧ srmValid (0x8000000000000000, 0x100000) = true ∧ (wx mapped).dirtyLines 0 1 = []) ∧
    (TuAt (tuS id id (.ctrb 5 1 2 3 0) [(1, 0x8100000000000000), (2, atL 0), (3, 64)]) 0 (tuM (.ctrb 5 1 2 3 0) [(1, 0x8100000000000000), (2, atL 0), (3, 64)]) 0 0
        (wx id) (.ctrb 5 1 2 3 0) ∧ (wx id).rangeBad (atL 0) 64 = false ∧ (wx id).rangeBad 0x8100000000000000 64 = false ∧ (wx id).det = false ∧
      TuAt (tuS id id (.ctrbXa 5 1 2 3 0) [(1, 0x8100000000000000), (2, atL 0), (3, 4)]) 0 (tuM (.ctrbXa 5 1 2 3 0) [(1, 0x8100000000000000), (2, atL 0), (3, 4)]) 0 0
        (wx id) (.ctrbXa 5 1 2 3 0) ∧
      (match (tuS id id (.ctrb 5 1 2 3 0) []).readPiece 0 0 (wx id) false (atL 0) 64 with
        | .bytes u _ _ => (u.reach 0 0 (wx id) true 0x8100000000000000).t == .win 0 2 0 && (u.detCheck none 0 2 0 true).isSome
        | _ => false) = true) ∧
    (TuAt (tuS id id (.rdyw 5 1 3 0) [(1, 0x8100000000000000)]) 0 (tuM (.rdyw 5 1 3 0) [(1, 0x8100000000000000)]) 0 0 (wx id) (.rdyw 5 1 3 0) ∧
      ((tuS id id (.rdyw 5 1 3 0) []).reach 0 0 (wx id) true 0x8100000000000000).t = .win 0 2 0 ∧
      redRdy (Slice.meta' ((tuS id id (.rdyw 5 1 3 0) []).slice 0 2) 0) = false ∧ redRdy (Slice.meta' ⟨[], [], [(0, 1#64 <<< 63)], []⟩ 0) = true) := by
  refine ⟨⟨at_tu _ _ _ rfl, by decide, by decide, by decide, segs_with (by decide +kernel), by decide +kernel⟩,
    ⟨⟨rfl, rfl, rfl, ⟨rfl, rfl, rfl⟩, rfl, rfl, rfl⟩, by decide, by decide, by decide +kernel⟩, ?_, by decide +kernel, ⟨at_tu _ _ _ rfl, by decide +kernel, by decide +kernel, at_tu _ _ _ rfl⟩,
    ⟨at_tu _ _ _ rfl, by decide, by decide, by decide, rfl⟩, ⟨at_tu _ _ _ rfl, by decide, at_tu _ _ _ rfl, by decide +kernel⟩,
    ⟨at_tu _ _ _ rfl, rfl, by decide, by decide +kernel⟩, ⟨at_tu _ _ _ rfl, by decide, by decide, rfl, at_tu _ _ _ rfl, by decide +kernel⟩,
    ⟨at_tu _ _ _ rfl, by decide +kernel, by decide +kernel, by decide⟩⟩
  intro l h
  simp only [List.mem_cons, List.not_mem_nil, or_false] at h
  rcases h with rfl | rfl <;> exact ⟨by decide +kernel, by decide +kernel, by decide +kernel, by decide +kernel, by decide +kernel⟩

/-! ## Steps of the device -/

/-- The small partition with core 0 idle. -/
def calm (l : List Task) : State := (world id l).updCore 0 fun r => { r with active := none, ctxs := [] }

/-- A gang of two on cores 0 and 1, which a pinned table names. -/
def gangRec : Rec := 1#1024 <<< 40
def gangTask (cs : List Nat) : Task := atask 2 gangRec (.reserved cs)
def savedImage : Image := ⟨0, { bareCtx placedKey with tid := 2, life := .parked (.join 0) true }, [], [], 0, 0⟩

/-- The partition with that gang, which has reserved cores cs; a member of it held a lock on core 0, which is isolated, where stuck holds. -/
def gangS (cs : List Nat) (stuck : Bool) : State :=
  { (calm [{ gangTask cs with images := if stuck then [{ savedImage with ctx := { savedImage.ctx with hlc := 1 } }] else [] }]).updCore 0 fun r =>
      { r with isolated := stuck } with parts := [(0, { part0 with bindings := [(0, 0, [0, 1])] })] }

/-- The small partition whose root region has a budget of no core. -/
def noCores (l : List Task) : State :=
  { calm l with parts := [(0, { part0 with regions := [(0, ⟨.running, rootRcb.set 2 0x40000, 0, 0, [(0, 0), (1, 0)]⟩)] })] }

/-- Object 1's image: 68 bytes at G 0x400, of which the header is the first 64; and one with no header. -/
def imagePages : Memory :=
  (pages.write 0x40000128 (bytesOf 8 0x400 ++ bytesOf 8 0x44)).write 0x40000400
    ([0x55, 0x53, 0x49, 0x4C, 1, 0, 0, 0, 0, 0, 0, 0, 0x44, 0, 0, 0, 0x40, 0, 0, 0, 4] ++ List.replicate 43 0)

def loading (x : Ctx) : Ctx := { x with life := .loading, record := 1 }

def boot (handle : BitVec 20) : State := (calm []).updCore 0 fun r => { r with mbox := { Mailbox.zero with handle := handle, busy := true } }

def aged (n : Nat) : State := { calm [atask 2 0 .ready] with dies := [(0, { Die.reset with qclk := BitVec.ofNat 64 n })] }

theorem witness_SchedulerEvents :
    ((calm [atask 2 0 .ready]).idle 0 = true ∧ (calm [atask 2 0 .ready]).nextFor 0 = some (atask 2 0 .ready) ∧ (world id []).idle 0 = false ∧
      (calm []).nextFor 0 = none) ∧
    ((calm [atask 2 0 (.reserved [0])]).reservedFor 0 = some (atask 2 0 (.reserved [0])) ∧ (calm [atask 2 0 (.reserved [0])]).withinBudget 0 0 = true ∧
      (noCores [atask 2 0 (.reserved [0])]).reservedFor 0 = some (atask 2 0 (.reserved [0])) ∧ (noCores [atask 2 0 (.reserved [0])]).withinBudget 0 0 = false ∧
      recGang (atask 2 0 (.reserved [0])).record = 0 ∧
      ((calm [atask 2 0 (.reserved [0])]).startMember (atask 2 0 (.reserved [0])) 0 0).isSome = true) ∧
    ((calm [{ atask 2 0 (.reserved [0]) with images := [savedImage] }]).reservedFor 0 = some { atask 2 0 (.reserved [0]) with images := [savedImage] } ∧
      ((calm [{ atask 2 0 (.reserved [0]) with images := [savedImage] }]).restoreOn { atask 2 0 (.reserved [0]) with images := [savedImage] } savedImage 0).isSome
        = true) ∧
    (∀ s : State, s = (calm []).updCore 0 (fun r => { r with ctxs := [(0, { bareCtx placedKey with record := gangRec, life := .parked .lock true })] }) →
      s.reservedFor 0 = none ∧ s.idle 0 = true ∧ s.wokenMember 0 = some 0 ∧
        s.ctx? 0 0 = some { bareCtx placedKey with record := gangRec, life := .parked .lock true }) ∧
    (((gangS [0] true).task? 0 2).any (fun t => t.st == .reserved [0] && t.images.any fun i => i.bound && ((gangS [0] true).core i.fromCore).isolated) = true ∧
      (gangS [0, 1] false).task? 0 2 = some (gangTask [0, 1]) ∧ [0, 1].length = recGang (gangTask [0, 1]).record + 1 ∧
      (gangS [0, 1] false).withinBudget 0 (recRegion (gangTask [0, 1]).record) = true ∧ ((gangS [0, 1] false).startGang (gangTask [0, 1]) [0, 1]).isSome = true ∧
      (gangS [0] false).task? 0 2 = some (gangTask [0]) ∧ [0].length ≠ recGang (gangTask [0]).record + 1) ∧
    (({ world loading [] with mem := pages } : State).updCore 0 fun r => { r with imem := [⟨⟨0, 1, 0⟩, 3, [0], [], [], [], 0⟩] }).wantedImage 0 (wx loading) = none ∧
    ((({ world loading [] with mem := pages } : State).updCore 0 fun r => { r with imem := [⟨⟨0, 1, 0⟩, 3, [0], [], [], [], 0⟩] }).core 0).loaded
      ((world loading []).imageKey 0 (recCode (wx loading).record)) = some ⟨⟨0, 1, 0⟩, 3, [0], [], [], [], 0⟩ ∧
    ((∀ m ∈ [pages, imagePages], ({ world loading [] with mem := m } : State).ctx? 0 0 = some (wx loading) ∧
        ({ world loading [] with mem := m } : State).wantedImage 0 (wx loading) = some ⟨0, 1, 0⟩ ∧
        ({ world loading [] with mem := m } : State).isImage 0 1 = true ∧ objGen (({ world loading [] with mem := m } : State).object 0 1).1 = 0 ∧
        selectsG (({ world loading [] with mem := m } : State).object 0 1).2.1 = true) ∧
      headerBad ((world loading []).readG 0 0 64) 0 = some 0 ∧ (world loading []).firstAway 0 0 64 = none ∧ (world loading []).poisonG 0 0 64 = none ∧
      headerBad (({ world loading [] with mem := imagePages } : State).readG 0 0x400 64) 0x44 = none ∧
      ({ world loading [] with mem := imagePages } : State).firstAway 0 0x400 0x44 = none ∧
      ({ world loading [] with mem := imagePages } : State).poisonG 0 0x400 0x44 = none) ∧
    (∀ w : Task, w = { atask 2 0 .ready with aged := 5 } → ∀ s : State, s = world id [tuTask, w] →
      s.runningOn 0 = some tuTask ∧ s.canPreempt tuTask = true ∧ s.queueDie w = dieOf 0 ∧ s.dispatchable w = true ∧ s.wants w = some 0) ∧
    (calm []).runningOn 0 = none ∧
    ((aged (2 ^ 20)).task? 0 2 = some (atask 2 0 .ready) ∧ recMgmt (atask 2 0 .ready).record = false ∧
      (atask 2 0 .ready).since + 2 ^ 20 ≤ ((aged (2 ^ 20)).die 0).qclk.toNat ∧ ((aged (2 ^ 20 - 1)).die 0).qclk.toNat < 2 ^ 20) ∧
    (((aged 4096).die 0).qclk.toNat / 4096 ≠ ((aged 4096).die 0).balanced ∧ ((aged 4095).die 0).qclk.toNat / 4096 = ((aged 4095).die 0).balanced) ∧
    (gangTask [0]).gathering = true ∧ (boot 1).coreOwner 0 ≠ some 1 ∧
    (∀ h ∈ [(0 : BitVec 20), 1], ((boot h).core 0).mbox.busy = true ∧ (boot h).coreOwner 0 = some 0 ∧ (boot h).coreOk 0 0 = true) ∧
    ((boot 0).recordCheck ⟨0, true, 0, true⟩ ((boot 0).bootRecord 0 ((boot 0).core 0).mbox)).isSome = true ∧
    (boot 1).recordCheck ⟨0, true, 0, true⟩ ((boot 1).bootRecord 0 ((boot 1).core 0).mbox) = none ∧
    ((boot 1).insertTask 0 ((boot 1).bootRecord 0 ((boot 1).core 0).mbox)
      ⟨0, 0, .boot 0, (boot 1).stampFor 0 ((boot 1).bootRecord 0 ((boot 1).core 0).mbox) none, none, false, some 0, none, 0⟩).toOption.isSome = true := by
  refine ⟨⟨?_, ?_, ?_, ?_⟩, ⟨?_, ?_, ?_, ?_, ?_, ?_⟩, ⟨?_, ?_⟩, ?woken, ⟨?_, ?_, ?_, ?_, ?_, ?_, ?_⟩, ?_, ?_, ⟨?images, ?_, ?_, ?_, ?_, ?_, ?_⟩, ?preempted, ?_,
    ⟨?_, ?_, ?_, ?_⟩, ⟨?_, ?_⟩, ?_, ?_, ?boots, ?_, ?_, ?_⟩
  case woken => intro s h; subst h; refine ⟨?_, ?_, ?_, ?_⟩ <;> decide +kernel
  case images =>
    intro m h; simp only [List.mem_cons, List.not_mem_nil, or_false] at h
    rcases h with rfl | rfl <;> refine ⟨?_, ?_, ?_, ?_, ?_⟩ <;> decide +kernel
  case preempted => intro w h s e; subst h e; refine ⟨?_, ?_, ?_, ?_, ?_⟩ <;> decide +kernel
  case boots =>
    intro h e; simp only [List.mem_cons, List.not_mem_nil, or_false] at e
    rcases e with rfl | rfl <;> refine ⟨?_, ?_, ?_⟩ <;> decide +kernel
  all_goals decide +kernel


/-- A version that is lost, with a hold, and a replica or a lineage entry. -/
def lostV (repl : Bool) (lin : Option Lineage) : DirEntry := { ver .lost with hold := 1, repl := repl, lin := lin }

/-- The small partition with one version and its context's task changed by f; its contexts are g's. -/
def vsOf (e : DirEntry) (f : Task → Task) (g : Ctx → Ctx) : State := { world g [f tuTask] with versions := [e] }

/-- The same with a slice of HBM on die 1 as well, for a replica. -/
def twoDies (e : DirEntry) : State :=
  { vsOf e (fun t => { t with replWaits := [0x10000] }) id with parts := [(0, { part0 with desc := part0.desc.write 0xAC [3] })] }

def ending (life : Life) : Ctx → Ctx := fun x => { x with life := life }

/-- The root region in deterministic mode, one phase open and none begun. -/
def phased (begun : Half) : State :=
  { world id [] with parts := [(0, { part0 with regions := [(0, ⟨.running, rootRcb.set 0 0x44000000, 1, begun, []⟩)] })] }

theorem witness_VersionAndTaskEnds :
    ((vsOf (ver .current) id id).version? 0 0x10000 = some (ver .current) ∧ (vsOf (ver .pending) id id).homeLocal 0 0x10000 = true ∧
      (vsOf (ver .pending) id id).version? 0 0x10000 = some (ver .pending)) ∧
    (((twoDies (ver .current)).replWanted 0 (ver .current)).any (fun want =>
        (twoDies (ver .current)).autoTarget 0 want (ver .current) == some (0, 1)) = true ∧
      (twoDies (ver .current)).replicaFits 0 (ver .current) 0 1 = true ∧ (lostV true none).repl = true) ∧
    (∀ q ∈ [lostV true none, lostV false (some (lineageOf 0 0)), lostV false none],
      (vsOf q id id).version? 0 0x10000 = some q ∧ q.st = .lost ∧ q.unrc = false ∧ q.need ≠ 0 ∧ ((vsOf q id id).part 0).quiesce = none ∧
        (vsOf q id id).homeLocal 0 0x10000 = true ∧ (vsOf q id id).storageMapped 0 q = true) ∧
    ((vsOf { ver .restore with size := 64 } id id).version? 0 0x10000 = some { ver .restore with size := 64 } ∧
      (vsOf { ver .restore with size := 64 } id id).residentG 0 0 64 = true) ∧
    ((vsOf (ver .current) id (ending .halted)).ctx? 0 0 = some (wx (ending .halted)) ∧
      (vsOf (ver .current) id (ending .halted)).task? 0 1 = some tuTask ∧ tuTask.members = [(0, 0, 0)] ∧
      (vsOf (ver .current) id (ending .halted)).settled 0 0 (wx (ending .halted)) = true ∧ Ctx.commitFault (wx (ending .halted)) = none ∧
      (wx (ending .halted)).pend = none ∧ (wx (ending .halted)).dirtyLines 0 4096 = [] ∧ (wx (ending .halted)).stores = [] ∧
      (vsOf (ver .current) id (ending .halted)).differs 0 tuTask [] = none ∧
      (vsOf (ver .recomp) (fun t => { t with recomp := true, record := verRec }) (ending .halted)).differs 0
        { tuTask with recomp := true, record := verRec } [] = some 0x10000 ∧
      Ctx.commitFault (wx fun x => { x with life := .halted, tagStatus := [(63, 1)] }) = some 63 ∧
      Ctx.commitFault (wx fun x => { x with life := .halted, nocommit := true }) = some 64) ∧
    (wx id).life ≠ .halted ∧
    (∀ s : State, s = vsOf (ver .current) id (ending (.aborting ⟨1, 0⟩)) → s.ctx? 0 0 = some (wx (ending (.aborting ⟨1, 0⟩))) ∧
      s.task? 0 1 = some tuTask ∧ ((s.abort 0 0 ⟨1, 0⟩).dropStuck 0 0 (wx (ending (.aborting ⟨1, 0⟩)))).drained 0 0 (wx (ending (.aborting ⟨1, 0⟩))) ⟨1, 0⟩ = true ∧
      ((((s.abort 0 0 ⟨1, 0⟩).dropStuck 0 0 (wx (ending (.aborting ⟨1, 0⟩)))).core 0).isolated = false) ∧
      s.drained 0 0 { wx (ending (.aborting ⟨1, 0⟩)) with stores := [⟨0, false, [], none, none, 0, false⟩] } ⟨1, 0⟩ = false) ∧
    (((phased 0).region 0 0).st = .running ∧ (phased 0).det 0 0 = true ∧ ((phased 0).region 0 0).begun ≠ ((phased 0).region 0 0).openPhase ∧
      (phased 0).tasks = [] ∧ ((phased 1).region 0 0).begun = ((phased 1).region 0 0).openPhase) ∧
    (calm []).ctx? 0 0 = none := by
  refine ⟨⟨?_, ?_, ?_⟩, ⟨?_, ?_, ?_⟩, ?walks, ⟨?_, ?_⟩, ⟨?_, ?_, ?_, ?_, ?_, ?_, ?_, ?_, ?_, ?_, ?_, ?_⟩, ?_, ?aborting, ⟨?_, ?_, ?_, ?_, ?_⟩, ?_⟩
  case walks =>
    intro q h; simp only [List.mem_cons, List.not_mem_nil, or_false] at h
    rcases h with rfl | rfl | rfl <;> refine ⟨?_, ?_, ?_, ?_, ?_, ?_, ?_⟩ <;> decide +kernel
  case aborting => intro s h; subst h; refine ⟨?_, ?_, ?_, ?_, ?_⟩ <;> decide +kernel
  all_goals decide +kernel

/-- The small partition with entries and step words of its context. -/
def engT (ve me : List Entry) (jobs : List MeJob) (f : Ctx → Ctx) : State :=
  { (engs f ve me).updCore 0 fun r => { r with jobs := jobs } with tasks := [tuTask] }

def runs (e : Eng) : Entry := { entryOf e with started := true }

/-- A VLD of one FP32 element that waits for another device's answer. -/
def away : Entry :=
  { mkEntry (regs [(24, 0x80000000)] (bareCtx placedKey)) 0 .ve 0 1 [] with
    started := true, shape := 0x10001, susp := true, asks := [⟨7, 0x80000000, 4, 0⟩], got := [(0x80000000, [1, 2, 3, 4])] }

def awayS : State := (far []).updCore 0 fun r => { r with imem := [{ engImage with ve := [0xB0160001] }], ve := [away] }

theorem witness_EngineSteps :
    (((engT [] [] [] id).core 0).startable .ve = none ∧ ((engT [entryOf .ve] [] [] id).core 0).startable .ve = some (entryOf .ve) ∧
      ((engT [] [{ entryOf .me with resume := true }] [] id).core 0).startable .me = some { entryOf .me with resume := true } ∧
      (engT [entryOf .ve] [] [] id).ctx? 0 0 = some (ex id)) ∧
    (((engT [runs .ve] [] [] id).core 0).chain .ve = [runs .ve] ∧ runs .ve ∉ ([] : List Entry) ∧ (runs .ve).started = true ∧ (runs .ve).susp = false ∧
      (runs .ve).failed = none ∧ (∀ d ∈ (ex id).doomed, d.1 ≠ some .ve) ∧ (runs .ve).busy = false ∧ { runs .ve with busy := true }.busy = true ∧
      ((engT [{ runs .ve with busy := true }] [] [] id).core 0).chain .ve = [{ runs .ve with busy := true }]) ∧
    (((engT [{ runs .ve with failed := some ⟨5, 0⟩ }] [] [] id).core 0).chain .ve).find? (fun m => m.failed.isSome) =
      some { runs .ve with failed := some ⟨5, 0⟩ } ∧
    ((((engT [] [{ runs .me with failed := some ⟨7, 0⟩ }] [] (handled 0 [])).core 0).chain .me).find? (fun m => m.failed.isSome) =
        some { runs .me with failed := some ⟨7, 0⟩ } ∧
      (engT [] [{ runs .me with failed := some ⟨7, 0⟩ }] [flying] (handled 0 [])).ctx? 0 0 = some (ex (handled 0 [])) ∧
      (∀ j ∈ ((engT [] [{ runs .me with failed := some ⟨7, 0⟩ }] [] (handled 0 [])).core 0).jobs, j.slot ≠ 0) ∧
      (∃ j ∈ ((engT [] [{ runs .me with failed := some ⟨7, 0⟩ }] [flying] (handled 0 [])).core 0).jobs, j.slot = 0) ∧
      (ex (handled 0 [])).life = .running ∧ (ex (handled 0 [])).awaitsPort = false ∧
      (ex fun x => { x with life := .halted }).life = .halted ∧
      (engT [] [{ runs .me with failed := some ⟨7, 0⟩ }] [] fun x => { x with life := .halted }).ctx? 0 0 = some (ex fun x => { x with life := .halted }) ∧
      ((engT [] [{ runs .me with failed := some ⟨7, 0⟩ }] [] fun x => { x with tvec := 0x8000000000000000 }).handlerReady 0
        (ex fun x => { x with tvec := 0x8000000000000000 }))) ∧
    (engT [] [] [] id).resumable 0 [] = none ∧
    (∃ p t spots, awayS.resumable 0 [1, 2, 3, 4] = some away ∧ awayS.ctx? 0 0 = some (wx (regs [])) ∧
      planOf (awayS.entryWords 0 (wx (regs [])) .ve away) = some (vldPlan 2 24 0) ∧ vldPlan 2 24 0 away (awayS.veEnv 0 (wx (regs [])) away) = .ok p ∧
      awayS.openBy 0 0 (wx (regs [])) (if p.write then .write else .read) away.pages (p.parts.map fun q => (q.1, q.2.length)) = .go t spots ∧
      [1, 2, 3, 4].length = (if p.write then 0 else (spots.filterMap fun q => q.remote.map fun _ => q.n).foldl (· + ·) 0)) ∧
    (∃ a b, ((engT [] [] [] id).updCore 0 fun r => { r with faults := [0, 1], cyc := 2 ^ 30 - 1 }).core 0 =
        { ((engT [] [] [] id).updCore 0 fun r => { r with faults := [0, 1], cyc := 2 ^ 30 - 1 }).core 0 with faults := [a, b], isolated := false } ∧
      ((2 ^ 30 - 1 : Word) - a).toNat < 2 ^ 30) ∧ ¬ ((2 ^ 30 : Word) - 0).toNat < 2 ^ 30 := by
  refine ⟨⟨?_, ?_, ?_, rfl⟩, ⟨?_, ?_, rfl, rfl, rfl, ?_, rfl, rfl, rfl⟩, ?_, ⟨?_, rfl, ?_, ?_, rfl, ?_, rfl, rfl, ⟨rfl, rfl, ?_⟩⟩, ?_,
    ⟨_, _, _, ?_, rfl, rfl, rfl, rfl, ?_⟩, ⟨0, 1, rfl, by decide⟩, by decide⟩ <;> decide +kernel

/-! ## Answers, streams, memories -/

def farWait : FarWait := ⟨7, 0x80000000, 3, 8, true, 0, 2, 5, none⟩

/-- The context waits for an answer to a load, or to a numbered request; a handler for a hand-over; a stream for its next tile. -/
def awaiting : Ctx → Ctx := fun x => { x with life := .parked (.remote farWait) false }
def awaitingPort : Ctx → Ctx := fun x => { x with life := .parked (.remote { farWait with id := 65541 }) false }
def leaving : Ctx → Ctx := fun x => { x with chkpt := true }

def inRing : Ring := { Ring.empty with valid := true, bound := true, kind := 1, nslot := 1, count := 2, lbase := 1, gbase := 0x1000 }
def outRing : Ring := { inRing with kind := 2, tail := 1 }

def streams (q : Ring) : State := world (ringx [] q) [tuTask]

/-- A task whose only context is saved, with a stream. -/
def savedWith (q : Ring) : Image := { savedImage with ctx := { wx (ringx [] q) with life := .parked (.join 0) true } }
def savedS (q : Ring) : State := calm [{ atask 1 0 .parked with images := [savedWith q] }]

theorem witness_AnswersAndStreams :
    (calm []).memberAt 0 0 = none ∧
    ((world awaiting [tuTask]).ctx? 0 0 = some (wx awaiting) ∧ (world awaiting [tuTask]).task? 0 1 = some tuTask ∧
      tuTask.members.find? (fun q => q.1 == 0) = some (0, 0, 0) ∧ farWait.id < 65536) ∧
    (world awaitingPort [tuTask]).ctx? 0 0 = some (wx awaitingPort) ∧ (65536 ≤ 65541) ∧
    (awayS.ctx? 0 0 = some (wx (regs [])) ∧ (wx (regs [])).awaits = false ∧ (awayS.core 0).ve.find? (fun n => n.susp && n.slot == 0) = some away ∧ away.osc = []) ∧
    (world id [tuTask]).ctx? 0 0 = some (wx id) ∧
    ({ (world leaving [tuTask]).updCore 0 fun r => { r with cyc := 2 ^ 20 } with parts := [(0, { part0 with quiesce := some 9 })] }.ctx? 0 0 =
        some (wx leaving) ∧ (wx leaving).chkpt = true ∧ 2 ^ 20 ≤ ((2 ^ 20 : Word) - (wx leaving).entered).toNat ∧
      ((world leaving [tuTask]).part 0).quiesce = none) ∧
    (calm []).memberCtx 0 1 0 = none ∧
    ((savedS inRing).resident 0 1 0 = none ∧ ((savedS inRing).task? 0 1).map (fun t => t.images.find? fun i => i.role == 0) = some (some (savedWith inRing)) ∧
      inRing.takes (savedWith inRing).ctx = true ∧ inRing.inUse < inRing.slots ∧ { outRing with claim := 1 }.begun = true ∧
      { outRing with claim := 1 }.takes (savedWith outRing).ctx = true) ∧
    ((streams inRing).resident 0 1 0 = some (0, 0, wx (ringx [] inRing)) ∧ inRing.takes (wx (ringx [] inRing)) = true ∧ inRing.inUse < inRing.slots ∧
      inRing.line < 4 * inRing.lines ∧ selectsG (inRing.tile + BitVec.ofNat 64 (64 * inRing.line)) = true ∧ inRing.got = [] ∧
      (match (streams inRing).readPiece 0 0 (wx (ringx [] inRing)) false 0x1000 64 with
        | .bytes u bs bad => (match u.slotWrite 0 0 0 (wx (ringx [] inRing)) 256 bs bad with | .done _ => true | _ => false)
        | _ => false) = true) ∧
    ((streams outRing).resident 0 1 0 = some (0, 0, wx (ringx [] outRing)) ∧ outRing.takes (wx (ringx [] outRing)) = true ∧ outRing.filled ≠ 0 ∧
      outRing.begun = false ∧ { outRing with claim := 1 }.begun = true ∧ 4 * { outRing with line := 4 }.lines ≤ { outRing with line := 4 }.line ∧
      outRing.acks = [] ∧ (streams outRing).inSlate 0 0 (wx (ringx [] outRing)) 0x1000 = false ∧
      (match (streams { outRing with claim := 1 }).writePiece 0 0 (wx (ringx [] { outRing with claim := 1 })) false 0x1000 (List.replicate 64 0) false
        (ackRing (wx (ringx [] { outRing with claim := 1 })) 0) with
        | .done _ => true
        | _ => false) = true) ∧
    selectsG ({ inRing with gbase := atL 0 }.tile + BitVec.ofNat 64 (64 * inRing.line)) = false := by
  refine ⟨?_, ⟨?_, ?_, ?_, ?_⟩, ?_, ?_, ⟨?_, ?_, ?_, ?_⟩, rfl, ⟨rfl, ?_, ?_, ?_⟩, ?_, ⟨?_, ?_, ?_, ?_, ?_, ?_⟩, ⟨?_, ?_, ?_, ?_, ?_, ?_, ?_⟩,
    ⟨?_, ?_, ?_, ?_, ?_, ?_, ?_, ?_, ?_⟩, ?_⟩ <;> decide +kernel

/-- A line of the context's L that belongs to region 3, its fill under way. -/
def answered : Ctx → Ctx := fun x => { mapped x with got := [(64, List.replicate 64 1, false), (128, List.replicate 64 2, false), (192, List.replicate 64 3, true)] }

def filling : State := { world mapped [tuTask] with fills := [⟨0, 0, 0, [.sq]⟩] }

/-- G pages on a non-resident leaf: G 4 · 2^30. -/
def awayPages : Memory := Memory.write pages 0x3020 (leafWord 2 0x123)

def slot1 : Bounce := ⟨0, 0, [(5, 9)], []⟩

theorem some_with {α : Type} {o : Option α} {P : α → Prop} [∀ a, Decidable (P a)] (h : o.any (fun a => decide (P a)) = true) : ∃ a, o = some a ∧ P a := by
  cases o with
  | none => cases h
  | some a => exact ⟨a, rfl, of_decide_eq_true h⟩

theorem witness_MemorySteps :
    ((∀ f ∈ filling.fills, f.names 0 0 1 = false) ∧ filling.fills.find? (fun f => f.names 0 0 0) = some ⟨0, 0, 0, [.sq]⟩ ∧ filling.ctx? 0 0 = some (wx mapped) ∧ (wx mapped).regionOf 0 = some 0 ∧
      ((wx mapped).line 0).rgf = false ∧ filling.fillCalled 0 0 0 = false ∧
      filling.classUnfinished (wx mapped) (((wx mapped).regionClass 0).getD 0) (Fill.oldest ⟨0, 0, 0, [.sq]⟩) = false ∧
      (match { world answered [tuTask] with fills := [⟨0, 0, 0, [.sq]⟩] }.fillUnits 0 0 (wx answered) ((List.range 4).map fun i => BitVec.ofNat 64 (64 * i)) [] [] with | .ok _ => true | .error _ => false) = true ∧
      (match { filling with mem := [] }.fillUnits 0 0 (wx mapped) ((List.range 4).map fun i => BitVec.ofNat 64 (64 * i)) [] [] with
        | .error (.call a) => a == 0
        | _ => false) = true) ∧
    Memory.wf (wx id).l = true ∧
    ((0x3FFF8 : Nat) < 0x40000 ∧ 0x3FFF8 % aopAlign .add = 0 ∧ 0x3FFFF % 8 ≠ 0 ∧ (world id []).detCheck none 0 2 0x3FFF8 (aopCommutes .add) = some (world id []) ∧
      (world id []).marksAt (.win 0 2 0x3FFF8) (aopWidth .add) = [] ∧ (win id [] 7 [0]).marksAt (.win 0 2 0) (aopWidth .add) ≠ []) ∧
    ((world id []).leafOf 0 (65536 * 0x20000) = none ∨ ((world id []).leafOf 0 (65536 * 0x8000)).isSome = true) ∧
    ((∃ q, (world id []).leafOf 0 (65536 * 0x4000) = some q ∧ entryKind q.2.entry = 3 ∧ entryBody q.2.entry / 128 % 2 = 0) ∧
      ((world id []).part 0).ownsCore 1 = true ∧ ((world id []).die (dieOf 1)).lost = false ∧ (world id []).quarterFree 1 0 3 = true) ∧
    ((∃ q, (world id []).leafOf 0 0 = some q ∧ entryKind q.2.entry = 1 ∧ isSlate (entryBody q.2.entry) = false ∧ q.2.size = 30 ∧
      (world id []).tierMoveOk 0 q.2 0 2 = true ∧ (world id []).tierMoveOk 0 q.2 0 3 = false ∧ (world id []).tierMoveOk 0 q.2 0x100000000000 2 = false) ∧
      (∀ j, j < 8 → hdmEn ((world id []).hdm j).1 = false) ∧ (world id []).targetFree 0 0 (2 ^ 30) = true) ∧
    (({ world id [] with dies := [(0, { Die.reset with bounce := [slot1] })] }.die 0).bounce[0]? = some slot1 ∧
      (∃ e, { world id [] with dies := [(0, { Die.reset with bounce := [slot1] })] }.translate 0 0 = some e ∧ entryKind e.entry = 1) ∧
      { world id [] with mem := [], dies := [(0, { Die.reset with bounce := [slot1] })] }.translate 0 0 = none) ∧
    (∃ v : State, v = (tuS id id (.cpy 5 1 2 3 false 0) []) ∧ v.cmd? 0 7 = some (tuM (.cpy 5 1 2 3 false 0) []) ∧
      v.overdue 0 (tuM (.cpy 5 1 2 3 false 0) []) = false ∧ (tuM (.cpy 5 1 2 3 false 0) []).writesBack = false ∧
      [PagerCall.command 0 7 0][0]? = some (.command 0 7 0)) ∧
    (((tuS id (fun m => { m with dl := 1 }) (.cpy 5 1 2 3 false 0) []).updCore 0 fun r => { r with cyc := 5 }).cmd? 0 7 =
        some { tuM (.cpy 5 1 2 3 false 0) [] with dl := 1 } ∧
      ((tuS id (fun m => { m with dl := 1 }) (.cpy 5 1 2 3 false 0) []).updCore 0 fun r => { r with cyc := 5 }).overdue 0
        { tuM (.cpy 5 1 2 3 false 0) [] with dl := 1 } = true) ∧
    ((tuS id id (.evct 5 1 2 0) []).cmd? 0 7 = some (tuM (.evct 5 1 2 0) []) ∧ (tuM (.evct 5 1 2 0) []).writesBack = true ∧
      (((tuS id id (.evct 5 1 2 0) []).faultCmd 0 7 reasonXlate).resident 0 1 0).isSome = true) ∧
    ((127 % 256 < 128) ∧ (128 ≤ 128 % 256) ∧ ((world id []).die 0).lost = false) ∧
    ((tuM (.cpy 5 1 2 3 false 0) []).res = none ∧ ({ tuM (.cpy 5 1 2 3 false 0) [] with res := some (0, 0, 0) } : TuCmd).res ≠ none) ∧
    (streams inRing).memberCtx 0 1 0 = some (0, wx (ringx [] inRing)) := by
  refine ⟨⟨?_, ?_, rfl, ?_, ?_, ?_, ?_, ?_, ?_⟩, ?_, ⟨?_, ?_, ?_, rfl, ?_, ?_⟩, ?_, ⟨some_with ?_, ?_, ?_, ?_⟩, ⟨some_with ?_, ?_, ?_⟩,
    ⟨rfl, ⟨_, rfl, ?_⟩, ?_⟩, ⟨_, rfl, rfl, ?_, rfl, rfl⟩, ⟨rfl, ?_⟩, ⟨rfl, rfl, ?_⟩, ⟨?_, ?_, ?_⟩, ⟨rfl, ?_⟩, ?_⟩ <;> decide +kernel

/-! ## Faults, links, management -/

/-- ErrorsAndResets: sites at the ends of their ranges and just beyond; a core that is empty and isolated, one that is not; a die whose heartbeat and
sample are due, and one whose are not. -/
theorem witness_ErrorsAndResets :
    (eccValid (.scratch 255 15 16383) = true ∧ eccValid (.scratch 0 0 16384) = false ∧ eccValid (.accum 255 65535) = true ∧ eccValid (.vreg 255 4095) = true ∧
      eccValid (.imem 256 0 0) = false ∧ eccValid (.device 0) = true) ∧
    ((world id []).ctx? 0 0 = some (wx id) ∧ Tab.find ((world id []).core 0).lineOwner (3 / 4) = some 0) ∧
    ((256 : Nat) ≤ 256 ∧ ({ world id [] with dies := [(3, { Die.reset with lost := true })] }.die (dieOf 255)).lost = true) ∧
    (255 < 256 ∧ ((world id []).die (dieOf 255)).lost = false ∧
      (let s := (world id []).updCore 1 fun r => { r with isolated := true, heldReset := false }
       (s.core 1).isolated = true ∧ (s.core 1).heldReset = false ∧ s.emptied 1 = true)) ∧
    (((aged (2 ^ 16)).die 0).qclk.toNat / 2 ^ 16 ≠ ((aged (2 ^ 16)).die 0).heartbeat ∧
      ((aged (2 ^ 16 - 1)).die 0).qclk.toNat / 2 ^ 16 = ((aged (2 ^ 16 - 1)).die 0).heartbeat ∧
      ((aged 4096).die 0).qclk.toNat / 4096 ≠ ((aged 4096).die 0).sampled ∧ ((aged 4095).die 0).qclk.toNat / 4096 = ((aged 4095).die 0).sampled) := by
  refine ⟨⟨?_, ?_, ?_, ?_, ?_, ?_⟩, ⟨rfl, ?_⟩, ⟨?_, ?_⟩, ⟨?_, ?_, ?_⟩, ⟨?_, ?_, ?_, ?_⟩⟩ <;> decide +kernel

/-- R463: after a power-on reset of the small partition no partition exists, and a port that was up has sent its notice. -/
theorem test_power_on : (match exec .powerOnReset { world id [] with tunars := [(3, { Tunar.reset with up := true })] } with
    | .next t => t.parts == [] && t.outbox == [.notice 3] && (t.core 0).heldReset
    | _ => false) = true := by decide +kernel

theorem witness_Losses :
    ((4 : Nat) ≤ 4 ∧ (3 : Nat) < 4 ∧ ({ world id [] with dies := [(3, { Die.reset with lost := true })] }.die 3).lost = true) ∧ ((world id []).die 3).lost = false ∧
    (({ world id [] with parts := [] }.part 0).exists_ = false ∧ ((world id []).part 0).devnum = 0 ∧ ((world id []).part 0).exists_ = true ∧ (7 : Nat) ≠ 0) ∧
    ((tuS id (fun m => { m with asks := [⟨7, 0, 64, 0⟩] }) (.cpy 5 1 2 3 false 0) []).cmd? 0 7 =
        some { tuM (.cpy 5 1 2 3 false 0) [] with asks := [⟨7, 0, 64, 0⟩] } ∧ (tuM (.cpy 5 1 2 3 false 0) []).part = 0) := by
  refine ⟨⟨?_, ?_, ?_⟩, ?_, ⟨?_, ?_, ?_, ?_⟩, ⟨rfl, rfl⟩⟩ <;> decide +kernel

/-- R472: the loss of die 1 leaves a partition that has nothing of it alone, and drops the cores of that die. -/
theorem test_die_loss : (match exec (.dieLoss 1) ((world id []).updCore 64 fun r => { r with cyc := 5 }) with
    | .next t => (t.die 1).lost && (t.core 64) == Core.reset && (t.part 0).quiesce == none
    | _ => false) = true := by decide +kernel

/-- A module of die 0 to die 1 that is up, with a flit that is not acknowledged. -/
def side01 : UcieSide := ⟨0, 1, 0⟩
def aModule (w : Nat) (errs : Half) (re : Bool) : Ucie := ⟨side01, true, re, [(0, errs)], w, 1, 0, [(0, some ⟨0, []⟩)]⟩
def linked (w : Nat) (errs : Half) (re : Bool) : State := { State.reset with ucies := [aModule w errs re] }

/-- Flits whose CRC-32 was computed with zlib: kinds 0, 1, 4 and 15, and kind 1 on channel 4 with number 9. -/
def goodFlit (kind : Nat) : BitVec 512 :=
  if kind = 0 then 0x4128908000000000000000000000000000000000000000000000000000000000000000000000000000000000000000000000000000000000000000000000000 else if kind = 1 then 0xcec10787000000000000000000000000000000000000000000000000000000000000000000000000000000000000000000000000000000000000000000000001
  else if kind = 4 then 0x99bebfb6000000000000000000000000000000000000000000000000000000000000000000000000000000000000000000000000000000000000000000000004 else if kind = 15 then 0xfd92415b00000000000000000000000000000000000000000000000000000000000000000000000000000000000000000000000000000000000000000000000f
  else 0x37806190000000000000000000000000000000000000000000000000000000000000000000000000000000000000000000000000000000000000000000000941
def portUp (replays : Nat) : State := { State.reset with tunars := [(3, { Tunar.reset with up := true, replays := replays })] }

theorem witness_LinkSteps :
    ((State.reset.ucie side01).up = false ∧ ((linked 64 0 true).ucie side01).retraining = true) ∧
    (((linked 64 0 false).ucie side01).up = true ∧ ((linked 64 0 false).ucie side01).retraining = false ∧ (0 : BitVec 8) = ((linked 64 0 false).ucie side01).expect ∧
      (1 : BitVec 8) ≠ ((linked 64 0 false).ucie side01).expect ∧
      Tab.get 0 ((linked 64 0 false).ucie side01).items 0 + 1 < ((linked 64 0 false).ucie side01).fth) ∧
    (((linked 32 0xFFFFFFFE false).ucie side01).fth ≤ Tab.get 0 ((linked 32 0xFFFFFFFE false).ucie side01).items 0 + 1 ∧
      ((linked 32 0xFFFFFFFE false).ucie side01).width ≠ 64 ∧
      ((linked 64 0xFFFFFFFE false).ucie side01).fth ≤ Tab.get 0 ((linked 64 0xFFFFFFFE false).ucie side01).items 0 + 1 ∧
      ((linked 64 0xFFFFFFFE false).ucie side01).width = 64 ∧ side01 ≠ ⟨side01.peer, side01.die, side01.mod⟩) ∧
    ((State.reset.tunar 3).up = false ∧ ((portUp 15).tunar 3).up = true ∧ flitGood (goodFlit 0) = true ∧ flitGood 1 = false ∧ flitGood (goodFlit 15) = true ∧
      ((flitBytes (goodFlit 4)).getD 0 0).toNat % 16 = 4 ∧ (flitBytes (goodFlit 1)).getD 1 0 = ((portUp 0).tunar 3).expect ∧
      (flitBytes (goodFlit 9)).getD 1 0 ≠ ((portUp 0).tunar 3).expect) := by
  refine ⟨⟨?_, ?_⟩, ⟨?_, ?_, ?_, ?_, ?_⟩, ⟨?_, ?_, ?_, ?_, ?_⟩, ⟨?_, ?_, ?_, ?_, ?_, ?_, ?_, ?_⟩⟩ <;> decide +kernel

/-- A packet from device 7 to a device of partition 0, at address 0x10. -/
def pkt (typ dst hops rsn oparg : Nat) (data : List Byte) : Packet := ⟨packetHeader 0x10 oparg rsn dst 7 0 hops (if 128 ≤ typ then 1 else 0) typ, data⟩

/-- A leaf in a Slate page whose bank is being refreshed. -/
def slatePages : State :=
  { far [] with mem := Memory.write pages 0x3000 (leafWord 1 0x8000000000), parts := [(0, { part0 with desc := part0.desc.write 0xE0 [1] })] }

/-- The route to device 7 is there, but its port is down. -/
def downPort : State := { far [] with tunars := [] }

theorem witness_PacketsAndPorts :
    (Packet.ok (pkt 7 0 0 0 0 []) = false ∧ Packet.ok (pkt 1 7 3 0 7 []) = true ∧ Packet.dst (pkt 1 7 3 0 7 []) = 7 ∧ ((far []).part 0).devnum = 0 ∧
      Packet.hops (pkt 1 7 4 0 7 []) = 4 ∧ Packet.hops (pkt 1 7 3 0 7 []) = 3 ∧ (world id []).wayTo 0 7 = .none ∧ downPort.wayTo 0 7 = .down ∧
      (far []).wayTo 0 7 = .via 0 1 ∧ Packet.ok (pkt 1 0 0 0 7 []) = true ∧ Packet.dst (pkt 1 0 0 0 7 []) = 0) ∧
    (Packet.ok (pkt 0x80 0 0 0 0 []) = true ∧ Packet.cls (pkt 0x80 0 0 0 0 []) = 1 ∧ Packet.ok (pkt 2 0 0 0 0 [1]) = true ∧ Packet.cls (pkt 2 0 0 0 0 [1]) = 0 ∧
      Packet.typ (pkt 2 0 0 0 0 [1]) = 2) ∧
    (({ far [] with responders := [⟨7, 0, 0, [5], []⟩] }.responder 7 0).duplicate 5 = true ∧ ((far []).responder 7 0).duplicate 5 = false ∧
      ((far []).responder 7 0).duplicate 0x7FFF = false ∧ ((far []).responder 7 0).duplicate 0x8000 = true) ∧
    (((far []).reachFor 0 0x10).t = .mem 0x40000010 ∧ refusal ((far []).reachFor 0 0x10) .read = none ∧ refusal ((far []).reachFor 0 0x10) .write = none ∧
      (far []).bankBusy (.mem 0x40000010) = false ∧ (far []).marksAt (.mem 0x40000010) 8 = [] ∧
      (match slatePages.serve 0 (pkt 1 0 0 0 7 []) with | .retry _ => true | _ => false) = true ∧
      (match (far []).serve 0 (pkt 1 0 0 0 7 []) with | .now u _ _ _ => (u.part 0).devnum == 0 | _ => false) = true ∧
      (match (far []).serve 0 (pkt 2 0 0 5 0 [1]) with | .now u _ _ _ => (u.part 0).devnum == 0 | _ => false) = true) ∧
    ((far []).routesBy 3 = [] ∧ (far []).routesBy 0 = [(7, 0x88000000)]) := by
  refine ⟨⟨?_, ?_, ?_, ?_, ?_, ?_, ?_, ?_, ?_, ?_, ?_⟩, ⟨?_, ?_, ?_, ?_, ?_⟩, ⟨?_, ?_, ?_, ?_⟩, ⟨?_, ?_, ?_, ?_, ?_, ?_, ?_, ?_⟩, ⟨?_, ?_⟩⟩ <;> decide +kernel

/-- A well-formed descriptor: core 0, one slice of HBM, an object table of one entry. -/
def desc1 : Memory := poke [(7, [0x80]), (0x10, [1]), (0x19, [0x10]), (0x23, [4]), (0x80, [1]), (0xA0, [1])]

/-- The device with firmware, owned by master 1; partition 0 has that descriptor, and partition 1 may be there with one too. -/
def owned (here other : Bool) (hbm : List Nat) : State :=
  { State.reset with
    fwReady := true, hbmUp := hbm, mown := ⟨0, 0, 1⟩
    parts := [(0, { Part.reset with exists_ := here, desc := desc1 }), (1, { Part.reset with exists_ := other, desc := desc1 })] }

/-- The same after the loss of die 0, with master 2 as the owner. -/
def afterLoss : State := { owned true false [] with mown := ⟨0, 0, 2⟩, dies := [(0, { Die.reset with lost := true })] }

theorem witness_OwnershipAndPartitions :
    ((afterLoss.die 0).lost = true ∧ (2 : Nat) ≠ 1 ∧ afterLoss.mown.owner = 2 ∧ ((owned false false []).die 0).lost = false) ∧
    ((1 : Nat) ≤ 1 ∧ (3 : Nat) ≤ 3 ∧ (owned false false []).mown.owner = 1 ∧ State.reset.mown.owner ≠ 1 ∧ (2#4).toNat ≠ 1 ∧ (2#4).toNat ≤ 3 ∧
      (2#4).toNat ≠ (owned false false []).mown.htgt ∧ 3 < (4#4).toNat) ∧
    (State.reset.fwReady = false ∧ (owned false false []).fwReady = true ∧ (owned false false []).mgmt.recov = false ∧ ((owned false false []).part 0).busy = false) ∧
    (((owned true false []).part 0).exists_ = true ∧ ((owned true false []).part 0).inReset = false ∧ ((owned false false []).part 0).wellFormed = true ∧
      (Part.reset).wellFormed = false ∧ (owned false true [0]).taken 0 ((owned false true [0]).part 0) = true ∧
      (owned false false []).taken 0 ((owned false false []).part 0) = false ∧ (owned false false []).absent ((owned false false []).part 0) = true ∧
      (owned false false [0]).absent ((owned false false [0]).part 0) = false) ∧
    (mgmtListed 0x28 = false ∧ mgmtListed 0x1038 = true ∧ mgmtListed 0x1040 = false ∧ (63 : Nat) < 64 ∧ (258 : Nat) < 259) ∧
    (((owned true false []).part 0).ownsCore 0 = true ∧ ((owned true false []).part 0).ownsCore 1 = false ∧ ((owned true false []).core 0).mbox.busy = false ∧
      ((boot 1).core 0).mbox.busy = true) := by
  refine ⟨⟨?_, ?_, ?_, ?_⟩, ⟨?_, ?_, ?_, ?_, ?_, ?_, ?_, ?_⟩, ⟨?_, ?_, ?_, ?_⟩, ⟨?_, ?_, ?_, ?_, ?_, ?_, ?_, ?_⟩, ⟨?_, ?_, ?_, ?_, ?_⟩, ⟨?_, ?_, ?_, ?_⟩⟩ <;> decide +kernel

/-- R491: CREATE starts the root region and lets the core leave reset; the read of MOWN gives and clears DENY. -/
theorem test_create : (match exec (.pctlCreate 1 0) (owned false false [0]) with
      | .next t => (t.part 0).exists_ && (t.part 0).busy && (t.part 0).result == 0 && (t.region 0 0).st == .running && !(t.core 0).heldReset && (t.core 1).heldReset
      | _ => false) = true ∧
    exec (.mownRead 2) { State.reset with mown := ⟨3, 0, 1⟩ } = .next { State.reset with outbox := [.mown 0x300000001], mown := ⟨0, 0, 1⟩ } :=
  ⟨by decide +kernel, rfl⟩

/-- A decoder over slice 0 of partition 0 at host address 4 · 2^30, enabled in the second state. -/
def hdmS (w : Word) : State := { owned true false [0] with link := .cxl, mgmt := { State.reset.mgmt with hdm0 := [(7, w)], hdm1 := [(7, 1)] } }

/-- A firmware image with a magic number but no length. -/
def shortImage : List Byte := [0x59, 0x46, 0x57, 0x31]

theorem witness_ManagementRegisters :
    ((hdmS 0).mown.owner = 1 ∧ (hdmS 0).mgmt.recov = false ∧ (hdmS 0).hdmLive.contains 7 = false ∧ (hdmS 0).hdmOk 7 0x8000000100000000 1 = true ∧
      (hdmS 0).hdmOk 7 0x8000000100000000 2 = false ∧ (hdmS 0x8000000100000000).hdmLive.contains 7 = true ∧ hdmEn 0x8000000100000000 = true ∧ hdmEn 0 = false) ∧
    (1000 ≤ bitsAt 1000 0 12 ∧ bitsAt 3200 0 12 ≤ 3200 ∧ ¬ (1000 ≤ bitsAt 999 0 12)) ∧
    ((hdmS 0x8000000100000000).hdmPa 0x100000000 = some 0 ∧ (hdmS 0x8000000100000000).hdmPa 0x13FFFFFFF = some 0x3FFFFFFF ∧
      (hdmS 0x8000000100000000).hdmPa 0x140000000 = none ∧ (hdmS 0x8000000100000000).present 0 = true) ∧
    (({ hdmS 0 with mgmt := { State.reset.mgmt with hdm0 := [(7, 0)], emptying := [7] } }).mgmt.emptying.contains 7 = true ∧
      ({ hdmS 0 with mgmt := { State.reset.mgmt with hdm0 := [(7, 0)], emptying := [7] } }).hdmBusy 7 = false) ∧
    ((1#64 <<< 63).getLsbD 63 = true ∧ (1#64 <<< 63).getLsbD 62 = false ∧ (0 : Word).getLsbD 63 = false) ∧
    ([NvmeReq.mk 5 0 0 0].find? (fun q => q.id == 5) = some ⟨5, 0, 0, 0⟩ ∧ [NvmeReq.mk 5 0 0 0].find? (fun q => q.id == 4) = none) ∧
    (State.reset.fwReady = false ∧ (owned false false []).fwReady = true ∧ bootCheck State.reset.fuses shortImage = 1) ∧ side01.die ≠ side01.peer := by
  refine ⟨⟨?_, ?_, ?_, ?_, ?_, ?_, ?_, ?_⟩, ⟨?_, ?_, ?_⟩, ⟨?_, ?_, ?_, ?_⟩, ⟨?_, ?_⟩, ⟨?_, ?_, ?_⟩, ⟨?_, ?_⟩, ⟨?_, ?_, ?_⟩, ?_⟩ <;> decide +kernel

/-! ## Steps and words -/

/-- A word waits for a port's answer; a word had stalled at a fill that cannot be had. -/
def portAwaited : Ctx → Ctx := fun x => { x with asks := [⟨7, 0x80000000, 0, 65541⟩] }
def doomedSq : Ctx → Ctx := fun x => { x with doomed := [(none, ⟨3, 8⟩)] }

/-- StepRunsInstruction: words of every stream at their turns, a word that decodes to nothing, a pc at the end, an engine word that does not decode, a
command, an event and an inbox. Which slots of a die over its limits are withheld is a free value, so no state shows one that is. -/
theorem witness_StepRunsInstruction :
    (SqTurn (here [0x3F100000] id) 0 0 (cx id) ∧ (cx id).awaitsPort = false ∧ (cx id).pend = none ∧
      ((here [0x3F100000] id).core 0).loaded (cx id).image = some ⟨placedKey, 0, [0x3F100000], [], [], [], 0⟩ ∧ (decodeSq 0x3F100000).isSome = true ∧
      decodeSq 0xFFFFFFFF = none ∧ ([0x3F100000] : List Half)[1]? = none) ∧
    (SqTurn ((here [0] id).updCore 0 fun r => { r with imem := [] }) 0 0 (cx id) ∧
      (((here [0] id).updCore 0 fun r => { r with imem := [] }).core 0).loaded (cx id).image = none) ∧
    (SqTurn (here [0] fun x => { x with pend := some ⟨2, 5⟩ }) 0 0 (cx fun x => { x with pend := some ⟨2, 5⟩ }) ∧
      (cx fun x => { x with pend := some ⟨2, 5⟩ }).pend = some ⟨2, 5⟩) ∧
    (SqTurn (here [0] portAwaited) 0 0 (cx portAwaited) ∧ (cx portAwaited).awaitsPort = true) ∧
    ((here [0] doomedSq).ctx? 0 0 = some (cx doomedSq) ∧ (cx doomedSq).doomed.find? (fun d => d.1.isNone) = some (none, ⟨3, 8⟩) ∧
      (cx id).doomed.find? (fun d => d.1.isNone) = none) ∧
    ((veS full floats).wordTurn .ve = some (0, veN full, vX) ∧ (veS full floats).entryWords 0 vX .ve (veN full) = [0x02000000] ∧
      (veS full floats).slotWithheld 0 = false ∧ (match decodeEngine .ve 0x02000000 [] with | .ok _ n => n == 1 | .bad _ => false) = true ∧
      (match decodeEngine .ve 0xFFFFFFFF [] with | .ok .. => false | .bad o => o == 0) = true) ∧
    ((tuS id id (.cpy 5 1 2 3 false 0) []).turn = .cmd 0 7 ∧ (tuS id id (.cpy 5 1 2 3 false 0) []).cmd? 0 7 = some (tuM (.cpy 5 1 2 3 false 0) [])) ∧
    (Turn.slot (.event (.stageBalancer 0)) = none ∧ State.reset.turn = .idle ∧ State.reset.inbox = []) := by
  refine ⟨⟨⟨rfl, rfl, rfl⟩, rfl, rfl, rfl, ?_, ?_, rfl⟩, ⟨⟨rfl, rfl, rfl⟩, rfl⟩, ⟨⟨rfl, rfl, rfl⟩, rfl⟩, ⟨⟨rfl, rfl, rfl⟩, rfl⟩, ⟨rfl, rfl, rfl⟩, ⟨rfl, ?_, ?_, ?_, ?_⟩, ⟨rfl, rfl⟩, ⟨?_, rfl, rfl⟩⟩ <;>
    decide +kernel

/-- DecodeEncode: well-formed words of each stream, a DEP before a word that is not one, and words whose row another row shares. -/
theorem witness_DecodeEncode :
    (∀ i ∈ [Instr.acas 3 10 4 4 0, .vadd ⟨true, .rtz⟩ 63 62 61 7, .msamp 5 6 7 8, .cpy 63 25 27 26 true 15], i.wf = true ∧ i.isEvent = false ∧ i.wordRow = i) ∧
    ((Instr.dep (some (.me, 1)) none none).wf = true ∧ isDep 0x02000000 = false) ∧ (Instr.rlaunchStop 1 2 3 0).wordRow ≠ .rlaunchStop 1 2 3 0 := by
  decide +kernel

theorem witness_EveryStepGoesOn : SqTurn (here [0] id) 0 0 (cx id) ∧ (Instr.nop 0).stream = none ∧ (Instr.nop 0).isEvent = false ∧
    (veS full floats).wordTurn .ve = some (0, veN full, vX) ∧ (Instr.vadd ⟨false, .rne⟩ 1 2 3 0).stream = some .ve ∧
    (tuS id id (.cpy 5 1 2 3 false 0) []).turn = .cmd 0 7 ∧ (tuM (.cpy 5 1 2 3 false 0) []).word.stream = some .tu ∧ Instr.isEvent .powerOnReset = true ∧
    ∀ c id m, State.reset.cmd? c id = some m → m.word.stream = some .tu :=
  ⟨⟨rfl, rfl, rfl⟩, rfl, rfl, rfl, rfl, rfl, rfl, rfl, fun _ _ _ h => by cases h⟩

theorem witness_StoresAndFrames : Memory.wf pages = true ∧ Memory.wf (world id []).mem = true ∧ (world id []).ctx? 0 0 = some (wx id) :=
  ⟨by decide +kernel, by decide +kernel, rfl⟩

/-- The bytes stored over others, and zero over a byte that was not: what reads as unlisted is not listed. -/
theorem test_memory : Memory.write (poke [(5, [1, 2, 3])]) 4 [9, 0] = [(4, 9), (6, 2), (7, 3)] := by decide

theorem witness_TurnOffered : ∃ t, step State.reset = .next t := ⟨_, rfl⟩

end Sys2Proof.Tests
end

/-! SUPPORT. The family of the scope: what power-on reset leaves, the ownership of the management space, and the operations on
partitions with the registers that reach them. -/

namespace Sys2Proof.Machine

/-! ## Power-on reset -/

/-- Settles O54: every table of the reset state is empty, so each part reads the value that its accessor gives for an absent key. -/
theorem resetState : Obligations.ResetState := by
  have hcore : ∀ c, State.reset.core c = Core.reset := fun _ => rfl
  have hpart : ∀ p, State.reset.part p = Part.reset := fun _ => rfl
  have hdie : ∀ d, State.reset.die d = Die.reset := fun _ => rfl
  unfold Obligations.ResetState
  simp only [hcore, hpart, hdie]
  exact ⟨rfl, fun _ => ⟨rfl, rfl, rfl, rfl, rfl, rfl, rfl, rfl, fun _ => rfl⟩, fun _ => ⟨rfl, rfl, rfl, rfl, fun _ => rfl⟩,
    fun _ => ⟨rfl, rfl, rfl, fun _ => ⟨rfl, rfl⟩⟩, fun _ => rfl, rfl, rfl, rfl, rfl, rfl, rfl, rfl, rfl, rfl, rfl,
    fun _ => ⟨rfl, rfl, rfl⟩, rfl, rfl, Memory.get_nil, State.reset_mem_wf, .inl State.reset_turn⟩

/-! ## Tables and parts of the state after an update -/

/-- A filter that looks at the keys only keeps the values of the keys that it keeps. -/
theorem Tab.find_filter_key {α : Type} (t : Tab α) (f : Nat → Bool) (k : Nat) :
    Tab.find (t.filter fun e => f e.1) k = if f k then Tab.find t k else none := by
  induction t with
  | nil => simp
  | cons e l ih =>
    obtain ⟨i, v⟩ := e
    by_cases hf : f i = true <;> by_cases hk : i = k
    · subst hk; simp [Tab.find, hf]
    · simp [Tab.find, hf, hk, ih]
    · subst hk; simp [hf, ih]
    · simp [Tab.find, hf, hk, ih]

/-- A map that keeps the keys maps the values. -/
theorem Tab.find_map_value {α : Type} (t : Tab α) (f : Nat → α → α) (k : Nat) :
    Tab.find (t.map fun e => (e.1, f e.1 e.2)) k = (Tab.find t k).map (f k) := by
  induction t with
  | nil => rfl
  | cons e l ih =>
    obtain ⟨i, v⟩ := e
    by_cases hk : i = k
    · subst hk; simp [Tab.find]
    · simp [Tab.find, hk, ih]

theorem State.part_updPart (s : State) (p q : Nat) (f : Part → Part) : (s.updPart p f).part q = if p = q then f (s.part p) else s.part q :=
  Tab.get_put _ _ _ _ _

@[simp] theorem State.part_updPart_self (s : State) (p : Nat) (f : Part → Part) : (s.updPart p f).part p = f (s.part p) := by
  simp [State.part_updPart]

theorem State.part_updPart_of_ne (s : State) {p q : Nat} (f : Part → Part) (h : q ≠ p) : (s.updPart p f).part q = s.part q := by
  simp [State.part_updPart, Ne.symm h]

@[simp] theorem State.part_emit (s : State) (m : Msg) (q : Nat) : (s.emit m).part q = s.part q := rfl

/-! ## Ownership (R488, R489) -/

/-- MOWN with other contents, of which PF0 is told. -/
def State.chown (s : State) (d : Mown) : State := ({ s with mown := d }).interrupt 0 0

/-- The outcome of a write that is discarded: DENY counts up to 255. -/
def State.denied (s : State) : Out :=
  if s.mown.deny = min 255 (s.mown.deny + 1) then .next s else .next (s.chown { s.mown with deny := min 255 (s.mown.deny + 1) })

theorem State.setMown_same (s : State) : s.setMown s.mown = s := by simp [State.setMown]

theorem State.setMown_of_ne {s : State} {d : Mown} (h : d ≠ s.mown) : s.setMown d = s.chown d := by simp [State.setMown, State.chown, h]

/-- The path of a master reaches the space; PF0's does while die 0 is there. -/
theorem State.isMaster_of {s : State} {m : Nat} (h1 : 1 ≤ m) (h3 : m ≤ 3) (hl : m = 1 → (s.die 0).lost = false) : s.isMaster m = true := by
  by_cases h : m = 1
  · simp [State.isMaster, h, hl h]
  · simp [State.isMaster, h, h1, h3]

theorem State.isMaster_one_of_lost {s : State} (h : (s.die 0).lost = true) : s.isMaster 1 = false := by simp [State.isMaster, h]

/-- A write of a master without a path does nothing. -/
theorem State.owned_of_not_master {s : State} {m : Nat} (h : s.isMaster m = false) (f : State → State) : s.owned m f = s := by
  simp [State.owned, h]

/-- A write of the owner acts. -/
theorem State.owned_of_owner {s : State} {m : Nat} (h : s.isMaster m = true) (ho : s.mown.owner = m) (f : State → State) :
    s.owned m f = f s := by simp [State.owned, h, ho]

/-- A write of another master is discarded and counted (R488). -/
theorem State.next_owned_of_other {s : State} {m : Nat} (h : s.isMaster m = true) (ho : s.mown.owner ≠ m) (f : State → State) :
    (.next (s.owned m f) : Out) = s.denied := by
  simp only [State.owned, h, Ne.symm ho, Bool.not_true, Bool.false_eq_true, if_false, State.denied]
  split
  case isTrue hd => rw [← hd, State.setMown_same]
  case isFalse hd => rw [State.setMown_of_ne fun e => hd (congrArg Mown.deny e).symm]

/-- The read of MOWN returns DENY and clears it. -/
theorem exec_mownRead {s : State} {m : Nat} (h : s.isMaster m = true) :
    exec (.mownRead m) s = .next { s.emit (.mown s.mown.word) with mown := { s.mown with deny := 0 } } := by
  show execMownRead m s = _
  simp [execMownRead, h]

/-- The owner offers to another master that MOWN does not name yet. -/
theorem exec_htgtWrite_offer {s : State} {m : Nat} {b : BitVec 4} (h : s.isMaster m = true) (ho : s.mown.owner = m) (hm : b.toNat ≠ m)
    (h3 : b.toNat ≤ 3) (ht : b.toNat ≠ s.mown.htgt) : exec (.htgtWrite m b) s = .next (s.chown { s.mown with htgt := b.toNat }) := by
  show execHtgtWrite m b s = _
  rw [execHtgtWrite, State.owned_of_owner h ho, if_neg (by simp [hm, h3]), State.setMown_of_ne fun e => ht (congrArg Mown.htgt e)]

/-- An offer to itself, to a number that is no master, or to the master that is named already changes nothing. -/
theorem exec_htgtWrite_idle {s : State} {m : Nat} {b : BitVec 4} (h : s.isMaster m = true) (ho : s.mown.owner = m)
    (hb : b.toNat = m ∨ 3 < b.toNat ∨ b.toNat = s.mown.htgt) : exec (.htgtWrite m b) s = .next s := by
  show execHtgtWrite m b s = _
  rw [execHtgtWrite, State.owned_of_owner h ho]
  split
  case isTrue => rfl
  case isFalse hn =>
    have ht : b.toNat = s.mown.htgt := by
      simp only [Bool.or_eq_true, decide_eq_true_eq, not_or] at hn
      exact (hb.resolve_left hn.1).resolve_left hn.2
    rw [ht, State.setMown_same]

theorem exec_mclmClaim {s : State} {m : Nat} (h : s.isMaster m = true) (h1 : 1 ≤ m) :
    exec (.mclmClaim m) s = if s.mown.owner = 0 then .next (s.chown { s.mown with owner := m }) else .next s := by
  show execMclmClaim m s = _
  simp only [execMclmClaim, State.claim, h, Bool.true_and, decide_eq_true_eq]
  split
  case isTrue ho =>
    have hne : ({ s.mown with owner := m } : Mown) ≠ s.mown := fun e => by
      have : m = s.mown.owner := congrArg Mown.owner e
      omega
    rw [State.setMown_of_ne hne]
  case isFalse => rfl

theorem State.next_releaseOwner (s : State) (n : Nat) :
    (.next (s.releaseOwner n) : Out) = if s.mown.owner = n then .next (s.chown { s.mown with owner := 0, htgt := 0 }) else .next s := by
  unfold State.releaseOwner
  split <;> rfl

theorem exec_mclmRelease {s : State} {m : Nat} (h : s.isMaster m = true) : exec (.mclmRelease m) s = .next (s.releaseOwner m) := by
  show execMclmRelease m s = _
  simp [execMclmRelease, h]

theorem exec_mclmAccept {s : State} {m : Nat} (h : s.isMaster m = true) (h1 : 1 ≤ m) :
    exec (.mclmAccept m) s = if s.mown.htgt = m then .next (s.chown { s.mown with owner := m, htgt := 0 }) else .next s := by
  show execMclmAccept m s = _
  simp only [execMclmAccept, State.accept', h, Bool.true_and, decide_eq_true_eq]
  split
  case isTrue ht =>
    have hne : ({ s.mown with owner := m, htgt := 0 } : Mown) ≠ s.mown := fun e => by
      have : 0 = s.mown.htgt := congrArg Mown.htgt e
      omega
    rw [State.setMown_of_ne hne]
  case isFalse => rfl

/-- What a master without a path asks of the management space does nothing. -/
theorem exec_of_not_master {s : State} {m : Nat} (h : s.isMaster m = false) (p off : Nat) (v w : Word) (b : BitVec 4) :
    ∀ i ∈ [Instr.mownRead m, .mclmClaim m, .mclmRelease m, .mclmAccept m, .htgtWrite m b, .pctlCreate m p, .svnrRaise m, .hdmEnable m p w,
      .nvmeSlotEnable m p w, .registerWrite m (.mgmt off) v], exec i s = .next s := by
  have hread : execMownRead m s = .next s := by simp [execMownRead, h]
  have hclaim : s.claim m = s := by simp [State.claim, h]
  have hrelease : (if s.isMaster m then s.releaseOwner m else s) = s := by simp [h]
  have haccept : s.accept' m = s := by simp [State.accept', h]
  have hregister : s.mgmtWrite m off v = s := by simp [State.mgmtWrite, h]
  have howned : ∀ f, (.next (s.owned m f) : Out) = .next s := fun f => congrArg _ (State.owned_of_not_master h f)
  simp only [List.forall_mem_cons]
  exact ⟨hread, congrArg _ hclaim, congrArg _ hrelease, congrArg _ haccept, howned _, howned _, howned _, howned _, howned _,
    congrArg _ hregister, List.forall_mem_nil _⟩

/-- What comes over the host port does nothing once die 0 is lost (R16). -/
theorem exec_of_host_port_lost {s : State} (h : (s.die 0).lost = true) (m p off c which q : Nat) (v : Word) :
    ∀ i ∈ [Instr.registerWrite m (.hostWindow p which) v, .registerWrite m (.mailbox p c off) v, .registerWrite m (.msix q off) v,
      .hostFunctionReset q], exec i s = .next s := by
  simp only [List.forall_mem_cons]
  exact ⟨congrArg _ (if_pos h), congrArg _ (if_pos h), congrArg _ (if_pos h), if_pos h, List.forall_mem_nil _⟩

/-- A write to a listed register other than MOWN, MCLM and PCTL, and to a descriptor that is open, is the owner's to make. -/
theorem State.mgmtWrite_owned {s : State} {m off : Nat} (h : s.isMaster m = true) (h0 : off ≠ 0) (h8 : off ≠ 8) (hl : mgmtListed off = true)
    (hd : s.descClosed off = false) (hp : off < 0x1000 ∨ 0x1040 ≤ off) (v : Word) :
    s.mgmtWrite m off v = s.owned m fun s => s.writeMgmt off v := by
  have hpctl : ¬ (0x1000 ≤ off ∧ off < 0x1040) := by omega
  simp [State.mgmtWrite, h, h0, h8, hl, hd, hpctl]

/-- What a master that is not the owner writes is discarded and counted (R488). -/
theorem exec_of_other {s : State} {m : Nat} (h : s.isMaster m = true) (ho : s.mown.owner ≠ m) (p : Nat) (v w : Word) (b : BitVec 4) :
    ∀ i ∈ [Instr.htgtWrite m b, .pctlCreate m p, .pctlDestroy m p, .pctlReset m p, .pctlQuiesce m p, .svnrRaise m, .hdmEnable m p w,
      .hdmDisable m p, .nvmeSlotEnable m p w, .nvmeSlotDisable m p, .registerWrite m (.mgmt 0x20) v], exec i s = s.denied := by
  have howned : ∀ f, (.next (s.owned m f) : Out) = s.denied := State.next_owned_of_other h ho
  have hplim : exec (.registerWrite m (.mgmt 0x20) v) s = .next (s.owned m fun s => s.writeMgmt 0x20 v) :=
    congrArg Host.Outcome.next (State.mgmtWrite_owned h (by decide) (by decide) (by decide) rfl (by decide) v)
  simp only [List.forall_mem_cons]
  exact ⟨howned _, howned _, howned _, howned _, howned _, howned _, howned _, howned _, howned _, howned _, hplim.trans (howned _),
    List.forall_mem_nil _⟩

/-! ## Operations on partitions (R490, R491) -/

/-- The owner asks for an operation on a partition, and the firmware takes it. -/
structure State.TakesPctl (s : State) (m p : Nat) : Prop where
  master : s.isMaster m = true
  owner : s.mown.owner = m
  part : p < 8
  firmware : s.fwReady = true
  noRecovery : s.mgmt.recov = false
  idle : (s.part p).busy = false

/-- An operation of the owner is not taken for a number that is no partition, without firmware, in recovery, or while one is in progress. -/
theorem State.pctl_not_taken {s : State} {m p : Nat} (h : s.isMaster m = true) (ho : s.mown.owner = m)
    (hn : 8 ≤ p ∨ s.fwReady = false ∨ s.mgmt.recov = true ∨ (s.part p).busy = true) (f : State → State) : s.pctl m p f = s := by
  rw [State.pctl, State.owned_of_owner h ho, if_pos (by simpa [or_assoc] using hn)]

theorem State.pctl_taken {s : State} {m p : Nat} (h : s.TakesPctl m p) (f : State → State) : s.pctl m p f = f s := by
  rw [State.pctl, State.owned_of_owner h.master h.owner, if_neg (by simp [h.part, h.firmware, h.noRecovery, h.idle])]

theorem exec_pctl_not_taken {s : State} {m p : Nat} (h : s.isMaster m = true) (ho : s.mown.owner = m)
    (hn : 8 ≤ p ∨ s.fwReady = false ∨ s.mgmt.recov = true ∨ (s.part p).busy = true) :
    ∀ i ∈ [Instr.pctlCreate m p, .pctlDestroy m p, .pctlReset m p, .pctlQuiesce m p], exec i s = .next s := by
  have hpctl : ∀ f, (.next (s.pctl m p f) : Out) = .next s := fun f => congrArg _ (State.pctl_not_taken h ho hn f)
  simp only [List.forall_mem_cons]
  exact ⟨hpctl _, hpctl _, hpctl _, hpctl _, List.forall_mem_nil _⟩

section Taken

variable {s : State} {m p : Nat} (h : s.TakesPctl m p)
include h

/-- A partition that runs cannot be created again. -/
theorem exec_pctlCreate_there (he : (s.part p).exists_ = true) (hr : (s.part p).inReset = false) :
    exec (.pctlCreate m p) s = .next (s.beginOp p 3) := by
  show execPctlCreate m p s = _
  rw [execPctlCreate, State.pctl_taken h, if_pos (by simp [he, hr])]

/-- CREATE of a partition that is not there or in reset, by the first check of its descriptor that fails. -/
theorem exec_pctlCreate_absent (ha : (s.part p).exists_ = false ∨ (s.part p).inReset = true) : exec (.pctlCreate m p) s = .next (
    if !(s.part p).wellFormed then s.beginOp p 1
    else if s.taken p (s.part p) then s.beginOp p 2
    else if s.absent (s.part p) then s.beginOp p 4
    else (s.create p).beginOp p 0) := by
  show execPctlCreate m p s = _
  rw [execPctlCreate, State.pctl_taken h]
  exact congrArg _ (if_neg (by rcases ha with ha | ha <;> simp [ha]))

/-- The other operations ask for a partition that is there. -/
theorem exec_pctl_nowhere (he : (s.part p).exists_ = false) : exec (.pctlDestroy m p) s = .next (s.beginOp p 3) ∧
    exec (.pctlReset m p) s = .next (s.beginOp p 3) ∧ exec (.pctlQuiesce m p) s = .next (s.beginOp p 3) := by
  show execPctlDestroy m p s = _ ∧ execPctlReset m p s = _ ∧ execPctlQuiesce m p s = _
  simp [execPctlDestroy, execPctlReset, execPctlQuiesce, State.pctl_taken h, he]

theorem exec_pctlReset (he : (s.part p).exists_ = true) : exec (.pctlReset m p) s = .next ((s.partReset p).beginOp p 0) := by
  show execPctlReset m p s = _
  rw [execPctlReset, State.pctl_taken h, if_neg (by simp [he])]

theorem exec_pctlDestroy (he : (s.part p).exists_ = true) : exec (.pctlDestroy m p) s =
    .next (((s.partReset p).updPart p fun x => { x with exists_ := false, inReset := false }).beginOp p 0) := by
  show execPctlDestroy m p s = _
  rw [execPctlDestroy, State.pctl_taken h, if_neg (by simp [he])]

theorem exec_pctlQuiesce_inReset (hr : (s.part p).inReset = true) : exec (.pctlQuiesce m p) s = .next (s.beginOp p 3) := by
  show execPctlQuiesce m p s = _
  rw [execPctlQuiesce, State.pctl_taken h, if_pos (by simp [hr])]

theorem exec_pctlQuiesce_running (he : (s.part p).exists_ = true) (hr : (s.part p).inReset = false) :
    exec (.pctlQuiesce m p) s = .next ((s.requestQuiesce p).beginOp p 0) := by
  show execPctlQuiesce m p s = _
  rw [execPctlQuiesce, State.pctl_taken h, if_neg (by simp [he, hr])]

end Taken

/-- The end of an operation reports its result and interrupts PF0. -/
theorem exec_pctlOperationEnd (s : State) (p : Nat) : exec (.pctlOperationEnd p) s = if (s.part p).busy then
    .next ((s.updPart p fun x => { x with busy := false, stat := BitVec.ofNat 8 x.result }).interrupt 0 1) else .next s := by
  show execPctlOperationEnd p s = _
  unfold execPctlOperationEnd
  cases (s.part p).busy <;> rfl

/-! ## What a partition reset leaves (R463) -/

theorem State.part_partReset (s : State) (p q : Nat) : (s.partReset p).part q = if p = q then { Part.reset with
      exists_ := (s.part p).exists_, inReset := true, busy := (s.part p).busy, stat := (s.part p).stat, result := (s.part p).result
      desc := (s.part p).desc, hwbase := (s.part p).hwbase, hwsize := (s.part p).hwsize, msix := (s.part p).msix
      msixOpen := (s.part p).msixOpen, msixPending := (s.part p).msixPending } else s.part q :=
  Tab.get_put _ _ _ _ _

/-- The cores of the partition are as after power-on, but an isolated one stays isolated; every other core is left alone. -/
theorem State.core_partReset (s : State) (p c : Nat) : (s.partReset p).core c =
    if (s.part p).ownsCore c then { Core.reset with isolated := (s.core c).isolated } else s.core c := by
  have hfind : Tab.find (s.partReset p).cores c = (if (!(s.part p).ownsCore c || (s.core c).isolated) then Tab.find s.cores c else none).map
      fun r => if (s.part p).ownsCore c then { Core.reset with isolated := true } else r := by
    rw [← Tab.find_filter_key s.cores (fun i => !(s.part p).ownsCore i || (s.core i).isolated) c, ← Tab.find_map_value _
      (fun i r => if (s.part p).ownsCore i then ({ Core.reset with isolated := true } : Core) else r) c]
    refine congrArg (Tab.find · c) (List.map_congr_left fun e _ => ?_)
    dsimp only
    split <;> rfl
  have hread : s.core c = (Tab.find s.cores c).getD Core.reset := rfl
  rw [State.core, Tab.get, hfind]
  cases ho : (s.part p).ownsCore c
  case false => simp [hread]
  case true =>
    cases hi : (s.core c).isolated
    case false => simp [Core.reset]
    case true =>
      cases hc : Tab.find s.cores c
      case none => simp [hread, hc, Core.reset] at hi
      case some r => simp

theorem State.mem_tasks_partReset (s : State) (p : Nat) (t : Task) : t ∈ (s.partReset p).tasks ↔ t ∈ s.tasks ∧ t.part ≠ p := by
  simp [State.partReset, List.mem_filter]

theorem State.mem_versions_partReset (s : State) (p : Nat) (e : DirEntry) :
    e ∈ (s.partReset p).versions ↔ e ∈ s.versions ∧ e.part ≠ p := by
  simp [State.partReset, List.mem_filter]

/-! ## What CREATE leaves (R33, R491) -/

/-- Cores leave reset. -/
def State.releaseCores (s : State) (cs : List Nat) : State := cs.foldl (fun s c => s.updCore c fun r => { r with heldReset := false }) s

/-- What a write of a core leaves alone, the release of cores leaves alone. -/
theorem State.releaseCores_keeps {β : Type} (f : State → β) (hf : ∀ s c g, f (State.updCore s c g) = f s) (s : State) (cs : List Nat) :
    f (s.releaseCores cs) = f s := by
  induction cs generalizing s with
  | nil => rfl
  | cons c l ih => exact (ih _).trans (hf s c _)

@[simp] theorem State.part_releaseCores (s : State) (cs : List Nat) (q : Nat) : (s.releaseCores cs).part q = s.part q :=
  State.releaseCores_keeps (State.part · q) (fun _ _ _ => rfl) s cs

@[simp] theorem State.releaseCores_mem (s : State) (cs : List Nat) : (s.releaseCores cs).mem = s.mem :=
  State.releaseCores_keeps (·.mem) State.updCore_mem s cs

@[simp] theorem State.releaseCores_outbox (s : State) (cs : List Nat) : (s.releaseCores cs).outbox = s.outbox :=
  State.releaseCores_keeps (·.outbox) State.updCore_outbox s cs

/-- The listed cores are no longer held in reset, and no other core becomes so. -/
theorem State.heldReset_releaseCores (s : State) (cs : List Nat) (c : Nat) :
    ((s.releaseCores cs).core c).heldReset = ((s.core c).heldReset && !decide (c ∈ cs)) := by
  induction cs generalizing s with
  | nil => simp [State.releaseCores]
  | cons d l ih =>
    have hstep : s.releaseCores (d :: l) = (s.updCore d fun r => { r with heldReset := false }).releaseCores l := rfl
    rw [hstep, ih]
    by_cases h : d = c
    · subst h; simp
    · simp [State.core_updCore_of_ne, h, Ne.symm h]

theorem Part.mem_ownedCores (x : Part) (c : Nat) : c ∈ x.ownedCores ↔ c < 256 ∧ x.ownsCore c = true := by
  simp [Part.ownedCores, coreNums]

/-- The device in which CREATE starts the root region: partition p is reset and exists, and its page-table root is cleared. -/
def State.cleared (s : State) (p : Nat) : State :=
  let u := (s.partReset p).updPart p fun y => { y with exists_ := true, inReset := false, stat := 0 }
  { u with mem := u.mem.filter fun e => !((s.part p).ptroot ≤ e.1 && e.1 < (s.part p).ptroot + 4096) }

/-- A partition with nothing but a running root region. -/
def Part.withRoot (y : Part) (rcb : List Word) (assign : List (Nat × Nat)) : Part := { y with regions := [(0, ⟨.running, rcb, 0, 0, assign⟩)] }

/-- CREATE is: clear, start the root region, assign its cores to stages, let them leave reset, and report the function as ready. -/
theorem State.create_eq (s : State) (p : Nat) : ∃ assign, s.create p =
    ((((s.cleared p).updPart p fun y => y.withRoot (s.part p).rootRcb []).updPart p fun y => y.withRoot (s.part p).rootRcb assign).releaseCores
      (s.part p).ownedCores).emit (.ready (p + 1)) := ⟨_, rfl⟩

theorem State.part_cleared (s : State) (p q : Nat) : (s.cleared p).part q =
    if p = q then { (s.partReset p).part p with exists_ := true, inReset := false, stat := 0 } else s.part q := by
  refine (Tab.get_put Part.reset (s.partReset p).parts p q _).trans ?_
  split
  case isTrue => rfl
  case isFalse h => exact (s.part_partReset p q).trans (if_neg h)

theorem State.part_create (s : State) (p : Nat) : ∃ assign, (s.create p).part p =
    ({ (s.partReset p).part p with exists_ := true, inReset := false, stat := 0 } : Part).withRoot (s.part p).rootRcb assign := by
  obtain ⟨assign, h⟩ := s.create_eq p
  refine ⟨assign, ?_⟩
  rw [h, State.part_emit, State.part_releaseCores, State.part_updPart_self, State.part_updPart_self, State.part_cleared, if_pos rfl]
  rfl

theorem State.part_create_of_ne (s : State) {p q : Nat} (hq : q ≠ p) : (s.create p).part q = s.part q := by
  obtain ⟨assign, h⟩ := s.create_eq p
  rw [h, State.part_emit, State.part_releaseCores, State.part_updPart_of_ne _ _ hq, State.part_updPart_of_ne _ _ hq,
    State.part_cleared, if_neg (Ne.symm hq)]

theorem State.outbox_create (s : State) (p : Nat) : (s.create p).outbox = s.outbox ++ [.ready (p + 1)] := by
  obtain ⟨assign, h⟩ := s.create_eq p
  rw [h, State.emit, State.releaseCores_outbox]
  rfl

theorem State.heldReset_create (s : State) (p : Nat) {c : Nat} (h256 : c < 256) (hc : (s.part p).ownsCore c = true) :
    ((s.create p).core c).heldReset = false := by
  obtain ⟨assign, h⟩ := s.create_eq p
  have hmem := ((s.part p).mem_ownedCores c).mpr ⟨h256, hc⟩
  rw [h]
  exact (State.heldReset_releaseCores _ _ c).trans (by simp [hmem])

/-- The page-table root is cleared, and every other byte is left alone. -/
theorem State.get_mem_create (s : State) (p a : Nat) :
    (s.create p).mem.get a = if (s.part p).ptroot ≤ a ∧ a < (s.part p).ptroot + 4096 then 0 else s.mem.get a := by
  obtain ⟨assign, h⟩ := s.create_eq p
  have hfind : Tab.find (s.cleared p).mem a = _ :=
    Tab.find_filter_key s.mem (fun k => !((s.part p).ptroot ≤ k && k < (s.part p).ptroot + 4096)) a
  rw [h, State.emit_mem, State.releaseCores_mem, State.updPart_mem, State.updPart_mem, Memory.get, Tab.get, hfind]
  by_cases ha : (s.part p).ptroot ≤ a ∧ a < (s.part p).ptroot + 4096
  · simp [ha]
  · rw [if_neg ha, if_pos (by rw [← Bool.decide_and, decide_eq_false ha]; rfl)]
    rfl

/-! ## Registers of the management space (R492) -/

theorem State.mgmtWrite_unlisted {s : State} {m off : Nat} (h0 : off ≠ 0) (h8 : off ≠ 8)
    (hl : mgmtListed off = false ∨ s.descClosed off = true) (v : Word) : s.mgmtWrite m off v = s := by
  have hskip : (!mgmtListed off || s.descClosed off) = true := by simpa using hl
  simp [State.mgmtWrite, h0, h8, hskip]

/-- A write of MOWN writes its HTGT. -/
theorem exec_registerWrite_mown {s : State} {m : Nat} (h : s.isMaster m = true) (v : Word) :
    exec (.registerWrite m (.mgmt 0) v) s = exec (.htgtWrite m (v.extractLsb' 16 4)) s := by
  show (.next (s.mgmtWrite m 0 v) : Out) = _
  rw [State.mgmtWrite, if_neg (by simp [h]), if_pos rfl]
  rfl

/-- A write of MCLM takes the bits that it sets in their order (log 28). -/
theorem State.mgmtWrite_mclm {s : State} {m : Nat} (h : s.isMaster m = true) (v : Word) : s.mgmtWrite m 8 v =
    (let s := if v.getLsbD 0 then s.claim m else s
    let s := if v.getLsbD 1 && s.isMaster m then s.releaseOwner m else s
    if v.getLsbD 2 then s.accept' m else s) := by
  simp [State.mgmtWrite, h]

/-- A write of PCTL is an operation on its partition. -/
theorem State.mgmtWrite_pctl {s : State} {m p : Nat} (h : s.isMaster m = true) (hp : p < 8) (v : Word) :
    s.mgmtWrite m (0x1000 + 8 * p) v = s.pctlOp m p (bitsAt v 0 3) := by
  have hl : mgmtListed (0x1000 + 8 * p) = true := by
    simp only [mgmtListed, Bool.and_eq_true, Bool.or_eq_true, decide_eq_true_eq, beq_iff_eq]
    omega
  have hd : s.descClosed (0x1000 + 8 * p) = false := by
    have : ¬ 0x2000 ≤ 0x1000 + 8 * p := by omega
    simp [State.descClosed, this]
  have hin : 0x1000 + 8 * p < 0x1040 := by omega
  have hidx : (0x1000 + 8 * p - 0x1000) / 8 = p := by omega
  rw [State.mgmtWrite, if_neg (by simp [h]), if_neg (by omega), if_neg (by omega), if_neg (by simp [hl, hd]), if_pos (by simp [hin]), hidx]

theorem mgmtListed_desc {p o : Nat} (hp : p < 8) (ho : o < 64) : mgmtListed (0x2000 + 0x200 * p + 8 * o) = true := by
  simp only [mgmtListed, Bool.and_eq_true, Bool.or_eq_true, decide_eq_true_eq, beq_iff_eq]
  omega

theorem State.descClosed_desc (s : State) {p o : Nat} (hp : p < 8) (ho : o < 64) :
    s.descClosed (0x2000 + 0x200 * p + 8 * o) = ((s.part p).exists_ && !(s.part p).inReset) := by
  have hidx : (0x2000 + 0x200 * p + 8 * o - 0x2000) / 0x200 = p := by omega
  have hlo : 0x2000 ≤ 0x2000 + 0x200 * p + 8 * o := by omega
  have hhi : 0x2000 + 0x200 * p + 8 * o < 0x3000 := by omega
  simp only [State.descClosed, hidx, hlo, hhi, decide_true, Bool.true_and]

/-- A word of an open descriptor, written by the owner (R490). -/
theorem State.writeMgmt_desc {s : State} {p o : Nat} (hp : p < 8) (ho : o < 64) (hr : s.mgmt.recov = false)
    (hopen : (s.part p).exists_ = false ∨ (s.part p).inReset = true) (v : Word) : s.writeMgmt (0x2000 + 0x200 * p + 8 * o) v =
      s.updPart p fun x => { x with desc := x.desc.write (8 * o) (bytesOf 8 v.toNat) } := by
  have hidx : (0x2000 + 0x200 * p + 8 * o - 0x2000) / 0x200 = p := by omega
  have hword : (0x2000 + 0x200 * p + 8 * o) % 0x200 / 8 * 8 = 8 * o := by omega
  have hclosed : ((s.part p).exists_ && !(s.part p).inReset) ≠ true := by
    rcases hopen with h | h <;> simp [h]
  have hhdm : ¬ (0x400 ≤ 0x2000 + 0x200 * p + 8 * o ∧ 0x2000 + 0x200 * p + 8 * o < 0x480) := by omega
  have hnvme : ¬ (0x500 ≤ 0x2000 + 0x200 * p + 8 * o ∧ 0x2000 + 0x200 * p + 8 * o < 0x540) := by omega
  have hdesc : 0x2000 ≤ 0x2000 + 0x200 * p + 8 * o ∧ 0x2000 + 0x200 * p + 8 * o < 0x3000 := by omega
  rw [State.writeMgmt, if_neg (by simp [hr]), if_neg (by omega), if_neg (by omega), if_neg (by simpa using hhdm), if_neg (by simpa using hnvme),
    if_pos (by simpa using hdesc), hidx, hword, State.writeDesc, if_neg hclosed]

/-- The descriptor of a partition that runs takes no write, whoever writes. -/
theorem State.mgmtWrite_desc_closed {s : State} {m p o : Nat} (hp : p < 8) (ho : o < 64) (he : (s.part p).exists_ = true)
    (hr : (s.part p).inReset = false) (v : Word) : s.mgmtWrite m (0x2000 + 0x200 * p + 8 * o) v = s :=
  State.mgmtWrite_unlisted (by omega) (by omega) (.inr (by simp [State.descClosed_desc s hp ho, he, hr])) v

theorem State.mgmtWrite_desc_open {s : State} {m p o : Nat} (h : s.isMaster m = true) (hown : s.mown.owner = m) (hp : p < 8) (ho : o < 64)
    (hr : s.mgmt.recov = false) (ha : (s.part p).exists_ = false ∨ (s.part p).inReset = true) (v : Word) :
    s.mgmtWrite m (0x2000 + 0x200 * p + 8 * o) v = s.updPart p fun x => { x with desc := x.desc.write (8 * o) (bytesOf 8 v.toNat) } := by
  have hopen : s.descClosed (0x2000 + 0x200 * p + 8 * o) = false := by
    rcases ha with ha | ha <;> simp [State.descClosed_desc s hp ho, ha]
  rw [State.mgmtWrite_owned h (by omega) (by omega) (mgmtListed_desc hp ho) hopen (.inr (by omega)), State.owned_of_owner h hown,
    State.writeMgmt_desc hp ho hr ha]

/-! ## Boot mailboxes and MSI-X tables (R370, R476) -/

/-- A mailbox after a write to one of its registers. -/
def Mailbox.written (m : Mailbox) (off : Nat) (v : Word) : Mailbox :=
  match off with
  | 0x00 => if m.busy then m else { m with handle := v.setWidth 20 }
  | 0x08 => if m.busy then m else { m with arg := v }
  | 0x10 => if v.getLsbD 0 && !m.busy then { m with busy := true, check := 0 } else m
  | 0x18 => { m with done := m.done && !v.getLsbD 1, fault := m.fault && !v.getLsbD 2, fcause := if v.getLsbD 2 then 0 else m.fcause }
  | _ => m

/-- While the mailbox is busy, only its status takes a write. -/
theorem Mailbox.written_of_busy {m : Mailbox} (h : m.busy = true) {off : Nat} (ho : off < 0x18) (v : Word) : m.written off v = m := by
  unfold Mailbox.written
  split
  · simp [h]
  · simp [h]
  · simp [h]
  · omega
  · rfl

/-- While it is not, HANDLE, ARG and GO act. -/
theorem Mailbox.written_of_idle {m : Mailbox} (h : m.busy = false) (v : Word) :
    m.written 0x00 v = { m with handle := v.setWidth 20 } ∧ m.written 0x08 v = { m with arg := v } ∧
      m.written 0x10 v = if v.getLsbD 0 then { m with busy := true, check := 0 } else m := by
  simp only [Mailbox.written, h, Bool.false_eq_true, if_false, Bool.not_false, Bool.and_true, true_and]

/-- GO reads 0. -/
theorem State.mailboxRead_go (s : State) (p c : Nat) : s.mailboxRead p c 0x10 = 0 := by
  unfold State.mailboxRead
  dsimp only
  split <;> rfl

/-- A write to the mailbox of a core that is not the partition's does nothing. -/
theorem exec_registerWrite_mailbox_closed {s : State} {p c : Nat} (h : (s.part p).exists_ = false ∨ (s.part p).ownsCore c = false)
    (m off : Nat) (v : Word) : exec (.registerWrite m (.mailbox p c off) v) s = .next s := by
  have hwrite : s.mailboxWrite p c off v = s := by rcases h with h | h <;> simp [State.mailboxWrite, h]
  show (.next (if (s.die 0).lost then s else s.mailboxWrite p c off v) : Out) = _
  rw [hwrite, ite_self]

theorem exec_registerWrite_mailbox_open {s : State} {p c : Nat} (hl : (s.die 0).lost = false) (he : (s.part p).exists_ = true)
    (hc : (s.part p).ownsCore c = true) (m off : Nat) (v : Word) : exec (.registerWrite m (.mailbox p c off) v) s =
      .next (s.updCore c fun r => { r with mbox := r.mbox.written off v }) := by
  show (.next (if (s.die 0).lost then s else s.mailboxWrite p c off v) : Out) = _
  rw [if_neg (Bool.eq_false_iff.mp hl), State.mailboxWrite, if_neg (by simp [he, hc])]
  rfl

/-- An interrupt of a vector that is not masked is sent (R477). -/
theorem State.interrupt_of_open {s : State} {pf i : Nat} (hl : (s.die 0).lost = false) (ho : i ∈ (s.part (pf - 1)).msixOpen) :
    s.interrupt pf i = s.emit (.msix pf i) := by
  rw [State.interrupt, if_neg (by simp [hl]), if_pos (by simp [ho])]

/-- A table with the control word of vector i written. -/
def Part.writeControl (x : Part) (i : Nat) (v : Word) : Part := { x with msix := x.msix.write ((16 * i + 8) / 8 * 8) (bytesOf 8 v.toNat) }
def Part.maskVector (x : Part) (i : Nat) : Part := { x with msixOpen := x.msixOpen.filter (· != i) }
def Part.openVector (x : Part) (i : Nat) : Part :=
  { x with msixOpen := x.msixOpen.filter (· != i) ++ [i], msixPending := x.msixPending.filter (· != i) }

section Msix

variable {s : State} {q i : Nat} (h1 : 1 ≤ q) (h8 : q ≤ 8) (hi : i < 259) (v : Word)
include h1 h8 hi

/-- The control word of a vector: the write lands in the table, and masks the vector or lets it send. -/
theorem State.msixWrite_control : s.msixWrite q (16 * i + 8) v =
    (let t := s.updPart (q - 1) fun x => x.writeControl i v
    if v.getLsbD 32 then t.updPart (q - 1) fun x => x.maskVector i
    else
      let u := t.updPart (q - 1) fun x => x.openVector i
      if (t.part (q - 1)).msixPending.contains i then u.interrupt q i else u) := by
  have hvec : (16 * i + 8) / 16 = i := by omega
  rw [State.msixWrite, if_neg (by simp only [Bool.or_eq_true, decide_eq_true_eq]; omega)]
  simp only [hvec]
  rw [if_neg (by omega)]
  rfl

/-- A masked vector sends nothing. -/
theorem State.msixWrite_masked (hv : v.getLsbD 32 = true) :
    i ∉ ((s.msixWrite q (16 * i + 8) v).part (q - 1)).msixOpen ∧ (s.msixWrite q (16 * i + 8) v).outbox = s.outbox := by
  rw [State.msixWrite_control h1 h8 hi, if_pos hv]
  exact ⟨by simp [Part.maskVector], rfl⟩

/-- A vector that is unmasked sends what waits (log 7). -/
theorem State.msixWrite_unmasked (hl : (s.die 0).lost = false) (hv : v.getLsbD 32 = false) :
    i ∈ ((s.msixWrite q (16 * i + 8) v).part (q - 1)).msixOpen ∧ i ∉ ((s.msixWrite q (16 * i + 8) v).part (q - 1)).msixPending ∧
      (s.msixWrite q (16 * i + 8) v).outbox = s.outbox ++ if (s.part (q - 1)).msixPending.contains i then [.msix q i] else [] := by
  let t := s.updPart (q - 1) fun x => x.writeControl i v
  let u := t.updPart (q - 1) fun x => x.openVector i
  have hpart : u.part (q - 1) = (t.part (q - 1)).openVector i := State.part_updPart_self ..
  have hopen : i ∈ (u.part (q - 1)).msixOpen := by simp [hpart, Part.openVector]
  have hpending : i ∉ (u.part (q - 1)).msixPending := by simp [hpart, Part.openVector]
  have hwaits : (t.part (q - 1)).msixPending = (s.part (q - 1)).msixPending := by simp [t, Part.writeControl]
  have hwrite : s.msixWrite q (16 * i + 8) v = if (s.part (q - 1)).msixPending.contains i then u.emit (.msix q i) else u := by
    rw [State.msixWrite_control h1 h8 hi, if_neg (Bool.eq_false_iff.mp hv), ← hwaits, ← State.interrupt_of_open (s := u) hl hopen]
  rw [hwrite]
  cases (s.part (q - 1)).msixPending.contains i
  case true => exact ⟨hopen, hpending, rfl⟩
  case false => exact ⟨hopen, hpending, (List.append_nil _).symm⟩

end Msix

/-! ## The statement -/

/-- Settles O52: each clause is a lemma above about the operation or the register that it speaks of. -/
theorem ownershipAndPartitions : Obligations.OwnershipAndPartitions := by
  unfold Obligations.OwnershipAndPartitions
  intro s m p off c o which v w b q h1 h3 hpath told owned denied released ends x
  have hM : s.isMaster m = true := State.isMaster_of h1 h3 hpath
  refine ⟨?read, ?lost, ?denied, ?offer, ?claim, ?release, ?accept, ?interface, ?notTaken, ?taken, ?create, ?reset, ?operationEnd, ?reads,
    ?mown, ?mclm, ?pctl, ?unlisted, ?descriptor, ?window, ?mailboxClosed, ?mailboxOpen, ?msix⟩
  case read => exact exec_mownRead hM
  case lost =>
    intro hl
    exact List.forall_mem_append.mpr ⟨exec_of_not_master (State.isMaster_one_of_lost hl) p off v w b,
      exec_of_host_port_lost hl m p off c which q v⟩
  case denied => exact fun ho => exec_of_other hM ho p v w b
  case offer => exact fun ho => ⟨exec_htgtWrite_idle hM ho, exec_htgtWrite_offer hM ho⟩
  case claim => exact exec_mclmClaim hM h1
  case release => exact (exec_mclmRelease hM).trans (s.next_releaseOwner m)
  case accept => exact exec_mclmAccept hM h1
  case interface => exact s.next_releaseOwner 2
  case notTaken => exact fun ho => exec_pctl_not_taken hM ho
  case taken =>
    intro ho hp hf hr hb
    have h : s.TakesPctl m p := ⟨hM, ho, hp, hf, hr, hb⟩
    refine ⟨exec_pctlCreate_there h, fun ha => ?_, exec_pctl_nowhere h, fun he =>
      ⟨exec_pctlReset h he, exec_pctlDestroy h he, exec_pctlQuiesce_inReset h, exec_pctlQuiesce_running h he⟩⟩
    rw [exec_pctlCreate_absent h ha]
    refine ⟨fun hw => ?_, fun hw ht => ?_, fun hw ht hab => ?_, fun hw ht hab => ?_⟩
    · rw [hw]; rfl
    · rw [hw, ht]; rfl
    · rw [hw, ht, hab]; rfl
    · rw [hw, ht, hab]; rfl
  case create =>
    obtain ⟨assign, hpart⟩ := s.part_create p
    have hregion : (s.create p).region p 0 = ⟨.running, x.rootRcb, 0, 0, assign⟩ := by rw [State.region, hpart]; rfl
    intro u
    exact ⟨by rw [hpart]; rfl, by rw [hpart]; rfl, by rw [hregion], by rw [hregion], fun c => s.heldReset_create p, s.outbox_create p,
      fun q => s.part_create_of_ne, s.get_mem_create p⟩
  case reset =>
    have hpart := (s.part_partReset p p).trans (if_pos rfl)
    intro u
    refine ⟨by rw [hpart], by rw [hpart], by rw [hpart], by rw [hpart]; rfl, rfl, s.mem_tasks_partReset p, s.mem_versions_partReset p,
      fun c hc => ?_, fun c hc => ?_, fun q hq => (s.part_partReset p q).trans (if_neg (Ne.symm hq))⟩
    · rw [s.core_partReset p c, if_pos hc]
      exact ⟨rfl, rfl, rfl⟩
    · exact (s.core_partReset p c).trans (if_neg (Bool.eq_false_iff.mp hc))
  case operationEnd => exact exec_pctlOperationEnd s p
  case reads =>
    simp only [List.forall_mem_cons]
    exact ⟨rfl, rfl, s.mailboxRead_go p c, List.forall_mem_nil _⟩
  case mown => exact exec_registerWrite_mown hM v
  case mclm =>
    have hmclm := fun v => congrArg (Host.Outcome.next (φ := Fault) (ρ := Refusal)) (State.mgmtWrite_mclm hM v)
    exact ⟨hmclm 1, hmclm 2, hmclm 4⟩
  case pctl =>
    intro hp
    have hpctl : ∀ v, exec (.registerWrite m (.mgmt (0x1000 + 8 * p)) v) s = .next (s.pctlOp m p (bitsAt v 0 3)) := fun v =>
      congrArg _ (State.mgmtWrite_pctl hM hp v)
    exact ⟨hpctl 1, hpctl 2, hpctl 3, hpctl 4⟩
  case unlisted => exact fun hl h0 h8 => congrArg _ (State.mgmtWrite_unlisted h0 h8 (.inl hl) v)
  case descriptor =>
    intro hp ho
    exact ⟨fun he hr => congrArg _ (State.mgmtWrite_desc_closed hp ho he hr v),
      fun ha hown hr => congrArg _ (State.mgmtWrite_desc_open hM hown hp ho hr ha v)⟩
  case window => exact fun hl => congrArg _ (if_neg (Bool.eq_false_iff.mp hl))
  case mailboxClosed => exact fun hn => exec_registerWrite_mailbox_closed hn m off v
  case mailboxOpen =>
    intro hl he hc
    refine ⟨_, exec_registerWrite_mailbox_open hl he hc m off v, rfl, rfl, fun d hd => State.core_updCore_of_ne s _ (Ne.symm hd), ?_⟩
    rw [State.core_updCore_self]
    intro z
    refine ⟨fun hb ho => Mailbox.written_of_busy hb ho v, fun hb => ?_, fun ho => ho ▸ rfl⟩
    obtain ⟨hhandle, harg, hgo⟩ := Mailbox.written_of_idle hb v
    exact ⟨fun ho => ho ▸ hhandle, fun ho => ho ▸ harg, fun ho => ho ▸ hgo⟩
  case msix =>
    intro hl h1 h8 ho
    exact ⟨s.msixWrite q (16 * o + 8) v, congrArg _ (if_neg (Bool.eq_false_iff.mp hl)), State.msixWrite_masked h1 h8 ho v,
      State.msixWrite_unmasked h1 h8 ho v hl⟩

end Sys2Proof.Machine

/-! SUPPORT. The family of ordering: where addresses of L and A lead with the traps of loads and stores, what stores and VE words leave,
an engine's report of ACCBUSY, and the flits of the links. -/

namespace Sys2Proof.Machine

/-! ## Where addresses of L and A lead (R105, R106) -/

/-- A field above bit lo is zero where the bits below its end are less than 2^lo. -/
theorem bitsAt_eq_zero_iff (a : Word) (lo n : Nat) : bitsAt a lo n = 0 ↔ bitsAt a 0 (lo + n) < 2 ^ lo := by
  have hdiv : bitsAt a lo n = bitsAt a 0 (lo + n) / 2 ^ lo := by
    simp only [bitsAt, BitVec.extractLsb'_toNat, Nat.shiftRight_eq_div_pow, Nat.pow_add, Nat.mod_mul_right_div_self, Nat.pow_zero, Nat.div_one]
  rw [hdiv, Nat.div_eq_zero_iff]
  have := Nat.two_pow_pos lo
  omega

/-- An address whose bits from lo to 55 are zero, by its offset. -/
theorem bitsAt_high_eq_zero_iff (a : Word) {lo n : Nat} (h : lo + n = 56) : bitsAt a lo n = 0 ↔ bitsAt a 0 56 < 2 ^ lo := by
  rw [bitsAt_eq_zero_iff, h]

theorem bitsAt_eq_of_extract {a : Word} {lo n : Nat} {v : BitVec n} (h : a.extractLsb' lo n = v) : bitsAt a lo n = v.toNat :=
  congrArg BitVec.toNat h

section Reach

variable (s : State) (c k : Nat) (x : Ctx) {a : Word}

theorem State.reach_l (h : a.extractLsb' 56 8 = 0x80) : s.reach c k x false a =
    if bitsAt a 0 56 < 2 ^ 20 then Reach.bare (.l c k (bitsAt a 0 56)) else Reach.bare .refused := by
  have hsel : bitsAt a 56 8 = 0x80 := bitsAt_eq_of_extract h
  simp only [State.reach, hsel, bitsAt_high_eq_zero_iff a (show 20 + 36 = 56 from rfl)]

theorem State.reach_a (h : a.extractLsb' 56 8 = 0x81) (hoff : bitsAt a 0 56 < 2 ^ 22) {ph : Nat}
    (hs : x.winSlice (bitsAt a 0 56 / 2 ^ 18) = some ph) : s.reach c k x false a = Reach.bare (.win c ph (bitsAt a 0 56 % 2 ^ 18)) := by
  have hsel : bitsAt a 56 8 = 0x81 := bitsAt_eq_of_extract h
  have hslice : x.winSlice (bitsAt a 0 56 / 0x40000) = some ph := hs
  simp only [State.reach, hsel, (bitsAt_high_eq_zero_iff a (show 22 + 34 = 56 from rfl)).mpr hoff, hslice]
  rfl

/-- Outside its 4 MiB, the slices held and the window, an address of A is refused. -/
theorem State.reach_a_refused (h : a.extractLsb' 56 8 = 0x81)
    (hout : 2 ^ 22 ≤ bitsAt a 0 56 ∨ x.winSlice (bitsAt a 0 56 / 2 ^ 18) = none) : s.reach c k x false a = Reach.bare .refused := by
  have hsel : bitsAt a 56 8 = 0x81 := bitsAt_eq_of_extract h
  simp only [State.reach, hsel, ne_eq, bitsAt_high_eq_zero_iff a (show 22 + 34 = 56 from rfl)]
  rcases hout with hoff | hs
  · exact if_pos (Nat.not_lt.mpr hoff)
  · have hslice : x.winSlice (bitsAt a 0 56 / 0x40000) = none := hs
    rw [hslice]
    exact ite_self _

theorem State.reach_i (h : a.extractLsb' 56 8 = 0x82) : s.reach c k x false a = Reach.bare .instr := by
  have hsel : bitsAt a 56 8 = 0x82 := bitsAt_eq_of_extract h
  simp only [State.reach, hsel]

/-- A selector that names none of the spaces is refused; 0x83 is the TU's alone. -/
theorem State.reach_other (h0 : a.extractLsb' 56 8 ≠ 0) (hl : a.extractLsb' 56 8 ≠ 0x80) (ha : a.extractLsb' 56 8 ≠ 0x81)
    (hi : a.extractLsb' 56 8 ≠ 0x82) : s.reach c k x false a = Reach.bare .refused := by
  have hne : ∀ v : BitVec 8, a.extractLsb' 56 8 ≠ v → bitsAt a 56 8 ≠ v.toNat := fun v hv e => hv (BitVec.eq_of_toNat_eq e)
  unfold State.reach
  dsimp only
  split
  · exact absurd ‹_› (hne 0 h0)
  · exact absurd ‹_› (hne 0x80 hl)
  · exact absurd ‹_› (hne 0x81 ha)
  · exact absurd ‹_› (hne 0x82 hi)
  · simp
  · rfl

theorem State.openAt_refused {s : State} {c k : Nat} {x : Ctx} {n : Nat} {u : Use} (h : s.reach c k x false a = Reach.bare .refused) :
    s.openAt c k x a n u = .deny 3 := by simp [State.openAt, h, refusal, Reach.bare, OBJFAULT]

theorem State.openAt_instr {s : State} {c k : Nat} {x : Ctx} {n : Nat} {u : Use} (h : s.reach c k x false a = Reach.bare .instr) :
    s.openAt c k x a n u = .deny 2 := by simp [State.openAt, h, refusal, Reach.bare, PRIV]

/-- A place in a window slice is reached at once. -/
theorem State.openAt_win {s : State} {c k core sl off : Nat} {x : Ctx} {n : Nat} {u : Use}
    (h : s.reach c k x false a = Reach.bare (.win core sl off)) : s.openAt c k x a n u = .go s (.win core sl off) := by
  simp [State.openAt, h, refusal, Reach.bare, State.bankBusy, State.settlePage, State.stamp, State.noteReader]

/-- A line that its context owns, outside any region, is accessible (R281, R284). -/
theorem State.touch_owned {s : State} {c k line : Nat} {x : Ctx} {whole : Bool} (hx : s.ctx? c k = some x)
    (ho : Tab.find (s.core c).lineOwner line = some k) (hr : x.regionOf line = none) : s.touch c k line whole = .ready s := by
  simp [State.touch, State.exchange, hx, ho, hr]

/-- An owned line outside any region is reached at once, or waits for a transfer's banks (R281). -/
theorem State.openAt_l {s : State} {c k off : Nat} {x : Ctx} {n : Nat} {u : Use} (h : s.reach c k x false a = Reach.bare (.l c k off))
    (hu : u ≠ .atomic) (hx : s.ctx? c k = some x) (ho : Tab.find (s.core c).lineOwner (off / 256) = some k)
    (hr : x.regionOf (off / 256) = none) : s.openAt c k x a n u = if s.bankHeld c off n then .wait s else .go s (.l c k off) := by
  simp [State.openAt, h, refusal, Reach.bare, hu, State.touch_owned hx ho hr]

end Reach

theorem Ctx.winSlice_inside {x : Ctx} {i : Nat} (hi : i < x.held) (hw : x.win.getLsbD i = true) (hp : i < x.phys.length) :
    x.winSlice i = some (x.phys.getD i 0) := by simp [Ctx.winSlice, hi, hw, hp]

theorem Ctx.winSlice_outside {x : Ctx} {i : Nat} (h : x.held ≤ i ∨ x.win.getLsbD i = false) : x.winSlice i = none := by
  rcases h with h | h
  · simp [Ctx.winSlice, Nat.not_lt.mpr h]
  · simp [Ctx.winSlice, h]

/-! ## Precise traps of loads and stores (R110, R292, R453) -/

/-- The outcome o of context x's word is the entry of its handler with a cause and a value at the word's own offset. -/
def State.EntersHandler (s : State) (c k : Nat) (x : Ctx) (o : Out) (code : Nat) (v : Word) : Prop :=
  ∃ y, o = ctxResult s c k y ∧ y.epc = x.pc ∧ y.trapc = BitVec.ofNat 32 code ∧ y.trapv = v ∧ y.inh = true ∧
    y.pc = x.tvec.setWidth 32 ∧ y.a = x.a ∧ y.p = x.p ∧ y.l = x.l

theorem State.trap_entersHandler {s : State} {c k : Nat} {x : Ctx} (hx : s.ctx? c k = some x) (hh : s.handlerReady c x) {code : Nat}
    (hc : code < 2 ^ 16) (v : Word) : s.EntersHandler c k x (.next (s.trap c k code v)) code v := by
  obtain ⟨hinh, hvalid, htarget⟩ := hh
  have htrapc : BitVec.ofBool false ++ BitVec.ofBool false ++ BitVec.ofNat 30 code = BitVec.ofNat 32 code := by
    have hlt : code < 2 ^ 30 := Nat.lt_trans hc (by decide)
    apply BitVec.eq_of_toNat_eq
    simp only [BitVec.toNat_append, BitVec.ofBool_false, BitVec.toNat_ofNat, Nat.mod_eq_of_lt hlt, Nat.mod_eq_of_lt (Nat.lt_trans hlt (by decide : 2 ^ 30 < 2 ^ 32))]
    simp
  rw [State.trap_of_some hx, State.takeTrap_handler hx hinh hvalid htarget]
  exact ⟨_, rfl, rfl, htrapc, rfl, rfl, rfl, rfl, rfl, rfl⟩

/-- An access that is not aligned raises MISALIGN, one that is refused its cause. -/
def State.faultsWith (s : State) (c k : Nat) (x : Ctx) (at' : Word) (size : Nat) (u : Use) (code : Nat) : Prop :=
  at'.toNat % size ≠ 0 ∧ code = 4 ∨ at'.toNat % size = 0 ∧ s.openAt c k x at' size u = .deny code

theorem loadBody_trap {s : State} {c k code size : Nat} {x : Ctx} {at' : Word} (h : s.faultsWith c k x at' size .read code) (d : Reg)
    (signed : Bool) (cls : Nat) : loadBody d size signed cls at' s c k x = s.trap c k code at' := by
  unfold loadBody
  rcases h with ⟨hm, rfl⟩ | ⟨ha, hd⟩
  · rw [if_pos hm]
    rfl
  · have hsq : s.openSq c k x cls at' size .read = .deny code := by simp [State.openSq, hd]
    rw [if_neg (by simp [ha]), hsq]

theorem storeBody_trap {s : State} {c k code size : Nat} {x : Ctx} {at' : Word} (h : s.faultsWith c k x at' size .write code) (d : Reg)
    (cls : Nat) : storeBody d size cls at' s c k x = s.trap c k code at' := by
  unfold storeBody
  rcases h with ⟨hm, rfl⟩ | ⟨ha, hd⟩
  · exact if_pos hm
  · have hsq : s.openSq c k x cls at' size .write = .deny code := by simp [State.openSq, hd]
    rw [if_neg (by simp [ha]), hsq]

/-- The address of an SM word is its base and the offset in units of the size. -/
theorem smAddr_eq (x : Ctx) (a : Reg) (off : BitVec 9) (size : Nat) : smAddr x a off size = x.reg a + BitVec.ofInt 64 (off.toInt * size) := by
  rw [smAddr, BitVec.ofInt_mul]
  rfl

/-- Every fault of an access of the word with outcome o is a precise trap. -/
def State.TrapsPrecisely (s : State) (c k : Nat) (x : Ctx) (o : Out) (at' : Word) (size : Nat) (u : Use) : Prop :=
  ∀ code : Nat, code < 2 ^ 16 → s.faultsWith c k x at' size u code → s.EntersHandler c k x o code at'

section Traps

variable {s : State} {c k : Nat} {x : Ctx} {g : Pred} {d a : Reg} (hh : s.handlerReady c x)
include hh

theorem smLoad_traps (h : SqAt s c k x g [a]) (oc : OClass) (off : BitVec 9) (size : Nat) (signed : Bool) :
    s.TrapsPrecisely c k x (smLoad d a oc off size signed g s) (x.reg a + BitVec.ofInt 64 (off.toInt * size)) size .read := by
  intro code hc hf
  rw [smLoad, sqRun_at h, smAddr_eq, loadBody_trap hf]
  exact State.trap_entersHandler h.ctx hh hc _

theorem smStore_traps (h : SqAt s c k x g [d, a]) (oc : OClass) (off : BitVec 9) (size : Nat) :
    s.TrapsPrecisely c k x (smStore d a oc off size g s) (x.reg a + BitVec.ofInt 64 (off.toInt * size)) size .write := by
  intro code hc hf
  rw [smStore, sqRun_at h, smAddr_eq, storeBody_trap hf]
  exact State.trap_entersHandler h.ctx hh hc _

theorem execLda_traps (h : SqAt s c k x g [a]) (oc : OClass) (sc : Scope) (w : Width) :
    s.TrapsPrecisely c k x (execLda d a oc sc w g s) (x.reg a) (widthBytes w) .read := by
  intro code hc hf
  rw [execLda, sqRun_at h, loadBody_trap hf]
  exact State.trap_entersHandler h.ctx hh hc _

theorem execStl_traps (h : SqAt s c k x g [d, a]) (hp : x.sqPending = []) (oc : OClass) (sc : Scope) (w : Width) :
    s.TrapsPrecisely c k x (execStl d a oc sc w g s) (x.reg a) (widthBytes w) .write := by
  intro code hc hf
  rw [execStl, sqRun_at h, hp, storeBody_trap hf]
  exact State.trap_entersHandler h.ctx hh hc _

end Traps

/-- Settles O14: where the selectors lead is `State.reach`, and what a load or store refuses becomes its trap before it does anything. -/
theorem selectorsAndMemoryTraps : Obligations.SelectorsAndMemoryTraps := by
  unfold Obligations.SelectorsAndMemoryTraps
  refine ⟨fun s c k x adr n u => ⟨?owned, ?beyondL, ?inside, ?outside, ?instr, ?other⟩, fun s c k x g d a oc off w sc ht hg hh => ⟨?loads, ?stores⟩⟩
  case owned =>
    intro hs hu hoff hx ho hr
    exact State.openAt_l ((s.reach_l c k x hs).trans (if_pos hoff)) hu hx ho hr
  case beyondL => exact fun hs hoff => State.openAt_refused ((s.reach_l c k x hs).trans (if_neg (Nat.not_lt.mpr hoff)))
  case inside =>
    intro hs hoff hheld hw hphys
    exact State.openAt_win (s.reach_a c k x hs hoff (Ctx.winSlice_inside hheld hw (hphys _ hheld)))
  case outside => exact fun hs hout => State.openAt_refused (s.reach_a_refused c k x hs (hout.imp_right Ctx.winSlice_outside))
  case instr => exact fun hs => State.openAt_instr (s.reach_i c k x hs)
  case other => exact fun h0 hl ha hi => State.openAt_refused (s.reach_other c k x h0 hl ha hi)
  case loads =>
    intro hm
    have h : SqAt s c k x g [a] := ⟨ht, hg, hm⟩
    have hload := smLoad_traps hh h oc off (d := d)
    exact ⟨hload 1 true, hload 1 false, hload 2 true, hload 2 false, hload 4 true, hload 4 false, hload 8 false, execLda_traps hh h oc sc w⟩
  case stores =>
    intro hm
    have h : SqAt s c k x g [d, a] := ⟨ht, hg, hm⟩
    have hstore := smStore_traps hh h oc off
    exact ⟨hstore 1, hstore 2, hstore 4, hstore 8, fun hp => execStl_traps hh h hp oc sc w⟩

/-! ## What a store and a wake leave (R295, R303) -/

/-- What every step of a fold leaves, the fold leaves. -/
theorem foldl_keeps {α β γ : Type} (f : α → γ) {g : α → β → α} (hg : ∀ a b, f (g a b) = f a) (l : List β) (a : α) :
    f (l.foldl g a) = f a := by
  induction l generalizing a with
  | nil => rfl
  | cons b l ih => exact (ih _).trans (hg a b)

/-- A write changes the bytes that it names and no other. -/
theorem Memory.get_write (m : Memory) (a j : Nat) (bs : List Byte) :
    (m.write a bs).get j = if a ≤ j ∧ j < a + bs.length then bs.getD (j - a) 0 else m.get j := by
  split
  case isTrue h =>
    obtain ⟨i, rfl⟩ := Nat.exists_eq_add_of_le h.1
    rw [Nat.add_sub_cancel_left]
    exact Memory.get_write_inside m a i bs (by omega)
  case isFalse h => exact Memory.get_write_outside m a j bs (by omega)

@[simp] theorem State.updCtx_mem (s : State) (c k : Nat) (f : Ctx → Ctx) : (s.updCtx c k f).mem = s.mem := by
  unfold State.updCtx
  split <;> rfl

@[simp] theorem State.onMember_mem (s : State) (p : Nat) (tid : Word) (role : Nat) (f : Ctx → Ctx) : (s.onMember p tid role f).mem = s.mem := by
  unfold State.onMember
  split
  · rfl
  · split
    · exact s.updCtx_mem _ _ f
    · rfl

@[simp] theorem State.wakeMember_mem (s : State) (p : Nat) (tid : Word) (role : Nat) (f : Ctx → Ctx) : (s.wakeMember p tid role f).mem = s.mem :=
  s.onMember_mem p tid role _

@[simp] theorem State.wake_mem (s : State) (c sl off : Nat) : (s.wake c sl off).mem = s.mem := by
  unfold State.wake
  refine (foldl_keeps State.mem (fun t w => ?_) _ _).trans (s.updCore_mem c _)
  split
  · rfl
  · exact t.wakeMember_mem ..

@[simp] theorem State.dirtyRow_mem (s : State) (c sl off : Nat) : (s.dirtyRow c sl off).mem = s.mem := by
  unfold State.dirtyRow
  split
  · exact s.updCtx_mem ..
  · rfl

@[simp] theorem State.storeWin_mem (s : State) (c sl off : Nat) (bs : List Byte) (bad : Bool) : (s.storeWin c sl off bs bad).mem = s.mem :=
  (foldl_keeps State.mem (fun t w => t.wake_mem c sl w) _ _).trans (State.dirtyRow_mem _ c sl off)

/-- A mark changes no byte. -/
theorem State.poisonAt_mem (s : State) (t : Target) : (s.poisonAt t).mem = s.mem := by
  cases t
  case l => exact s.updCtx_mem ..
  case win c sl off =>
    unfold State.poisonAt
    dsimp only
    split
    · rfl
    · exact foldl_keeps State.mem (fun t i => t.wake_mem c sl _) _ _
  case mem pa => exact apply_ite State.mem _ _ _ |>.trans (ite_self _)
  case host pa => exact apply_ite State.mem _ _ _ |>.trans (ite_self _)
  all_goals rfl

/-- A store elsewhere than in memory changes no byte of it. -/
theorem State.writeAt_mem_of_ne (s : State) {t : Target} (h : ∀ pa, t ≠ .mem pa ∧ t ≠ .host pa) (bs : List Byte) : (s.writeAt t bs).mem = s.mem := by
  cases t
  case l => exact s.updCtx_mem ..
  case win => exact s.storeWin_mem ..
  case mem pa => exact absurd rfl (h pa).1
  case host pa => exact absurd rfl (h pa).2
  all_goals rfl

/-- A store in memory is the write of its bytes. -/
theorem State.writeAt_mem_of_eq (s : State) {t : Target} {pa : Nat} (h : t = .mem pa ∨ t = .host pa) (bs : List Byte) :
    (s.writeAt t bs).mem = s.mem.write pa bs := by
  rcases h with rfl | rfl <;> rfl

theorem State.writeAt_wf {s : State} (h : Memory.wf s.mem = true) (t : Target) (bs : List Byte) : Memory.wf (s.writeAt t bs).mem = true := by
  cases t
  case mem pa => exact Memory.wf_write s.mem pa bs h
  case host pa => exact Memory.wf_write s.mem pa bs h
  all_goals
    rw [s.writeAt_mem_of_ne (by simp) bs]
    exact h

theorem State.create_wf {s : State} (h : Memory.wf s.mem = true) (p : Nat) : Memory.wf (s.create p).mem = true := by
  obtain ⟨assign, hc⟩ := s.create_eq p
  rw [hc, State.emit_mem, State.releaseCores_mem]
  exact Memory.wf_filter _ _ h

/-! ## What keeping a VE word's results leaves (R205) -/

theorem State.countEv_cores (s : State) (p kern : Nat) (b : Bool) (f : Fmt) (e : Ev) : (s.countEv p kern b f e).cores = s.cores := by
  unfold State.countEv
  split <;> rfl

theorem State.countEv_mem (s : State) (p kern : Nat) (b : Bool) (f : Fmt) (e : Ev) : (s.countEv p kern b f e).mem = s.mem := by
  unfold State.countEv
  split <;> rfl

theorem State.countEv_tasks (s : State) (p kern : Nat) (b : Bool) (f : Fmt) (e : Ev) : (s.countEv p kern b f e).tasks = s.tasks := by
  unfold State.countEv
  split <;> rfl

@[simp] theorem State.updCtx_tasks (s : State) (c k : Nat) (f : Ctx → Ctx) : (s.updCtx c k f).tasks = s.tasks := by
  unfold State.updCtx
  split <;> rfl

/-- The registers that a VE word leaves to its context: masks and the rounding stream. -/
def Ctx.keepVe (y : Ctx) (w : VEnv) : Ctx := { y with masks := w.masks, maskDirty := w.maskDirty, rstrm := w.rstrm }

/-- The state with a VE word's register file and its context's registers, its events not yet counted. -/
def State.keepRegs (s : State) (c k : Nat) (w : VEnv) : State :=
  (s.updCore c fun r => { r with vrf := w.file }).updCtx c k (Ctx.keepVe · w)

/-- What the count of an event leaves is as the registers are left. -/
theorem State.keepEnv_keeps {β : Type} (f : State → β) (hf : ∀ t p kern b fmt ev, f (State.countEv t p kern b fmt ev) = f t) (s : State) (c : Nat)
    (x : Ctx) (n : Entry) (w : VEnv) : f (s.keepEnv c x n w) = f (s.keepRegs c n.slot w) :=
  foldl_keeps (g := fun t (q : Fmt × Ev) => State.countEv t x.part n.kern x.recomp q.1 q.2) f (fun t q => hf t _ _ _ q.1 q.2) w.ev _

theorem State.keepEnv_mem (s : State) (c : Nat) (x : Ctx) (n : Entry) (w : VEnv) : (s.keepEnv c x n w).mem = s.mem :=
  (State.keepEnv_keeps State.mem State.countEv_mem s c x n w).trans (State.updCtx_mem ..)

theorem State.keepEnv_tasks (s : State) (c : Nat) (x : Ctx) (n : Entry) (w : VEnv) : (s.keepEnv c x n w).tasks = s.tasks :=
  (State.keepEnv_keeps State.tasks State.countEv_tasks s c x n w).trans (State.updCtx_tasks ..)

theorem State.keepEnv_core (s : State) (c d : Nat) (x : Ctx) (n : Entry) (w : VEnv) : (s.keepEnv c x n w).core d = (s.keepRegs c n.slot w).core d :=
  State.keepEnv_keeps (State.core · d) (fun t p kern b fmt ev => congrArg (Tab.get Core.reset · d) (t.countEv_cores p kern b fmt ev)) s c x n w

theorem State.core_updCtx_of_ne (s : State) {c d : Nat} (k : Nat) (f : Ctx → Ctx) (h : c ≠ d) : (s.updCtx c k f).core d = s.core d := by
  unfold State.updCtx
  split
  · exact s.core_setCtx_of_ne k _ h
  · rfl

/-- Reading a context after an update of one. -/
theorem State.ctx?_updCtx (s : State) (c k d j : Nat) (f : Ctx → Ctx) :
    (s.updCtx c k f).ctx? d j = if c = d ∧ k = j then (s.ctx? d j).map f else s.ctx? d j := by
  cases hx : s.ctx? c k with
  | none =>
    rw [State.updCtx_of_none hx]
    split
    case isTrue h => rw [← h.1, ← h.2, hx, Option.map_none]
    case isFalse => rfl
  | some x =>
    rw [State.updCtx_of_some hx, State.ctx?_setCtx]
    split
    case isTrue h => rw [← h.1, ← h.2, hx, Option.map_some]
    case isFalse => rfl

/-- A chain's change leaves the contexts of its core. -/
@[simp] theorem Core.setChain_ctxs (r : Core) (e : Eng) (l : List Entry) : (r.setChain e l).ctxs = r.ctxs := by cases e <;> rfl

@[simp] theorem Core.updCurrent_ctxs (r : Core) (e : Eng) (f : Entry → Entry) : (r.updCurrent e f).ctxs = r.ctxs := by
  unfold Core.updCurrent
  split
  · rfl
  · exact r.setChain_ctxs e _

theorem State.core_veDone_of_ne (s : State) {c d : Nat} (x : Ctx) (n : Entry) (w : VEnv) (h : d ≠ c) : (s.veDone c n x w).core d = s.core d := by
  rw [State.veDone, State.wordDone, State.core_updCore_of_ne _ _ (Ne.symm h), State.keepEnv_core, State.keepRegs,
    State.core_updCtx_of_ne _ _ _ (Ne.symm h), State.core_updCore_of_ne _ _ (Ne.symm h)]

theorem State.ctx?_veDone (s : State) (c : Nat) (x : Ctx) (n : Entry) (w : VEnv) (k : Nat) :
    (s.veDone c n x w).ctx? c k = if n.slot = k then (s.ctx? c k).map (Ctx.keepVe · w) else s.ctx? c k := by
  have hkeep : (s.keepEnv c x n w).ctx? c k = (s.keepRegs c n.slot w).ctx? c k :=
    congrArg (fun r => Tab.find (Core.ctxs r) k) (s.keepEnv_core c c x n w)
  rw [State.veDone, State.wordDone, State.ctx?_updCore _ _ _ _ _ (Core.updCurrent_ctxs ..), hkeep, State.keepRegs, State.ctx?_updCtx,
    State.ctx?_updCore s c c k _ rfl]
  simp

/-- Settles O60: a store in memory is `Memory.write`, a store elsewhere leaves memory alone, and the results of a VE word go to its register
file, its masks and its rounding stream. -/
theorem storesAndFrames : Obligations.StoresAndFrames := by
  unfold Obligations.StoresAndFrames
  refine ⟨fun m a bs h => ⟨m.wf_write a bs h, fun j => m.get_write a j bs⟩,
    fun s t bs h => ⟨State.writeAt_wf h t bs, s.poisonAt_mem t, fun hne => s.writeAt_mem_of_ne hne bs, fun pa heq => s.writeAt_mem_of_eq heq bs⟩,
    fun s n src dst p at' die x e h => ⟨s.mem.wf_replaceKeys src n dst h, s.mem.wf_write at' _ h, s.mem.wf_filter _ h, State.create_wf h p,
      s.mem.wf_filter _ h⟩,
    fun s c n x w => ⟨s.keepEnv_mem c x n w, s.keepEnv_tasks c x n w, fun d hd => s.core_veDone_of_ne x n w hd, fun y hy => ?_⟩⟩
  exact ⟨y.keepVe w, by rw [State.ctx?_veDone, if_pos rfl, hy, Option.map_some], rfl, rfl, rfl, rfl, rfl,
    fun k hk => (s.ctx?_veDone c x n w k).trans (if_neg (Ne.symm hk))⟩

/-! ## An engine's report of ACCBUSY (R265, R456) -/

/-- A context that does not abort yet aborts with the cause given. -/
theorem State.ctx?_abort {s : State} {c k : Nat} {x : Ctx} (hx : s.ctx? c k = some x) (hl : ∀ o, x.life ≠ .aborting o) (w : Cause) :
    (s.abort c k w).ctx? c k = some { x with life := .aborting w } := by
  unfold State.abort
  rw [hx]
  dsimp only
  rw [State.ctx?_updCore _ _ _ _ _ rfl, State.ctx?_setCtx_self]
  split
  · exact absurd ‹_› (hl _)
  · rfl

/-- ACCBUSY aborts a task whose context has halted, whatever step words it has in flight. -/
theorem exec_engineErrorReport_halted {s : State} {c : Nat} {e : Eng} {n : Entry} {w : Cause} {x : Ctx}
    (hn : ((s.core c).chain e).find? (fun m => m.failed.isSome) = some n) (hw : n.failed = some w) (hx : s.ctx? c n.slot = some x)
    (h7 : w.code = 7) (hl : x.life = .halted) : exec (.engineErrorReport c e) s = .next (s.abort c n.slot w) := by
  show execEngineErrorReport c e s = _
  simp [execEngineErrorReport, hn, hw, hx, h7, hl]

/-- A context that has halted. -/
def haltedCtx : Ctx := { bareCtx ⟨0, 0, 0⟩ with life := .halted }

/-- Its entry in the ME, which has stopped with ACCBUSY. -/
def accBusyEntry : Entry := { mkEntry haltedCtx 0 .me 0 1 [] with started := true, failed := some ⟨7, 0⟩ }

/-- Its step word in flight. -/
def inFlight : MeJob := ⟨0, 0, .mgo 0 1, 0, 1, 0, 0, 1, [], [0], 0⟩

/-- Core 0 with the three of them. -/
def accBusyState : State :=
  { State.reset with cores := [(0, { Core.reset with ctxs := [(0, haltedCtx)], me := [accBusyEntry], jobs := [inFlight] })] }

/-- Refutes O45: with a step word in flight an ME's report is said to leave the state whatever its cause, but ACCBUSY (cause 7) of a context
that has halted aborts the task at once. -/
theorem not_engineSteps : ¬ Obligations.EngineSteps := by
  unfold Obligations.EngineSteps
  intro h
  have hctx : accBusyState.ctx? 0 0 = some haltedCtx := rfl
  obtain ⟨-, -, -, hreport, -⟩ := h accBusyState 0 .me accBusyEntry [] haltedCtx ⟨7, 0⟩ []
  have hstays : exec (.engineErrorReport 0 .me) accBusyState = .next accBusyState :=
    (hreport rfl rfl hctx).1 ⟨rfl, inFlight, List.mem_singleton_self _, rfl⟩
  have haborts : exec (.engineErrorReport 0 .me) accBusyState = .next (accBusyState.abort 0 0 ⟨7, 0⟩) :=
    exec_engineErrorReport_halted (n := accBusyEntry) rfl rfl hctx rfl rfl
  have heq : accBusyState = accBusyState.abort 0 0 ⟨7, 0⟩ := Host.Outcome.next.inj (hstays.symm.trans haborts)
  have haborting : accBusyState.ctx? 0 0 = some { haltedCtx with life := .aborting ⟨7, 0⟩ } := by
    rw [heq]
    exact State.ctx?_abort hctx (fun _ => Life.noConfusion) _
  have hlife : Life.halted = .aborting ⟨7, 0⟩ := congrArg Ctx.life (Option.some.inj (hctx.symm.trans haborting))
  exact Life.noConfusion hlife

/-! ## Reading a UCIe module after an update (R446) -/

/-- Replacing the modules of one side by one of that side is found at that side only. -/
theorem find?_replaceSide (l : List Ucie) (side x : UcieSide) {u : Ucie} (hu : u.side = side) :
    (l.map fun w => if w.side = side then u else w).find? (fun w => w.side == x) =
      if side = x then (l.find? fun w => w.side == x).map fun _ => u else l.find? fun w => w.side == x := by
  induction l with
  | nil => simp
  | cons w l ih =>
    by_cases hw : w.side = side
    · by_cases hx : side = x
      · simp [hw, hu, hx]
      · simpa [List.find?_cons, hw, hu, hx] using ih
    · by_cases hx : w.side = x
      · have hne : side ≠ x := fun e => hw (hx.trans e.symm)
        simp [hx, hne, hne.symm]
      · simpa [List.find?_cons, hw, hx] using ih

@[simp] theorem State.ucie_side (s : State) (side : UcieSide) : (s.ucie side).side = side := by
  unfold State.ucie
  split
  case h_1 u h => simpa using List.find?_some h
  case h_2 => rfl

theorem State.ucie_updUcie (s : State) (side x : UcieSide) {f : Ucie → Ucie} (hf : ∀ u, (f u).side = u.side) :
    (s.updUcie side f).ucie x = if side = x then f (s.ucie side) else s.ucie x := by
  have hread : ∀ l : List Ucie, State.ucie { s with ucies := l } x =
      (l.find? fun w => w.side == x).getD ⟨x, false, false, [], 64, 0, 0, []⟩ := by
    intro l
    unfold State.ucie
    dsimp only
    split
    case h_1 u h => rw [h]; rfl
    case h_2 h => rw [h]; rfl
  have hside : (f (s.ucie side)).side = side := (hf _).trans (s.ucie_side side)
  rw [State.updUcie, hread, show s.ucie x = _ from hread s.ucies]
  by_cases hany : (s.ucies.any fun w => w.side == side) = true
  · rw [if_pos hany, find?_replaceSide _ _ _ hside]
    split
    case isTrue h =>
      obtain ⟨w, hw⟩ := Option.isSome_iff_exists.mp (List.find?_isSome.mpr (List.any_eq_true.mp hany))
      rw [← h, hw]
      rfl
    case isFalse => rfl
  · have hnone : s.ucies.find? (fun w => w.side == side) = none := by simpa using hany
    rw [if_neg hany, List.find?_append]
    split
    case isTrue h => simp [← h, hnone, hside]
    case isFalse h => simp [hside, h]

theorem State.ucie_updUcie_self (s : State) {side : UcieSide} {f : Ucie → Ucie} (hf : ∀ u, (f u).side = u.side) :
    (s.updUcie side f).ucie side = f (s.ucie side) := by rw [State.ucie_updUcie s side side hf, if_pos rfl]

theorem State.ucie_updUcie_of_ne (s : State) {side x : UcieSide} {f : Ucie → Ucie} (hf : ∀ u, (f u).side = u.side) (h : side ≠ x) :
    (s.updUcie side f).ucie x = s.ucie x := by rw [State.ucie_updUcie s side x hf, if_neg h]

/-! ## Flits that arrive again (R372) -/

/-- Some events that this step brings about, in order. -/
def State.postAll (s : State) (l : List Event) : State := { s with inbox := s.inbox ++ l }

@[simp] theorem State.postAll_inbox (s : State) (l : List Event) : (s.postAll l).inbox = s.inbox ++ l := rfl
@[simp] theorem State.ucie_postAll (s : State) (l : List Event) (x : UcieSide) : (s.postAll l).ucie x = s.ucie x := rfl

theorem State.foldl_post {α : Type} (f : α → Event) (l : List α) (s : State) : l.foldl (fun t q => t.post (f q)) s = s.postAll (l.map f) := by
  induction l generalizing s with
  | nil => simp [State.postAll]
  | cons q l ih => rw [List.foldl_cons, ih]; simp [State.post, State.postAll]

/-- The arrivals of some flits at the far end of a module. -/
def UcieSide.sends (x : UcieSide) (l : List (BitVec 8 × Option Packet)) : List Event :=
  l.map fun q => .ucieFlitReceive (UcieSide.far x) q.1 true q.2

/-- The flits of a replay buffer from a number on. -/
def flitsFrom (l : List (BitVec 8 × Option Packet)) (seq : BitVec 8) : List (BitVec 8 × Option Packet) := l.filter fun q => (q.1 - seq).toNat < 128

/-- A replay counts the flits from a number on and sends them again. -/
theorem State.ucieReplay_eq (s : State) (x : UcieSide) (seq : BitVec 8) : s.ucieReplay x seq =
    (s.updUcie x fun u => u.bump 1 (flitsFrom (s.ucie x).replay seq).length).postAll (UcieSide.sends x (flitsFrom (s.ucie x).replay seq)) :=
  State.foldl_post _ _ _

theorem State.ucieReplay_inbox (s : State) (x : UcieSide) (seq : BitVec 8) :
    (s.ucieReplay x seq).inbox = s.inbox ++ UcieSide.sends x (flitsFrom (s.ucie x).replay seq) := by
  rw [State.ucieReplay_eq, State.postAll_inbox]
  rfl

theorem State.ucie_ucieReplay (s : State) (x y : UcieSide) (seq : BitVec 8) : (s.ucieReplay x seq).ucie y =
    if x = y then (s.ucie x).bump 1 (flitsFrom (s.ucie x).replay seq).length else s.ucie y := by
  rw [State.ucieReplay_eq, State.ucie_postAll]
  exact s.ucie_updUcie x y fun _ => rfl

/-! ## What sending over modules leaves (R445, R446) -/

/-- From s to t only packets have been sent over modules that are in service: memory, cores and dies stay, no event is lost, and a module
that is not in service is left alone. -/
structure State.OnlySends (s t : State) : Prop where
  mem : t.mem = s.mem
  cores : t.cores = s.cores
  dies : t.dies = s.dies
  inbox : ∀ e ∈ s.inbox, e ∈ t.inbox
  idle : ∀ x, (s.ucie x).up = false ∨ (s.ucie x).retraining = true → t.ucie x = s.ucie x

theorem State.OnlySends.refl (s : State) : s.OnlySends s := ⟨rfl, rfl, rfl, fun _ h => h, fun _ _ => rfl⟩

theorem State.OnlySends.trans {s t u : State} (h : s.OnlySends t) (k : t.OnlySends u) : s.OnlySends u :=
  ⟨k.mem.trans h.mem, k.cores.trans h.cores, k.dies.trans h.dies, fun e he => k.inbox e (h.inbox e he),
    fun x hx => (k.idle x (by rw [h.idle x hx]; exact hx)).trans (h.idle x hx)⟩

theorem State.OnlySends.foldl {α : Type} {g : State → α → State} (hg : ∀ s a, State.OnlySends s (g s a)) (l : List α) (s : State) :
    s.OnlySends (l.foldl g s) := by
  induction l generalizing s with
  | nil => exact .refl s
  | cons a l ih => exact (hg s a).trans (ih _)

theorem State.ucieSend_onlySends {s t : State} {a b : Nat} {p : Packet} (h : s.ucieSend a b p = some t) : s.OnlySends t := by
  obtain ⟨m, hm, rfl⟩ := Option.map_eq_some_iff.mp h
  have hopen := List.find?_some hm
  simp only [Bool.and_eq_true, Bool.not_eq_true'] at hopen
  dsimp only
  rw [State.foldl_post fun q : BitVec 8 × Option Packet => Event.ucieFlitReceive (UcieSide.far ⟨a, b, m⟩) q.1 true q.2]
  refine ⟨rfl, rfl, rfl, fun e he => List.mem_append_left _ he, fun x hx => ?_⟩
  rw [State.ucie_postAll]
  refine s.ucie_updUcie_of_ne (fun _ => rfl) (fun e => ?_)
  subst e
  simp [hopen] at hx

theorem State.ucieFlush_onlySends (s : State) : s.OnlySends s.ucieFlush := by
  have hstart : s.OnlySends { s with ucieHeld := [] } := ⟨rfl, rfl, rfl, fun _ h => h, fun _ _ => rfl⟩
  refine hstart.trans (State.OnlySends.foldl (fun t q => ?_) _ _)
  have hkeep : t.OnlySends { t with ucieHeld := t.ucieHeld ++ [q] } := ⟨rfl, rfl, rfl, fun _ h => h, fun _ _ => rfl⟩
  dsimp only
  split
  · exact hkeep
  · cases hsend : t.ucieSend q.1 q.2.1 q.2.2 with
    | none => exact hkeep
    | some u => exact State.ucieSend_onlySends hsend

theorem State.ucieMove_onlySends (s : State) (x : UcieSide) (l : List (BitVec 8 × Option Packet)) : s.OnlySends (s.ucieMove x l) := by
  refine State.OnlySends.trans ?_ (State.ucieFlush_onlySends _)
  exact ⟨rfl, rfl, rfl, fun _ h => h, fun _ _ => rfl⟩

/-! ## Both ends of a module (R446, R508) -/

theorem State.ucie_countError (s : State) (d i : Nat) (x : UcieSide) : (s.countError d i).ucie x = s.ucie x := rfl

/-- A change at a module's end and one at its other end. -/
def State.onEnds (s : State) (x : UcieSide) (f g : Ucie → Ucie) : State := (s.updUcie x f).updUcie (UcieSide.far x) g

section Ends

variable (s : State) {x : UcieSide} {f g : Ucie → Ucie} (hx : x ≠ UcieSide.far x) (hf : ∀ u, (f u).side = u.side) (hg : ∀ u, (g u).side = u.side)
include hx hf hg

theorem State.ucie_onEnds_near : (s.onEnds x f g).ucie x = f (s.ucie x) := by
  rw [State.onEnds, State.ucie_updUcie_of_ne _ hg (Ne.symm hx), State.ucie_updUcie_self s hf]

theorem State.ucie_onEnds_far : (s.onEnds x f g).ucie (UcieSide.far x) = g (s.ucie (UcieSide.far x)) := by
  rw [State.onEnds, State.ucie_updUcie_self _ hg, State.ucie_updUcie_of_ne s hf hx]

end Ends

/-! ## A bad flit (R446, R508) -/

theorem Ucie.get_bump_self (u : Ucie) (i n : Nat) : Tab.get 0 (u.bump i n).items i = Tab.get 0 u.items i + BitVec.ofNat 32 n :=
  Tab.get_put_self ..

theorem Ucie.fth_bump_zero (u : Ucie) (n : Nat) : (u.bump 0 n).fth = u.fth := by
  simp [Ucie.fth, Ucie.bump, Tab.get_put]

/-- A bad flit is counted at its module and its die. -/
def State.badFlit (s : State) (side : UcieSide) : State := (s.updUcie side fun u => u.bump 0 1).countError side.die 16

theorem State.ucie_badFlit (s : State) (side : UcieSide) : (s.badFlit side).ucie side = (s.ucie side).bump 0 1 := by
  rw [State.badFlit, State.ucie_countError]
  exact s.ucie_updUcie_self fun _ => rfl

theorem State.fth_badFlit (s : State) (side : UcieSide) : ((s.badFlit side).ucie side).fth = (s.ucie side).fth := by
  rw [State.ucie_badFlit, Ucie.fth_bump_zero]

theorem State.count_badFlit (s : State) (side : UcieSide) :
    Tab.get 0 ((s.badFlit side).ucie side).items 0 = Tab.get 0 (s.ucie side).items 0 + 1 := by
  rw [State.ucie_badFlit, Ucie.get_bump_self]
  rfl

/-- A module that falls back to 32 lanes and retrains. -/
def Ucie.slow (u : Ucie) : Ucie := { u with width := 32, retraining := true }

/-- Both ends fall back, the receiving one with a new count of its bad flits. -/
def State.slowDown (s : State) (side : UcieSide) : State := s.onEnds side (fun u => { u.slow with items := Tab.put u.items 0 0 }) Ucie.slow

section Bad

variable {s : State} {side : UcieSide} (seq : BitVec 8)

theorem State.ucieBad_below (h : Tab.get 0 (s.ucie side).items 0 + 1 < (s.ucie side).fth) :
    s.ucieBad side seq = (s.badFlit side).ucieReplay (UcieSide.far side) seq := by
  refine if_neg ?_
  rw [← State.badFlit, State.fth_badFlit, State.count_badFlit]
  exact BitVec.not_le.mpr h

variable (h : (s.ucie side).fth ≤ Tab.get 0 (s.ucie side).items 0 + 1)
include h

theorem State.ucieBad_narrow (hw : (s.ucie side).width ≠ 64) : s.ucieBad side seq = (s.badFlit side).ucieReset side := by
  have hfth : ((s.badFlit side).ucie side).fth ≤ Tab.get 0 ((s.badFlit side).ucie side).items 0 := by
    rwa [State.fth_badFlit, State.count_badFlit]
  have hwidth : ((s.badFlit side).ucie side).width ≠ 64 := by rwa [State.ucie_badFlit]
  exact (if_pos hfth).trans (if_neg hwidth)

theorem State.ucieBad_wide (hw : (s.ucie side).width = 64) : ∃ l,
    s.ucieBad side seq = (((s.badFlit side).slowDown side).countError side.die 17).ucieMove (UcieSide.far side) l := by
  have hfth : ((s.badFlit side).ucie side).fth ≤ Tab.get 0 ((s.badFlit side).ucie side).items 0 := by
    rwa [State.fth_badFlit, State.count_badFlit]
  have hwidth : ((s.badFlit side).ucie side).width = 64 := by rwa [State.ucie_badFlit]
  exact ⟨_, (if_pos hfth).trans (if_pos hwidth)⟩

end Bad

/-- What a fallback leaves: both ends have 32 lanes and retrain, the count starts again, and memory, cores and the events that wait stay. -/
theorem State.slowDown_move (s : State) {side : UcieSide} (hx : side ≠ UcieSide.far side) (l : List (BitVec 8 × Option Packet)) :
    let v := ((s.slowDown side).countError side.die 17).ucieMove (UcieSide.far side) l
    (v.ucie side).width = 32 ∧ (v.ucie (UcieSide.far side)).width = 32 ∧ (v.ucie side).retraining = true ∧
      (v.ucie (UcieSide.far side)).retraining = true ∧ Tab.get 0 (v.ucie side).items 0 = 0 ∧ (∀ e ∈ s.inbox, e ∈ v.inbox) ∧ v.mem = s.mem ∧
      v.cores = s.cores := by
  intro v
  have hsends : State.OnlySends _ v := State.ucieMove_onlySends _ _ l
  have hnear : ((s.slowDown side).countError side.die 17).ucie side = { (s.ucie side).slow with items := Tab.put (s.ucie side).items 0 0 } :=
    s.ucie_onEnds_near hx (fun _ => rfl) (fun _ => rfl)
  have hfar : ((s.slowDown side).countError side.die 17).ucie (UcieSide.far side) = (s.ucie (UcieSide.far side)).slow :=
    s.ucie_onEnds_far hx (fun _ => rfl) (fun _ => rfl)
  rw [hsends.idle side (.inr (by rw [hnear]; rfl)), hsends.idle (UcieSide.far side) (.inr (by rw [hfar]; rfl)), hnear, hfar]
  exact ⟨rfl, rfl, rfl, rfl, Tab.get_put_self .., hsends.inbox, hsends.mem, hsends.cores⟩

/-- A module at its reset values, but for the count of its resets. -/
def Ucie.cleared (u : Ucie) : Ucie := { u with
  up := false, retraining := false, items := Tab.put [] 6 (Tab.get 0 u.items 6 + 1), width := 64, nextSeq := 0, expect := 0, replay := [] }

/-- What a link reset leaves: both ends are down at their reset values, and the reset is counted. -/
theorem State.ucieReset_ends (s : State) {side : UcieSide} (hx : side ≠ UcieSide.far side) :
    let v := s.ucieReset side
    (v.ucie side).up = false ∧ (v.ucie (UcieSide.far side)).up = false ∧ (v.ucie side).width = 64 ∧
      Tab.get 0 (v.ucie side).items 6 = Tab.get 0 (s.ucie side).items 6 + 1 ∧
      Tab.get 0 (v.die side.die).errors 18 = satAdd (Tab.get 0 (s.die side.die).errors 18) 1 := by
  intro v
  let t := s.onEnds side Ucie.cleared Ucie.cleared
  let u := t.ucieMove (UcieSide.far side) (s.ucie (UcieSide.far side)).replay
  have hv : v = u.countError side.die 18 := rfl
  have hsends : t.OnlySends u := State.ucieMove_onlySends _ _ _
  have hnear : t.ucie side = (s.ucie side).cleared := s.ucie_onEnds_near hx (fun _ => rfl) (fun _ => rfl)
  have hfar : t.ucie (UcieSide.far side) = (s.ucie (UcieSide.far side)).cleared := s.ucie_onEnds_far hx (fun _ => rfl) (fun _ => rfl)
  have hdie : u.die side.die = s.die side.die := congrArg (Tab.get Die.reset · side.die) hsends.dies
  have herror : (v.die side.die).errors = bumpTab (s.die side.die).errors 18 1 := by
    rw [hv, ← hdie]
    exact congrArg Die.errors (Tab.get_put_self ..)
  rw [herror, hv, State.ucie_countError, State.ucie_countError, hsends.idle side (.inl (by rw [hnear]; rfl)),
    hsends.idle (UcieSide.far side) (.inl (by rw [hfar]; rfl)), hnear, hfar]
  exact ⟨rfl, rfl, rfl, Tab.get_put_self .., Tab.get_put_self ..⟩

/-! ## A module that has retrained (R508) -/

/-- The flits of a replay buffer from its oldest on. -/
def flitsFromOldest (l : List (BitVec 8 × Option Packet)) : List (BitVec 8 × Option Packet) := match l with
  | [] => []
  | q :: _ => flitsFrom l q.1

/-- A transmitter sends again what has not been acknowledged. -/
def State.ucieAgain (s : State) (x : UcieSide) : State := match (s.ucie x).replay with
  | q :: _ => s.ucieReplay x q.1
  | [] => s

theorem State.ucieAgain_inbox (s : State) (x : UcieSide) :
    (s.ucieAgain x).inbox = s.inbox ++ UcieSide.sends x (flitsFromOldest (s.ucie x).replay) := by
  unfold State.ucieAgain
  cases hr : (s.ucie x).replay with
  | nil => exact (List.append_nil _).symm
  | cons q l =>
    refine (s.ucieReplay_inbox x q.1).trans ?_
    rw [hr]
    rfl

/-- Sending again counts flits and leaves the rest of every module. -/
theorem State.ucie_ucieAgain (s : State) (x y : UcieSide) : ((s.ucieAgain x).ucie y).replay = (s.ucie y).replay ∧
    ((s.ucieAgain x).ucie y).retraining = (s.ucie y).retraining := by
  unfold State.ucieAgain
  split
  · rw [State.ucie_ucieReplay]
    split
    case isTrue h => exact h ▸ ⟨rfl, rfl⟩
    case isFalse => exact ⟨rfl, rfl⟩
  · exact ⟨rfl, rfl⟩

theorem State.ucieAgain_mem_cores (s : State) (x : UcieSide) : (s.ucieAgain x).mem = s.mem ∧ (s.ucieAgain x).cores = s.cores := by
  unfold State.ucieAgain
  split
  · rw [State.ucieReplay_eq]
    exact ⟨rfl, rfl⟩
  · exact ⟨rfl, rfl⟩

/-- Both ends of a module that has retrained. -/
def State.retrained (s : State) (side : UcieSide) : State :=
  s.onEnds side (fun u => { u with retraining := false }) fun u => { u with retraining := false }

theorem exec_ucieRetrainComplete {s : State} {side : UcieSide} (h : (s.ucie side).retraining = true) :
    exec (.ucieRetrainComplete side) s = .next (((s.retrained side).ucieAgain side).ucieAgain (UcieSide.far side)) := by
  show execUcieRetrainComplete side s = _
  exact if_neg (by simp [h])

/-- What the end of a retraining leaves: both ends are in service and what they had not had acknowledged arrives again. -/
theorem State.retrained_again (s : State) {side : UcieSide} (hx : side ≠ UcieSide.far side) :
    let v := ((s.retrained side).ucieAgain side).ucieAgain (UcieSide.far side)
    (v.ucie side).retraining = false ∧ (v.ucie (UcieSide.far side)).retraining = false ∧ v.cores = s.cores ∧ v.mem = s.mem ∧
      v.inbox = s.inbox ++ UcieSide.sends side (flitsFromOldest (s.ucie side).replay) ++
        UcieSide.sends (UcieSide.far side) (flitsFromOldest (s.ucie (UcieSide.far side)).replay) := by
  intro v
  let t := s.retrained side
  have hnear : t.ucie side = { s.ucie side with retraining := false } := s.ucie_onEnds_near hx (fun _ => rfl) (fun _ => rfl)
  have hfar : t.ucie (UcieSide.far side) = { s.ucie (UcieSide.far side) with retraining := false } :=
    s.ucie_onEnds_far hx (fun _ => rfl) (fun _ => rfl)
  have hretraining : ∀ y, (v.ucie y).retraining = (t.ucie y).retraining := fun y =>
    (State.ucie_ucieAgain _ _ y).2.trans (t.ucie_ucieAgain side y).2
  obtain ⟨hmem, hcores⟩ := (t.ucieAgain side).ucieAgain_mem_cores (UcieSide.far side)
  obtain ⟨hmem', hcores'⟩ := t.ucieAgain_mem_cores side
  refine ⟨(hretraining side).trans (by rw [hnear]), (hretraining _).trans (by rw [hfar]), hcores.trans hcores', hmem.trans hmem', ?_⟩
  rw [State.ucieAgain_inbox, (t.ucie_ucieAgain side _).1, State.ucieAgain_inbox, hnear, hfar]
  rfl

/-! ## Flits of a UCIe module (R372) -/

section UcieFlit

variable {s : State} {side : UcieSide} (seq : BitVec 8)

theorem exec_ucieFlitReceive_idle (h : (s.ucie side).up = false ∨ (s.ucie side).retraining = true) (crc : Bool) (p : Option Packet) :
    exec (.ucieFlitReceive side seq crc p) s = .next s := by
  show execUcieFlitReceive side seq crc p s = _
  exact if_pos (by simpa using h)

variable (hup : (s.ucie side).up = true) (hr : (s.ucie side).retraining = false)
include hup hr

theorem exec_ucieFlitReceive_bad (p : Option Packet) : exec (.ucieFlitReceive side seq false p) s = .next (s.ucieBad side seq) := by
  show execUcieFlitReceive side seq false p s = _
  simp [execUcieFlitReceive, hup, hr]

theorem exec_ucieFlitReceive_stray (h : seq ≠ (s.ucie side).expect) (p : Option Packet) :
    exec (.ucieFlitReceive side seq true p) s = .next s := by
  show execUcieFlitReceive side seq true p s = _
  simp [execUcieFlitReceive, hup, hr, h]

/-- A flit in order is taken and acknowledged; its packet is for this device or goes on. -/
theorem exec_ucieFlitReceive_inOrder (h : seq = (s.ucie side).expect) :
    let u := (s.updUcie side fun u => { u with expect := u.expect + 1 }).post (.ucieFlitAck (UcieSide.far side) seq)
    exec (.ucieFlitReceive side seq true none) s = .next u ∧ ∀ p, exec (.ucieFlitReceive side seq true (some p)) s =
      .next (u.post (if Packet.dst p = (s.part (Packet.part p)).devnum then .remoteRequest p else .packetForward p)) := by
  refine ⟨?_, fun p => ?_⟩
  · show execUcieFlitReceive side seq true none s = _
    simp [execUcieFlitReceive, hup, hr, h]
  · show execUcieFlitReceive side seq true (some p) s = _
    have harrived : ∀ t : State, t.arrived p =
        t.post (if Packet.dst p = (t.part (Packet.part p)).devnum then .remoteRequest p else .packetForward p) :=
      fun t => (apply_ite t.post _ _ _).symm
    simp only [execUcieFlitReceive, hup, hr, h, Bool.not_true, Bool.or_self, Bool.false_eq_true, if_false, ne_eq, not_true, harrived]
    rfl

end UcieFlit

/-! ## Flits of a Tunar port (R373, R484) -/

@[simp] theorem State.tunar_updTunar_self (s : State) (port : Nat) (f : Tunar → Tunar) : (s.updTunar port f).tunar port = f (s.tunar port) :=
  Tab.get_put_self ..

theorem State.foldl_emit {α : Type} (f : α → Msg) (l : List α) (s : State) :
    l.foldl (fun t q => t.emit (f q)) s = { s with outbox := s.outbox ++ l.map f } := by
  induction l generalizing s with
  | nil => simp
  | cons q l ih => rw [List.foldl_cons, ih]; simp [State.emit]

/-- A good flit of a known kind brings an acknowledgement and credits, and what waited for them goes. -/
def State.flitTaken (s : State) (port : Nat) (flit : BitVec 512) : State :=
  let b := fun (i : Nat) => (flitBytes flit).getD i 0
  (s.updTunar port fun t => (t.acked (b 2)).credited (5 * ((b 0).toNat / 128) + (b 3).toNat / 32) ((b 3).toNat % 32)).pump port

/-- A port that is down takes neither flits nor replay requests. -/
theorem exec_tunar_down {s : State} {port : Nat} (h : (s.tunar port).up = false) (flit : BitVec 512) (seq : BitVec 8) :
    exec (.tunarFlitReceive port flit) s = .next s ∧ exec (.tunarReplayRequest port seq) s = .next s := by
  show execTunarFlitReceive port flit s = _ ∧ execTunarReplayRequest port seq s = _
  simp [execTunarFlitReceive, execTunarReplayRequest, h]

section TunarFlit

variable {s : State} {port : Nat} (hup : (s.tunar port).up = true)
include hup

/-- A bad flit is counted, and its number is asked for again. -/
theorem exec_tunarFlitReceive_bad {flit : BitVec 512} (h : flitGood flit = false) : ∃ v, exec (.tunarFlitReceive port flit) s = .next v ∧
    v.tunar port = { s.tunar port with items := bumpTab (s.tunar port).items 1 1 } ∧
    v.outbox = s.outbox ++ [.flit port (mkFlit 0 0 3 (s.tunar port).expect ((s.tunar port).expect - 1) 0 [])] ∧ v.mem = s.mem ∧ v.cores = s.cores := by
  let u := s.updTunar port fun t => { t with items := bumpTab t.items 1 1 }
  have htunar : u.tunar port = { s.tunar port with items := bumpTab (s.tunar port).items 1 1 } := State.tunar_updTunar_self ..
  have hexec : exec (.tunarFlitReceive port flit) s = .next (u.sendFlit port 3 0 (s.tunar port).expect 0) := by
    show execTunarFlitReceive port flit s = _
    simp only [execTunarFlitReceive, hup, h, Bool.not_true, Bool.not_false, Bool.false_eq_true, if_false, if_true]
    rfl
  refine ⟨_, hexec, htunar, ?_, rfl, rfl⟩
  rw [State.sendFlit, htunar]
  rfl

/-- A replay request is counted; the sixteenth in succession takes the port down, another has its flits sent again. -/
theorem exec_tunarReplayRequest_up (seq : BitVec 8) : ∃ v, exec (.tunarReplayRequest port seq) s = .next v ∧
    v.tunar port = { s.tunar port with replays := (s.tunar port).replays + 1, items := bumpTab (s.tunar port).items 3 1 } ∧
    (15 ≤ (s.tunar port).replays → v.inbox = s.inbox ++ [.tunarPortDown port] ∧ v.outbox = s.outbox) ∧
    ((s.tunar port).replays < 15 → v.inbox = s.inbox ∧
      v.outbox = s.outbox ++ ((s.tunar port).replay.filter fun q => (q.1 - seq).toNat < 128).map fun q => Msg.flit port q.2) := by
  let u := s.updTunar port fun t => { t with replays := t.replays + 1, items := bumpTab t.items 3 1 }
  have htunar : u.tunar port = { s.tunar port with replays := (s.tunar port).replays + 1, items := bumpTab (s.tunar port).items 3 1 } :=
    State.tunar_updTunar_self ..
  by_cases h : 15 ≤ (s.tunar port).replays
  · refine ⟨u.post (.tunarPortDown port), ?_, htunar, fun _ => ⟨rfl, rfl⟩, fun hlt => absurd h (Nat.not_le.mpr hlt)⟩
    show execTunarReplayRequest port seq s = _
    simp [execTunarReplayRequest, hup, h, u]
  · let l := (s.tunar port).replay.filter fun q => (q.1 - seq).toNat < 128
    refine ⟨{ u with outbox := u.outbox ++ l.map fun q => Msg.flit port q.2 }, ?_, htunar, fun hle => absurd hle h, fun _ => ⟨rfl, rfl⟩⟩
    rw [← State.foldl_emit]
    show execTunarReplayRequest port seq s = _
    simp [execTunarReplayRequest, hup, h, u, l]

section Good

variable {flit : BitVec 512} (hg : flitGood flit = true)
include hg

theorem exec_tunarFlitReceive_unknown (h : 4 < ((flitBytes flit).getD 0 0).toNat % 16) :
    exec (.tunarFlitReceive port flit) s = .next (s.updTunar port fun t => { t with items := bumpTab t.items 2 1 }) := by
  show execTunarFlitReceive port flit s = _
  simp only [execTunarFlitReceive, hup, hg, h, Bool.not_true, Bool.false_eq_true, if_false, if_true]

theorem exec_tunarFlitReceive_control :
    (((flitBytes flit).getD 0 0).toNat % 16 = 0 → exec (.tunarFlitReceive port flit) s = .next (s.flitTaken port flit)) ∧
    (((flitBytes flit).getD 0 0).toNat % 16 = 3 → exec (.tunarFlitReceive port flit) s =
      .next ((s.flitTaken port flit).post (.tunarReplayRequest port ((flitBytes flit).getD 1 0)))) ∧
    (((flitBytes flit).getD 0 0).toNat % 16 = 4 → exec (.tunarFlitReceive port flit) s =
      .next ((s.flitTaken port flit).post (.tunarResetNotice port))) := by
  show (_ → execTunarFlitReceive port flit s = _) ∧ (_ → execTunarFlitReceive port flit s = _) ∧ (_ → execTunarFlitReceive port flit s = _)
  refine ⟨fun h => ?_, fun h => ?_, fun h => ?_⟩ <;>
  · simp only [execTunarFlitReceive, hup, hg, h, Bool.not_true, Bool.false_eq_true, if_false, Nat.reduceLT]
    rfl

/-- A flit of a packet enters its channel's buffer where it is in order. -/
theorem exec_tunarFlitReceive_packet (h : ((flitBytes flit).getD 0 0).toNat % 16 = 1 ∨ ((flitBytes flit).getD 0 0).toNat % 16 = 2) :
    exec (.tunarFlitReceive port flit) s = .next (if (flitBytes flit).getD 1 0 = (s.tunar port).expect ∧ ((flitBytes flit).getD 0 0).toNat / 16 % 8 < 5
      then (s.flitTaken port flit).packetFlit port (((flitBytes flit).getD 0 0).toNat / 128) (((flitBytes flit).getD 0 0).toNat / 16 % 8) flit
      else s.flitTaken port flit) := by
  show execTunarFlitReceive port flit s = _
  rcases h with h | h <;>
  · simp only [execTunarFlitReceive, hup, hg, h, Bool.not_true, Bool.false_eq_true, if_false, Nat.reduceLT, Bool.and_eq_true, decide_eq_true_eq]
    rfl

end Good
end TunarFlit

/-! ## The statement -/

/-- An acknowledgement frees the flits up to its number and leaves the rest of its module. -/
theorem exec_ucieFlitAck (s : State) (side : UcieSide) (seq : BitVec 8) : ∃ v, exec (.ucieFlitAck side seq) s = .next v ∧
    v.ucie side = { s.ucie side with replay := (s.ucie side).replay.filter fun q => 128 ≤ (seq - q.1).toNat } ∧
    v.inbox = s.inbox ∧ v.cores = s.cores ∧ v.mem = s.mem :=
  ⟨_, rfl, s.ucie_updUcie_self fun _ => rfl, rfl, rfl, rfl⟩

/-- Settles O50: each clause is a lemma above about the event that it speaks of. -/
theorem linkSteps : Obligations.LinkSteps := by
  unfold Obligations.LinkSteps
  intro s side seq p po port cls vc n flit crc far m sends bad
  refine ⟨?idle, ?receive, ?replay, ?reset, ?notRetraining, ?retrained, ?ack, ?tunar, ?credit⟩
  case idle => exact fun h => exec_ucieFlitReceive_idle seq h crc po
  case receive =>
    intro hup hr
    refine ⟨fun h => exec_ucieFlitReceive_stray seq hup hr h po, fun h => ?inOrder, fun h => ?below, fun h => ⟨fun hw => ?narrow, fun hw hx => ?wide⟩⟩
    case inOrder =>
      obtain ⟨hnone, hsome⟩ := exec_ucieFlitReceive_inOrder seq hup hr h
      exact ⟨hnone, hsome p⟩
    case below => rw [exec_ucieFlitReceive_bad seq hup hr, State.ucieBad_below seq h]; rfl
    case narrow => rw [exec_ucieFlitReceive_bad seq hup hr, State.ucieBad_narrow seq h hw]; rfl
    case wide =>
      obtain ⟨l, hbad⟩ := State.ucieBad_wide seq h hw
      exact ⟨_, (exec_ucieFlitReceive_bad seq hup hr po).trans (congrArg _ hbad), (s.badFlit side).slowDown_move hx l⟩
  case replay =>
    refine ⟨s.ucieReplay_inbox side seq, ?_⟩
    rw [State.ucie_ucieReplay, if_pos rfl]
    exact Ucie.get_bump_self ..
  case reset => exact s.ucieReset_ends
  case notRetraining =>
    intro hr
    show execUcieRetrainComplete side s = _
    exact if_pos (by simpa using hr)
  case retrained => exact fun hr hx => ⟨_, exec_ucieRetrainComplete hr, s.retrained_again hx⟩
  case ack =>
    obtain ⟨v, hv, hucie, hrest⟩ := exec_ucieFlitAck s side seq
    exact ⟨v, hv, by rw [hucie], by rw [hucie], hrest⟩
  case tunar =>
    refine ⟨fun hdown => exec_tunar_down hdown flit seq, fun hup => ⟨exec_tunarFlitReceive_bad hup, fun hg => ?good, exec_tunarReplayRequest_up hup seq⟩⟩
    case good =>
      obtain ⟨hempty, hreplay, hnotice⟩ := exec_tunarFlitReceive_control hup hg
      refine ⟨exec_tunarFlitReceive_unknown hup hg, hempty, hreplay, hnotice, fun hk => ?_⟩
      rw [exec_tunarFlitReceive_packet hup hg hk]
      exact ⟨fun hnext hvc => congrArg _ (if_pos ⟨hnext, hvc⟩), fun hstray => congrArg _ (if_neg fun h => hstray h.1)⟩
  case credit => rfl

end Sys2Proof.Machine

/-! SUPPORT. The family of the encodings: the fields of a packed word, what each map of the decoder makes of the encoder's words, that
decoding undoes encoding, and the writes of registers and predicates that the statements on words speak of. -/

namespace Sys2Proof

/-! ## The fields of a word -/

/-- Bits above the lower part of two joined fields. The library's lemma with the joined fields kept out of simp's index, which would look
for a sum of widths where a word's format has a numeral. -/
@[simp] theorem extractLsb'_append_high {v w lo n : Nat} (x : BitVec v) (y : BitVec w) (h : w ≤ lo) :
    BitVec.extractLsb' lo n (no_index (x ++ y)) = x.extractLsb' (lo - w) n := BitVec.extractLsb'_append_eq_of_le h

/-- Bits inside the lower part of two joined fields. -/
@[simp] theorem extractLsb'_append_low {v w lo n : Nat} (x : BitVec v) (y : BitVec w) (h : lo + n ≤ w) :
    BitVec.extractLsb' lo n (no_index (x ++ y)) = y.extractLsb' lo n := BitVec.extractLsb'_append_eq_of_add_le h

/-- A single bit is a field of width 1. -/
theorem getElem_eq_extractLsb' {n : Nat} (x : BitVec n) (j : Nat) (h : j < n) : x[j] = (x.extractLsb' j 1 == 1#1) := by
  cases hx : x[j] <;> simp [BitVec.eq_of_getLsbD_eq_iff, BitVec.getLsbD_extractLsb', BitVec.getLsbD_eq_getElem h, hx]

@[simp] theorem ofBool_beq_one (b : Bool) : (BitVec.ofBool b == 1#1) = b := by cases b <;> rfl

/-! A read of a packed word is a read of its joined fields; the two lemmas above then find the field. -/

section Formats
variable (lo n : Nat)

@[simp] theorem packSA_f (op d a b fn g) : (packSA op d a b fn g).f lo n = BitVec.extractLsb' lo n (op ++ d ++ a ++ b ++ fn ++ g) := rfl
@[simp] theorem packSI_f (op d a imm g) : (packSI op d a imm g).f lo n = BitVec.extractLsb' lo n (op ++ d ++ a ++ imm ++ g) := rfl
@[simp] theorem packSL_f (op d imm g) : (packSL op d imm g).f lo n = BitVec.extractLsb' lo n (op ++ d ++ imm ++ g) := rfl
@[simp] theorem packSB_f (op p s off) : (packSB op p s off).f lo n = BitVec.extractLsb' lo n (op ++ p ++ s ++ off) := rfl
@[simp] theorem packSM_f (op d a oc off g) : (packSM op d a oc off g).f lo n = BitVec.extractLsb' lo n (op ++ d ++ a ++ oc ++ off ++ g) := rfl
@[simp] theorem packSE_f (op e a b fn g) : (packSE op e a b fn g).f lo n = BitVec.extractLsb' lo n (op ++ e ++ a ++ b ++ fn ++ g) := rfl
@[simp] theorem packSX_f (fn imm g) : (packSX fn imm g).f lo n = BitVec.extractLsb' lo n (0x3F#6 ++ fn ++ imm ++ g) := rfl
@[simp] theorem packVR_f (op vd va vb k mod) : (packVR op vd va vb k mod).f lo n = BitVec.extractLsb' lo n (op ++ vd ++ va ++ vb ++ k ++ mod) := rfl
@[simp] theorem packVI_f (op vd va imm mod) : (packVI op vd va imm mod).f lo n = BitVec.extractLsb' lo n (op ++ vd ++ va ++ imm ++ mod) := rfl
@[simp] theorem packVM_f (op vd a off oc) : (packVM op vd a off oc).f lo n = BitVec.extractLsb' lo n (op ++ vd ++ a ++ off ++ oc) := rfl
@[simp] theorem packVC_f (m obj fl) : (packVC m obj fl).f lo n = BitVec.extractLsb' lo n (0x5C#7 ++ m ++ obj ++ fl) := rfl
@[simp] theorem packME_f (x op t a b f) : (packME x op t a b f).f lo n = BitVec.extractLsb' lo n (x ++ op ++ t ++ a ++ b ++ f) := rfl
@[simp] theorem packTU_f (x op tag a b c f) : (packTU x op tag a b c f).f lo n = BitVec.extractLsb' lo n (x ++ op ++ tag ++ a ++ b ++ c ++ f) := rfl
@[simp] theorem packDep_f (t0 t1 t2) : (packDep t0 t1 t2).f lo n = BitVec.extractLsb' lo n (3#2 ++ t0 ++ t1 ++ t2) := rfl

end Formats

theorem packSA_fields (op d a b fn g) : (packSA op d a b fn g).f 26 6 = op ∧ (packSA op d a b fn g).f 21 5 = d ∧
    (packSA op d a b fn g).f 16 5 = a ∧ (packSA op d a b fn g).f 11 5 = b ∧ (packSA op d a b fn g).f 3 8 = fn ∧
    (packSA op d a b fn g).f 0 3 = g := by simp

theorem packSI_fields (op d a imm g) : (packSI op d a imm g).f 26 6 = op ∧ (packSI op d a imm g).f 21 5 = d ∧
    (packSI op d a imm g).f 16 5 = a ∧ (packSI op d a imm g).f 3 13 = imm ∧ (packSI op d a imm g).f 0 3 = g := by simp

theorem packSM_fields (op d a oc off g) : (packSM op d a oc off g).f 26 6 = op ∧ (packSM op d a oc off g).f 21 5 = d ∧
    (packSM op d a oc off g).f 16 5 = a ∧ (packSM op d a oc off g).f 12 4 = oc ∧ (packSM op d a oc off g).f 3 9 = off ∧
    (packSM op d a oc off g).f 0 3 = g := by simp

theorem packSE_fields (op e a b fn g) : (packSE op e a b fn g).f 26 6 = op ∧ (packSE op e a b fn g).f 24 2 = e ∧
    (packSE op e a b fn g).f 19 5 = a ∧ (packSE op e a b fn g).f 14 5 = b ∧ (packSE op e a b fn g).f 3 11 = fn ∧
    (packSE op e a b fn g).f 0 3 = g := by simp

@[simp] theorem extOf_packExt (e0 e1 e2 f) : extOf (packExt e0 e1 e2 f) = ⟨e0, e1, e2, f⟩ := by
  have hf (lo n : Nat) : (packExt e0 e1 e2 f).f lo n = BitVec.extractLsb' lo n (e0 ++ e1 ++ e2 ++ f) := rfl
  simp [extOf, hf]

/-! ## The codes -/

@[simp] theorem engOf_code (e : Eng) : engOf e.code = some e := by cases e <;> rfl
@[simp] theorem rmodeOf_code (r : RMode) : rmodeOf r.code = some r := by cases r <;> rfl
@[simp] theorem fmtOf_code (f : Fmt) : fmtOf f.code = f := by cases f <;> rfl
@[simp] theorem scopeOf_code (c : Scope) : scopeOf c.code = c := by cases c <;> rfl
@[simp] theorem widthOf_code (w : Width) : widthOf w.code = w := by cases w <;> rfl
@[simp] theorem vcondOf_code (c : VCond) : vcondOf c.code = some c := by cases c <;> rfl
@[simp] theorem redOpOf_code (o : RedOp) : redOpOf o.code = o := by cases o <;> rfl
@[simp] theorem mmodeOf_code (m : MMode) : mmodeOf m.code = some m := by cases m <;> rfl
@[simp] theorem cregOf_num (c : CReg) : cregOf c.num = some c := by cases c <;> rfl

@[simp] theorem rndOf_code (m : Rnd) : rndOf m.code = some m := by
  obtain ⟨sat, rm⟩ := m
  cases sat <;> cases rm <;> rfl

@[simp] theorem depSlot_depBits (t : Option (Eng × BitVec 8)) : depSlot (depBits t) = some t := by
  match t with
  | none => rfl
  | some (e, seq) => simp [depSlot, depBits]

/-! ## SQ words (R139 to R144) -/

/-! A word of a major opcode decodes by that major's map, at the fields of its format. -/

section Majors
variable (d a b : Reg) (g : Pred)

theorem decodeSq_integer (fn : BitVec 8) : decodeSq (packSA 0x01 d a b fn g) = decodeInteger d a b fn g := by simp [decodeSq]
theorem decodeSq_compare (fn : BitVec 8) : decodeSq (packSA 0x02 d a b fn g) = decodeCompare d a b fn g := by simp [decodeSq]
theorem decodeSq_predicate (fn : BitVec 8) : decodeSq (packSA 0x03 d a b fn g) = decodePredicate d a b fn g := by simp [decodeSq]

theorem decodeSq_immediate {op : BitVec 6} (imm : BitVec 13)
    (h : op ∈ [0x04#6, 0x05#6, 0x06#6, 0x07#6, 0x08#6, 0x09#6, 0x0A#6, 0x0B#6, 0x0C#6, 0x0D#6, 0x15#6, 0x16#6]) :
    decodeSq (packSI op d a imm g) = decodeImmediate op.toNat d a imm g := by
  obtain ⟨hop, hd, ha, himm, hg⟩ := packSI_fields op d a imm g
  unfold decodeSq
  rw [hop, hd, ha, himm, hg]
  simp only [List.mem_cons, List.not_mem_nil, or_false] at h
  rcases h with rfl | rfl | rfl | rfl | rfl | rfl | rfl | rfl | rfl | rfl | rfl | rfl <;> rfl

theorem decodeSq_memory {op : BitVec 6} (oc : OClass) (off : BitVec 9)
    (h : op ∈ [0x18#6, 0x19#6, 0x1A#6, 0x1B#6, 0x1C#6, 0x1D#6, 0x1E#6, 0x20#6, 0x21#6, 0x22#6, 0x23#6]) :
    decodeSq (packSM op d a oc off g) = decodeMemory op.toNat d a oc off g := by
  obtain ⟨hop, hd, ha, hoc, hoff, hg⟩ := packSM_fields op d a oc off g
  unfold decodeSq
  rw [hop, hd, ha, hoc, hoff, hg]
  simp only [List.mem_cons, List.not_mem_nil, or_false] at h
  rcases h with rfl | rfl | rfl | rfl | rfl | rfl | rfl | rfl | rfl | rfl | rfl <;> rfl

/-- The code of an atomic, a word wait or a lock stands below its ordering class. -/
theorem decodeSq_atomic (oc : OClass) (code : BitVec 4) :
    decodeSq (packSA 0x26 d a b (0#0 ++ oc ++ code) g) = decodeAtomic d a b oc code g := by simp [decodeSq]

theorem decodeSq_atomicN (oc : OClass) (code : BitVec 4) :
    decodeSq (packSA 0x27 d a b (0#0 ++ oc ++ code) g) = decodeAtomicN d a b oc code g := by simp [decodeSq]

theorem decodeSq_wait (oc : OClass) (code : BitVec 4) :
    decodeSq (packSA 0x28 d a b (0#0 ++ oc ++ code) g) = decodeWait d a b oc code g := by simp [decodeSq]

theorem decodeSq_engineIssue {op : BitVec 6} (e : BitVec 2) (fn : BitVec 11) (h : op ∈ [0x29#6, 0x2A#6, 0x2B#6, 0x2C#6, 0x2D#6]) :
    decodeSq (packSE op e a b fn g) = decodeEngineIssue op.toNat e a b fn g := by
  obtain ⟨hop, he, ha, hb, hfn, hg⟩ := packSE_fields op e a b fn g
  unfold decodeSq
  rw [hop, he, ha, hb, hfn, hg]
  simp only [List.mem_cons, List.not_mem_nil, or_false] at h
  rcases h with rfl | rfl | rfl | rfl | rfl <;> rfl

theorem decodeSq_group {op : BitVec 6} (fn : BitVec 8) (h : op ∈ [0x2E#6, 0x2F#6, 0x30#6, 0x31#6, 0x32#6, 0x34#6]) :
    decodeSq (packSA op d a b fn g) = decodeGroup op.toNat d a b fn g := by
  obtain ⟨hop, hd, ha, hb, hfn, hg⟩ := packSA_fields op d a b fn g
  unfold decodeSq
  rw [hop, hd, ha, hb, hfn, hg]
  simp only [List.mem_cons, List.not_mem_nil, or_false] at h
  rcases h with rfl | rfl | rfl | rfl | rfl | rfl <;> rfl

theorem decodeSq_system (fn : BitVec 10) (imm : BitVec 13) : decodeSq (packSX fn imm g) = decodeSystem fn imm g := by simp [decodeSq]

/-- A code above the last one of R140's table leaves its low three bits to LEA or SEL. -/
theorem decodeInteger_of_gt {fn : BitVec 8} (h : 0x36 < fn.toNat) : decodeInteger d a b fn g =
    if fn.extractLsb' 3 5 = 7 then some (.lea d a b (fn.extractLsb' 0 3) g)
    else if fn.extractLsb' 3 5 = 31 then some (.sel d (fn.extractLsb' 0 3) a b g) else none := by
  unfold decodeInteger
  split
  case h_29 => rfl
  all_goals omega

/-- LEA carries its shift in the low bits of its code. -/
theorem decodeInteger_lea (sh : BitVec 3) : decodeInteger d a b (7#5 ++ sh) g = some (.lea d a b sh g) := by
  have hcode : 0x36 < (7#5 ++ sh).toNat := by decide +revert
  simp [decodeInteger_of_gt d a b g hcode]

/-- SEL carries its predicate in the low bits of its code. -/
theorem decodeInteger_sel (p : Pred) : decodeInteger d a b (31#5 ++ p) g = some (.sel d p a b g) := by
  have hcode : 0x36 < (31#5 ++ p).toNat := by decide +revert
  simp [decodeInteger_of_gt d a b g hcode]

end Majors

/-- An SQ instruction is one word, and its major's map gives it back. RLAUNCH, RCVR and TRIM have the rows that Instr.wordRow keeps. -/
theorem decodeSq_encode {i : Instr} (hsq : (i.isEvent, i.stream) = (false, none)) (hwf : i.wf = true) (hrow : i.wordRow = i) :
    ∃ w, encode i = [w] ∧ decodeSq w = some i := by
  cases i with
  | add | sub | mul | mulh | mulhn | div | divn | rem | remn | and | or | xor | shl | shr | sra | clz | ctz | popc | min | max | minn | maxn
  | sext8 | sext16 | sext32 | zext8 | zext16 | zext32 => exact ⟨_, rfl, decodeSq_integer ..⟩
  | lea => exact ⟨_, rfl, (decodeSq_integer ..).trans (decodeInteger_lea ..)⟩
  | sel => exact ⟨_, rfl, (decodeSq_integer ..).trans (decodeInteger_sel ..)⟩
  | cmpeq | cmpne | cmplt | cmple | cmpltn | cmplen =>
    exact ⟨_, rfl, (decodeSq_compare ..).trans (by simp [decodeCompare, predField])⟩
  | pand | por | pxor | pnot =>
    exact ⟨_, rfl, (decodeSq_predicate ..).trans (by simp [decodePredicate, predField])⟩
  | addi | andi | ori | xori => exact ⟨_, rfl, decodeSq_immediate _ _ _ _ (by decide)⟩
  | shli | shri | srai | rdc | wrc => exact ⟨_, rfl, (decodeSq_immediate _ _ _ _ (by decide)).trans (by simp [decodeImmediate])⟩
  | cmpeqi | cmplti => exact ⟨_, rfl, (decodeSq_immediate _ _ _ _ (by decide)).trans (by simp [decodeImmediate, predField])⟩
  | loop => exact ⟨_, rfl, (decodeSq_immediate _ _ _ _ (by decide)).trans (by simpa [decodeImmediate, Instr.wf] using hwf)⟩
  | br | call => exact ⟨_, rfl, by simp [decodeSq, getElem_eq_extractLsb']⟩
  | movi | sethi | fence | waitc | jmp | ret | lda | stl => exact ⟨_, rfl, by simp [decodeSq]⟩
  | ldI8 | ldN8 | ldI16 | ldN16 | ldI32 | ldN32 | ld64 | st8 | st16 | st32 | st64 => exact ⟨_, rfl, decodeSq_memory _ _ _ _ _ (by decide)⟩
  | aadd | aaddf | axchg | acas | amax | amin | amaxf | aclrmax | aincb | aincw | adecz | aaddl | axrd => exact ⟨_, rfl, decodeSq_atomic ..⟩
  | aaddN | aaddfN | axchgN | acasN | amaxN | aminN | amaxfN | aclrmaxN | aincbN | aincwN | adeczN | aaddlN | axadd =>
    exact ⟨_, rfl, decodeSq_atomicN ..⟩
  | waitwEq | waitwNe | waitwGe | waitwLt | alock | aunlk => exact ⟨_, rfl, decodeSq_wait ..⟩
  | enq | enqw | mcw | mcrd | rdseq => exact ⟨_, rfl, (decodeSq_engineIssue _ _ _ _ _ (by decide)).trans (by simp [decodeEngineIssue])⟩
  | spawn | popt | join | qput | qget | rclm | evreg | otw | gbind | ptinv | rlaunchStart | routw | publ | tvq | retain | repl
  | rcvrVer | trimSync | twaitAny | twaitAll | tffr | tclr | cntrd | cntset | ctxs | ctxr | poisq =>
    exact ⟨_, rfl, decodeSq_group _ _ _ _ _ (by decide)⟩
  | rpush | rpop | wfill | wfree | subscr => exact ⟨_, rfl, (decodeSq_group _ _ _ _ _ (by decide)).trans (by simp [decodeGroup])⟩
  | rlaunchUpdate | rlaunchStop | rcvrHand | trimForce => cases hrow
  | nop | halt | yield | bkpt | trap | eret | phase => exact ⟨_, rfl, decodeSq_system ..⟩
  | _ => cases hsq

theorem decodeStream_sq {i : Instr} (hsq : (i.isEvent, i.stream) = (false, none)) (hwf : i.wf = true) (hrow : i.wordRow = i)
    (rest : List Half) :
    decodeStream none (encode i ++ rest) = .ok i (encode i).length := by
  obtain ⟨w, hw, hi⟩ := decodeSq_encode hsq hwf hrow
  rw [hw]
  show Decoded.ofOption 1 (decodeSq w) = _
  rw [hi]; rfl

/-! ## Engine words (R145 to R155) -/

/-- An engine word decodes back when its engine's map gives the instruction and the count of its words. -/
theorem decodeStream_engine {e : Eng} {i : Instr} {w : Half} {ws rest : List Half} (hi : encode i = w :: ws)
    (h : decodeEngine e w (ws ++ rest) = .ok i (ws.length + 1)) :
    decodeStream (some e) (encode i ++ rest) = .ok i (encode i).length := by
  rw [hi]; exact h

/-! ## VE words (R145, R147, R152) -/

/-- A rounding operation's op7 is neither a DEP's nor the chain header's. -/
theorem isVeRounded_ne {op : BitVec 7} (h : isVeRounded op.toNat = true) : op.extractLsb' 5 2 ≠ 3#2 ∧ op.toNat ≠ 0x5C := by
  decide +revert

/-- A word marked R decodes by its op7, with SAT and its rounding code. -/
theorem decodeVe_rounded {op : BitVec 7} (h : isVeRounded op.toNat = true) (m : Rnd) (vd va vb : VNum) (k : KNum) (rest : List Half) :
    decodeVe (packVR op vd va vb k m.code) rest = .ofOption 1 (decodeVeRounded op.toNat m vd va vb k) := by
  obtain ⟨hdep, hchain⟩ := isVeRounded_ne h
  simp [decodeVe, isDep, hdep, hchain, h]

/-- The two bits that mark a DEP are the top of op7. -/
theorem isDep_eq_op7 (w : Half) : isDep w = ((w.f 25 7).extractLsb' 5 2 == 3#2) := by
  have h : (w.f 25 7).extractLsb' 5 2 = w.f 30 2 := by
    ext j hj
    simp [BitVec.getElem_extractLsb', BitVec.getLsbD_extractLsb', ← Nat.add_assoc]
    omega
  rw [h, isDep]

/-- A word with a mod of its own decodes by its op7. -/
theorem decodeVe_own {w : Half} {op : BitVec 7} (rest : List Half) (hw : w.f 25 7 = op)
    (hop : op.extractLsb' 5 2 ≠ 3#2 ∧ op.toNat ≠ 0x5C ∧ isVeRounded op.toNat = false) :
    decodeVe w rest = .ofOption 1 (decodeVeOwn op.toNat w) := by
  obtain ⟨hdep, hchain, hrnd⟩ := hop
  simp [decodeVe, isDep_eq_op7, hw, hdep, hchain, hrnd]

@[simp] theorem chainOps_find_code (o : ChainOp) : (chainOps.find? fun p => p.code == o.code) = some o := by cases o <;> rfl

/-- A chain word whose unused fields are zero decodes back. -/
theorem decodeChainWord_encode {c : ChainWord} (h : c.wf = true) : decodeChainWord c.encode = some c := by
  simp [decodeChainWord, ChainWord.encode, h]

/-- The words that the encoder puts after a chain's header; it writes zero for an entry that is none, which no well-formed chain has. -/
def chainWords (ws : List (Option ChainWord)) : List Half := ws.map fun | some c => c.encode | none => 0

theorem encode_vchain (m : Rnd) (obj : BitVec 16) (ws : List (Option ChainWord)) :
    encode (.vchain m obj ws) = packVC (BitVec.ofNat 3 (ws.length - 1)) obj (BitVec.ofBool m.sat ++ m.rm.code ++ 0#2) :: chainWords ws := rfl

theorem chainWords_decode {ws : List (Option ChainWord)} (h : ∀ o ∈ ws, ∃ c, o = some c ∧ c.wf = true) :
    (chainWords ws).map decodeChainWord = ws := by
  rw [chainWords, List.map_map]
  calc ws.map _ = ws.map id := List.map_congr_left fun o ho => by
        obtain ⟨c, rfl, hc⟩ := h o ho
        exact decodeChainWord_encode hc
    _ = ws := List.map_id ws

/-- What R155 asks of a chain: one to eight words, each well-formed. -/
theorem wf_vchain {m : Rnd} {obj : BitVec 16} {ws : List (Option ChainWord)} (h : Instr.wf (.vchain m obj ws) = true) :
    1 ≤ ws.length ∧ ws.length ≤ 8 ∧ ∀ o ∈ ws, ∃ c, o = some c ∧ c.wf = true := by
  simp only [Instr.wf, Bool.and_eq_true, decide_eq_true_eq, List.all_eq_true] at h
  obtain ⟨⟨hmin, hmax⟩, hall⟩ := h
  refine ⟨hmin, hmax, fun o ho => ?_⟩
  match o, hall o ho with
  | some c, hc => exact ⟨c, rfl, hc⟩

/-- A chain's header counts the words that follow it, and they decode back. -/
theorem decodeVe_vchain {m : Rnd} {obj : BitVec 16} {ws : List (Option ChainWord)} (h : Instr.wf (.vchain m obj ws) = true)
    (rest : List Half) : decodeVe (packVC (BitVec.ofNat 3 (ws.length - 1)) obj (BitVec.ofBool m.sat ++ m.rm.code ++ 0#2))
      (chainWords ws ++ rest) = .ok (.vchain m obj ws) (ws.length + 1) := by
  obtain ⟨hmin, hmax, hall⟩ := wf_vchain h
  have hcount : (ws.length - 1) % 8 + 1 = ws.length := by omega
  have hlen : (chainWords ws).length = ws.length := by simp [chainWords]
  have htake : (chainWords ws ++ rest).take ws.length = chainWords ws := List.take_left' hlen
  simp [decodeVe, decodeChain, isDep, getElem_eq_extractLsb', hcount, hlen, htake, chainWords_decode hall]

/-- A DEP decodes back before a word that is not one. -/
theorem decodeVe_dep (t0 t1 t2 : Option (Eng × BitVec 8)) {r : Half} (rest : List Half) (h : isDep r = false) :
    decodeVe (packDep (depBits t0) (depBits t1) (depBits t2)) (r :: rest) = .ok (.dep t0 t1 t2) 1 := by
  have hdep : isDep (packDep (depBits t0) (depBits t1) (depBits t2)) = true := by simp [isDep]
  simp [decodeVe, decodeDep, hdep, h]

/-- The words of a VE instruction, or of a DEP before a word that is not one, decode back. -/
theorem decodeVe_encode {i : Instr} (hve : i.stream = some .ve) (hwf : i.wf = true) (rest : List Half)
    (hdep : (∃ t0 t1 t2, i = .dep t0 t1 t2) → ∃ w l, rest = w :: l ∧ isDep w = false) :
    decodeStream (some .ve) (encode i ++ rest) = .ok i (encode i).length := by
  cases i with
  | vadd | vsub | vmul | vfma | vfms | vnfma | vmin | vmax | vabs | vneg | vamax | vdot | vexp2 | vlog2 | vrcp | vrsq | vsqrt | vdiv | vtanh
  | vsig | vscl | vqnt =>
    exact decodeStream_engine rfl (decodeVe_rounded (by decide) ..)
  | vcvt m vd va f k =>
    refine decodeStream_engine rfl ((decodeVe_rounded (by decide) ..).trans ?_)
    cases f with
    | empty => cases hwf
    | _ => rfl
  | vcvtw | vcvtn | vpack | vunpk | vred | verrf =>
    refine decodeStream_engine rfl ((decodeVe_rounded (by decide) ..).trans ?_)
    simp_all [decodeVeRounded, fmtField, Instr.wf, Decoded.ofOption]
  | vand | vor | vxor | vnot | vshl | vshr | vsra | vshlImm | vshrImm | vsraImm | vcmp | vsel | vcls | vsplat | vsplatImm | vsplatReg | vmov
  | vperm | vslide | vslideRot | vshp | vtag | vld | vst | vldx | vstx =>
    refine decodeStream_engine rfl ((decodeVe_own _ (by simp; rfl) (by decide)).trans ?_)
    simp [decodeVeOwn, fmtField, Decoded.ofOption]
  | vmsk op kd ka kb =>
    refine decodeStream_engine rfl ((decodeVe_own _ (by simp; rfl) (by decide)).trans ?_)
    cases op <;> simp_all [decodeVeOwn, MskOp.code, Instr.wf, MskOp.wf, Decoded.ofOption]
  | viota =>
    refine decodeStream_engine rfl ((decodeVe_own _ (by simp; rfl) (by decide)).trans ?_)
    simp_all [decodeVeOwn, fmtField, Instr.wf, Decoded.ofOption]
  | vchain m obj ws =>
    exact decodeStream_engine (encode_vchain m obj ws) ((decodeVe_vchain hwf rest).trans (by simp [chainWords]))
  | dep t0 t1 t2 =>
    obtain ⟨r, l, rfl, hr⟩ := hdep ⟨t0, t1, t2, rfl⟩
    exact decodeStream_engine rfl (decodeVe_dep t0 t1 t2 l hr)
  | _ => cases hve

/-! ## ME words (R148, R253) -/

theorem decodeMe_encode {i : Instr} (hme : i.stream = some .me) (hwf : i.wf = true) (rest : List Half) :
    decodeStream (some .me) (encode i ++ rest) = .ok i (encode i).length := by
  cases i with
  | mldw | mldwt | mgo | mgob | msgo | mnorm | mdrain | mdrainx | mrda | mzero | mvar | mstat | mmode =>
    exact decodeStream_engine rfl (by simp [decodeEngine, decodeMe, isDep, getElem_eq_extractLsb', Decoded.ofOption])
  | mgath | msp =>
    exact decodeStream_engine rfl (by simp_all [decodeEngine, decodeMe, isDep, getElem_eq_extractLsb', Instr.wf, or_assoc, Decoded.ofOption])
  | msamp | malias | mdraina =>
    exact decodeStream_engine rfl (by simp [decodeEngine, decodeMe, isDep, getElem_eq_extractLsb', withExt])
  | _ => cases hme

/-! ## TU words (R148, R327) -/

theorem decodeTu_encode {i : Instr} (htu : i.stream = some .tu) (rest : List Half) :
    decodeStream (some .tu) (encode i ++ rest) = .ok i (encode i).length := by
  cases i with
  | cpy | cpyh | pfch | pfchMap | evct | evctUnmap | ctrb | ctrbXa | rdyw =>
    exact decodeStream_engine rfl (by simp [decodeEngine, decodeTu, isDep, getElem_eq_extractLsb', Decoded.ofOption])
  | cpys | cpyd | cpyt | cpyp | chld =>
    exact decodeStream_engine rfl (by simp [decodeEngine, decodeTu, isDep, getElem_eq_extractLsb', withExt])
  | _ => cases htu

/-! ## The statements on words -/

/-- Settles O57: the instruction's stream says which of the four maps reads its words, and each gives it back. -/
theorem decodeEncode : Obligations.DecodeEncode := by
  unfold Obligations.DecodeEncode
  intro i rest hwf hev hrow hdep
  match hs : i.stream with
  | none => exact decodeStream_sq (by rw [hev, hs]) hwf hrow rest
  | some .ve => exact decodeVe_encode hs hwf rest hdep
  | some .me => exact decodeMe_encode hs hwf rest
  | some .tu => exact decodeTu_encode hs rest

/-- Settles O56: each word is evaluated in its own stream's map. -/
theorem decodeWords : Obligations.DecodeWords := by
  unfold Obligations.DecodeWords
  exact ⟨rfl, rfl, rfl, rfl, rfl, rfl, rfl, rfl⟩

end Sys2Proof

namespace Sys2Proof.Machine

/-! ## Writes of registers and predicates (R138, R162, R294) -/

/-- A word with one source register meets that register's mark; a0 carries none. -/
theorem Ctx.marked_singleton (x : Ctx) (r : Reg) : x.marked [r] = if r = 0 then none else Tab.find x.apois r.toNat := by
  simp only [Ctx.marked]
  split
  · rfl
  · cases Tab.find x.apois r.toNat <;> rfl

theorem Ctx.find_apois_setReg (x : Ctx) (d : Reg) {r : Reg} (v : Word) (hr : r ≠ 0) :
    Tab.find (x.setReg d v).apois r.toNat = if r = d then none else Tab.find x.apois r.toNat := by
  unfold Ctx.setReg
  split
  next hd => rw [if_neg (hd ▸ hr)]
  next => simp only [Tab.find_del, BitVec.toNat_inj, eq_comm (a := d)]

/-- A write clears the mark of its register; a0 has none to clear. -/
theorem Ctx.marked_setReg (x : Ctx) (d r : Reg) (v : Word) : (x.setReg d v).marked [r] = if r = d then none else x.marked [r] := by
  rw [Ctx.marked_singleton, Ctx.marked_singleton]
  by_cases hr : r = 0
  · simp only [if_pos hr, ite_self]
  · simp only [if_neg hr, Ctx.find_apois_setReg x d v hr]

theorem Ctx.setReg_frame (x : Ctx) (d : Reg) (v : Word) : { x.setReg d v with a := x.a, apois := x.apois } = x := by
  unfold Ctx.setReg
  split <;> rfl

theorem Ctx.setPred_frame (x : Ctx) (pd : Pred) (w : Bool) : { x.setPred pd w with p := x.p } = x := by
  unfold Ctx.setPred
  split <;> rfl

/-- Settles O3: a read after a write is the laws' reg_setReg and pred_setPred, and the frames say what else keeps its value. -/
theorem registerWrites : Obligations.RegisterWrites := by
  unfold Obligations.RegisterWrites
  intro x d r pd p v w
  refine ⟨?_, x.marked_setReg d r v, x.setReg_frame d v, ?_, x.setPred_frame pd w, x.step_pc, rfl⟩
  · by_cases hr : r = 0#5
    · simp [hr, Ctx.reg]
    · simp [Ctx.reg_setReg, hr, eq_comm (a := d)]
  · by_cases hp : p = 0#3
    · simp [hp, Ctx.pred]
    · simp [Ctx.pred_setPred, hp, eq_comm (a := pd)]

end Sys2Proof.Machine

/-! SUPPORT. The family of the scalar words: values, predicates, transfers of control, software traps, system words and control registers of
the SQ. -/

namespace Sys2Proof.Machine

/-! ## Values of the integer group (R176) -/

/-- A word that computes value v for register d writes it there. -/
theorem SqAt.writes {s : State} {c k : Nat} {x : Ctx} {g : Pred} {srcs : List Reg} (h : SqAt s c k x g srcs) {d : Reg} {f : Ctx → Word} {v : Word}
    (hv : f x = v) : sqValue g srcs d f s = regResult s c k x d v := hv ▸ sqValue_at h d f

theorem mul_eq_low (a b : Word) : a * b = (a.setWidth 128 * b.setWidth 128).extractLsb' 0 64 := by
  rw [← BitVec.setWidth_eq_extractLsb' (by decide), BitVec.setWidth_mul _ _ (by decide)]
  simp

/-- The high half of an integer taken to 128 bits. -/
theorem ofInt_div_eq_high (p : Int) : BitVec.ofInt 64 (p / 2 ^ 64) = (BitVec.ofInt 128 p).extractLsb' 64 64 := by
  apply BitVec.eq_of_toNat_eq
  rw [BitVec.toNat_ofInt, BitVec.extractLsb'_toNat, BitVec.toNat_ofInt, Nat.shiftRight_eq_div_pow]
  omega

theorem mulHigh_eq (a b : Word) : mulHigh a b = (a.signExtend 128 * b.signExtend 128).extractLsb' 64 64 := by
  have hext : ∀ v : Word, v.signExtend 128 = BitVec.ofInt 128 v.toInt := fun _ => rfl
  rw [mulHigh, ofInt_div_eq_high, BitVec.ofInt_mul, ← hext, ← hext]

theorem mulHighN_eq (a b : Word) : mulHighN a b = (a.setWidth 128 * b.setWidth 128).extractLsb' 64 64 := by
  have hext : ∀ v : Word, v.setWidth 128 = BitVec.ofInt 128 v.toNat := fun v =>
    (BitVec.ofNat_toNat 128 v).symm.trans (BitVec.ofInt_natCast 128 v.toNat).symm
  rw [hext, hext, ← BitVec.ofInt_mul, ← ofInt_div_eq_high, mulHighN, ← BitVec.ofInt_natCast, Int.natCast_ediv, Int.natCast_mul, Int.natCast_pow]
  rfl

theorem shiftLeft_eq_mul_ofNat (b : Word) (n : Nat) : b <<< n = b * BitVec.ofNat 64 (2 ^ n) := by
  have hpow : BitVec.ofNat 64 (2 ^ n) = BitVec.twoPow 64 n :=
    BitVec.eq_of_toNat_eq ((BitVec.toNat_ofNat _ _).trans (BitVec.toNat_twoPow 64 n).symm)
  rw [hpow, BitVec.shiftLeft_eq_mul_twoPow]

theorem min_eq (a b : Word) : (if b.toInt < a.toInt then b else a) = if a.sle b then a else b := by
  rcases Int.lt_or_le b.toInt a.toInt with h | h
  · rw [if_pos h, if_neg (mt BitVec.sle_iff_toInt_le.mp (Int.not_le.mpr h))]
  · rw [if_neg (Int.not_lt.mpr h), if_pos (BitVec.sle_iff_toInt_le.mpr h)]

theorem max_eq (a b : Word) : (if a.toInt < b.toInt then b else a) = if a.sle b then b else a := by
  rcases Int.lt_trichotomy a.toInt b.toInt with h | h | h
  · rw [if_pos h, if_pos (BitVec.sle_iff_toInt_le.mpr (Int.le_of_lt h))]
  · rw [BitVec.eq_of_toInt_eq h, ite_self, ite_self]
  · rw [if_neg (Int.not_lt.mpr (Int.le_of_lt h)), if_neg (mt BitVec.sle_iff_toInt_le.mp (Int.not_le.mpr h))]

theorem minn_eq (a b : Word) : (if b.toNat < a.toNat then b else a) = if a ≤ b then a else b := by
  rcases Nat.lt_or_ge b.toNat a.toNat with h | h
  · rw [if_pos h, if_neg (mt BitVec.le_def.mp (Nat.not_le.mpr h))]
  · rw [if_neg (Nat.not_lt.mpr h), if_pos (BitVec.le_def.mpr h)]

theorem maxn_eq (a b : Word) : (if a.toNat < b.toNat then b else a) = if a ≤ b then b else a := by
  rcases Nat.lt_trichotomy a.toNat b.toNat with h | h | h
  · rw [if_pos h, if_pos (BitVec.le_def.mpr (Nat.le_of_lt h))]
  · rw [BitVec.eq_of_toNat_eq h, ite_self, ite_self]
  · rw [if_neg (Nat.not_lt.mpr (Nat.le_of_lt h)), if_neg (mt BitVec.le_def.mp (Nat.not_le.mpr h))]

/-! ## Counts of bits and extensions (R176) -/

/-- The count of leading zeros among the low n bits: those above it are zero, and the next one, if there is one, is not. -/
theorem leadZeros_spec (a : Word) (n : Nat) : leadZeros a n ≤ n ∧ (∀ i, i < leadZeros a n → a.getLsbD (n - 1 - i) = false) ∧
    (leadZeros a n < n → a.getLsbD (n - 1 - leadZeros a n) = true) := by
  induction n with
  | zero => simp [leadZeros]
  | succ n ih =>
    obtain ⟨hle, hzero, hone⟩ := ih
    rw [leadZeros]
    split
    case isTrue h => exact ⟨Nat.zero_le _, fun _ hi => absurd hi (Nat.not_lt_zero _), fun _ => h⟩
    case isFalse h =>
      refine ⟨Nat.succ_le_succ hle, fun i hi => ?_, fun hlt => ?_⟩
      · cases i with
        | zero => exact Bool.eq_false_iff.mpr h
        | succ i => simpa [Nat.sub_add_eq, Nat.sub_right_comm] using hzero i (Nat.lt_of_succ_lt_succ hi)
      · simpa [Nat.sub_add_eq, Nat.sub_right_comm] using hone (Nat.lt_of_succ_lt_succ hlt)

/-- The count of trailing zeros of the bits from 64 - n on. -/
theorem trailZeros_spec (a : Word) {n : Nat} (hn : n ≤ 64) : trailZeros a n ≤ n ∧
    (∀ i, i < trailZeros a n → a.getLsbD (64 - n + i) = false) ∧ (trailZeros a n < n → a.getLsbD (64 - n + trailZeros a n) = true) := by
  induction n with
  | zero => simp [trailZeros]
  | succ n ih =>
    obtain ⟨hle, hzero, hone⟩ := ih (Nat.le_of_succ_le hn)
    have hfirst : 64 - (n + 1) = 63 - n := by omega
    have hnext : ∀ i, 63 - n + (i + 1) = 64 - n + i := by omega
    rw [trailZeros, hfirst]
    split
    case isTrue h => exact ⟨Nat.zero_le _, fun _ hi => absurd hi (Nat.not_lt_zero _), fun _ => h⟩
    case isFalse h =>
      refine ⟨Nat.succ_le_succ hle, fun i hi => ?_, fun hlt => ?_⟩
      · cases i with
        | zero => exact Bool.eq_false_iff.mpr h
        | succ i => exact hnext i ▸ hzero i (Nat.lt_of_succ_lt_succ hi)
      · exact hnext _ ▸ hone (Nat.lt_of_succ_lt_succ hlt)

theorem popCount_eq (a : Word) (n : Nat) : popCount a n = ((List.range n).filter fun i => a.getLsbD i).length := by
  induction n with
  | zero => rfl
  | succ n ih =>
    rw [popCount, ih, List.range_succ, List.filter_append, List.length_append]
    cases h : a.getLsbD n <;> simp [one, h]

theorem toInt_sext_setWidth (a : Word) {n : Nat} (hn : n ≤ 64) : (sext (a.setWidth n)).toInt = a.toInt.bmod (2 ^ n) := by
  rw [sext, BitVec.toInt_signExtend_of_le hn, BitVec.toInt_setWidth, BitVec.toInt_eq_toNat_bmod, Int.bmod_bmod_of_dvd (Nat.pow_dvd_pow 2 hn)]

theorem toNat_zext_setWidth (a : Word) {n : Nat} (hn : n ≤ 64) : (zext (a.setWidth n)).toNat = a.toNat % 2 ^ n := by
  rw [zext, BitVec.toNat_setWidth_of_le hn, BitVec.toNat_setWidth]

/-! ## Divisions (R177) -/

theorem divide_zero (signed : Bool) (a : Word) : divide signed a 0 = (BitVec.allOnes 64, a) := rfl

/-- The one overflow, in numbers. -/
theorem overflow_iff (a b : Word) : (a = BitVec.ofNat 64 (2 ^ 63) ∧ b = BitVec.allOnes 64) ↔ (a.toInt = -2 ^ 63 ∧ b.toInt = -1) := by
  rw [← BitVec.toInt_inj, ← BitVec.toInt_inj]
  rfl

theorem divide_overflow {a b : Word} (ha : a.toInt = -2 ^ 63) (hb : b.toInt = -1) : divide true a b = (a, 0) := by
  obtain ⟨rfl, rfl⟩ := (overflow_iff a b).mpr ⟨ha, hb⟩
  rfl

theorem divide_signed {a b : Word} (hb : b ≠ 0) (ho : ¬ (a.toInt = -2 ^ 63 ∧ b.toInt = -1)) :
    (divide true a b).1.toInt = a.toInt.tdiv b.toInt ∧ (divide true a b).2.toInt = a.toInt.tmod b.toInt := by
  have hne : a ≠ BitVec.intMin 64 ∨ b ≠ -1#64 := by
    rw [← overflow_iff] at ho
    exact Decidable.not_and_iff_not_or_not.mp ho
  rw [divide, if_neg hb, if_pos rfl, if_neg (mt (overflow_iff a b).mp ho), ← BitVec.toInt_sdiv_of_ne_or_ne _ _ hne, ← BitVec.toInt_srem,
    BitVec.ofInt_toInt, BitVec.ofInt_toInt]
  exact ⟨rfl, rfl⟩

theorem divide_unsigned {a b : Word} (hb : b ≠ 0) :
    (divide false a b).1.toNat = a.toNat / b.toNat ∧ (divide false a b).2.toNat = a.toNat % b.toNat := by
  rw [divide, if_neg hb, if_neg Bool.false_ne_true, BitVec.toNat_ofNat, BitVec.toNat_ofNat]
  exact ⟨Nat.mod_eq_of_lt (Nat.lt_of_le_of_lt (Nat.div_le_self _ _) a.isLt), Nat.mod_eq_of_lt (Nat.lt_of_le_of_lt (Nat.mod_le _ _) a.isLt)⟩

/-! ## Shifts by any count (R178) -/

theorem getLsbD_shiftLeft (a : Word) (n : Nat) {i : Nat} (hi : i < 64) :
    (shiftLeft a n).getLsbD i = (decide (n ≤ i) && a.getLsbD (i - n)) := by
  unfold shiftLeft
  split
  case isTrue h => simp [show ¬ n ≤ i by omega]
  case isFalse h => simp only [BitVec.getLsbD_shiftLeft, hi, decide_true, Bool.true_and, ← decide_not, Nat.not_lt]

theorem getLsbD_shiftRight (a : Word) (n i : Nat) : (shiftRight a n).getLsbD i = a.getLsbD (i + n) := by
  unfold shiftRight
  split
  case isTrue h => simp [BitVec.getLsbD_of_ge a (i + n) (by omega)]
  case isFalse h => rw [BitVec.getLsbD_ushiftRight, Nat.add_comm]

theorem getLsbD_shiftArith (a : Word) (n : Nat) {i : Nat} (hi : i < 64) : (shiftArith a n).getLsbD i = a.getLsbD (min 63 (i + n)) := by
  rw [shiftArith, BitVec.getLsbD_sshiftRight]
  by_cases h : i + n < 64
  · simp [show ¬ 64 ≤ i by omega, show min n 64 + i < 64 by omega, show min 63 (i + n) = min n 64 + i by omega]
  · simp [show ¬ 64 ≤ i by omega, show ¬ min n 64 + i < 64 by omega, show min 63 (i + n) = 63 by omega, BitVec.msb_eq_getLsbD_last]

/-- Settles O1: each word is run once, and what its value is the lemmas above say. -/
theorem scalarValues : Obligations.ScalarValues := by
  unfold Obligations.ScalarValues
  refine ⟨fun s c k x g d a b h => ?arithmetic, fun s c k x g d a h => ?counts, fun s c k x g d a b h => ?divisions,
    fun s c k x g d a => ⟨fun b h => ?shifts, fun n h => ?immediateShifts⟩⟩
  case arithmetic =>
    exact ⟨h.writes rfl, h.writes rfl, h.writes (mul_eq_low _ _), h.writes (mulHigh_eq _ _), h.writes (mulHighN_eq _ _), h.writes rfl,
      h.writes rfl, h.writes rfl, h.writes (min_eq _ _), h.writes (max_eq _ _), h.writes (minn_eq _ _), h.writes (maxn_eq _ _),
      fun sh => h.writes (congrArg _ (shiftLeft_eq_mul_ofNat ..)), fun p => h.writes rfl⟩
  case counts =>
    have hlead := leadZeros_spec (x.reg a) 64
    have htrail := trailZeros_spec (x.reg a) (Nat.le_refl 64)
    have hcount : ∀ m, m ≤ 64 → (BitVec.ofNat 64 m).toNat = m := fun m hm =>
      (BitVec.toNat_ofNat m 64).trans (Nat.mod_eq_of_lt (Nat.lt_of_le_of_lt hm (by decide)))
    refine ⟨⟨_, h.writes rfl, ?_⟩, ⟨_, h.writes rfl, ?_⟩, h.writes (congrArg _ (popCount_eq _ 64)),
      ⟨_, h.writes rfl, toInt_sext_setWidth _ (by decide)⟩, ⟨_, h.writes rfl, toInt_sext_setWidth _ (by decide)⟩,
      ⟨_, h.writes rfl, toInt_sext_setWidth _ (by decide)⟩, ⟨_, h.writes rfl, toNat_zext_setWidth _ (by decide)⟩,
      ⟨_, h.writes rfl, toNat_zext_setWidth _ (by decide)⟩, ⟨_, h.writes rfl, toNat_zext_setWidth _ (by decide)⟩⟩
    · rw [hcount _ hlead.1]
      exact hlead
    · rw [hcount _ htrail.1]
      simpa using htrail
  case divisions =>
    refine ⟨_, _, _, _, h.writes rfl, h.writes rfl, h.writes rfl, h.writes rfl, fun hb => ?_, fun ha hb => ?_, fun hb ho => ?_, fun hb => ?_⟩
    · rw [hb, divide_zero, divide_zero]
      exact ⟨rfl, rfl, rfl, rfl⟩
    · rw [divide_overflow ha hb]
      exact ⟨ha, rfl⟩
    · exact divide_signed hb ho
    · exact divide_unsigned hb
  case shifts =>
    exact ⟨⟨_, h.writes rfl, fun i hi => getLsbD_shiftLeft _ _ hi⟩, ⟨_, h.writes rfl, fun i _ => getLsbD_shiftRight _ _ i⟩,
      ⟨_, h.writes rfl, fun i hi => getLsbD_shiftArith _ _ hi⟩⟩
  case immediateShifts =>
    exact ⟨⟨_, h.writes rfl, fun i hi => getLsbD_shiftLeft _ _ hi⟩, ⟨_, h.writes rfl, fun i _ => getLsbD_shiftRight _ _ i⟩,
      ⟨_, h.writes rfl, fun i hi => getLsbD_shiftArith _ _ hi⟩⟩

/-! ## Immediates, comparisons and predicate logic (R179 to R182) -/

/-- A word that computes v for predicate pd writes it there. -/
theorem SqAt.writesPred {s : State} {c k : Nat} {x : Ctx} {g : Pred} {srcs : List Reg} (h : SqAt s c k x g srcs) {pd : Pred} {f : Ctx → Bool}
    {v : Bool} (hv : f x = v) : sqPred g srcs pd f s = predResult s c k x pd v := hv ▸ sqPred_at h pd f

theorem zext_eq_ofNat {n : Nat} (v : BitVec n) : zext v = BitVec.ofNat 64 v.toNat := (BitVec.ofNat_toNat 64 v).symm

theorem toInt_sext {n : Nat} (v : BitVec n) (hn : n ≤ 64) : (sext v).toInt = v.toInt := BitVec.toInt_signExtend_of_le hn

/-- SETHI puts its immediate above the low 46 bits. -/
theorem append_low46_eq (j : BitVec 18) (v : Word) : j ++ v.extractLsb' 0 46 = BitVec.ofNat 64 (j.toNat * 2 ^ 46 + v.toNat % 2 ^ 46) := by
  have hlow : v.toNat % 2 ^ 46 < 2 ^ 46 := Nat.mod_lt _ (by decide)
  apply BitVec.eq_of_toNat_eq
  rw [BitVec.toNat_append, BitVec.extractLsb'_toNat, BitVec.toNat_ofNat, Nat.shiftRight_zero, ← Nat.shiftLeft_add_eq_or_of_lt hlow,
    Nat.shiftLeft_eq]
  omega

/-- Settles O2: ORI, XORI and SETHI by what their immediates are as numbers, CMPEQI by the order of signed values. -/
theorem immediatesAndPredicates : Obligations.ImmediatesAndPredicates := by
  unfold Obligations.ImmediatesAndPredicates
  refine ⟨fun s c k x g d a imm j => ⟨fun h => ?immediates, fun h => h.writes rfl, fun h => h.writes (append_low46_eq _ _)⟩,
    fun s c k x g pd pa pb a b imm => ⟨fun h => ?comparisons, fun h => ?immediateComparisons, fun h => ?logic⟩⟩
  case immediates =>
    exact ⟨h.writes rfl, h.writes rfl, h.writes (congrArg _ (zext_eq_ofNat imm)), h.writes (congrArg _ (zext_eq_ofNat imm))⟩
  case comparisons =>
    exact ⟨h.writesPred rfl, h.writesPred decide_not.symm, h.writesPred rfl, h.writesPred rfl, h.writesPred rfl, h.writesPred rfl⟩
  case immediateComparisons =>
    refine ⟨h.writesPred ?_, h.writesPred ?_⟩
    · simp only [← toInt_sext imm (by decide), BitVec.toInt_inj]
      rfl
    · rw [toInt_sext imm (by decide)]
  case logic =>
    exact ⟨h.writesPred rfl, h.writesPred rfl, h.writesPred decide_not.symm, h.writesPred rfl⟩

/-! ## Words that do not execute (R174, R294, R459) -/

theorem SqTurn.sqTurn {s : State} {c k : Nat} {x : Ctx} (h : SqTurn s c k x) : s.sqTurn = some (c, k, x) := by
  simp [State.sqTurn, h.turn, h.ctx, h.life]

theorem sqRun_skipped {s : State} {c k : Nat} {x : Ctx} {g : Pred} (h : SqTurn s c k x) (hg : x.pred g = false) (srcs : List Reg)
    (body : Nat → Nat → Ctx → State) : sqRun g srcs s body = .next (s.setCtx c k x.step) := by
  simp [sqRun, h.sqTurn, hg]

theorem sqRun_marked {s : State} {c k : Nat} {x : Ctx} {g : Pred} {srcs : List Reg} {v : Word} (h : SqTurn s c k x) (hg : x.pred g = true)
    (hm : x.marked srcs = some v) (body : Nat → Nat → Ctx → State) : sqRun g srcs s body = .next (s.abort c k ⟨10, v⟩) := by
  simp [sqRun, h.sqTurn, hg, hm]

/-- Every word with a guard runs in the common course, with the sources that R294 lets it meet. -/
theorem exec_eq_sqRun {i : Instr} {g : Pred} (h : guardOf i = some g) (s : State) : ∃ body, exec i s = sqRun g (sourcesOf i) s body := by
  cases i <;> cases h <;> exact ⟨_, rfl⟩

/-! ## Aborts (R456) -/

/-- A slot that the sequencer has left is not the one that it runs. -/
theorem left_ne_some (a : Option Nat) (k : Nat) : (if a = some k then none else a) ≠ some k := by
  split
  · exact nofun
  · assumption

/-- What is left of a context in the chains once its waiting entries are gone has started. -/
theorem Core.mem_chain_dropWaiting {r : Core} {k : Nat} {e : Eng} {n : Entry} (h : n ∈ (r.dropWaiting k).chain e) (hk : n.slot = k) :
    n.started = true ∨ n.resume = true := by
  cases e
  case tu => simp [Core.dropWaiting, Core.chain, hk] at h
  all_goals
    simp only [Core.dropWaiting, Core.chain, List.mem_filter, hk, bne_self_eq_false, Bool.false_or, Bool.and_eq_true, Bool.or_eq_true] at h
    exact h.2.1

/-- State t is s once the task of context x in slot k of core c has aborted with a cause: it issues no further word, its waiting entries are
gone, and nothing else has changed. -/
structure State.Aborted (s t : State) (c k : Nat) (x : Ctx) (w : Cause) : Prop where
  ctx : t.ctx? c k = some { x with life := .aborting w }
  left : (t.core c).active ≠ some k
  entries : ∀ e, ∀ n ∈ (t.core c).chain e, n.slot = k → n.started = true ∨ n.resume = true
  others : ∀ d j, (d, j) ≠ (c, k) → t.ctx? d j = s.ctx? d j
  frame : { t with cores := s.cores } = s

theorem State.abort_aborted {s : State} {c k : Nat} {x : Ctx} (hx : s.ctx? c k = some x) (hl : x.life = .running) (w : Cause) :
    s.Aborted (s.abort c k w) c k x w := by
  have habort : s.abort c k w = (s.setCtx c k { x with life := .aborting w }).updCore c fun r =>
      { r.dropWaiting k with active := if r.active = some k then none else r.active } := by
    simp only [State.abort, hx, hl]
  refine ⟨State.ctx?_abort hx (fun o => hl ▸ Life.noConfusion) w, ?_, ?_, ?_, ?_⟩ <;> rw [habort]
  · rw [State.core_updCore_self]
    exact left_ne_some _ k
  · rw [State.core_updCore_self]
    exact fun _ _ => Core.mem_chain_dropWaiting
  · intro d j hne
    rw [State.ctx?_updCore _ _ _ _ _ rfl, State.ctx?_setCtx, if_neg]
    rintro ⟨rfl, rfl⟩
    exact hne rfl
  · rfl

/-- Settles O4: every guarded word takes the common course, which skips it or aborts its task before its body is met. -/
theorem wordsThatDoNotExecute : Obligations.WordsThatDoNotExecute := by
  unfold Obligations.WordsThatDoNotExecute
  refine ⟨fun i g s c k x hi h hg => ?_, fun i g s c k x v hi h hg hm => ?_⟩ <;> obtain ⟨body, he⟩ := exec_eq_sqRun hi s
  · exact he.trans (sqRun_skipped h hg _ body)
  · obtain ⟨hctx, hleft, hentries, hothers, hframe⟩ := State.abort_aborted h.ctx h.life ⟨10, v⟩
    exact ⟨_, he.trans (sqRun_marked h hg hm body), hctx, hleft, hentries, hothers, hframe⟩

/-! ## Precise traps (R194) -/

/-- Context x after the entry of its handler at its own word, in a given cycle of its core, with a cause code and a value. -/
def Ctx.trapped (x : Ctx) (cyc : Word) (code : Nat) (v : Word) : Ctx :=
  { x with
    epc := x.pc
    trapc := BitVec.ofBool false ++ BitVec.ofBool false ++ BitVec.ofNat 30 code
    trapv := v
    inh := true
    chkpt := code == 12
    entered := cyc
    asks := []
    got := []
    writing := none
    pc := x.tvec.setWidth 32 }

theorem State.trap_ready {s : State} {c k : Nat} {x : Ctx} (hx : s.ctx? c k = some x) (hh : s.handlerReady c x) (code : Nat) (v : Word) :
    s.trap c k code v = s.setCtx c k (x.trapped (s.core c).cyc code v) := by
  obtain ⟨hinh, hvalid, htarget⟩ := hh
  rw [State.trap_of_some hx, State.takeTrap_handler hx hinh hvalid htarget]
  rfl

/-! ## Transfers of control (R183 to R187) -/

theorem State.validTarget_iff (s : State) (c : Nat) (x : Ctx) (t : Int) : s.validTarget c x t = true ↔ 0 ≤ t ∧ t < (s.sqWords c x).length := by
  simp [State.validTarget]

theorem State.validTarget_eq_false {s : State} {c : Nat} {x : Ctx} {t : Int} (h : t < 0 ∨ ((s.sqWords c x).length : Int) ≤ t) :
    s.validTarget c x t = false := by
  rw [Bool.eq_false_iff, Ne, State.validTarget_iff]
  omega

theorem jumpTo_inside {s : State} {c : Nat} {x : Ctx} {t : Int} (ht : 0 ≤ t ∧ t < (s.sqWords c x).length) (k : Nat) (f : Ctx → Ctx) :
    jumpTo s c k x t f = s.setCtx c k { f x with pc := BitVec.ofInt 32 t } := if_pos ((s.validTarget_iff c x t).mpr ht)

/-- A transfer that would leave the program raises ILLOP with its target. -/
theorem jumpTo_outside {s : State} {c k : Nat} {x : Ctx} (hx : s.ctx? c k = some x) (hh : s.handlerReady c x) {t : Int}
    (ht : t < 0 ∨ ((s.sqWords c x).length : Int) ≤ t) (f : Ctx → Ctx) :
    jumpTo s c k x t f = s.setCtx c k (x.trapped (s.core c).cyc 1 (BitVec.ofInt 64 t)) := by
  rw [jumpTo, if_neg (Bool.eq_false_iff.mp (State.validTarget_eq_false ht))]
  exact State.trap_ready hx hh 1 _

/-- The offset of a target in a register. -/
theorem ofInt_toNat_eq_setWidth (v : Word) : BitVec.ofInt 32 v.toNat = v.setWidth 32 := (BitVec.ofInt_natCast 32 _).trans (BitVec.ofNat_toNat 32 v)

section Transfers

variable {s : State} {c k : Nat} {x : Ctx} {g p : Pred} {neg : Bool} {d : Reg}

theorem exec_br_taken (h : SqAt s c k x 0 []) (hp : x.pred p ≠ neg) (off : BitVec 22) :
    exec (.br p neg off) s = .next (jumpTo s c k x (x.pc.toNat + off.toInt) id) :=
  (sqRun_at h _).trans (congrArg _ (if_pos (bne_iff_ne.mpr hp)))

theorem exec_call_taken (h : SqAt s c k x 0 []) (hp : x.pred p ≠ neg) (off : BitVec 22) : exec (.call p neg off) s =
    .next (jumpTo s c k x (x.pc.toNat + off.toInt) fun y => y.setReg 31 (BitVec.ofNat 64 (x.pc.toNat + 1))) :=
  (sqRun_at h _).trans (congrArg _ (if_pos (bne_iff_ne.mpr hp)))

theorem exec_sb_untaken (h : SqAt s c k x 0 []) (hp : x.pred p = neg) (off : BitVec 22) :
    exec (.br p neg off) s = ctxResult s c k x.step ∧ exec (.call p neg off) s = ctxResult s c k x.step := by
  have hn : ¬ taken x p neg = true := fun ht => bne_iff_ne.mp ht hp
  exact ⟨(sqRun_at h _).trans (congrArg _ (if_neg hn)), (sqRun_at h _).trans (congrArg _ (if_neg hn))⟩

/-- LOOP counts down while its register is above 1. -/
theorem exec_loop_again (h : SqAt s c k x g [d]) (hd : 1 < (x.reg d).toNat) (imm : BitVec 13) :
    exec (.loop d imm g) s = .next (jumpTo s c k x (x.pc.toNat + imm.toInt) fun y => y.setReg d (x.reg d - 1)) := by
  have h0 : x.reg d ≠ 0 := fun e => by simp [e] at hd
  have h1 : x.reg d ≠ 1 := fun e => by simp [e] at hd
  exact (sqRun_at h _).trans (congrArg _ ((if_neg h0).trans (if_neg h1)))

theorem exec_loop_zero (h : SqAt s c k x g [d]) (hd : x.reg d = 0) (imm : BitVec 13) : exec (.loop d imm g) s = ctxResult s c k x.step :=
  (sqRun_at h _).trans (congrArg _ (if_pos hd))

theorem exec_loop_one (h : SqAt s c k x g [d]) (hd : x.reg d = 1) (imm : BitVec 13) : exec (.loop d imm g) s = regResult s c k x d 0 := by
  have h0 : x.reg d ≠ 0 := fun e => by simp [e] at hd
  exact (sqRun_at h _).trans (congrArg _ ((if_neg h0).trans (if_pos hd)))

end Transfers

/-- Settles O5: each transfer is a jump to its target, which the target's place in the program decides. -/
theorem transfersOfControl : Obligations.TransfersOfControl := by
  unfold Obligations.TransfersOfControl
  refine ⟨fun s c k x g p neg a d off imm => ?inside, fun s c k x g p neg a d off imm hh => ?outside⟩
  case inside =>
    intro goes far near
    have hregister : ∀ {r : Reg}, goes (x.reg r).toNat →
        jumpTo s c k x (x.reg r).toNat id = s.setCtx c k { x with pc := (x.reg r).setWidth 32 } := by
      intro r ht
      rw [jumpTo_inside ht, ofInt_toNat_eq_setWidth]
      rfl
    refine ⟨fun h hp ht => ⟨?_, ?_⟩, fun h hp => exec_sb_untaken h hp off, fun h ht => ?_, fun h ht => ?_,
      fun h hd => exec_loop_zero h hd imm, fun h hd => exec_loop_one h hd imm, fun h hd ht => ?_⟩
    · exact (exec_br_taken h hp off).trans (congrArg _ (jumpTo_inside ht ..))
    · exact (exec_call_taken h hp off).trans (congrArg _ (jumpTo_inside ht ..))
    · exact (sqRun_at h _).trans (congrArg _ (hregister ht))
    · exact (sqRun_at h _).trans (congrArg _ (hregister ht))
    · exact (exec_loop_again h hd imm).trans (congrArg _ (jumpTo_inside ht ..))
  case outside =>
    intro leaves trapped far near
    have hleaves : ∀ {g' : Pred} {srcs : List Reg}, SqAt s c k x g' srcs → ∀ {t : Int}, leaves t → ∀ {f : Ctx → Ctx} {o : Out},
        o = .next (jumpTo s c k x t f) → trapped o t := by
      rintro g' srcs h t ht f o rfl
      exact ⟨_, congrArg _ (jumpTo_outside h.ctx hh ht f), rfl, rfl, rfl, rfl, rfl, h.life, rfl, rfl⟩
    exact ⟨fun h hp ht => ⟨hleaves h ht (exec_br_taken h hp off), hleaves h ht (exec_call_taken h hp off)⟩,
      fun h ht => hleaves h ht (sqRun_at h _), fun h ht => hleaves h ht (sqRun_at h _), fun h hd ht => hleaves h ht (exec_loop_again h hd imm)⟩

/-! ## Software traps and the return from the handler (R194 to R197) -/

/-- A context without a handler to enter: it is inside it, or TVEC names no word of its program. -/
def State.handlerUnready (s : State) (c : Nat) (x : Ctx) : Prop :=
  x.inh = true ∨ x.tvec.getLsbD 63 = false ∨ (s.sqWords c x).length ≤ (x.tvec.setWidth 32).toNat

/-- Without a handler the task aborts with the cause of the trap. -/
theorem State.takeTrap_unready {s : State} {c k : Nat} {x : Ctx} (hx : s.ctx? c k = some x) (hh : s.handlerUnready c x) (w : Cause)
    (sw bnd : Bool) (epc : Half) : s.takeTrap c k w sw bnd epc = s.abort c k w := by
  refine State.takeTrap_abort hx (hh.imp_right (Or.imp_right fun hlen => ?_))
  exact State.validTarget_eq_false (.inr (Int.ofNat_le.mpr hlen))

/-- Settles O6: both words complete before the trap is taken, so EPC is the next offset where there is a handler, and the task aborts where not. -/
theorem softwareTraps : Obligations.SoftwareTraps := by
  unfold Obligations.SoftwareTraps
  refine ⟨fun s c k x g n h hh => ?ready, fun s c k x g n h hh => ?unready⟩
  case ready =>
    obtain ⟨hinh, hvalid, htarget⟩ := hh
    intro entered
    have hentered : ∀ {o : Out} {code : Nat} {sw : Bool} {trapc : Half}, o = .next (s.takeTrap c k ⟨code, zext n⟩ sw false (x.pc + 1)) →
        BitVec.ofBool sw ++ BitVec.ofBool false ++ BitVec.ofNat 30 (if sw then 0 else code) = trapc → entered o trapc := by
      rintro o code sw trapc rfl htrapc
      exact ⟨_, congrArg _ (State.takeTrap_handler h.ctx hinh hvalid htarget), rfl, htrapc, zext_eq_ofNat n, rfl, rfl, h.life, rfl, rfl, rfl,
        rfl, rfl, rfl, rfl⟩
    exact ⟨hentered (sqRun_at h _) (by decide), hentered (sqRun_at h _) (by decide)⟩
  case unready =>
    intro aborted
    have haborted : ∀ {o : Out} {code : Nat} {sw : Bool}, o = .next (s.takeTrap c k ⟨code, zext n⟩ sw false (x.pc + 1)) → aborted o code := by
      rintro o code sw rfl
      obtain ⟨hctx, hleft, -, -, hframe⟩ := State.abort_aborted h.ctx h.life ⟨code, zext n⟩
      exact ⟨_, congrArg _ (State.takeTrap_unready h.ctx hh ..), zext_eq_ofNat n ▸ hctx, hleft, hframe⟩
    exact ⟨haborted (sqRun_at h _), haborted (sqRun_at h _)⟩

section Eret

variable {s : State} {c k : Nat} {x : Ctx} {g : Pred} (h : SqAt s c k x g [])
include h

theorem exec_eret_valid (hi : x.inh = true) (hv : s.validTarget c x x.epc.toNat = true) :
    exec (.eret g) s = ctxResult s c k { x with inh := false, chkpt := false, pc := x.epc } := by
  have hleave : s.leaveHandler c k x.epc = s.setCtx c k { x with inh := false, chkpt := false, pc := x.epc } := State.updCtx_of_some h.ctx _
  exact (sqRun_at h _).trans (congrArg _ (by rw [hi, hv, hleave]; rfl))

theorem exec_eret_invalid (hi : x.inh = true) (hv : s.validTarget c x x.epc.toNat = false) :
    exec (.eret g) s = .next (s.trap c k ILLOP (zext x.epc)) := (sqRun_at h _).trans (congrArg _ (by rw [hi, hv]; rfl))

theorem exec_eret_outside (hi : x.inh = false) : exec (.eret g) s = .next (s.trap c k ILLOP 0) :=
  (sqRun_at h _).trans (congrArg _ (by rw [hi]; rfl))

end Eret

/-- Settles O7: inside the handler an ERET to a bad offset cannot enter it again, so its trap aborts. -/
theorem returnFromHandler : Obligations.ReturnFromHandler := by
  unfold Obligations.ReturnFromHandler
  refine fun s c k x g h => ⟨fun hi hlt => ?_, fun hi hle => ?_, fun hh => ?_⟩
  · exact exec_eret_valid h hi ((s.validTarget_iff c x _).mpr ⟨Int.natCast_nonneg _, Int.ofNat_lt.mpr hlt⟩)
  · refine ⟨_, exec_eret_invalid h hi (State.validTarget_eq_false (.inr (Int.ofNat_le.mpr hle))), ?_⟩
    rw [State.trap_of_some h.ctx, State.takeTrap_unready h.ctx (.inl hi)]
    exact (State.abort_aborted h.ctx h.life _).ctx
  · exact ⟨_, (exec_eret_outside h hh.1).trans (congrArg _ (State.trap_ready h.ctx hh ..)), rfl, rfl, rfl, rfl, rfl, rfl⟩

/-! ## Saving a context (R464, R465) -/

/-- A task is found again after a change that keeps what it is found by. -/
theorem State.task?_updTask {s : State} {f : Task → Task} (hf : ∀ t, (f t).part = t.part ∧ (f t).tid = t.tid) (p : Nat) (tid : Word) :
    (s.updTask p tid f).task? p tid = (s.task? p tid).map f := by
  simp only [State.task?, State.updTask]
  induction s.tasks with
  | nil => rfl
  | cons t l ih =>
    obtain ⟨hpart, htid⟩ := hf t
    by_cases h : (t.part == p && t.tid == tid) = true
    · simp only [List.map_cons, List.find?_cons, h, hpart, htid, if_true, Option.map_some]
    · simp only [List.map_cons, List.find?_cons, h, Bool.false_eq_true, if_false, ih]

/-- An image that keeps a context's program: its offset, registers and predicates, and where it was saved. -/
structure Image.Keeps (i : Image) (x : Ctx) (c k : Nat) : Prop where
  role : i.role = x.role
  pc : i.ctx.pc = x.pc
  a : i.ctx.a = x.a
  p : i.ctx.p = x.p
  fromCore : i.fromCore = c
  fromSlot : i.fromSlot = k

/-- A save changes the context's task, which gets its next state and an image, and then drops the context. -/
theorem State.saveCtx_of_some {s : State} {c k : Nat} {x : Ctx} (hx : s.ctx? c k = some x) (st : TState) : ∃ f h,
    s.saveCtx c k st = ((s.fresh.2.updTask x.part x.tid f).updCore c h).dropCtx c k true ∧
    ∀ t, (f t).part = t.part ∧ (f t).tid = t.tid ∧ (f t).st = st ∧ ∃ i ∈ (f t).images, i.Keeps x c k := by
  simp only [State.saveCtx, hx]
  exact ⟨_, _, rfl, fun t => ⟨rfl, rfl, rfl, _, List.mem_append_right _ (List.mem_singleton_self _), rfl, rfl, rfl, rfl, rfl, rfl⟩⟩

theorem State.dropCtx_tasks (s : State) (c k : Nat) (keep : Bool) : (s.dropCtx c k keep).tasks = s.tasks := by
  unfold State.dropCtx
  split <;> rfl

theorem State.ctx?_dropCtx (s : State) (c k : Nat) (keep : Bool) : (s.dropCtx c k keep).ctx? c k = none := by
  unfold State.dropCtx
  split
  case h_1 h => exact h
  case h_2 => simp [State.ctx?, Tab.find_del]

theorem State.ctx?_saveCtx {s : State} {c k : Nat} {x : Ctx} (hx : s.ctx? c k = some x) (st : TState) : (s.saveCtx c k st).ctx? c k = none := by
  obtain ⟨f, h, heq, -⟩ := State.saveCtx_of_some hx st
  rw [heq, State.ctx?_dropCtx]

theorem State.task?_saveCtx {s : State} {c k : Nat} {x : Ctx} {t : Task} (hx : s.ctx? c k = some x) (ht : s.task? x.part x.tid = some t)
    (st : TState) : ∃ w, (s.saveCtx c k st).task? x.part x.tid = some w ∧ w.st = st ∧ ∃ i ∈ w.images, i.Keeps x c k := by
  obtain ⟨f, h, heq, hf⟩ := State.saveCtx_of_some hx st
  obtain ⟨-, -, hst, himage⟩ := hf t
  refine ⟨f t, ?_, hst, himage⟩
  have htasks : (s.saveCtx c k st).tasks = (s.fresh.2.updTask x.part x.tid f).tasks := by rw [heq, State.dropCtx_tasks]; rfl
  have hfind : s.fresh.2.task? x.part x.tid = some t := ht
  calc (s.saveCtx c k st).task? x.part x.tid
      = (s.fresh.2.updTask x.part x.tid f).task? x.part x.tid := by rw [State.task?, htasks]; rfl
    _ = some (f t) := by rw [State.task?_updTask (fun t => ⟨(hf t).1, (hf t).2.1⟩), hfind]; rfl

/-! ## System words (R188, R191 to R193) -/

/-- Is there a ready task that a YIELD of a task of priority pri gives way to? -/
def State.yieldsTo (s : State) (c pri : Nat) : Bool :=
  s.tasks.any fun u => u.st == .ready && (s.part u.part).quiesce.isNone && s.eligible c u && pri ≤ s.effPri u

section System

variable {s : State} {c k : Nat} {x : Ctx} {g : Pred} (h : SqAt s c k x g [])
include h

theorem exec_fence_passes {m : BitVec 16}
    (hm : m = 0 ∨ ∀ o ∈ x.loads ++ x.stores, ∀ cls, o.cls = some cls → o.done = false → m.getLsbD cls = false) (sc : Scope) :
    exec (.fence m sc g) s = ctxResult s c k x.step := by
  refine (sqRun_at h _).trans (congrArg _ (if_pos (List.all_eq_true.mpr fun o ho => ?_)))
  obtain ⟨hmem, hopen⟩ := List.mem_filter.mp ho
  obtain ⟨hcls, hdone⟩ := Bool.and_eq_true_iff.mp hopen
  obtain ⟨cls, hcls⟩ := Option.isSome_iff_exists.mp hcls
  rcases hm with rfl | hm
  · simp
  · simp [hcls, hm o hmem cls hcls (by simpa using hdone)]

/-- HALT ends the program; the context stays and its core is free for another. -/
theorem exec_halt : ∃ t, exec (.halt g) s = .next t ∧ t.ctx? c k = some { x with pc := x.pc + 1, life := .halted } ∧
    (t.core c).active ≠ some k ∧ { t with cores := s.cores } = s := by
  refine ⟨_, sqRun_at h _, ?_, ?_, rfl⟩
  · rw [State.ctx?_updCore _ _ _ _ _ rfl, State.ctx?_setCtx_self]
    rfl
  · rw [State.core_updCore_self]
    exact left_ne_some _ k

theorem exec_yield {t : Task} (ht : s.task? x.part x.tid = some t) : exec (.yield g) s = .next (
    if recGang t.record ≠ 0 || x.inline || x.inh || !s.yieldsTo c (s.effPri t) then s.setCtx c k x.step
    else if s.canSave c k then (s.setCtx c k x.step).preempt c k else s) := by
  refine (sqRun_at h _).trans (congrArg _ ?_)
  simp only [ht]
  rfl

theorem exec_yield_keeps {t : Task} (ht : s.task? x.part x.tid = some t)
    (hn : recGang t.record ≠ 0 ∨ x.inline = true ∨ x.inh = true ∨ ∀ u ∈ s.tasks, u.st = .ready → s.effPri u < s.effPri t) :
    exec (.yield g) s = ctxResult s c k x.step := by
  refine (exec_yield h ht).trans (congrArg _ (if_pos ?_))
  have hnone : (∀ u ∈ s.tasks, u.st = .ready → s.effPri u < s.effPri t) → s.yieldsTo c (s.effPri t) = false := by
    intro hlow
    refine List.any_eq_false.mpr fun u hu hall => ?_
    simp only [Bool.and_eq_true, beq_iff_eq, decide_eq_true_eq] at hall
    exact absurd (hlow u hu hall.1.1.1) (Nat.not_lt.mpr hall.2)
  rcases hn with hn | hn | hn | hn
  · simp [hn]
  · simp [hn]
  · simp [hn]
  · simp [hnone hn]

theorem exec_yield_preempts {t u : Task} (ht : s.task? x.part x.tid = some t) (hgang : recGang t.record = 0) (hinline : x.inline = false)
    (hinh : x.inh = false) (hsave : s.canSave c k = true) (hu : u ∈ s.tasks) (hready : u.st = .ready)
    (hquiet : (s.part u.part).quiesce = none) (helig : s.eligible c u = true) (hpri : s.effPri t ≤ s.effPri u) :
    exec (.yield g) s = .next ((s.setCtx c k x.step).preempt c k) := by
  have hyields : s.yieldsTo c (s.effPri t) = true := List.any_eq_true.mpr ⟨u, hu, by simp [hready, hquiet, helig, hpri]⟩
  rw [exec_yield h ht, if_neg (by simp [hgang, hinline, hinh, hyields]), if_pos hsave]

end System

/-- Settles O8: a YIELD that gives up its core saves the context after its word. -/
theorem systemWordsAndYield : Obligations.SystemWordsAndYield := by
  unfold Obligations.SystemWordsAndYield
  refine ⟨fun s c k x g h => ⟨sqRun_at h _, exec_halt h, fun m sc hm => exec_fence_passes h hm sc, fun t ht hn => exec_yield_keeps h ht hn⟩,
    fun s c k x g t u h ht hgang hinline hinh hsave hu hready hquiet helig hpri => ?_⟩
  have hstep : (s.setCtx c k x.step).ctx? c k = some x.step := State.ctx?_setCtx_self ..
  obtain ⟨w, hw, hst, i, hi, hkeeps⟩ := State.task?_saveCtx (t := t) hstep ht .ready
  refine ⟨_, exec_yield_preempts h ht hgang hinline hinh hsave hu hready hquiet helig hpri, ?_, w, hw, hst, i, hi, hkeeps.role, hkeeps.pc, hkeeps.a,
    hkeeps.p, hkeeps.fromCore, hkeeps.fromSlot⟩
  rw [State.preempt, State.countPerf, State.ctx?_updCore _ _ _ _ _ rfl, State.ctx?_saveCtx hstep]

/-! ## The fields of control registers (R165 to R171, R430, R440) -/

/-- A field below a number is added to it. -/
theorem ofNat_append (m a : Nat) {n : Nat} (v : BitVec n) : BitVec.ofNat m a ++ v = BitVec.ofNat (m + n) (a * 2 ^ n + v.toNat) := by
  have hmod : (a * 2 ^ n + v.toNat) % 2 ^ n = v.toNat := by rw [Nat.mul_add_mod_self_right, Nat.mod_eq_of_lt v.isLt]
  have hdiv : (a * 2 ^ n + v.toNat) / 2 ^ n = a := by
    rw [Nat.mul_comm, Nat.mul_add_div (Nat.two_pow_pos n), Nat.div_eq_of_lt v.isLt, Nat.add_zero]
  apply BitVec.eq_of_toNat_eq
  rw [BitVec.toNat_append, BitVec.toNat_ofNat, BitVec.toNat_ofNat, ← Nat.shiftLeft_add_eq_or_of_lt v.isLt, Nat.shiftLeft_eq, Nat.add_comm m n,
    Nat.pow_add, Nat.mod_mul, hmod, hdiv, Nat.mul_comm, Nat.add_comm]

theorem ofNat_append_ofNat {n b : Nat} (hb : b < 2 ^ n) (m a : Nat) :
    BitVec.ofNat m a ++ BitVec.ofNat n b = BitVec.ofNat (m + n) (a * 2 ^ n + b) := by
  rw [ofNat_append, BitVec.toNat_ofNat, Nat.mod_eq_of_lt hb]

theorem ofNat_append_ofBool (m a : Nat) (b : Bool) : BitVec.ofNat m a ++ BitVec.ofBool b = BitVec.ofNat (m + 1) (a * 2 + one b) := by
  rw [ofNat_append]
  cases b <;> rfl

/-- A register of fewer bits reads with zeros above it. -/
theorem setWidth_eq_zero_append (m : Nat) {n : Nat} (v : BitVec n) : v.setWidth (m + n) = BitVec.ofNat m 0 ++ v := by
  rw [ofNat_append, Nat.zero_mul, Nat.zero_add, BitVec.ofNat_toNat]

theorem State.effPriGo_le (s : State) (n : Nat) (t : Task) : s.effPriGo n t ≤ 15 := by
  induction n generalizing t with
  | zero => exact Nat.min_le_left ..
  | succ n ih =>
    have hfold : ∀ (l : List Task) (m : Nat), m ≤ 15 → l.foldl (fun m w => max m (s.effPriGo n w)) m ≤ 15 := by
      intro l
      induction l with
      | nil => exact fun _ hm => hm
      | cons w l ihl => exact fun m hm => ihl _ (Nat.max_le.mpr ⟨hm, ih w⟩)
    exact hfold _ _ (Nat.min_le_left ..)

section Fields

variable (s : State) (x : Ctx)

theorem ctxid_fields {p c k : Nat} (hp : p < 8) (hc : c < 256) (hk : k < 16) :
    BitVec.ofNat 64 (ctxid p c k) = BitVec.ofNat 49 0 ++ BitVec.ofNat 3 p ++ BitVec.ofNat 8 c ++ BitVec.ofNat 4 k := by
  rw [ofNat_append_ofNat hp, ofNat_append_ofNat hc, ofNat_append_ofNat hk]
  exact congrArg _ (by rw [ctxid]; omega)

theorem prioWord_fields {t : Task} (ht : s.task? x.part x.tid = some t) : s.prioWord x =
    BitVec.ofNat 52 0 ++ BitVec.ofNat 4 (recPri x.record) ++ BitVec.ofNat 4 (min 15 t.aged) ++ BitVec.ofNat 4 (s.effPri t) := by
  have hpri : recPri x.record < 2 ^ 4 := BitVec.isLt _
  have haged : min 15 t.aged < 2 ^ 4 := Nat.lt_succ_of_le (Nat.min_le_left ..)
  have heff : s.effPri t < 2 ^ 4 := Nat.lt_succ_of_le (s.effPriGo_le 16 t)
  rw [ofNat_append_ofNat hpri, ofNat_append_ofNat haged, ofNat_append_ofNat heff, State.prioWord, ht]
  exact congrArg (BitVec.ofNat 64) (by omega)

theorem sstWord_fields :
    sstWord x = BitVec.ofNat 60 0 ++ BitVec.ofBool x.inline ++ BitVec.ofBool x.recomp ++ BitVec.ofBool x.inh ++ BitVec.ofBool x.sys := by
  simp only [ofNat_append_ofBool]
  exact congrArg (BitVec.ofNat 64) (by omega)

theorem oscWord_fields (hl : x.loads.length < 2 ^ 14) (hs : x.stores.length < 2 ^ 14) (ht : x.tiles.length < 2 ^ 12) (hc : s.copies x < 2 ^ 7) :
    s.oscWord x = BitVec.ofNat 8 0 ++ BitVec.ofNat 14 x.loads.length ++ BitVec.ofNat 14 x.stores.length ++ BitVec.ofNat 12 x.tiles.length ++
      BitVec.ofNat 9 0 ++ BitVec.ofNat 7 (s.copies x) := by
  rw [ofNat_append_ofNat hl, ofNat_append_ofNat hs, ofNat_append_ofNat ht, ofNat_append_ofNat (Nat.two_pow_pos 9), ofNat_append_ofNat hc,
    State.oscWord]
  exact congrArg (BitVec.ofNat 64) (by omega)

theorem detmWord_fields (hc : x.creg < 2 ^ 12) : detmWord x =
    BitVec.ofNat 19 0 ++ BitVec.ofBool x.det ++ BitVec.ofNat 12 x.creg ++ BitVec.ofBool x.ctl ++ BitVec.ofNat 25 0 ++ x.kern := by
  rw [ofNat_append_ofBool, ofNat_append_ofNat hc, ofNat_append_ofBool, ofNat_append_ofNat (Nat.two_pow_pos 25), ofNat_append, detmWord]
  exact congrArg (BitVec.ofNat 64) (by omega)

/-- The fields of SLFW above POS start at bit 15. -/
theorem slfw_low {c : Nat} (hc : c < 256) (p : Nat) : (s.slfw c p).toNat % 2 ^ 14 = (s.die (c / 64)).pos.toNat := by
  have hdie : c / 64 % 4 = c / 64 := by omega
  have hpos : (s.die (c / 64)).pos.toNat < 2 ^ 14 := BitVec.isLt _
  rw [State.slfw, BitVec.toNat_ofNat, dieOf, hdie]
  split <;> omega

end Fields

theorem exec_rdc {s : State} {c k : Nat} {x : Ctx} {g : Pred} (h : SqAt s c k x g []) (d : Reg) {cr : CReg} {v : Word} (hv : s.ctrl c k x cr = v) :
    exec (.rdc d cr g) s = regResult s c k x d v := hv ▸ sqRun_at h _

/-- Settles O9: the registers that are packed by sums are their fields side by side, the others are zeros above the field. -/
theorem controlRegisterReads : Obligations.ControlRegisterReads := by
  unfold Obligations.ControlRegisterReads
  intro s c k x g d h hp hc hk reads
  have hreads : ∀ {cr : CReg} {v : Word}, s.ctrl c k x cr = v → reads cr v := fun hv => exec_rdc h d hv
  exact ⟨hreads rfl, hreads (ctxid_fields hp hc hk), fun t ht => hreads (prioWord_fields s x ht), hreads (sstWord_fields x), hreads rfl,
    hreads (setWidth_eq_zero_append 32 x.epc), hreads (setWidth_eq_zero_append 32 x.trapc), hreads rfl, hreads rfl,
    hreads (setWidth_eq_zero_append 60 x.ocls), hreads rfl, hreads (setWidth_eq_zero_append 58 x.vwb), hreads (setWidth_eq_zero_append 32 x.rstrm),
    fun _ => hreads (ofNat_append 48 x.held x.win).symm, hreads (setWidth_eq_zero_append 32 x.me.mscnt),
    hreads (setWidth_eq_zero_append 32 x.me.mvar), hreads rfl, fun hl hs ht hcopies => hreads (oscWord_fields s x hl hs ht hcopies),
    fun hcreg => hreads (detmWord_fields x hcreg), hreads (setWidth_eq_zero_append 32 x.phase), _, hreads rfl, slfw_low s hc x.part⟩

/-! ## Writable fields (R165 to R171, R190) -/

theorem ofBool_getLsbD_eq_extract {w : Nat} (v : BitVec w) (i : Nat) : BitVec.ofBool (v.getLsbD i) = v.extractLsb' i 1 := by
  apply BitVec.eq_of_getLsbD_eq
  intro j hj
  obtain rfl : j = 0 := Nat.lt_one_iff.mp hj
  simp

/-- A mask of two parts acts on the two parts of a field. -/
theorem extract_and_append {w a b : Nat} (v : BitVec w) (lo : Nat) (m : BitVec a) (n : BitVec b) :
    v.extractLsb' lo (a + b) &&& (m ++ n) = (v.extractLsb' (lo + b) a &&& m) ++ (v.extractLsb' lo b &&& n) := by
  rw [← BitVec.extractLsb'_append_extractLsb'_eq_extractLsb' rfl, BitVec.and_append]

theorem and_tvecMask (v : Word) : v &&& tvecMask = BitVec.ofBool (v.getLsbD 63) ++ BitVec.ofNat 31 0 ++ v.extractLsb' 0 32 := by
  calc v &&& tvecMask
      = v.extractLsb' 0 (1 + 31 + 32) &&& (BitVec.allOnes 1 ++ BitVec.ofNat 31 0 ++ BitVec.allOnes 32) :=
        congr (congrArg HAnd.hAnd BitVec.extractLsb'_eq_self.symm) rfl
    _ = _ := by simp only [extract_and_append, BitVec.and_allOnes, BitVec.and_zero, ofBool_getLsbD_eq_extract]

theorem and_trapcMask (v : Word) : v.setWidth 32 &&& trapcMask =
    BitVec.ofBool (v.getLsbD 31) ++ BitVec.ofBool (v.getLsbD 30) ++ BitVec.ofNat 14 0 ++ v.extractLsb' 0 16 := by
  calc v.setWidth 32 &&& trapcMask
      = v.extractLsb' 0 (1 + 1 + 14 + 16) &&& (BitVec.allOnes 1 ++ BitVec.allOnes 1 ++ BitVec.ofNat 14 0 ++ BitVec.allOnes 16) :=
        congr (congrArg HAnd.hAnd (BitVec.setWidth_eq_extractLsb' (by decide))) rfl
    _ = _ := by simp only [extract_and_append, BitVec.and_allOnes, BitVec.and_zero, ofBool_getLsbD_eq_extract]

theorem and_vshpMask (v : Word) : v &&& vshpMask = BitVec.ofNat 37 0 ++ v.extractLsb' 16 11 ++ BitVec.ofNat 12 0 ++ v.extractLsb' 0 4 := by
  calc v &&& vshpMask
      = v.extractLsb' 0 (37 + 11 + 12 + 4) &&& (BitVec.ofNat 37 0 ++ BitVec.allOnes 11 ++ BitVec.ofNat 12 0 ++ BitVec.allOnes 4) :=
        congr (congrArg HAnd.hAnd BitVec.extractLsb'_eq_self.symm) rfl
    _ = _ := by simp only [extract_and_append, BitVec.and_allOnes, BitVec.and_zero]

/-- The window of ACCPART has no slice that is not held. -/
theorem getLsbD_setWin (x : Ctx) (v : Word) {i : Nat} (hi : i < 16) :
    (x.setWin (v.setWidth 16)).win.getLsbD i = (v.getLsbD i && decide (i < x.held)) := by
  simp only [Ctx.setWin, BitVec.getLsbD_and, BitVec.getLsbD_setWidth, BitVec.getLsbD_ofNat, Nat.testBit_two_pow_sub_one, hi, decide_true,
    Bool.true_and]

section Wrc

variable {s : State} {c k : Nat} {x : Ctx} {g : Pred} {a : Reg} (h : SqAt s c k x g [a])
include h

theorem exec_wrc_vwb (hsys : x.sys = true) (hw : s.windowOf c x.part ((x.reg a).extractLsb' 0 6).toNat = true) :
    exec (.wrc .vwb a g) s = ctxResult s c k (x.step.writeCtrl (x.reg a) .vwb) := by
  have hsystem : ¬ (!x.sys) = true := by simp [hsys]
  exact (sqRun_at h _).trans (congrArg _ ((if_neg hsystem).trans (if_pos hw)))

theorem exec_wrc_detm (hsys : x.sys = true) : exec (.wrc .detm a g) s = ctxResult s c k (x.step.writeCtrl (x.reg a) .detm) :=
  (sqRun_at h _).trans (congrArg _ (if_pos hsys))

theorem exec_wrc_accpart (hidle : s.accIdle c k x = true) : exec (.wrc .accpart a g) s = ctxResult s c k (x.step.setWin ((x.reg a).setWidth 16)) :=
  (sqRun_at h _).trans (congrArg _ (if_pos hidle))

/-- VWB and DETM are the system level's. -/
theorem exec_wrc_user (hsys : x.sys = false) {cr : CReg} (hcr : cr = .vwb ∨ cr = .detm) :
    exec (.wrc cr a g) s = .next (s.trap c k PRIV (zext cr.num)) := by
  rcases hcr with rfl | rfl
  · exact (sqRun_at h _).trans (congrArg _ (if_pos (by rw [hsys]; rfl)))
  · exact (sqRun_at h _).trans (congrArg _ (if_neg (by rw [hsys]; exact Bool.false_ne_true)))

end Wrc

/-- Settles O10: the masks of TVEC, TRAPC and VSHP keep their writable fields, and the checks of VWB, DETM and ACCPART decide the rest. -/
theorem controlRegisterWrites : Obligations.ControlRegisterWrites := by
  unfold Obligations.ControlRegisterWrites
  intro s c k x g a h v writes bit
  have hfield : ∀ {n : Nat}, n ≤ 64 → v.setWidth n = v.extractLsb' 0 n := fun hn => BitVec.setWidth_eq_extractLsb' hn
  refine ⟨?tvec, ?epc, ?trapc, sqRun_at h _, sqRun_at h _, ?ocls, ?vshp, fun hsys hw => ?vwb, fun hsys => ?detm, fun hidle => ?accpart, ?readOnly,
    fun hsys hh cr hcr => ?user⟩
  case tvec => exact (sqRun_at h _).trans (by rw [← and_tvecMask]; rfl)
  case epc => exact (sqRun_at h _).trans (by rw [← hfield (by decide)]; rfl)
  case trapc => exact (sqRun_at h _).trans (by rw [← and_trapcMask]; rfl)
  case ocls => exact (sqRun_at h _).trans (by rw [← hfield (by decide)]; rfl)
  case vshp => exact (sqRun_at h _).trans (by rw [← and_vshpMask]; rfl)
  case vwb => exact (exec_wrc_vwb h hsys hw).trans (by rw [← hfield (by decide)]; rfl)
  case detm => exact (exec_wrc_detm h hsys).trans (by rw [← hfield (n := 6) (by decide)]; rfl)
  case accpart => exact ⟨_, exec_wrc_accpart h hidle, fun i hi => getLsbD_setWin x v hi⟩
  case readOnly =>
    simp only [List.forall_mem_cons]
    exact ⟨sqRun_at h _, sqRun_at h _, sqRun_at h _, sqRun_at h _, sqRun_at h _, sqRun_at h _, sqRun_at h _, sqRun_at h _, sqRun_at h _,
      sqRun_at h _, sqRun_at h _, List.forall_mem_nil _⟩
  case user =>
    have hpair : cr = .vwb ∨ cr = .detm := (List.mem_cons.mp hcr).imp_right List.mem_singleton.mp
    have hvalue : zext cr.num = BitVec.ofNat 64 (if cr = .vwb then 0x011 else 0x022) := by rcases hpair with rfl | rfl <;> rfl
    exact ⟨_, (exec_wrc_user h hsys hpair).trans (congrArg _ (State.trap_ready h.ctx hh ..)), rfl, rfl, hvalue, rfl, rfl, rfl, rfl, rfl⟩

end Sys2Proof.Machine
